-- ==== Sys2Proof/Word.lean ====
section
/-! DEFINITION. Words, indexes and frames: the plain types every other file uses (00_scope.md R7, R12; 20_memory.md
R63, R65). Their arithmetic is that of the library's bit vectors and of `Nat`. -/

namespace Sys2Proof

/-- A *word* of the spec: 8 bits (R12). -/
abbrev Byte := BitVec 8

/-- `u32`, a 32-bit unsigned number; `a -32 b` is its subtraction (R12). -/
abbrev U32 := BitVec 32

/-- One of the `N_CTX = 2` execution contexts (R7). -/
abbrev Ctx := Fin 2

/-- Bank 0 or 1 of a family (R7). -/
abbrev Bank := Fin 2

/-- A channel of a bank, 0..7, numbered by its bit (R16). -/
abbrev Chan := Fin 8

/-- A pin 1..16 (R7), held as its number less one. -/
abbrev Pin := Fin 16

/-- An index 0..19 of the subscription table: pin `i + 1`, auxiliary pins being 17..20 (R41). -/
abbrev SubIx := Fin 20

/-- The four chip-select lines (R63). -/
inductive ChipSelect
  | in0 | in1 | out0 | out1
  deriving DecidableEq, Repr, Inhabited

/-- Three words in wire order: `word1, word0, check` going out, `r0, r1, r2` coming in (R65, R80). -/
structure Frame where
  w1 : Byte
  w0 : Byte
  chk : Byte
  deriving DecidableEq, Repr, Inhabited

/-- The frame as the 24-bit integer with `word1` most significant (R65). -/
def Frame.bits (f : Frame) : BitVec 24 := f.w1 ++ f.w0 ++ f.chk

/-- The frame whose 24-bit integer is `v` (R65). -/
def Frame.ofBits (v : BitVec 24) : Frame :=
  { w1 := v.extractLsb' 16 8, w0 := v.extractLsb' 8 8, chk := v.extractLsb' 0 8 }

end Sys2Proof
end

