-- ==== Sys2Proof/Config.lean ====
section
/-! DEFINITION. What is fixed for a run: the source's numeric constants (00_scope.md R8), the binding of the OPEN
parameters and reading switches (R9, R10), and the free values, opaque constants that stand for what the spec leaves
open (93_implementation_defined.md I2, I3, I5, I12 to I14, I16, I17, I19). -/

namespace Sys2Proof.Config

/-! ### R8: constants of the source (unaudited there, I1; log 13) -/

/-- `IN_CRC_SEED` -/
def inCrcSeed : BitVec 24 := 0x07#24
/-- `IN_CRC_POLY` -/
def inCrcPoly : BitVec 6 := 0x35#6
/-- `IN_CRC_STEPS` -/
def inCrcSteps : Nat := 19
/-- `IN_WRITE_FLAG` -/
def inWriteFlag : Byte := 0x80#8
/-- `OUT_CRC_SEED` -/
def outCrcSeed : BitVec 7 := 0x7F#7
/-- `OUT_CRC_POLY` -/
def outCrcPoly : Byte := 0xB7#8
/-- `OUT_CRC_FINAL` -/
def outCrcFinal : Byte := 0x80#8
/-- `OUT_CLEAR_FLAG` -/
def outClearFlag : Byte := 0x80#8
/-- `ATTEMPTS` -/
def attempts : Nat := 3
/-- `PHASE_GATE_MS` -/
def phaseGateMs : U32 := 20#32
/-- `COOLDOWN_MS` -/
def cooldownMs : U32 := 10000#32
/-- `F1_ALRMT1_BIT` -/
def f1Alrmt1Bit : Chan := 3
/-- `F1_ALRMT2_BIT` -/
def f1Alrmt2Bit : Chan := 4
/-- `F1_FAULT2_BIT` -/
def f1Fault2Bit : Chan := 5
/-- `PWM_US_PER_S` -/
def pwmUsPerS : Nat := 1000000
/-- `DUTY_FULL` -/
def dutyFull : Nat := 65535

end Sys2Proof.Config

namespace Sys2Proof

/-- The switch `INIT_STABLE` (R10). -/
inductive InitStable
  | unknown | sample
  deriving DecidableEq, Repr, Inhabited

/-- The binding of a run: every OPEN parameter of R9 (but `STATUS_FN`, see Machine/State.lean) and every reading
switch of R10. "Not state; arguments of the step relation, fixed for a run" (R53). The fields are wider than R9's types
where R11 names a check, so that a bad binding can be written down and refused. -/
structure Binding where
  inRegWb : Byte
  inRegFault1 : Byte
  inRegFault2 : Byte
  /-- `IN_REG_CFG(c)` -/
  inRegCfg : Vector Byte 8
  /-- `IN_CFG_DATA(0)` -/
  inCfgDataOff : Byte
  /-- `IN_CFG_DATA(1)` -/
  inCfgDataOn : Byte
  f2OtBit : Chan
  outCmdSetOut : Byte
  outCmdSetPp : Byte
  outCmdSetOlen : Byte
  outCmdSetJoin : Byte
  outCmdReadReg : Byte
  outRtW1 : Byte
  outRtW0 : Byte
  /-- the "precomputed CRC" of the realtime-status frame (R84) -/
  outRtCrc : BitVec 7
  outRegPp : Byte
  outRegOlen : Byte
  outRegJoin : Byte
  outRegOl : Byte
  outRegOv : Byte
  outRegTh : Byte
  /-- `JOIN_SLOTS` as a set: bit i is slot i of a group of four -/
  joinSlots : BitVec 4
  /-- `OVP_RESET(k)` -/
  ovpReset : Vector Bool 2
  /-- `SPI_CLOCK_HZ`: no logical effect (I19) -/
  spiClockHz : Nat
  /-- `SPI_MODE`: no logical effect (I19) -/
  spiMode : Nat
  /-- `IN_RX_CRC_MSBS` -/
  inRxCrcMsbs : Bool
  /-- `IN_ECHO_INPUT_POS` -/
  inEchoInputPos : Fin 2
  /-- `OUT_CHECK_PHASE1` -/
  outCheckPhase1 : Bool
  /-- `OUT_READ_VALUE_POS` -/
  outReadValuePos : Fin 2
  /-- `INIT_STABLE` -/
  initStable : InitStable
  deriving DecidableEq, Repr, Inhabited

/-- The two-element subsets of {0, 1, 2, 3}: what `JOIN_SLOTS` may be (R9). -/
inductive JoinPair
  | s01 | s02 | s03 | s12 | s13 | s23
  deriving DecidableEq, Repr, Inhabited

/-- The set of a pair, bit i for slot i. -/
def JoinPair.slots : JoinPair → BitVec 4
  | .s01 => 0b0011#4
  | .s02 => 0b0101#4
  | .s03 => 0b1001#4
  | .s12 => 0b0110#4
  | .s13 => 0b1010#4
  | .s23 => 0b1100#4

namespace Config

/-! ### R9: the OPEN parameters of the run that starts at reset

Each is opaque: nothing can be proved of its value but its type, which is R9's (log 8). -/

opaque inRegWb : BitVec 7
opaque inRegFault1 : BitVec 7
opaque inRegFault2 : BitVec 7
opaque inRegCfg : Chan → BitVec 7
opaque inCfgData : Bool → Byte
opaque f2OtBit : Chan
opaque outCmdSetOut : BitVec 7
opaque outCmdSetPp : BitVec 7
opaque outCmdSetOlen : BitVec 7
opaque outCmdSetJoin : BitVec 7
opaque outCmdReadReg : BitVec 7
opaque outRtW1 : Byte
opaque outRtW0 : Byte
opaque outRegPp : Byte
opaque outRegOlen : Byte
opaque outRegJoin : Byte
opaque outRegOl : Byte
opaque outRegOv : Byte
opaque outRegTh : Byte
opaque joinPair : JoinPair
opaque ovpReset : Bank → Bool
opaque spiClockHz : Nat
opaque spiMode : Nat

/-! ### Free values of the draws

The environment's answer to the n-th draw of a kind when `State.env` holds no pending answer for it. -/

/-- The n-th echo (R110, I2): three words, unconstrained (log 4). -/
opaque freeEcho : Nat → Frame

/-- How far the millisecond time base moved before its n-th reading (R312, I13; log 5). -/
opaque freeMsStep : Nat → Nat

/-- How far the microsecond time base moved before its n-th reading (R312, I13; log 5). -/
opaque freeUsStep : Nat → Nat

/-- The level of auxiliary line i at the n-th sample (R258, I12; log 6). -/
opaque freeAux : Nat → Fin 4 → Bool

/-- The context that moves at the n-th contended step (R70, D56; log 7). -/
opaque freeTurn : Nat → Ctx

end Config
end Sys2Proof
end

