-- ==== Sys2Proof/Machine/Flags.lean ====
section
/-! DEFINITION. Every check the spec computes: the bit helpers, CRC5 and CRC7, the frames with their check words, the
echo checks, the elapsed-time comparisons, and the check of a binding. -/

namespace Sys2Proof.Machine

/-! ### Bits of a bank word (R12) -/

/-- `v[i]`, the bit of channel `c`. -/
def bit (v : Byte) (c : Chan) : Bool := v.getLsbD c.val

/-- `setbit(v, i, b)`. -/
def setBit (v : Byte) (c : Chan) (b : Bool) : Byte :=
  if b then v ||| (1#8 <<< c.val) else v &&& ~~~(1#8 <<< c.val)

/-- A one-bit number. -/
def boolBit (b : Bool) : BitVec 1 := if b then 1#1 else 0#1

/-! ### The 5-bit CRC (R130) -/

/-- One step: shift the 6-bit register left, inject the next payload bit, reduce when bit 5 is set. -/
def crc5Step (reg : BitVec 6) (b : Bool) : BitVec 6 :=
  let r := (reg.setWidth 5 ++ boolBit b : BitVec 6)
  if r.getLsbD 5 then r ^^^ Config.inCrcPoly else r

/-- The 24-bit integer of the three words with its low five bits replaced by the seed. -/
def crc5Payload (d2 d1 d0 : Byte) : BitVec 24 :=
  ((d2 ++ d1 ++ d0 : BitVec 24) &&& 0xFFFFE0#24) ||| Config.inCrcSeed

/-- `CRC5(d2, d1, d0)`: the register starts at bits 23..19 and takes bits 18..0 (R130). -/
def crc5 (d2 d1 d0 : Byte) : BitVec 5 :=
  let v := crc5Payload d2 d1 d0
  let start : BitVec 6 := (v.extractLsb' 19 5).setWidth 6
  let reg := (List.range Config.inCrcSteps).reverse.foldl (fun r i => crc5Step r (v.getLsbD i)) start
  reg.setWidth 5

/-! ### The 7-bit CRC (R150, R151) -/

/-- One bit of a fold: shift the accumulator left, reduce when the bit shifted out is 1, XOR the input bit into the low
bit. -/
def fold7Bit (acc : BitVec 7) (b : Bool) : BitVec 7 :=
  let t : BitVec 8 := acc ++ 0#1
  let t := if acc.getLsbD 6 then t ^^^ Config.outCrcPoly else t
  (t ^^^ (boolBit b).setWidth 8).setWidth 7

/-- `Fold7(acc, b)`, input bits from the top (R150). -/
def fold7 (acc : BitVec 7) (b : Byte) : BitVec 7 :=
  (List.range 8).reverse.foldl (fun a i => fold7Bit a (b.getLsbD i)) acc

/-- `CRC7(w1, w0)` (R151). -/
def crc7 (w1 w0 : Byte) : BitVec 7 :=
  fold7 (fold7 (fold7 Config.outCrcSeed w1) w0) Config.outCrcFinal

/-! ### Frames -/

/-- `InFrame(W, a, d)` (R132). -/
def inFrame (w : Bool) (a d : Byte) : Frame :=
  let word1 := if w then Config.inWriteFlag ||| a else a
  let word0 := if w then d else 0#8
  { w1 := word1, w0 := word0, chk := (crc5 word1 word0 0#8).setWidth 8 }

/-- `OutFrame(K, m, d)` (R153); the CRC covers word1 with its marker. -/
def outFrame (marker : Bool) (m d : Byte) : Frame :=
  let word1 := if marker then Config.outClearFlag ||| m else m
  { w1 := word1, w0 := d, chk := (crc7 word1 d).setWidth 8 }

/-- The fixed realtime-status frame (R84, R157). -/
def rtFrame (b : Binding) : Frame :=
  { w1 := b.outRtW1, w0 := b.outRtW0, chk := b.outRtCrc.setWidth 8 }

/-! ### Echo checks -/

/-- `InValid(r0, r1, r2)` (R131). -/
def inValid (b : Binding) (e : Frame) : Bool :=
  let z := if b.inRxCrcMsbs then e.chk &&& 0xE0#8 else 0#8
  crc5 e.w1 e.w0 z == e.chk.setWidth 5

/-- `OutValid(r0, r1, r2)` (R152); `r2[7]` is ignored. -/
def outValid (e : Frame) : Bool := crc7 e.w1 e.w0 == e.chk.setWidth 7

/-- `r[i]` for i = 0, 1: the echoed data words. -/
def echoWord (e : Frame) (i : Fin 2) : Byte := if i = 0 then e.w1 else e.w0

/-- The input snapshot of an echo (R81, `IN_ECHO_INPUT_POS`). -/
def echoInputs (b : Binding) (e : Frame) : Byte := echoWord e b.inEchoInputPos

/-- The register value of an input echo (R81). -/
def echoInValue (b : Binding) (e : Frame) : Byte := echoWord e (1 - b.inEchoInputPos)

/-- The register value of an output read's echo (R85, `OUT_READ_VALUE_POS`). -/
def echoOutValue (b : Binding) (e : Frame) : Byte := echoWord e b.outReadValuePos

/-! ### Elapsed time (R12, R313) -/

/-- `now -32 t` -/
def elapsed (now t : U32) : U32 := now - t

/-- "reaches": `now -32 t >= limit`, unsigned. -/
def reached (now t limit : U32) : Bool := decide (limit ≤ elapsed now t)

/-- "exceeds": `now -32 t > limit`, unsigned. -/
def exceeded (now t limit : U32) : Bool := decide (limit < elapsed now t)

/-! ### The binding's own check (R11, R84; R317) -/

/-- `{v, below 0x80}` -/
def below80 (v : Byte) : Bool := !v.getLsbD 7

/-- `JOIN_SLOTS` has exactly two elements. -/
def twoSlots (s : BitVec 4) : Bool :=
  ((List.range 4).countP fun i => s.getLsbD i) == 2

/-- A binding that R11 and R84 allow; any other is `BadBinding`. -/
def bindingOk (b : Binding) : Bool :=
  below80 b.inRegWb && below80 b.inRegFault1 && below80 b.inRegFault2 &&
  b.inRegCfg.toList.all below80 &&
  below80 b.outCmdSetOut && below80 b.outCmdSetPp && below80 b.outCmdSetOlen &&
  below80 b.outCmdSetJoin && below80 b.outCmdReadReg &&
  twoSlots b.joinSlots &&
  b.outRtCrc == crc7 b.outRtW1 b.outRtW0

end Sys2Proof.Machine

namespace Sys2Proof.Config

/-- The binding of the run that starts at reset: the opaque OPEN parameters, the realtime CRC of R84, and the spec's
default for every reading switch (R10; log 8, 9). -/
def binding : Binding where
  inRegWb := inRegWb.setWidth 8
  inRegFault1 := inRegFault1.setWidth 8
  inRegFault2 := inRegFault2.setWidth 8
  inRegCfg := #v[(inRegCfg 0).setWidth 8, (inRegCfg 1).setWidth 8, (inRegCfg 2).setWidth 8,
    (inRegCfg 3).setWidth 8, (inRegCfg 4).setWidth 8, (inRegCfg 5).setWidth 8,
    (inRegCfg 6).setWidth 8, (inRegCfg 7).setWidth 8]
  inCfgDataOff := inCfgData false
  inCfgDataOn := inCfgData true
  f2OtBit := f2OtBit
  outCmdSetOut := outCmdSetOut.setWidth 8
  outCmdSetPp := outCmdSetPp.setWidth 8
  outCmdSetOlen := outCmdSetOlen.setWidth 8
  outCmdSetJoin := outCmdSetJoin.setWidth 8
  outCmdReadReg := outCmdReadReg.setWidth 8
  outRtW1 := outRtW1
  outRtW0 := outRtW0
  outRtCrc := Machine.crc7 outRtW1 outRtW0
  outRegPp := outRegPp
  outRegOlen := outRegOlen
  outRegJoin := outRegJoin
  outRegOl := outRegOl
  outRegOv := outRegOv
  outRegTh := outRegTh
  joinSlots := joinPair.slots
  ovpReset := #v[ovpReset 0, ovpReset 1]
  spiClockHz := spiClockHz
  spiMode := spiMode
  inRxCrcMsbs := true
  inEchoInputPos := 0
  outCheckPhase1 := true
  outReadValuePos := 1
  initStable := .unknown

end Sys2Proof.Config
end

