-- ==== Sys2Proof/Syntax.lean ====
section
/-! DEFINITION. The instructions: one constructor for each of the 30 rows of spec/opcode_table.json. -/

namespace Sys2Proof

/-- A host operation keeps the raw fields `A`, `B`, `C` of its head word and its operand words `X`, `Y` (30_encoding.md
R87, R89): R90 gives an illegal field value a meaning (`FAIL(ARG)`), so no field is lost or narrowed here.

An SPI row is the bus operation of its rule on the bank `k` of its chip select (R63); it keeps every bit of its frame
(R81 to R84) but those its row and the binding fix. -/
inductive Instr
  /-- `CONFIG p, md[, DET]` (0x01, R250): A pin, B mode, C det -/
  | config (a b c : Byte)
  /-- `JOIN p, ON|OFF` (0x02, R251): A pin, B en -/
  | join (a b c : Byte)
  /-- `DREAD p` (0x03, R252): A pin -/
  | dread (a b c : Byte)
  /-- `DWRITE p, v` (0x04, R253): A pin, B level -/
  | dwrite (a b c : Byte)
  /-- `TOGGLE p` (0x05, R254): A pin -/
  | toggle (a b c : Byte)
  /-- `CLEARFAULTS` (0x06, R256) -/
  | clearfaults (a b c : Byte)
  /-- `SUBSCRIBE p, interval, cb` (0x07, R257): A pin, X interval, Y callback -/
  | subscribe (a b c : Byte) (x y : U32)
  /-- `LINK p, q, lm, interval` (0x08, R259): A input pin, B output pin, C link mode, X interval -/
  | link (a b c : Byte) (x : U32)
  /-- `PWM p, f, d` (0x09, R260): A pin, X frequency, Y duty -/
  | pwm (a b c : Byte) (x y : U32)
  /-- `SETOVP k, en` (0x0A, R261): A bank, B en -/
  | setovp (a b c : Byte)
  /-- `SETLED v` (0x0B, R262): B level -/
  | setled (a b c : Byte)
  /-- `GETLED` (0x0C, R263) -/
  | getled (a b c : Byte)
  /-- `TICK` (0x0D, R264) -/
  | tick (a b c : Byte)
  /-- `GET_WB p` (0x10, R270) -/
  | getWb (a b c : Byte)
  /-- `GET_ALRMT1 p` (0x11, R271) -/
  | getAlrmt1 (a b c : Byte)
  /-- `GET_ALRMT2 p` (0x12, R272) -/
  | getAlrmt2 (a b c : Byte)
  /-- `GET_INOT p` (0x13, R273) -/
  | getInot (a b c : Byte)
  /-- `GET_OL p` (0x14, R274) -/
  | getOl (a b c : Byte)
  /-- `GET_OV p` (0x15, R275) -/
  | getOv (a b c : Byte)
  /-- `GET_OVLOCK p` (0x16, R276) -/
  | getOvlock (a b c : Byte)
  /-- `GET_TH p` (0x17, R277) -/
  | getTh (a b c : Byte)
  /-- `GET_THLOCK p` (0x18, R278) -/
  | getThlock (a b c : Byte)
  /-- `IN_READ` (R81, R133): register address, check field -/
  | inRead (k : Bank) (reg : BitVec 7) (crc : BitVec 5)
  /-- `IN_WRITE` (R81, R135): register address, data, check field -/
  | inWrite (k : Bank) (reg : BitVec 7) (d : Byte) (crc : BitVec 5)
  /-- `OUT_SET_OUT` (R82, R156): marker, data, check field -/
  | outSetOut (k : Bank) (clr : Bool) (d : Byte) (crc : BitVec 7)
  /-- `OUT_SET_PP` (R82, R158) -/
  | outSetPp (k : Bank) (clr : Bool) (d : Byte) (crc : BitVec 7)
  /-- `OUT_SET_OLEN` (R82, R158) -/
  | outSetOlen (k : Bank) (clr : Bool) (d : Byte) (crc : BitVec 7)
  /-- `OUT_SET_JOIN` (R82, R158) -/
  | outSetJoin (k : Bank) (clr : Bool) (d : Byte) (crc : BitVec 7)
  /-- `OUT_READ` (R83, R155): register address, check field -/
  | outRead (k : Bank) (reg : Byte) (crc : BitVec 7)
  /-- `OUT_RTSTAT` (R84, R157): every bit of its frame is fixed by the binding -/
  | outRtstat (k : Bank)
  deriving DecidableEq, Repr

end Sys2Proof
end

