-- ==== Sys2Proof/Machine/Operands.lean ====
section
/-! DEFINITION. Every operand form of the host operations (30_encoding.md R89 to R91), the legality of a request's fields
(R90), the pin maps (41_input_bank.md R136, 42_output_bank.md R160), the join groups (R161), the chip selects (R63), and
which operations are pin-mutating (46_pin_api.md R266). -/

namespace Sys2Proof

/-- The mode of a pin (R40). -/
inductive PinMode
  | unconf | input | hs | pp
  deriving DecidableEq, Repr, Inhabited

/-- The mode of a link entry (R42, R91). -/
inductive LinkMode
  | none | follow | invert | flipRise | flipFall | flipAny
  deriving DecidableEq, Repr, Inhabited

end Sys2Proof

namespace Sys2Proof.Machine

/-! ### Operand forms (R89) -/

/-- A pin operand 1..16. -/
def pin16? (a : Byte) : Option Pin :=
  if h : 1 ≤ a.toNat ∧ a.toNat ≤ 16 then some ⟨a.toNat - 1, by omega⟩ else none

/-- A pin operand 1..20 (DREAD and SUBSCRIBE), as an index of the subscription table. -/
def pin20? (a : Byte) : Option SubIx :=
  if h : 1 ≤ a.toNat ∧ a.toNat ≤ 20 then some ⟨a.toNat - 1, by omega⟩ else none

/-- A bank operand 0..1. -/
def bank? (a : Byte) : Option Bank :=
  if h : a.toNat < 2 then some ⟨a.toNat, h⟩ else none

/-- A Boolean operand: bit 0 of its field. -/
def boolField (v : Byte) : Bool := v.getLsbD 0

/-- Bits 7..1 of a Boolean field are 0. -/
def boolOk (v : Byte) : Bool := v == 0#8 || v == 1#8

/-- The mode operand of CONFIG: 1 INPUT, 2 HS, 3 PP; UNCONF cannot be asked for. -/
def cfgMode? (v : Byte) : Option PinMode :=
  if v = 1#8 then some .input else if v = 2#8 then some .hs else if v = 3#8 then some .pp else none

/-- The link mode operand 0..5. -/
def linkMode? (v : Byte) : Option LinkMode :=
  if v = 0#8 then some .none else if v = 1#8 then some .follow else if v = 2#8 then some .invert
  else if v = 3#8 then some .flipRise else if v = 4#8 then some .flipFall
  else if v = 5#8 then some .flipAny else none

/-- The duty operand `Y[15:0]`. -/
def duty (y : U32) : Nat := (y.extractLsb' 0 16).toNat

/-- `Y[31:16]` must be 0. -/
def dutyOk (y : U32) : Bool := y.extractLsb' 16 16 == 0#16

/-! ### Legality of a request (R90)

A field value R89 calls illegal, or a nonzero bit in a field the operation does not use, ends the operation with
`FAIL(ARG)` before any state is read. The frames of the SPI rows are not host requests: R90 says nothing of them. -/

/-- A field the operation does not use. -/
def unused (v : Byte) : Bool := v == 0#8

/-- The fields of `pin`-only requests: A a pin 1..16, B and C unused. -/
def pinOnly (a b c : Byte) : Bool := (pin16? a).isSome && unused b && unused c

/-- R90 over each row of R91. -/
def legal : Instr → Bool
  | .config a b c => (pin16? a).isSome && (cfgMode? b).isSome && boolOk c
  | .join a b c => (pin16? a).isSome && boolOk b && unused c
  | .dread a b c => (pin20? a).isSome && unused b && unused c
  | .dwrite a b c => (pin16? a).isSome && boolOk b && unused c
  | .toggle a b c => pinOnly a b c
  | .clearfaults a b c => unused a && unused b && unused c
  | .subscribe a b c _ _ => (pin20? a).isSome && unused b && unused c
  | .link a b c _ => (pin16? a).isSome && (pin16? b).isSome && (linkMode? c).isSome
  | .pwm a b c _ y => (pin16? a).isSome && unused b && unused c && dutyOk y
  | .setovp a b c => (bank? a).isSome && boolOk b && unused c
  | .setled a b c => unused a && boolOk b && unused c
  | .getled a b c => unused a && unused b && unused c
  | .tick a b c => unused a && unused b && unused c
  | .getWb a b c => pinOnly a b c
  | .getAlrmt1 a b c => pinOnly a b c
  | .getAlrmt2 a b c => pinOnly a b c
  | .getInot a b c => pinOnly a b c
  | .getOl a b c => pinOnly a b c
  | .getOv a b c => pinOnly a b c
  | .getOvlock a b c => pinOnly a b c
  | .getTh a b c => pinOnly a b c
  | .getThlock a b c => pinOnly a b c
  | .inRead _ _ _ => true
  | .inWrite _ _ _ _ => true
  | .outSetOut _ _ _ _ => true
  | .outSetPp _ _ _ _ => true
  | .outSetOlen _ _ _ _ => true
  | .outSetJoin _ _ _ _ => true
  | .outRead _ _ _ => true
  | .outRtstat _ => true

/-! ### Pin maps -/

/-- The number 1..16 of a pin. -/
def pinNum (p : Pin) : Nat := p.val + 1

/-- The bank of `InMap(p)` (R136). -/
def inBank (p : Pin) : Bank := if pinNum p ≤ 8 then 0 else 1

/-- The bit of `InMap(p)`: `8 - p` in bank 0, `16 - p` in bank 1 (R136). -/
def inChan (p : Pin) : Chan :=
  if h : pinNum p ≤ 8 then ⟨8 - pinNum p, by simp only [pinNum] at *; omega⟩
  else ⟨16 - pinNum p, by simp only [pinNum] at *; omega⟩

/-- The bank of `OutMap(p)` (R160). -/
def outBank (p : Pin) : Bank := if pinNum p ≤ 8 then 0 else 1

/-- The bit of `OutMap(p)`: `p - 1` in bank 0, `p - 9` in bank 1 (R160). -/
def outChan (p : Pin) : Chan :=
  if h : pinNum p ≤ 8 then ⟨pinNum p - 1, by simp only [pinNum] at *; omega⟩
  else ⟨pinNum p - 9, by simp only [pinNum] at *; have := p.isLt; omega⟩

/-- A subscription index as a pin 1..16, or as an auxiliary line 0..3 (pins 17..20; R41, R258). -/
def subPin (i : SubIx) : Pin ⊕ Fin 4 :=
  if h : i.val < 16 then .inl ⟨i.val, h⟩ else .inr ⟨i.val - 16, by omega⟩

/-! ### Join groups (R161) -/

/-- The pin at slot `s` of the group of four that holds `p` (pins 1-4, 5-8, 9-12, 13-16). -/
def groupPin (p : Pin) (s : Fin 4) : Pin := ⟨4 * (p.val / 4) + s.val, by omega⟩

/-- A slot of `JOIN_SLOTS`. -/
def joinCapable (b : Binding) (s : Fin 4) : Bool := b.joinSlots.getLsbD s.val

/-! ### Chip selects (R22, R29, R63) -/

/-- `ib[k].cs`, a constant. -/
def csIn (k : Bank) : ChipSelect := if k = 0 then .in0 else .in1

/-- `ob[k].cs`, a constant. -/
def csOut (k : Bank) : ChipSelect := if k = 0 then .out0 else .out1

/-! ### The host-race check (R266) -/

/-- CONFIG, JOIN, DWRITE, TOGGLE, SUBSCRIBE, LINK, PWM and the nine getters. -/
def pinMutating : Instr → Bool
  | .config _ _ _ | .join _ _ _ | .dwrite _ _ _ | .toggle _ _ _ | .subscribe _ _ _ _ _
  | .link _ _ _ _ | .pwm _ _ _ _ _ => true
  | .getWb _ _ _ | .getAlrmt1 _ _ _ | .getAlrmt2 _ _ _ | .getInot _ _ _ | .getOl _ _ _ | .getOv _ _ _
  | .getOvlock _ _ _ | .getTh _ _ _ | .getThlock _ _ _ => true
  | .dread _ _ _ | .clearfaults _ _ _ | .setovp _ _ _ | .setled _ _ _ | .getled _ _ _ | .tick _ _ _ => false
  | .inRead _ _ _ | .inWrite _ _ _ _ | .outSetOut _ _ _ _ | .outSetPp _ _ _ _ | .outSetOlen _ _ _ _
  | .outSetJoin _ _ _ _ | .outRead _ _ _ | .outRtstat _ => false

/-- The named pins of a pin-mutating operation: operand A, and for LINK also operand B. -/
def namedPins : Instr → List Byte
  | .link a b _ _ => [a, b]
  | .config a _ _ | .join a _ _ | .dwrite a _ _ | .toggle a _ _ | .subscribe a _ _ _ _ | .pwm a _ _ _ _ => [a]
  | .getWb a _ _ | .getAlrmt1 a _ _ | .getAlrmt2 a _ _ | .getInot a _ _ | .getOl a _ _ | .getOv a _ _
  | .getOvlock a _ _ | .getTh a _ _ | .getThlock a _ _ => [a]
  | .dread _ _ _ | .clearfaults _ _ _ | .setovp _ _ _ | .setled _ _ _ | .getled _ _ _ | .tick _ _ _ => []
  | .inRead _ _ _ | .inWrite _ _ _ _ | .outSetOut _ _ _ _ | .outSetPp _ _ _ _ | .outSetOlen _ _ _ _
  | .outSetJoin _ _ _ _ | .outRead _ _ _ | .outRtstat _ => []

/-- Two operations that both mutate pins and share a named pin. -/
def sharePin (i j : Instr) : Bool :=
  pinMutating i && pinMutating j && (namedPins i).any fun a => (namedPins j).contains a

/-- The instruction is TICK. -/
def isTick : Instr → Bool
  | .tick _ _ _ => true
  | .config _ _ _ | .join _ _ _ | .dread _ _ _ | .dwrite _ _ _ | .toggle _ _ _ | .clearfaults _ _ _
  | .subscribe _ _ _ _ _ | .link _ _ _ _ | .pwm _ _ _ _ _ | .setovp _ _ _ | .setled _ _ _ | .getled _ _ _ => false
  | .getWb _ _ _ | .getAlrmt1 _ _ _ | .getAlrmt2 _ _ _ | .getInot _ _ _ | .getOl _ _ _ | .getOv _ _ _
  | .getOvlock _ _ _ | .getTh _ _ _ | .getThlock _ _ _ => false
  | .inRead _ _ _ | .inWrite _ _ _ _ | .outSetOut _ _ _ _ | .outSetPp _ _ _ _ | .outSetOlen _ _ _ _
  | .outSetJoin _ _ _ _ | .outRead _ _ _ | .outRtstat _ => false

end Sys2Proof.Machine
end

