-- ==== Sys2Proof/WellFormed.lean ====
section
/-! DEFINITION. Which instructions are well formed: a host operation whose fields R90 (30_encoding.md) allows, a bus
operation whose frame carries the check word its format prescribes (R81 to R83). An ill-formed host operation still runs
(it ends with `FAIL(ARG)`); well-formedness is what the encodings of the table promise. -/

namespace Sys2Proof

/-- The command word of an output row under the binding; 0 for a row of another format. -/
def outCommand (b : Binding) : Instr → Byte
  | .outSetOut _ _ _ _ => b.outCmdSetOut
  | .outSetPp _ _ _ _ => b.outCmdSetPp
  | .outSetOlen _ _ _ _ => b.outCmdSetOlen
  | .outSetJoin _ _ _ _ => b.outCmdSetJoin
  | .outRead _ _ _ => b.outCmdReadReg
  | .outRtstat _ => b.outRtW1
  | .inRead _ _ _ | .inWrite _ _ _ _ => 0#8
  | .config _ _ _ | .join _ _ _ | .dread _ _ _ | .dwrite _ _ _ | .toggle _ _ _ | .clearfaults _ _ _
  | .subscribe _ _ _ _ _ | .link _ _ _ _ | .pwm _ _ _ _ _ | .setovp _ _ _ | .setled _ _ _ | .getled _ _ _
  | .tick _ _ _ => 0#8
  | .getWb _ _ _ | .getAlrmt1 _ _ _ | .getAlrmt2 _ _ _ | .getInot _ _ _ | .getOl _ _ _ | .getOv _ _ _
  | .getOvlock _ _ _ | .getTh _ _ _ | .getThlock _ _ _ => 0#8

/-- The check field of an SPI row is the CRC of its words (R81 to R83); host operations carry none. -/
def checkWordOk (b : Binding) : Instr → Bool
  | .inRead _ a crc => crc == (Machine.inFrame false (a.setWidth 8) 0#8).chk.setWidth 5
  | .inWrite _ a d crc => crc == (Machine.inFrame true (a.setWidth 8) d).chk.setWidth 5
  | .outSetOut k clr d crc => crc == (Machine.outFrame clr (outCommand b (.outSetOut k clr d crc)) d).chk.setWidth 7
  | .outSetPp k clr d crc => crc == (Machine.outFrame clr (outCommand b (.outSetPp k clr d crc)) d).chk.setWidth 7
  | .outSetOlen k clr d crc => crc == (Machine.outFrame clr (outCommand b (.outSetOlen k clr d crc)) d).chk.setWidth 7
  | .outSetJoin k clr d crc => crc == (Machine.outFrame clr (outCommand b (.outSetJoin k clr d crc)) d).chk.setWidth 7
  | .outRead k r crc => crc == (Machine.outFrame false (outCommand b (.outRead k r crc)) r).chk.setWidth 7
  | .outRtstat _ => true
  | .config _ _ _ | .join _ _ _ | .dread _ _ _ | .dwrite _ _ _ | .toggle _ _ _ | .clearfaults _ _ _
  | .subscribe _ _ _ _ _ | .link _ _ _ _ | .pwm _ _ _ _ _ | .setovp _ _ _ | .setled _ _ _ | .getled _ _ _
  | .tick _ _ _ => true
  | .getWb _ _ _ | .getAlrmt1 _ _ _ | .getAlrmt2 _ _ _ | .getInot _ _ _ | .getOl _ _ _ | .getOv _ _ _
  | .getOvlock _ _ _ | .getTh _ _ _ | .getThlock _ _ _ => true

/-- A well-formed instruction under a binding. -/
def wellFormed (b : Binding) (i : Instr) : Bool := Machine.legal i && checkWordOk b i

/-- The output commands of the binding can be told apart: the five commands differ pairwise, and none is the low seven
bits of the realtime-status word1. The spec leaves the codes OPEN (R9) and states no such rule; without it two rows of
the opcode table have the same words (log 1). -/
def commandsDistinct (b : Binding) : Bool :=
  decide [b.outRtW1 &&& 0x7F#8, b.outCmdReadReg, b.outCmdSetOut, b.outCmdSetPp, b.outCmdSetOlen,
    b.outCmdSetJoin].Nodup

end Sys2Proof
end

