-- ==== Sys2Proof/Decode.lean ====
section
/-! DEFINITION. The decoder of host requests and of SPI frames, and the encoder beside it (30_encoding.md R81 to R92, R95;
spec/opcode_table.json). Decoding follows the `match` and `mask` of the table's rows: the opcode alone selects a host row, and
R90 then checks the fields when the operation runs. -/

namespace Sys2Proof

/-- Why the decoder gives no instruction. -/
inductive Reject
  /-- an opcode of R92; the machine answers `FAIL(ARG)` and takes the head word only -/
  | reservedOpcode (op : Byte)
  /-- operand words are still to come -/
  | incomplete
  /-- no row's frame on this chip select: the block never emits it (R86) -/
  | frameNotEmitted
  deriving DecidableEq, Repr

/-- What an instruction is encoded as: the words of a host request, or a frame on a chip select. -/
inductive Image
  | host (words : List U32)
  | bus (cs : ChipSelect) (frame : BitVec 24)
  deriving DecidableEq, Repr

/-! ### Host requests (R87, R91) -/

/-- `op = head[31:24]` -/
def headOp (h : U32) : Byte := h.extractLsb' 24 8
/-- `A = head[23:16]` -/
def headA (h : U32) : Byte := h.extractLsb' 16 8
/-- `B = head[15:8]` -/
def headB (h : U32) : Byte := h.extractLsb' 8 8
/-- `C = head[7:0]` -/
def headC (h : U32) : Byte := h.extractLsb' 0 8

/-- A head word from its fields. -/
def mkHead (op a b c : Byte) : U32 := op ++ a ++ b ++ c

/-- A request with no operand word. -/
def noWords (i : Instr) (rest : List U32) : Except Reject (Instr × List U32) := .ok (i, rest)

/-- A request with the operand word `X`. -/
def oneWord (f : U32 → Instr) : List U32 → Except Reject (Instr × List U32)
  | x :: rest => .ok (f x, rest)
  | [] => .error .incomplete

/-- A request with the operand words `X`, `Y`. -/
def twoWords (f : U32 → U32 → Instr) : List U32 → Except Reject (Instr × List U32)
  | x :: y :: rest => .ok (f x y, rest)
  | [_] => .error .incomplete
  | [] => .error .incomplete

/-- The opcode map (R91): the row of an opcode, with the number of operand words it takes; R92 for every other opcode. -/
def decodeRow (op a b c : Byte) (rest : List U32) : Except Reject (Instr × List U32) :=
  match op.toNat with
  | 0x01 => noWords (.config a b c) rest
  | 0x02 => noWords (.join a b c) rest
  | 0x03 => noWords (.dread a b c) rest
  | 0x04 => noWords (.dwrite a b c) rest
  | 0x05 => noWords (.toggle a b c) rest
  | 0x06 => noWords (.clearfaults a b c) rest
  | 0x07 => twoWords (fun x y => .subscribe a b c x y) rest
  | 0x08 => oneWord (fun x => .link a b c x) rest
  | 0x09 => twoWords (fun x y => .pwm a b c x y) rest
  | 0x0A => noWords (.setovp a b c) rest
  | 0x0B => noWords (.setled a b c) rest
  | 0x0C => noWords (.getled a b c) rest
  | 0x0D => noWords (.tick a b c) rest
  | 0x10 => noWords (.getWb a b c) rest
  | 0x11 => noWords (.getAlrmt1 a b c) rest
  | 0x12 => noWords (.getAlrmt2 a b c) rest
  | 0x13 => noWords (.getInot a b c) rest
  | 0x14 => noWords (.getOl a b c) rest
  | 0x15 => noWords (.getOv a b c) rest
  | 0x16 => noWords (.getOvlock a b c) rest
  | 0x17 => noWords (.getTh a b c) rest
  | 0x18 => noWords (.getThlock a b c) rest
  | _ => .error (.reservedOpcode op)

/-- The first request of a stream of words, with the words after it. -/
def decodeHost : List U32 → Except Reject (Instr × List U32)
  | [] => .error .incomplete
  | h :: rest => decodeRow (headOp h) (headA h) (headB h) (headC h) rest

/-! ### SPI frames (R81 to R86) -/

/-- The rows of format SPI_IN: bit 23 tells a write from a read; a read has data 0, and bits 7..5 are 0. -/
def decodeInFrame (k : Bank) (f : BitVec 24) : Except Reject Instr :=
  if f.extractLsb' 5 3 = 0#3 then
    if f.getLsbD 23 then
      .ok (.inWrite k (f.extractLsb' 16 7) (f.extractLsb' 8 8) (f.extractLsb' 0 5))
    else if f.extractLsb' 8 8 = 0#8 then .ok (.inRead k (f.extractLsb' 16 7) (f.extractLsb' 0 5))
    else .error .frameNotEmitted
  else .error .frameNotEmitted

/-- The rows of format SPI_OUT: bit 7 is 0, and the command tells the row; bit 23 is the marker of a write and 0 in a read. -/
def decodeOutFrame (b : Binding) (k : Bank) (f : BitVec 24) : Except Reject Instr :=
  let m : Byte := (f.extractLsb' 16 7).setWidth 8
  let marker := f.getLsbD 23
  let d : Byte := f.extractLsb' 8 8
  let crc : BitVec 7 := f.extractLsb' 0 7
  if f.getLsbD 7 then .error .frameNotEmitted
  else if f = (Machine.rtFrame b).bits then .ok (.outRtstat k)
  else if m = b.outCmdReadReg ∧ marker = false then .ok (.outRead k d crc)
  else if m = b.outCmdSetOut then .ok (.outSetOut k marker d crc)
  else if m = b.outCmdSetPp then .ok (.outSetPp k marker d crc)
  else if m = b.outCmdSetOlen then .ok (.outSetOlen k marker d crc)
  else if m = b.outCmdSetJoin then .ok (.outSetJoin k marker d crc)
  else .error .frameNotEmitted

/-- The bus operation of a frame: the chip select gives the family and the bank (R63). -/
def decodeFrame (b : Binding) (cs : ChipSelect) (f : BitVec 24) : Except Reject Instr :=
  match cs with
  | .in0 => decodeInFrame 0 f
  | .in1 => decodeInFrame 1 f
  | .out0 => decodeOutFrame b 0 f
  | .out1 => decodeOutFrame b 1 f

/-- The instruction of an image that holds exactly one. -/
def decodeImage (b : Binding) : Image → Option Instr
  | .host ws =>
    match decodeHost ws with
    | .ok (i, []) => some i
    | _ => none
  | .bus cs f => (decodeFrame b cs f).toOption

/-! ### The encoder -/

/-- The 24 bits of an input row: `W`, `a`, `d`, `z = 0`, `crc5` (R81). -/
def inBits (w : Bool) (a : BitVec 7) (d : Byte) (crc : BitVec 5) : BitVec 24 :=
  Machine.boolBit w ++ a ++ d ++ 0#3 ++ crc

/-- The 24 bits of an output row: `K`, `m`, `d`, `y = 0`, `crc7` (R82, R83). -/
def outBits (marker : Bool) (m : Byte) (d : Byte) (crc : BitVec 7) : BitVec 24 :=
  Machine.boolBit marker ++ m.setWidth 7 ++ d ++ 0#1 ++ crc

/-- The words, or the frame, of an instruction (R81 to R84, R91). -/
def encode (b : Binding) : Instr → Image
  | .config x y z => .host [mkHead 0x01#8 x y z]
  | .join x y z => .host [mkHead 0x02#8 x y z]
  | .dread x y z => .host [mkHead 0x03#8 x y z]
  | .dwrite x y z => .host [mkHead 0x04#8 x y z]
  | .toggle x y z => .host [mkHead 0x05#8 x y z]
  | .clearfaults x y z => .host [mkHead 0x06#8 x y z]
  | .subscribe x y z u v => .host [mkHead 0x07#8 x y z, u, v]
  | .link x y z u => .host [mkHead 0x08#8 x y z, u]
  | .pwm x y z u v => .host [mkHead 0x09#8 x y z, u, v]
  | .setovp x y z => .host [mkHead 0x0A#8 x y z]
  | .setled x y z => .host [mkHead 0x0B#8 x y z]
  | .getled x y z => .host [mkHead 0x0C#8 x y z]
  | .tick x y z => .host [mkHead 0x0D#8 x y z]
  | .getWb x y z => .host [mkHead 0x10#8 x y z]
  | .getAlrmt1 x y z => .host [mkHead 0x11#8 x y z]
  | .getAlrmt2 x y z => .host [mkHead 0x12#8 x y z]
  | .getInot x y z => .host [mkHead 0x13#8 x y z]
  | .getOl x y z => .host [mkHead 0x14#8 x y z]
  | .getOv x y z => .host [mkHead 0x15#8 x y z]
  | .getOvlock x y z => .host [mkHead 0x16#8 x y z]
  | .getTh x y z => .host [mkHead 0x17#8 x y z]
  | .getThlock x y z => .host [mkHead 0x18#8 x y z]
  | .inRead k a crc => .bus (Machine.csIn k) (inBits false a 0#8 crc)
  | .inWrite k a d crc => .bus (Machine.csIn k) (inBits true a d crc)
  | .outSetOut k clr d crc => .bus (Machine.csOut k) (outBits clr b.outCmdSetOut d crc)
  | .outSetPp k clr d crc => .bus (Machine.csOut k) (outBits clr b.outCmdSetPp d crc)
  | .outSetOlen k clr d crc => .bus (Machine.csOut k) (outBits clr b.outCmdSetOlen d crc)
  | .outSetJoin k clr d crc => .bus (Machine.csOut k) (outBits clr b.outCmdSetJoin d crc)
  | .outRead k r crc => .bus (Machine.csOut k) (outBits false b.outCmdReadReg r crc)
  | .outRtstat k => .bus (Machine.csOut k) (Machine.rtFrame b).bits

/-! ### The host's table words

The table numbers a host row's head word 31..0 and counts the operand words on from bit 32; it numbers a frame 23..0 with
word1 in bits 23..16. It gives a frame no chip select, so one is taken here (log 1): the output line for a word whose
check field is the CRC7 of its words and not their CRC5, else the input line for a word of an input row's form, else
the output line. -/

/-- The chip select a 24-bit table word is read on. -/
def tableChipSelect (v : BitVec 24) : ChipSelect :=
  let f := Frame.ofBits v
  let isOut := f.chk == (Machine.crc7 f.w1 f.w0).setWidth 8
  let isIn := f.chk == (Machine.crc5 f.w1 f.w0 0#8).setWidth 8
  if isOut && !isIn then .out0
  else if (decodeInFrame 0 v).toOption.isSome then .in0 else .out0

/-- The words of a table row's number: the head word, then the operand words. -/
def tableWords (w : Nat) : List U32 :=
  [BitVec.ofNat 32 w, BitVec.ofNat 32 (w / 2 ^ 32), BitVec.ofNat 32 (w / 2 ^ 64)]

/-- The instruction the decoder reads from an instruction whose bits are `w`, numbered as the table numbers them; a row
of 24 bits is a frame, read under the binding of the run that starts at reset. -/
def decodeTableWord (nbits w : Nat) : Option Instr :=
  if nbits = 24 then
    let v := BitVec.ofNat 24 w
    (decodeFrame Config.binding (tableChipSelect v) v).toOption
  else
    match decodeHost (tableWords w) with
    | .ok (i, _) => some i
    | .error _ => none

end Sys2Proof
end

