-- ==== Sys2Proof/Machine/State.lean ====
section
/-! DEFINITION. The state of the block (10_state.md), the reasons a step can stop, and the state after reset
(70_reset_and_hazards.md R330). Plain data throughout. -/

namespace Sys2Proof.Machine

/-! ### Why a step can stop -/

/-- The machine's one fault. No failure of an operation is a fault: a failure is a response (60_exceptions.md R307). -/
inductive Fault
  /-- Raised by `step` when `BadBinding` was recorded at reset: the binding breaks R11 or R84, and "a model should refuse
  to run with it" (R317, I15). Safe: the machine stops where the spec says a model does not run. -/
  | badBinding
  deriving DecidableEq, Repr

/-- Why the machine has no meaning for what it is asked. -/
inductive Refusal
  /-- Raised by an arm of `exec` for an instruction with no meaning yet; no arm raises it. Safe: the model stops. -/
  | notModelled (mnemonic : String)
  /-- Raised by `step` for a frame, asked for as a bus operation of its own, that no row of the table gives on its chip
  select: "the block never emits" it and what a chip does with it is not in the source (30_encoding.md R86, I7, "refuse").
  Safe: the model stops. -/
  | frameNotEmitted
  deriving DecidableEq, Repr

/-! ### Bank records -/

/-- `ib[k]` (R23 to R28); `ib[k].cs` is the constant `csIn k` (R22). -/
structure InBank where
  err : Bool
  inputs : Byte
  wbRaw : Byte
  f1Raw : Byte
  f2Raw : Byte
  wbCfg : Byte
  stWB : Byte
  stAT1 : Byte
  stAT2 : Byte
  stOT : Byte
  deriving DecidableEq, Repr

/-- `ob[k]` (R30 to R39); `ob[k].cs` is the constant `csOut k` (R29). -/
structure OutBank where
  err : Bool
  cmd : Byte
  intent : Byte
  clrPending : Bool
  olRaw : Byte
  stOL : Byte
  ovRaw : Byte
  stOV : Byte
  thRaw : Byte
  stTH : Byte
  pp : Byte
  ppIntent : Byte
  olen : Byte
  join : Byte
  ovLock : Byte
  thLock : Byte
  /-- one timestamp per channel, shared by both lockouts (R38) -/
  lockTs : Vector U32 8
  ovProtect : Bool
  deriving DecidableEq, Repr

/-! ### Pin-level tables -/

/-- The fields the debounce gate works on (R220): `stable` is `none` for `UNKNOWN`. -/
structure Gate where
  interval : U32
  stable : Option Bool
  lastMatch : U32
  deriving DecidableEq, Repr

/-- `sub[i]` (R41); `cb = 0` is `NULL`. -/
structure Sub where
  cb : U32
  gate : Gate
  deriving DecidableEq, Repr

/-- `link[p][q]` (R42). -/
structure Link where
  lmode : LinkMode
  gate : Gate
  deriving DecidableEq, Repr

/-- `pwm[p]` (R43); `period = 0` is disabled. -/
structure Pwm where
  period : U32
  on : U32
  start : U32
  high : Bool
  deriving DecidableEq, Repr

/-- `sched` (R44). -/
structure Sched where
  phase : Fin 5
  lastMs : U32
  deriving DecidableEq, Repr

/-! ### Lock, failures, responses -/

/-- `lock` (R46). -/
inductive Lock
  | free
  | held (c : Ctx)
  deriving DecidableEq, Repr

/-- Why a transaction failed (R300). -/
inductive TransportCause
  /-- no valid echo in `ATTEMPTS` attempts -/
  | crc
  /-- the read-back of a configuration differs -/
  | verify
  deriving DecidableEq, Repr

/-- A failure class (R300). The host does not see it. -/
inductive Failure
  | arg
  | transport (cause : TransportCause)
  | lock
  deriving DecidableEq, Repr

/-- The class's code (R300). -/
def Failure.code : Failure → Nat
  | .arg => 1
  | .transport _ => 2
  | .lock => 3

/-- The value of a response (R88). -/
inductive Value
  | none
  | level (b : Bool)
  | word (w : Byte)
  deriving DecidableEq, Repr

/-- How an operation ended: `OK(v)` or `FAIL(cls)` (R13, R300). -/
inductive Result
  | ok (v : Value)
  | fail (f : Failure)
  deriving DecidableEq, Repr

/-- What the host sees of a result: `{ok, value}` (R88). -/
structure Response where
  ok : Bool
  value : Value
  deriving DecidableEq, Repr

/-- The host's view of a result: the class is not part of it (R88, D47). -/
def Result.response : Result → Response
  | .ok v => { ok := true, value := v }
  | .fail _ => { ok := false, value := .none }

/-! ### Operations in flight -/

/-- What an action of an operation has observed: all that the actions after it may depend on, besides the state. -/
inductive Answer
  /-- nothing -/
  | done
  /-- the operation (or the write it made) ends here with this result -/
  | finish (r : Result)
  /-- the commanded word of output bank `k` is to be sent -/
  | send (k : Bank)
  /-- ACQ: the first frame built, its marker and its data word -/
  | built (f : Frame) (marker : Bool) (data : Byte)
  /-- EX1, EX2: the echo -/
  | echo (e : Frame)
  /-- FIN: the value of a valid attempt, or an invalid attempt -/
  | outcome (v : Option Byte)
  /-- a time read -/
  | time (t : U32)
  /-- the scheduler phase to run -/
  | phase (p : Fin 5)
  /-- a thermal pass: whether `pp` changed, and `cmd` before the pass -/
  | thermal (ppChanged : Bool) (cmdBefore : Byte)
  /-- a PWM edge to level `v`, with the bank to send, or none where the write was not to be sent -/
  | edge (v : Bool) (k : Option Bank)
  deriving DecidableEq, Repr

/-- `op[c]` (R48): the position in the operation is what its actions have observed so far, in order, from which its next
atomic unit is found again (DESIGN CHOICE, log 14). -/
inductive Op
  | idle
  | busy (i : Instr) (seen : List Answer)
  deriving DecidableEq, Repr

/-! ### Records -/

/-- `(pin, level, cb)` (R49), the pin by its number 1..20. -/
structure Event where
  pin : Nat
  level : Bool
  cb : U32
  deriving DecidableEq, Repr

/-- One performed exchange (R50). -/
structure BusRec where
  cs : ChipSelect
  sent : Frame
  echo : Frame
  deriving DecidableEq, Repr

/-- Why `HostRace` was raised (R317). -/
inductive RaceInfo
  | sharedPin
  | twoTicks
  | exchangeOutsideLock
  deriving DecidableEq, Repr

/-- A model fault (R51, R317): recorded, and the run goes on (`HostRace`) or does not start (`BadBinding`). -/
inductive ModelFault
  | hostRace (info : RaceInfo)
  | badBinding
  deriving DecidableEq, Repr

/-! ### The environment -/

/-- What the environment will answer, not state of the block (log 4 to 7): for each kind of draw the answers still
pending, oldest first, and how many draws were made. With no pending answer a draw is the free value of Config at that
count. The two times are the unbounded times of the last reading (R312). -/
structure Env where
  echoes : List Frame
  echoCount : Nat
  msSteps : List Nat
  msCount : Nat
  msTime : Nat
  usSteps : List Nat
  usCount : Nat
  usTime : Nat
  auxLevels : List Bool
  auxCount : Nat
  turns : List Ctx
  turnCount : Nat
  deriving DecidableEq, Repr

/-! ### The state -/

/-- The state of the block (10_state.md), and below `resp` the model's own fields (INVENTORY.md). -/
structure State where
  ib : Vector InBank 2
  ob : Vector OutBank 2
  /-- `mode[p]` (R40) -/
  mode : Vector PinMode 16
  sub : Vector Sub 20
  /-- `link[p][q]`, p the input pin (R42) -/
  link : Vector (Vector Link 16) 16
  pwm : Vector Pwm 16
  sched : Sched
  led : Bool
  statusOut : Bool
  lock : Lock
  op : Vector Op 2
  events : List Event
  bus : List BusRec
  faults : List ModelFault
  /-- the response of each context, none while it has had none to its latest request (R88; log 18) -/
  resp : Vector (Option Result) 2
  /-- the binding of the run (R53); no step changes it -/
  cfg : Binding
  /-- the context that executes -/
  cur : Ctx
  /-- host request words not yet taken (R87) -/
  req : Vector (List U32) 2
  /-- bus operations asked for on their own (log 2) -/
  busReq : Vector (List (ChipSelect × BitVec 24)) 2
  env : Env
  deriving DecidableEq, Repr

/-! ### Reset (R330, R331) -/

/-- An input bank at reset. -/
def InBank.reset : InBank where
  err := false
  inputs := 0#8
  wbRaw := 0#8
  f1Raw := 0#8
  f2Raw := 0#8
  wbCfg := 0#8
  stWB := 0#8
  stAT1 := 0#8
  stAT2 := 0#8
  stOT := 0#8

/-- An output bank at reset, with its `OVP_RESET`. -/
def OutBank.reset (ovp : Bool) : OutBank where
  err := false
  cmd := 0#8
  intent := 0#8
  clrPending := false
  olRaw := 0#8
  stOL := 0#8
  ovRaw := 0#8
  stOV := 0#8
  thRaw := 0#8
  stTH := 0#8
  pp := 0#8
  ppIntent := 0#8
  olen := 0#8
  join := 0#8
  ovLock := 0#8
  thLock := 0#8
  lockTs := Vector.replicate 8 0#32
  ovProtect := ovp

/-- `interval 0, stable UNKNOWN, lastMatch 0` -/
def Gate.reset : Gate where
  interval := 0#32
  stable := none
  lastMatch := 0#32

/-- `{cb NULL, interval 0, stable UNKNOWN, lastMatch 0}` -/
def Sub.reset : Sub where
  cb := 0#32
  gate := Gate.reset

/-- `{lmode NONE, interval 0, stable UNKNOWN, lastMatch 0}` -/
def Link.reset : Link where
  lmode := .none
  gate := Gate.reset

/-- `{period 0, on 0, start 0, high 0}` -/
def Pwm.reset : Pwm where
  period := 0#32
  on := 0#32
  start := 0#32
  high := false

/-- No pending answer, no draw made (log 4). -/
def Env.reset : Env where
  echoes := []
  echoCount := 0
  msSteps := []
  msCount := 0
  msTime := 0
  usSteps := []
  usCount := 0
  usTime := 0
  auxLevels := []
  auxCount := 0
  turns := []
  turnCount := 0

/-- The values of R330 under a binding, with the model faults recorded at reset. `statusOut`, which R330 leaves
unspecified, is 0 (DESIGN CHOICE, log 11). -/
def State.powerOn (b : Binding) (recorded : List ModelFault) : State where
  ib := Vector.replicate 2 InBank.reset
  ob := #v[OutBank.reset b.ovpReset[0], OutBank.reset b.ovpReset[1]]
  mode := Vector.replicate 16 .unconf
  sub := Vector.replicate 20 Sub.reset
  link := Vector.replicate 16 (Vector.replicate 16 Link.reset)
  pwm := Vector.replicate 16 Pwm.reset
  sched := { phase := 0, lastMs := 0#32 }
  led := false
  statusOut := false
  lock := .free
  op := Vector.replicate 2 .idle
  events := []
  bus := []
  faults := recorded
  resp := Vector.replicate 2 none
  cfg := b
  cur := 0
  req := Vector.replicate 2 []
  busReq := Vector.replicate 2 []
  env := Env.reset

/-- Reset under any binding: a bad one is recorded (R317). -/
def State.resetWith (b : Binding) : State :=
  State.powerOn b (if bindingOk b then [] else [.badBinding])

/-- The machine right after reset. Its binding is `Config.binding`, which is never bad, so nothing is recorded; it is
`State.resetWith Config.binding` (Laws/State.lean, `reset_eq_resetWith`). -/
def State.reset : State := State.powerOn Config.binding []

end Sys2Proof.Machine

namespace Sys2Proof.Config

/-- `STATUS_FN`, the status-indicator reconciliation (44_scheduler.md R211, I4): OPEN, a function of the state (log 10). -/
opaque statusFn : Machine.State → Bool

end Sys2Proof.Config
end

