-- ==== Sys2Proof/Machine/Ops.lean ====
section
/-! DEFINITION. The named operations over the state: record updates, draws, the exchange and the lock (40_bus_arbiter.md),
operations as trees of atomic units (20_memory.md R70), the bus attempt and the transaction with retry (R113, R114), the
output configuration write-then-verify (42_output_bank.md R158), and the start and the end of an operation.

There are no traps (60_exceptions.md R307, R308): no state is saved and no control transferred. A failing operation ends
as any other does, through `complete`, with a `FAIL` result. -/

namespace Sys2Proof.Machine

/-! ### Record updates -/

/-- Update input bank `k`. -/
def modIb (k : Bank) (f : InBank → InBank) (s : State) : State :=
  { s with ib := s.ib.set k (f s.ib[k]) }

/-- Update output bank `k`. -/
def modOb (k : Bank) (f : OutBank → OutBank) (s : State) : State :=
  { s with ob := s.ob.set k (f s.ob[k]) }

/-- `op[c] <- o` -/
def setOp (c : Ctx) (o : Op) (s : State) : State :=
  { s with op := s.op.set c o }

/-- `raise f`: add to the set of model faults (R51, R317). -/
def raiseFault (f : ModelFault) (s : State) : State :=
  { s with faults := if s.faults.contains f then s.faults else s.faults ++ [f] }

/-! ### Draws -/

/-- The next echo (R110, I2). -/
def nextEcho (e : Env) : Frame :=
  match e.echoes with
  | x :: _ => x
  | [] => Config.freeEcho e.echoCount

/-- The environment after an echo was drawn. -/
def dropEcho (e : Env) : Env :=
  { e with echoes := e.echoes.tail, echoCount := e.echoCount + 1 }

/-- The unbounded millisecond time of the next reading: no less than the last one (R312, I13). -/
def nextMs (e : Env) : Nat :=
  e.msTime + match e.msSteps with
    | x :: _ => x
    | [] => Config.freeMsStep e.msCount

/-- The environment after a millisecond reading. -/
def dropMs (e : Env) : Env :=
  { e with msTime := nextMs e, msSteps := e.msSteps.tail, msCount := e.msCount + 1 }

/-- The unbounded microsecond time of the next reading (R312, I13). -/
def nextUs (e : Env) : Nat :=
  e.usTime + match e.usSteps with
    | x :: _ => x
    | [] => Config.freeUsStep e.usCount

/-- The environment after a microsecond reading. -/
def dropUs (e : Env) : Env :=
  { e with usTime := nextUs e, usSteps := e.usSteps.tail, usCount := e.usCount + 1 }

/-- `NowMs()`: a free-running u32 counter (R312). -/
def nowMs (s : State) : U32 := BitVec.ofNat 32 (nextMs s.env)

/-- The state after `NowMs()`. -/
def afterMs (s : State) : State := { s with env := dropMs s.env }

/-- `NowUs()` (R312). -/
def nowUs (s : State) : U32 := BitVec.ofNat 32 (nextUs s.env)

/-- The state after `NowUs()`. -/
def afterUs (s : State) : State := { s with env := dropUs s.env }

/-- `Aux(i)`: the level of auxiliary line `i` now (R258, I12). -/
def aux (i : Fin 4) (s : State) : Bool :=
  match s.env.auxLevels with
  | x :: _ => x
  | [] => Config.freeAux s.env.auxCount i

/-- The state after `Aux(i)`. -/
def afterAux (s : State) : State :=
  { s with env := { s.env with auxLevels := s.env.auxLevels.tail, auxCount := s.env.auxCount + 1 } }

/-- The context that moves at a contended step (R70, D56). -/
def nextTurn (e : Env) : Ctx :=
  match e.turns with
  | x :: _ => x
  | [] => Config.freeTurn e.turnCount

/-- The state after a turn was drawn. -/
def afterTurn (s : State) : State :=
  { s with env := { s.env with turns := s.env.turns.tail, turnCount := s.env.turnCount + 1 } }

/-! ### The bus (R110, R111) -/

/-- "require lock = HELD(self)": an exchange outside the lock records `HostRace`, which cannot happen under the spec's
rules (R110). -/
def checkLock (s : State) : State :=
  if s.lock = .held s.cur then s else raiseFault (.hostRace .exchangeOutsideLock) s

/-- `Exchange(cs, t0, t1, t2)`: the echo is drawn and the exchange recorded (R110). -/
def exchange (cs : ChipSelect) (t : Frame) (s : State) : State × Answer :=
  let e := nextEcho s.env
  let s := checkLock s
  ({ s with env := dropEcho s.env, bus := s.bus ++ [{ cs := cs, sent := t, echo := e }] }, .echo e)

/-- `Acquire()`; its unit is enabled only when the lock is FREE (R111). -/
def acquireLock (s : State) : State := { s with lock := .held s.cur }

/-- `Release()` (R111). -/
def releaseLock (s : State) : State := { s with lock := .free }

/-! ### Operations as trees of atomic units (R70) -/

/-- The three or four units of a bus attempt; an action outside any attempt, where the maximal run of such actions is one
local unit (R70); and an entry of the subscription pass, a local unit by itself (R222). -/
inductive UnitKind
  | acq | ex1 | ex2 | fin | loc | entry
  deriving DecidableEq, Repr

/-- An operation, or what is left of one: the next action, what it does to the state, and what follows from what it observes;
or the result. Not part of the state: `Op.busy` holds the position in it. -/
inductive Prog
  | ret (r : Result)
  | unit (kind : UnitKind) (act : State → State × Answer) (next : Answer → Prog)

/-- An action of a local unit. -/
def loc (act : State → State × Answer) (next : Answer → Prog) : Prog := .unit .loc act next

/-- What is left after an action that observed `a`. -/
def Prog.follow : Prog → Answer → Prog
  | .ret r, _ => .ret r
  | .unit _ _ next, a => next a

/-- What is left at a position (R48). -/
def Prog.after (p : Prog) (seen : List Answer) : Prog := seen.foldl Prog.follow p

/-- ACQ is enabled only when the lock is FREE; every other unit always is (R70, R111). -/
def enabled (k : UnitKind) (s : State) : Bool := k != .acq || s.lock == .free

/-- Move the running context's position past an action that observed `a`. -/
def note (a : Answer) (s : State) : State :=
  match s.op[s.cur] with
  | .busy i seen => setOp s.cur (.busy i (seen ++ [a])) s
  | .idle => s

/-- The end of an operation: its response is given and its context is idle (R48, R88, R300). -/
def complete (r : Result) (s : State) : State :=
  { s with op := s.op.set s.cur .idle, resp := s.resp.set s.cur (some r) }

/-- Run what is left of the current context's operation, action after action, to its end; at an ACQ while the other context
holds the lock it waits there, in flight (R111). -/
def drive : Prog → State → State
  | .ret r, s => complete r s
  | .unit k act next, s =>
    if enabled k s then
      let out := act s
      drive (next out.2) (note out.2 out.1)
    else s

/-! ### Bus transactions -/

/-- The configuration or output word an output write sends (R156, R159). -/
inductive OutField
  | setOut | setPp | setOlen | setJoin
  deriving DecidableEq, Repr

/-- The command of a field (R156). -/
def OutField.command (b : Binding) : OutField → Byte
  | .setOut => b.outCmdSetOut
  | .setPp => b.outCmdSetPp
  | .setOlen => b.outCmdSetOlen
  | .setJoin => b.outCmdSetJoin

/-- The field's word in a bank: `ob[k].F` (R156). -/
def OutField.word (o : OutBank) : OutField → Byte
  | .setOut => o.cmd
  | .setPp => o.pp
  | .setOlen => o.olen
  | .setJoin => o.join

/-- The three configuration words, the only ones verified by read-back (R158, R159). -/
inductive ConfField
  | pp | olen | join
  deriving DecidableEq, Repr

/-- The write of a configuration word. -/
def ConfField.out : ConfField → OutField
  | .pp => .setPp
  | .olen => .setOlen
  | .join => .setJoin

/-- The read-back register of a configuration word (R158). -/
def ConfField.readBack (b : Binding) : ConfField → Byte
  | .pp => b.outRegPp
  | .olen => b.outRegOlen
  | .join => b.outRegJoin

/-- A bus transaction: `IN_READ(k, a)`, `IN_WRITE(k, a, d)`, `OUT_READ(k, reg)`, `OUT_WRITE(k, m, F)` (R133, R135, R155,
R156), or the realtime-status frame alone (R157; log 3). -/
inductive Xact
  | inRead (k : Bank) (a : Byte)
  | inWrite (k : Bank) (a d : Byte)
  | outRead (k : Bank) (reg : Byte)
  | outWrite (k : Bank) (f : OutField)
  | rtstat (k : Bank)
  deriving DecidableEq, Repr

/-- The chip select of a transaction's bank (R63). -/
def Xact.cs : Xact → ChipSelect
  | .inRead k _ => csIn k
  | .inWrite k _ _ => csIn k
  | .outRead k _ => csOut k
  | .outWrite k _ => csOut k
  | .rtstat k => csOut k

/-- An output write has a second exchange (R156). -/
def Xact.twoPhase : Xact → Bool
  | .outWrite _ _ => true
  | .inRead _ _ => false
  | .inWrite _ _ _ => false
  | .outRead _ _ => false
  | .rtstat _ => false

/-- ACQ: take the lock and build the first frame from the state as it is (R113, R132, R153). -/
def acquire (b : Binding) (x : Xact) (s : State) : State × Answer :=
  let s := acquireLock s
  match x with
  | .inRead _ a => (s, .built (inFrame false a 0#8) false 0#8)
  | .inWrite _ a d => (s, .built (inFrame true a d) false d)
  | .outRead _ reg => (s, .built (outFrame false b.outCmdReadReg reg) false reg)
  | .outWrite k f =>
    let o := s.ob[k]
    (s, .built (outFrame o.clrPending (f.command b) (f.word o)) o.clrPending (f.word o))
  | .rtstat _ => (s, .built (rtFrame b) false 0#8)

/-- The family's CRC check over the echo or echoes (R131, R152, R156). -/
def attemptValid (b : Binding) (x : Xact) (e1 e2 : Frame) : Bool :=
  match x with
  | .inRead _ _ => inValid b e1
  | .inWrite _ _ _ => inValid b e1
  | .outRead _ _ => outValid e1
  | .outWrite _ _ => outValid e2 && (!b.outCheckPhase1 || outValid e1)
  | .rtstat _ => outValid e1

/-- The family's echo updates of a valid attempt, the clearing of `err` and of a sent marker (R113, R134, R154). -/
def attemptUpdate (b : Binding) (x : Xact) (marker : Bool) (e1 : Frame) (s : State) : State :=
  match x with
  | .inRead k _ => modIb k (fun r => { r with inputs := echoInputs b e1, err := false }) s
  | .inWrite k _ _ => modIb k (fun r => { r with inputs := echoInputs b e1, err := false }) s
  | .outRead k _ => modOb k (fun r => { r with err := false }) s
  | .outWrite k _ =>
    modOb k (fun r => { r with err := false, clrPending := if marker then false else r.clrPending }) s
  | .rtstat k => modOb k (fun r => { r with err := false }) s

/-- The value of a valid attempt: the register value read, or the word sent (R133, R155, R156). -/
def attemptValue (b : Binding) (x : Xact) (sent : Byte) (e1 : Frame) : Byte :=
  match x with
  | .inRead _ _ => echoInValue b e1
  | .inWrite _ _ _ => sent
  | .outRead _ _ => echoOutValue b e1
  | .outWrite _ _ => sent
  | .rtstat _ => 0#8

/-- FIN: check, update, release (R113). -/
def finish (b : Binding) (x : Xact) (marker : Bool) (sent : Byte) (e1 e2 : Frame) (s : State) :
    State × Answer :=
  if attemptValid b x e1 e2 then
    (releaseLock (attemptUpdate b x marker e1 s), .outcome (some (attemptValue b x sent e1)))
  else (releaseLock s, .outcome none)

/-- The frame ACQ built. -/
def Answer.frame : Answer → Frame
  | .built f _ _ => f
  | _ => default

/-- The marker ACQ built into the frame. -/
def Answer.marker : Answer → Bool
  | .built _ m _ => m
  | _ => false

/-- The data word ACQ built into the frame. -/
def Answer.data : Answer → Byte
  | .built _ _ d => d
  | _ => 0#8

/-- The echo EX1 or EX2 drew. -/
def Answer.echoed : Answer → Frame
  | .echo e => e
  | _ => default

/-- What FIN found. -/
def Answer.found : Answer → Option Byte
  | .outcome v => v
  | _ => none

/-- The time an action read. -/
def Answer.read : Answer → U32
  | .time t => t
  | _ => 0#32

/-- `Attempt(kind, bank, frames)`: ACQ, EX1, for an output write EX2 on the same chip select, FIN (R113). -/
def attempt (b : Binding) (x : Xact) (next : Option Byte → Prog) : Prog :=
  .unit .acq (acquire b x) fun a =>
  .unit .ex1 (exchange x.cs a.frame) fun e1 =>
  if x.twoPhase then
    .unit .ex2 (exchange x.cs (rtFrame b)) fun e2 =>
    .unit .fin (finish b x a.marker a.data e1.echoed e2.echoed) fun o => next o.found
  else
    .unit .fin (finish b x a.marker a.data e1.echoed e1.echoed) fun o => next o.found

/-- `bank.err <- 1` after `ATTEMPTS` invalid attempts, an action outside any attempt (R114). -/
def setErr (x : Xact) (s : State) : State :=
  match x with
  | .inRead k _ => modIb k (fun r => { r with err := true }) s
  | .inWrite k _ _ => modIb k (fun r => { r with err := true }) s
  | .outRead k _ => modOb k (fun r => { r with err := true }) s
  | .outWrite k _ => modOb k (fun r => { r with err := true }) s
  | .rtstat k => modOb k (fun r => { r with err := true }) s

/-- At most `n` attempts, ending at the first valid one; the frames are rebuilt by each (R114). -/
def tryAttempts (b : Binding) (x : Xact) (next : Option Byte → Prog) : Nat → Prog
  | 0 => loc (fun s => (setErr x s, .done)) fun _ => next none
  | n + 1 => attempt b x fun o =>
    match o with
    | some v => next (some v)
    | none => tryAttempts b x next n

/-- A transaction: `some v` is `OK(v)`, `none` is `FAIL(TRANSPORT)` with cause CRC (R114). -/
def transaction (b : Binding) (x : Xact) (next : Option Byte → Prog) : Prog :=
  tryAttempts b x next Config.attempts

/-- `FAIL(TRANSPORT)`, cause CRC. -/
def crcFail : Result := .fail (.transport .crc)

/-- `FAIL(TRANSPORT)`, cause VERIFY. -/
def verifyFail : Result := .fail (.transport .verify)

/-- `OK` with no value. -/
def okDone : Result := .ok .none

/-- `OUT_CFG(k, m, F, reg)`: write, read back, require equality with the word sent (R158). The continuation gets `OK` or
the failure. -/
def outCfg (b : Binding) (k : Bank) (f : ConfField) (next : Result → Prog) : Prog :=
  transaction b (.outWrite k f.out) fun w =>
    match w with
    | none => next crcFail
    | some sent =>
      transaction b (.outRead k (f.readBack b)) fun v =>
        match v with
        | none => next crcFail
        | some got =>
          if got = sent then next okDone
          else loc (fun s => (modOb k (fun r => { r with err := true }) s, .done)) fun _ => next verifyFail

/-! ### The guarded output-write path (46_pin_api.md R253, 43_protection.md R183, R186) -/

/-- `IsOut(p)` (R255). -/
def isOut (p : Pin) (s : State) : Bool := s.mode[p] == .hs || s.mode[p] == .pp

/-- The channel's lock bits (R37). -/
def ovLocked (p : Pin) (s : State) : Bool := bit s.ob[outBank p].ovLock (outChan p)

/-- The channel's thermal lock bit (R37). -/
def thLocked (p : Pin) (s : State) : Bool := bit s.ob[outBank p].thLock (outChan p)

/-- `ob[ko].intent[c] <- v` -/
def setIntent (p : Pin) (v : Bool) (s : State) : State :=
  modOb (outBank p) (fun r => { r with intent := setBit r.intent (outChan p) v }) s

/-- `ob[ko].cmd[c] <- v` -/
def setCmd (p : Pin) (v : Bool) (s : State) : State :=
  modOb (outBank p) (fun r => { r with cmd := setBit r.cmd (outChan p) v }) s

/-- `WriteBody(p, v)` up to its device write: the checks, the lock gates and the state writes. It ends the write, or asks for
the commanded word to be sent (R253). -/
def writeLocal (p : Pin) (v : Bool) (s : State) : State × Answer :=
  if isOut p s then
    if ovLocked p s || thLocked p s then
      if ovLocked p s && !v then (s, .finish (.fail .lock))
      else if thLocked p s && v then (s, .finish (.fail .lock))
      else (setIntent p v s, .finish okDone)
    else (setCmd p v (setIntent p v s), .send (outBank p))
  else (s, .finish (.fail .arg))

/-- `ToggleBody(p)`: the write of the inverse of the commanded bit, read in the same action (R254). -/
def toggleLocal (p : Pin) (s : State) : State × Answer :=
  writeLocal p (!bit s.ob[outBank p].cmd (outChan p)) s

/-- A local action that may ask for a SET_OUT write, and that write (R253). -/
def writeThrough (b : Binding) (act : State → State × Answer) (next : Result → Prog) : Prog :=
  loc act fun a =>
    match a with
    | .send k => transaction b (.outWrite k .setOut) fun w =>
      match w with
      | none => next crcFail
      | some _ => next okDone
    | .finish r => next r
    | _ => next okDone

/-! ### Samples (46_pin_api.md R252, R258; 45_conditioning.md R221) -/

/-- The level of pin p, 1..16, as DREAD gives it: the input snapshot, the commanded bit, or nothing for UNCONF. -/
def pinLevel (p : Pin) (s : State) : Option Bool :=
  match s.mode[p] with
  | .input => some (bit s.ib[inBank p].inputs (inChan p))
  | .hs => some (bit s.ob[outBank p].cmd (outChan p))
  | .pp => some (bit s.ob[outBank p].cmd (outChan p))
  | .unconf => none

/-- `Sample` of a subscription index: a pin's level, or a fresh draw of an auxiliary line. -/
def sample (i : SubIx) (s : State) : Option Bool × State :=
  match subPin i with
  | .inl p => (pinLevel p s, s)
  | .inr a => (some (aux a s), afterAux s)

/-! ### Reading and clearing (R279) -/

/-- The position of a sticky word of an input bank. -/
inductive InSticky
  | wb | at1 | at2 | ot
  deriving DecidableEq, Repr

/-- The position of a sticky word of an output bank. -/
inductive OutSticky
  | ol | ov | th
  deriving DecidableEq, Repr

/-- The word. -/
def InSticky.get (r : InBank) : InSticky → Byte
  | .wb => r.stWB
  | .at1 => r.stAT1
  | .at2 => r.stAT2
  | .ot => r.stOT

/-- Write the word. -/
def InSticky.put (w : Byte) (r : InBank) : InSticky → InBank
  | .wb => { r with stWB := w }
  | .at1 => { r with stAT1 := w }
  | .at2 => { r with stAT2 := w }
  | .ot => { r with stOT := w }

/-- The word. -/
def OutSticky.get (r : OutBank) : OutSticky → Byte
  | .ol => r.stOL
  | .ov => r.stOV
  | .th => r.stTH

/-- Write the word. -/
def OutSticky.put (w : Byte) (r : OutBank) : OutSticky → OutBank
  | .ol => { r with stOL := w }
  | .ov => { r with stOV := w }
  | .th => { r with stTH := w }

/-- `ReadClear` of an input bank's sticky word at the pin's bit (R279). -/
def readClearIn (w : InSticky) (p : Pin) (s : State) : State × Answer :=
  let x := bit (w.get s.ib[inBank p]) (inChan p)
  (modIb (inBank p) (fun r => w.put (setBit (w.get r) (inChan p) false) r) s, .finish (.ok (.level x)))

/-- `ReadClear` of an output bank's sticky word at the pin's bit (R279). -/
def readClearOut (w : OutSticky) (p : Pin) (s : State) : State × Answer :=
  let x := bit (w.get s.ob[outBank p]) (outChan p)
  (modOb (outBank p) (fun r => w.put (setBit (w.get r) (outChan p) false) r) s, .finish (.ok (.level x)))

/-! ### Start of an operation (R48, R90, R264, R266) -/

/-- An operation, or the end of one, that is one action: it ends with what the action says. -/
def oneUnit (act : State → State × Answer) : Prog :=
  loc act fun a =>
    match a with
    | .finish r => .ret r
    | _ => .ret okDone

/-- The other context. -/
def otherCtx (c : Ctx) : Ctx := 1 - c

/-- The race an operation makes with the one in flight on the other context, if any (R264, R266). -/
def raceWith (i : Instr) (s : State) : Option RaceInfo :=
  match s.op[otherCtx s.cur] with
  | .idle => none
  | .busy j _ =>
    if sharePin i j then some .sharedPin
    else if isTick i && isTick j then some .twoTicks else none

/-- A race is recorded and both operations go on (R264, R266, R317). -/
def recordRace (i : Instr) (s : State) : State :=
  match raceWith i s with
  | some info => raiseFault (.hostRace info) s
  | none => s

/-- The context's operation is in flight, before its first unit, with no response yet (R48). -/
def startOp (i : Instr) (s : State) : State :=
  { s with op := s.op.set s.cur (.busy i []), resp := s.resp.set s.cur none }

/-- The start of an operation: the race check, then the operation is in flight. -/
def beginOp (i : Instr) (s : State) : State := startOp i (recordRace i s)

/-- An operation from its start to its end on the current context: the field checks of R90 first ("before any state is
read or written"), then its units. -/
def runOp (i : Instr) (p : Prog) (s : State) : State :=
  if legal i then drive p (beginOp i s) else complete (.fail .arg) s

end Sys2Proof.Machine
end

