-- ==== Sys2Proof/Machine/BankOps.lean ====
section
/-! DEFINITION. CLEARFAULTS, SETOVP, SETLED, GETLED (46_pin_api.md R256, R261 to R263) and the nine getters (R270 to R279). -/

namespace Sys2Proof.Machine

/-- `clrPending <- 1` on both output banks (R256). -/
def clearfaultsUnit (s : State) : State × Answer :=
  (modOb 1 (fun o => { o with clrPending := true }) (modOb 0 (fun o => { o with clrPending := true }) s),
    .finish okDone)

/-- `ob[k].ovProtect <- en` (R261); every lock bit stays. -/
def setovpUnit (k : Bank) (en : Bool) (s : State) : State × Answer :=
  (modOb k (fun o => { o with ovProtect := en }) s, .finish okDone)

/-- `SETOVP k, en` (R261). -/
def setovpProg (bank en : Byte) : Prog :=
  match bank? bank with
  | none => .ret (.fail .arg)
  | some k => oneUnit (setovpUnit k (boolField en))

/-- `led <- v` (R262). -/
def setledUnit (v : Bool) (s : State) : State × Answer := ({ s with led := v }, .finish okDone)

/-- `return OK(led)` (R263). -/
def getledUnit (s : State) : State × Answer := (s, .finish (.ok (.level s.led)))

/-- A getter of an input bank's sticky word (R270 to R273). -/
def getInProg (w : InSticky) (pin : Byte) : Prog :=
  match pin16? pin with
  | none => .ret (.fail .arg)
  | some p => oneUnit (readClearIn w p)

/-- A getter of an output bank's sticky word (R274, R275, R277). -/
def getOutProg (w : OutSticky) (pin : Byte) : Prog :=
  match pin16? pin with
  | none => .ret (.fail .arg)
  | some p => oneUnit (readClearOut w p)

/-- The over-voltage lock bit, not cleared (R276). -/
def getOvlockProg (pin : Byte) : Prog :=
  match pin16? pin with
  | none => .ret (.fail .arg)
  | some p => oneUnit fun s => (s, .finish (.ok (.level (ovLocked p s))))

/-- The thermal lock bit, not cleared (R278). -/
def getThlockProg (pin : Byte) : Prog :=
  match pin16? pin with
  | none => .ret (.fail .arg)
  | some p => oneUnit fun s => (s, .finish (.ok (.level (thLocked p s))))

/-! ### Meanings -/

/-- CLEARFAULTS (R256). -/
def execClearfaults (a b c : Byte) (s : State) : Host.Outcome State Fault Refusal :=
  .next (runOp (.clearfaults a b c) (oneUnit clearfaultsUnit) s)

/-- SETOVP (R261). -/
def execSetovp (a b c : Byte) (s : State) : Host.Outcome State Fault Refusal :=
  .next (runOp (.setovp a b c) (setovpProg a b) s)

/-- SETLED (R262). -/
def execSetled (a b c : Byte) (s : State) : Host.Outcome State Fault Refusal :=
  .next (runOp (.setled a b c) (oneUnit (setledUnit (boolField b))) s)

/-- GETLED (R263). -/
def execGetled (a b c : Byte) (s : State) : Host.Outcome State Fault Refusal :=
  .next (runOp (.getled a b c) (oneUnit getledUnit) s)

/-- GET_WB (R270). -/
def execGetWb (a b c : Byte) (s : State) : Host.Outcome State Fault Refusal :=
  .next (runOp (.getWb a b c) (getInProg .wb a) s)

/-- GET_ALRMT1 (R271). -/
def execGetAlrmt1 (a b c : Byte) (s : State) : Host.Outcome State Fault Refusal :=
  .next (runOp (.getAlrmt1 a b c) (getInProg .at1 a) s)

/-- GET_ALRMT2 (R272). -/
def execGetAlrmt2 (a b c : Byte) (s : State) : Host.Outcome State Fault Refusal :=
  .next (runOp (.getAlrmt2 a b c) (getInProg .at2 a) s)

/-- GET_INOT (R273). -/
def execGetInot (a b c : Byte) (s : State) : Host.Outcome State Fault Refusal :=
  .next (runOp (.getInot a b c) (getInProg .ot a) s)

/-- GET_OL (R274). -/
def execGetOl (a b c : Byte) (s : State) : Host.Outcome State Fault Refusal :=
  .next (runOp (.getOl a b c) (getOutProg .ol a) s)

/-- GET_OV (R275). -/
def execGetOv (a b c : Byte) (s : State) : Host.Outcome State Fault Refusal :=
  .next (runOp (.getOv a b c) (getOutProg .ov a) s)

/-- GET_OVLOCK (R276). -/
def execGetOvlock (a b c : Byte) (s : State) : Host.Outcome State Fault Refusal :=
  .next (runOp (.getOvlock a b c) (getOvlockProg a) s)

/-- GET_TH (R277). -/
def execGetTh (a b c : Byte) (s : State) : Host.Outcome State Fault Refusal :=
  .next (runOp (.getTh a b c) (getOutProg .th a) s)

/-- GET_THLOCK (R278). -/
def execGetThlock (a b c : Byte) (s : State) : Host.Outcome State Fault Refusal :=
  .next (runOp (.getThlock a b c) (getThlockProg a) s)

end Sys2Proof.Machine
end

