-- ==== Sys2Proof/Machine/BusOps.lean ====
section
/-! DEFINITION. The SPI rows of the opcode table as instructions: each is the bus operation of its row's rule on the bank
of its chip select (41_input_bank.md R133, R135; 42_output_bank.md R155 to R158). The marker, the data word and the check
word of an output write are built from the state at ACQ, and every check word is computed by the operation; those fields
of an instruction are its frame's image, not operands (log 2). -/

namespace Sys2Proof.Machine

/-- `IN_READ(k, a)` (R133). -/
def inReadProg (b : Binding) (k : Bank) (reg : BitVec 7) : Prog :=
  transaction b (.inRead k (reg.setWidth 8)) fun r =>
    match r with
    | some v => .ret (.ok (.word v))
    | none => .ret crcFail

/-- `IN_WRITE(k, a, d)` (R135). -/
def inWriteProg (b : Binding) (k : Bank) (reg : BitVec 7) (d : Byte) : Prog :=
  transaction b (.inWrite k (reg.setWidth 8) d) fun r =>
    match r with
    | some _ => .ret okDone
    | none => .ret crcFail

/-- `OUT_READ(k, reg)` (R155). -/
def outReadProg (b : Binding) (k : Bank) (reg : Byte) : Prog :=
  transaction b (.outRead k reg) fun r =>
    match r with
    | some v => .ret (.ok (.word v))
    | none => .ret crcFail

/-- `OUT_WRITE(k, OUT_CMD_SET_OUT, cmd)` (R156): on success the word sent. -/
def outSetOutProg (b : Binding) (k : Bank) : Prog :=
  transaction b (.outWrite k .setOut) fun r =>
    match r with
    | some v => .ret (.ok (.word v))
    | none => .ret crcFail

/-- The realtime-status frame alone (R157; log 3). -/
def outRtstatProg (b : Binding) (k : Bank) : Prog :=
  transaction b (.rtstat k) fun r =>
    match r with
    | some _ => .ret okDone
    | none => .ret crcFail

/-! ### Meanings -/

/-- IN_READ (R133). -/
def execInRead (k : Bank) (reg : BitVec 7) (crc : BitVec 5) (s : State) : Host.Outcome State Fault Refusal :=
  .next (runOp (.inRead k reg crc) (inReadProg s.cfg k reg) s)

/-- IN_WRITE (R135). -/
def execInWrite (k : Bank) (reg : BitVec 7) (d : Byte) (crc : BitVec 5) (s : State) :
    Host.Outcome State Fault Refusal :=
  .next (runOp (.inWrite k reg d crc) (inWriteProg s.cfg k reg d) s)

/-- OUT_SET_OUT (R156). -/
def execOutSetOut (k : Bank) (clr : Bool) (d : Byte) (crc : BitVec 7) (s : State) :
    Host.Outcome State Fault Refusal :=
  .next (runOp (.outSetOut k clr d crc) (outSetOutProg s.cfg k) s)

/-- OUT_SET_PP (R158). -/
def execOutSetPp (k : Bank) (clr : Bool) (d : Byte) (crc : BitVec 7) (s : State) :
    Host.Outcome State Fault Refusal :=
  .next (runOp (.outSetPp k clr d crc) (outCfg s.cfg k .pp .ret) s)

/-- OUT_SET_OLEN (R158). -/
def execOutSetOlen (k : Bank) (clr : Bool) (d : Byte) (crc : BitVec 7) (s : State) :
    Host.Outcome State Fault Refusal :=
  .next (runOp (.outSetOlen k clr d crc) (outCfg s.cfg k .olen .ret) s)

/-- OUT_SET_JOIN (R158). -/
def execOutSetJoin (k : Bank) (clr : Bool) (d : Byte) (crc : BitVec 7) (s : State) :
    Host.Outcome State Fault Refusal :=
  .next (runOp (.outSetJoin k clr d crc) (outCfg s.cfg k .join .ret) s)

/-- OUT_READ (R155). -/
def execOutRead (k : Bank) (reg : Byte) (crc : BitVec 7) (s : State) : Host.Outcome State Fault Refusal :=
  .next (runOp (.outRead k reg crc) (outReadProg s.cfg k reg) s)

/-- OUT_RTSTAT (R157). -/
def execOutRtstat (k : Bank) (s : State) : Host.Outcome State Fault Refusal :=
  .next (runOp (.outRtstat k) (outRtstatProg s.cfg k) s)

end Sys2Proof.Machine
end

