-- ==== Sys2Proof/Machine/PinOps.lean ====
section
/-! DEFINITION. Configuration, join, digital read, write and toggle (46_pin_api.md R250 to R254, R267; 42_output_bank.md
R162). -/

namespace Sys2Proof.Machine

/-! ### The join rule -/

/-- What `JoinAllowed` requires of one slot of a group: HS in a join-capable slot, HS or INPUT in a companion (R162). -/
def slotAllowed (b : Binding) (mode : Vector PinMode 16) (p : Pin) (s : Fin 4) : Bool :=
  if joinCapable b s then mode[groupPin p s] == .hs
  else mode[groupPin p s] == .hs || mode[groupPin p s] == .input

/-- `JoinAllowed(p)` over a mode table (R162). -/
def joinAllowed (b : Binding) (mode : Vector PinMode 16) (p : Pin) : Bool :=
  slotAllowed b mode p 0 && slotAllowed b mode p 1 && slotAllowed b mode p 2 && slotAllowed b mode p 3

/-- The join bit of the pin at a slot of p's group. -/
def slotJoined (s : State) (p : Pin) (i : Fin 4) : Bool :=
  bit s.ob[outBank (groupPin p i)].join (outChan (groupPin p i))

/-- `JoinBroken(p, md)`: some pin of the group is joined and the rule fails over the mode table with p in `md` (R267). -/
def joinBroken (b : Binding) (p : Pin) (md : PinMode) (s : State) : Bool :=
  (slotJoined s p 0 || slotJoined s p 1 || slotJoined s p 2 || slotJoined s p 3) &&
    !joinAllowed b (s.mode.set p md) p

/-! ### CONFIG (R250) -/

/-- The checks of CONFIG after the ranges, in their order. -/
def configCheck (b : Binding) (p : Pin) (md : PinMode) (det : Bool) (s : State) : Option Failure :=
  if md = .pp ∧ det = true then some .arg
  else if joinBroken b p md s then some .arg
  else if md = .pp ∧ thLocked p s = true then some .lock
  else none

/-- S1: an input pin drives nothing; an OV-locked channel keeps its commanded bit. -/
def configS1 (p : Pin) (s : State) : State :=
  let s := setIntent p false s
  if ovLocked p s then s else setCmd p false s

/-- S2: the push-pull bits. -/
def configS2 (p : Pin) (md : PinMode) (s : State) : State :=
  modOb (outBank p) (fun o =>
    let intent := setBit o.ppIntent (outChan p) (md = .pp)
    { o with ppIntent := intent,
             pp := if bit o.thLock (outChan p) then o.pp else setBit o.pp (outChan p) (md = .pp) }) s

/-- S3: open-load detection, high-side only. -/
def configS3 (p : Pin) (md : PinMode) (det : Bool) (s : State) : State :=
  modOb (outBank p) (fun o => { o with olen := setBit o.olen (outChan p) (md = .hs && det) }) s

/-- S4: wire-break detection, input only. -/
def configS4 (p : Pin) (md : PinMode) (det : Bool) (s : State) : State :=
  modIb (inBank p) (fun r => { r with wbCfg := setBit r.wbCfg (inChan p) (md = .input && det) }) s

/-- `IN_CFG_DATA(wbe)` -/
def inCfgData (b : Binding) (wbe : Bool) : Byte := if wbe then b.inCfgDataOn else b.inCfgDataOff

/-- `mode[p] <- md` -/
def setMode (p : Pin) (md : PinMode) (s : State) : State := { s with mode := s.mode.set p md }

/-- The first action of CONFIG: the checks, then the state writes up to the first transaction. -/
def configFirst (b : Binding) (p : Pin) (md : PinMode) (det : Bool) (s : State) : State × Answer :=
  match configCheck b p md det s with
  | some f => (s, .finish (.fail f))
  | none => if md = .input then (configS1 p s, .send (outBank p)) else (configS2 p md s, .done)

/-- CONFIG from the device write of S2 on. -/
def configRest (b : Binding) (p : Pin) (md : PinMode) (det : Bool) : Prog :=
  outCfg b (outBank p) .pp fun r =>
    match r with
    | .fail f => .ret (.fail f)
    | .ok _ =>
      loc (fun s => (configS3 p md det s, .done)) fun _ =>
      outCfg b (outBank p) .olen fun r =>
        match r with
        | .fail f => .ret (.fail f)
        | .ok _ =>
          loc (fun s => (configS4 p md det s, .done)) fun _ =>
          transaction b
            (.inWrite (inBank p) b.inRegCfg[inChan p] (inCfgData b (md = .input && det))) fun w =>
            match w with
            | none => .ret crcFail
            | some _ => loc (fun s => (setMode p md s, .done)) fun _ => .ret okDone

/-- `CONFIG p, md[, DET]` (R250). -/
def configProg (b : Binding) (pin md det : Byte) : Prog :=
  match pin16? pin, cfgMode? md with
  | some p, some m =>
    loc (configFirst b p m (boolField det)) fun a =>
      match a with
      | .finish r => .ret r
      | .send k =>
        transaction b (.outWrite k .setOut) fun w =>
          match w with
          | none => .ret crcFail
          | some _ =>
            loc (fun s => (configS2 p m s, .done)) fun _ => configRest b p m (boolField det)
      | _ => configRest b p m (boolField det)
  | _, _ => .ret (.fail .arg)

/-! ### JOIN (R251) -/

/-- The local unit of JOIN: the join rule when enabling, then the pin's own join bit. -/
def joinFirst (b : Binding) (p : Pin) (en : Bool) (s : State) : State × Answer :=
  if en && !joinAllowed b s.mode p then (s, .finish (.fail .arg))
  else (modOb (outBank p) (fun o => { o with join := setBit o.join (outChan p) en }) s, .done)

/-- `JOIN p, ON|OFF` (R251). -/
def joinProg (b : Binding) (pin en : Byte) : Prog :=
  match pin16? pin with
  | none => .ret (.fail .arg)
  | some p =>
    loc (joinFirst b p (boolField en)) fun a =>
      match a with
      | .finish r => .ret r
      | _ => outCfg b (outBank p) .join .ret

/-! ### DREAD, DWRITE, TOGGLE (R252 to R254) -/

/-- The local unit of DREAD: a level, or `ARG` for an UNCONF pin. -/
def dreadUnit (i : SubIx) (s : State) : State × Answer :=
  let drawn := sample i s
  match drawn.1 with
  | some v => (drawn.2, .finish (.ok (.level v)))
  | none => (drawn.2, .finish (.fail .arg))

/-- `DREAD p` (R252). -/
def dreadProg (pin : Byte) : Prog :=
  match pin20? pin with
  | none => .ret (.fail .arg)
  | some i => oneUnit (dreadUnit i)

/-- `DWRITE p, v` (R253). -/
def dwriteProg (b : Binding) (pin v : Byte) : Prog :=
  match pin16? pin with
  | none => .ret (.fail .arg)
  | some p => writeThrough b (writeLocal p (boolField v)) .ret

/-- `TOGGLE p` (R254). -/
def toggleProg (b : Binding) (pin : Byte) : Prog :=
  match pin16? pin with
  | none => .ret (.fail .arg)
  | some p => writeThrough b (toggleLocal p) .ret

/-! ### Meanings -/

/-- CONFIG (R250). -/
def execConfig (a b c : Byte) (s : State) : Host.Outcome State Fault Refusal :=
  .next (runOp (.config a b c) (configProg s.cfg a b c) s)

/-- JOIN (R251). -/
def execJoin (a b c : Byte) (s : State) : Host.Outcome State Fault Refusal :=
  .next (runOp (.join a b c) (joinProg s.cfg a b) s)

/-- DREAD (R252). -/
def execDread (a b c : Byte) (s : State) : Host.Outcome State Fault Refusal :=
  .next (runOp (.dread a b c) (dreadProg a) s)

/-- DWRITE (R253). -/
def execDwrite (a b c : Byte) (s : State) : Host.Outcome State Fault Refusal :=
  .next (runOp (.dwrite a b c) (dwriteProg s.cfg a b) s)

/-- TOGGLE (R254). -/
def execToggle (a b c : Byte) (s : State) : Host.Outcome State Fault Refusal :=
  .next (runOp (.toggle a b c) (toggleProg s.cfg a) s)

end Sys2Proof.Machine
end

