-- ==== Sys2Proof/Machine/Conditioning.lean ====
section
/-! DEFINITION. Signal conditioning (45_conditioning.md): the debounce gate, the subscription, link and PWM passes of a
tick, and the operations SUBSCRIBE, LINK and PWM that register entries (46_pin_api.md R257, R259, R260). -/

namespace Sys2Proof.Machine

/-! ### The debounce gate (R220) -/

/-- `Debounce(e, s, now)`: the entry after the sample, and whether it committed. -/
def debounce (g : Gate) (s : Bool) (now : U32) : Gate × Bool :=
  if g.stable = some s then ({ g with lastMatch := now }, false)
  else if reached now g.lastMatch g.interval then ({ g with stable := some s, lastMatch := now }, true)
  else (g, false)

/-- `stable` of a new entry: the switch INIT_STABLE (R257, R259; D37). -/
def initStable (b : Binding) (now : Option Bool) : Option Bool :=
  match b.initStable with
  | .unknown => none
  | .sample => now

/-! ### Subscriptions (R222, R223) -/

/-- `sub[i] <- e` -/
def setSub (i : SubIx) (e : Sub) (s : State) : State := { s with sub := s.sub.set i e }

/-- `Emit(ev)` (R223). -/
def emit (ev : Event) (s : State) : State := { s with events := s.events ++ [ev] }

/-- One entry of the subscription pass, one local unit (R222). -/
def subEntry (now : U32) (i : SubIx) (s : State) : State × Answer :=
  let e := s.sub[i]
  if e.cb = 0#32 then (s, .done)
  else
    let drawn := sample i s
    match drawn.1 with
    | none => (drawn.2, .done)
    | some lv =>
      let out := debounce e.gate lv now
      let t := setSub i { e with gate := out.1 } drawn.2
      if out.2 then (emit { pin := i.val + 1, level := lv, cb := e.cb } t, .done) else (t, .done)

/-- The entries of a list, in its order. -/
def subEntries (now : U32) (next : Prog) : List SubIx → Prog
  | [] => next
  | i :: rest => .unit .entry (subEntry now i) fun _ => subEntries now next rest

/-- `SubscriptionPass(now)`, in index order (R222). -/
def subscriptionPass (now : U32) (next : Prog) : Prog := subEntries now next (List.finRange 20)

/-- The local unit of SUBSCRIBE (R257). -/
def subscribeUnit (b : Binding) (i : SubIx) (interval cb : U32) (s : State) : State × Answer :=
  if cb = 0#32 then (setSub i Sub.reset s, .finish okDone)
  else
    let now := nowMs s
    match b.initStable with
    | .unknown =>
      (setSub i { cb := cb, gate := { interval := interval, stable := none, lastMatch := now } } (afterMs s),
        .finish okDone)
    | .sample =>
      let drawn := sample i (afterMs s)
      (setSub i { cb := cb, gate := { interval := interval, stable := drawn.1, lastMatch := now } } drawn.2,
        .finish okDone)

/-- `SUBSCRIBE p, interval, cb` (R257). -/
def subscribeProg (b : Binding) (pin : Byte) (interval cb : U32) : Prog :=
  match pin20? pin with
  | none => .ret (.fail .arg)
  | some i => oneUnit (subscribeUnit b i interval cb)

/-! ### Links (R225 to R229) -/

/-- `link[p][q] <- e` -/
def setLink (p q : Pin) (e : Link) (s : State) : State :=
  { s with link := s.link.set p (s.link[p].set q e) }

/-- `LinkAction(lm, q, s)` up to its device write (R227). -/
def linkAction (lm : LinkMode) (q : Pin) (lv : Bool) (s : State) : State × Answer :=
  match lm with
  | .none => (s, .done)
  | .follow => writeLocal q lv s
  | .invert => writeLocal q (!lv) s
  | .flipAny => toggleLocal q s
  | .flipRise => if lv then toggleLocal q s else (s, .done)
  | .flipFall => if lv then (s, .done) else toggleLocal q s

/-- One entry of the link pass up to its device write: the sample, the gate, the action (R226). -/
def linkEntry (now : U32) (p q : Pin) (s : State) : State × Answer :=
  let e := s.link[p][q]
  if e.lmode = .none then (s, .done)
  else
    match pinLevel p s with
    | none => (s, .done)
    | some lv =>
      let out := debounce e.gate lv now
      let t := setLink p q { e with gate := out.1 } s
      if out.2 then linkAction e.lmode q lv t else (t, .done)

/-- The pairs of a list, in its order; a write's result is ignored (R226, R228). -/
def linkEntries (b : Binding) (now : U32) (next : Prog) : List (Pin × Pin) → Prog
  | [] => next
  | e :: rest => writeThrough b (linkEntry now e.1 e.2) fun _ => linkEntries b now next rest

/-- All pairs (p, q), row by row (R226, D23). -/
def pinPairs : List (Pin × Pin) :=
  (List.finRange 16).flatMap fun p => (List.finRange 16).map fun q => (p, q)

/-- `LinkPass(now)` (R226). -/
def linkPass (b : Binding) (now : U32) (next : Prog) : Prog := linkEntries b now next pinPairs

/-- The local unit of LINK (R259). -/
def linkUnit (b : Binding) (p q : Pin) (lm : LinkMode) (interval : U32) (s : State) : State × Answer :=
  if lm = .none then (setLink p q Link.reset s, .finish okDone)
  else
    let now := nowMs s
    let t := afterMs s
    (setLink p q { lmode := lm, gate := { interval := interval, stable := initStable b (pinLevel p t), lastMatch := now } } t,
      .finish okDone)

/-- `LINK p, q, lm, interval` (R259). -/
def linkProg (b : Binding) (pin out lm : Byte) (interval : U32) : Prog :=
  match pin16? pin, pin16? out, linkMode? lm with
  | some p, some q, some m => oneUnit (linkUnit b p q m interval)
  | _, _, _ => .ret (.fail .arg)

/-! ### Software PWM (R230 to R234) -/

/-- `pwm[p] <- e` -/
def setPwm (p : Pin) (e : Pwm) (s : State) : State := { s with pwm := s.pwm.set p e }

/-- `floor(PWM_US_PER_S / f)` (R231). -/
def pwmPeriod (f : Nat) : Nat := Config.pwmUsPerS / f

/-- `floor(period * d / DUTY_FULL)` (R231). -/
def pwmOn (period d : Nat) : Nat := period * d / Config.dutyFull

/-- The local unit of PWM (R260) with `PwmSet(p, f, d)` (R232): duty 0 disables the channel and asks for a LOW write. -/
def pwmUnit (p : Pin) (f d : Nat) (s : State) : State × Answer :=
  if s.mode[p] = .pp then
    if d = 0 then
      writeLocal p false (setPwm p { s.pwm[p] with period := 0#32, on := 0#32, high := false } s)
    else if f = 0 ∨ Config.pwmUsPerS < f then (s, .finish (.fail .arg))
    else
      let period := pwmPeriod f
      (setPwm p { period := BitVec.ofNat 32 period, on := BitVec.ofNat 32 (pwmOn period d),
                  start := nowUs s, high := false } (afterUs s),
        .finish okDone)
  else (s, .finish (.fail .arg))

/-- `PWM p, f, d` (R260). -/
def pwmProg (b : Binding) (pin : Byte) (f dutyWord : U32) : Prog :=
  match pin16? pin with
  | none => .ret (.fail .arg)
  | some p => writeThrough b (pwmUnit p f.toNat (duty dutyWord)) .ret

/-- The edge a channel is due for (R233): HIGH when the cycle is over, LOW when the on-time is over while HIGH. -/
def pwmDue (now : U32) (p : Pin) (s : State) : Option Bool :=
  let e := s.pwm[p]
  if s.mode[p] = .pp ∧ e.period ≠ 0#32 then
    if exceeded now e.start e.period then some true
    else if e.high && exceeded now e.start e.on then some false
    else none
  else none

/-- One channel of the PWM pass up to its device write (R233, R234). -/
def pwmEntry (now : U32) (p : Pin) (s : State) : State × Answer :=
  match pwmDue now p s with
  | none => (s, .done)
  | some v =>
    let out := writeLocal p v s
    match out.2 with
    | .send k => (out.1, .edge v (some k))
    | _ => (out.1, .edge v none)

/-- After an edge, whether or not its write succeeded: HIGH restarts the cycle at the tick's time (R233). -/
def pwmCommit (now : U32) (p : Pin) (v : Bool) (s : State) : State × Answer :=
  let e := s.pwm[p]
  (setPwm p (if v then { e with start := now, high := true } else { e with high := false }) s, .done)

/-- One channel: its edge, the write of the commanded word, the update. -/
def pwmChannel (b : Binding) (now : U32) (p : Pin) (next : Prog) : Prog :=
  loc (pwmEntry now p) fun a =>
    match a with
    | .edge v (some k) =>
      transaction b (.outWrite k .setOut) fun _ => loc (pwmCommit now p v) fun _ => next
    | .edge v none => loc (pwmCommit now p v) fun _ => next
    | _ => next

/-- The channels of a list, in its order. -/
def pwmChannels (b : Binding) (now : U32) (next : Prog) : List Pin → Prog
  | [] => next
  | p :: rest => pwmChannel b now p (pwmChannels b now next rest)

/-- `PwmPass(now)`, in pin order (R233). -/
def pwmPass (b : Binding) (now : U32) (next : Prog) : Prog := pwmChannels b now next (List.finRange 16)

/-! ### Meanings -/

/-- SUBSCRIBE (R257). -/
def execSubscribe (a b c : Byte) (x y : U32) (s : State) : Host.Outcome State Fault Refusal :=
  .next (runOp (.subscribe a b c x y) (subscribeProg s.cfg a x y) s)

/-- LINK (R259). -/
def execLink (a b c : Byte) (x : U32) (s : State) : Host.Outcome State Fault Refusal :=
  .next (runOp (.link a b c x) (linkProg s.cfg a b c x) s)

/-- PWM (R260). -/
def execPwm (a b c : Byte) (x y : U32) (s : State) : Host.Outcome State Fault Refusal :=
  .next (runOp (.pwm a b c x y) (pwmProg s.cfg a x y) s)

end Sys2Proof.Machine
end

