-- ==== Sys2Proof/Machine/Protection.lean ====
section
/-! DEFINITION. The over-voltage and thermal lockout machines (43_protection.md R180 to R188). -/

namespace Sys2Proof.Machine

/-- The channels of a bank in order 0..7 (R180). -/
def channels : List Chan := [0, 1, 2, 3, 4, 5, 6, 7]

/-- `OvStep(k, c, now)` (R181). -/
def ovStep (now : U32) (o : OutBank) (c : Chan) : OutBank :=
  if bit o.ovRaw c && !bit o.pp c && (!bit o.cmd c || bit o.ovLock c) then
    { o with cmd := setBit o.cmd c true, ovLock := setBit o.ovLock c true, lockTs := o.lockTs.set c now }
  else if bit o.ovLock c && reached now o.lockTs[c] Config.cooldownMs then
    { o with cmd := setBit o.cmd c (bit o.intent c), ovLock := setBit o.ovLock c false }
  else o

/-- The channels of an OV pass (R182). -/
def ovSteps (now : U32) (o : OutBank) : OutBank := channels.foldl (ovStep now) o

/-- `OvPass(k, now)` up to its device write: it asks for the write only when `cmd` changed (R182). -/
def ovPass (k : Bank) (now : U32) (s : State) : State × Answer :=
  let t := modOb k (ovSteps now) s
  if t.ob[k].cmd = s.ob[k].cmd then (t, .done) else (t, .send k)

/-- `ThStep(k, c, now)` (R184). -/
def thStep (now : U32) (o : OutBank) (c : Chan) : OutBank :=
  if bit o.thRaw c && (bit o.pp c || bit o.thLock c) && (bit o.cmd c || bit o.thLock c) then
    { o with pp := setBit o.pp c false, cmd := setBit o.cmd c false, thLock := setBit o.thLock c true,
             lockTs := o.lockTs.set c now }
  else if bit o.thLock c && reached now o.lockTs[c] Config.cooldownMs then
    { o with pp := setBit o.pp c (bit o.ppIntent c), cmd := setBit o.cmd c (bit o.intent c),
             thLock := setBit o.thLock c false }
  else o

/-- The channels of a TH pass (R185). -/
def thSteps (now : U32) (o : OutBank) : OutBank := channels.foldl (thStep now) o

/-- `ThPass(k, now)` up to its device writes (R185). -/
def thPass (k : Bank) (now : U32) (s : State) : State × Answer :=
  let t := modOb k (thSteps now) s
  (t, .thermal (t.ob[k].pp != s.ob[k].pp) s.ob[k].cmd)

/-- The test before the second device write of a TH pass: "if ob[k].cmd != cmdBefore" (R185). -/
def thCmdChanged (k : Bank) (before : Byte) (s : State) : State × Answer :=
  if s.ob[k].cmd = before then (s, .done) else (s, .send k)

/-- The device writes of a TH pass: the mode write, then the output write even if the first failed (R185). -/
def thWrites (b : Binding) (k : Bank) (a : Answer) (next : Prog) : Prog :=
  match a with
  | .thermal changed before =>
    if changed then
      outCfg b k .pp fun _ => writeThrough b (thCmdChanged k before) fun _ => next
    else writeThrough b (thCmdChanged k before) fun _ => next
  | _ => next

end Sys2Proof.Machine
end

