-- ==== Sys2Proof/Machine/Tick.lean ====
section
/-! DEFINITION. TICK: the input refresh, the five-phase scheduler and the order of the tick's stages (44_scheduler.md R200
to R211; 46_pin_api.md R264). -/

namespace Sys2Proof.Machine

/-- The action that reads the millisecond time. -/
def readMs (s : State) : State × Answer := (afterMs s, .time (nowMs s))

/-- The action that reads the microsecond time. -/
def readUs (s : State) : State × Answer := (afterUs s, .time (nowUs s))

/-- The wire-open value of a refresh: raw overwritten, sticky ORed (R201). -/
def refreshUnit (k : Bank) (v : Byte) (s : State) : State × Answer :=
  (modIb k (fun r => { r with wbRaw := v, stWB := r.stWB ||| v }) s, .done)

/-- `InputRefresh(k)` (R201). -/
def inputRefresh (b : Binding) (k : Bank) (next : Prog) : Prog :=
  transaction b (.inRead k b.inRegWb) fun r =>
    match r with
    | none => next
    | some v => loc (refreshUnit k v) fun _ => next

/-- A chip-wide bit ORed into every channel bit of a sticky word (R204, D18). -/
def chipWide (st : Byte) (on : Bool) : Byte := if on then 0xFF#8 else st

/-- Fault register 1 of a phase 0 read (R204). -/
def fault1Unit (k : Bank) (v : Byte) (s : State) : State × Answer :=
  (modIb k (fun r => { r with f1Raw := v,
                              stAT1 := chipWide r.stAT1 (bit v Config.f1Alrmt1Bit),
                              stAT2 := chipWide r.stAT2 (bit v Config.f1Alrmt2Bit) }) s, .done)

/-- Fault register 2 of a phase 0 read (R204). -/
def fault2Unit (b : Binding) (k : Bank) (w : Byte) (s : State) : State × Answer :=
  (modIb k (fun r => { r with f2Raw := w, stOT := chipWide r.stOT (bit w b.f2OtBit) }) s, .done)

/-- Phase 0 on one bank (R204). -/
def phase0Bank (b : Binding) (k : Bank) (next : Prog) : Prog :=
  transaction b (.inRead k b.inRegFault1) fun r =>
    match r with
    | none => next
    | some v =>
      loc (fault1Unit k v) fun _ =>
        if bit v Config.f1Fault2Bit then
          transaction b (.inRead k b.inRegFault2) fun r2 =>
            match r2 with
            | none => next
            | some w => loc (fault2Unit b k w) fun _ => next
        else next

/-- Phase 1 on one bank: open load (R205). -/
def phase1Bank (b : Binding) (k : Bank) (next : Prog) : Prog :=
  transaction b (.outRead k b.outRegOl) fun r =>
    match r with
    | none => next
    | some v =>
      loc (fun s => (modOb k (fun o => { o with olRaw := v, stOL := o.stOL ||| v }) s, .done)) fun _ => next

/-- The over-voltage word of a successful read (R206). -/
def storeOv (k : Bank) (r : Option Byte) (s : State) : State :=
  match r with
  | none => s
  | some v => modOb k (fun o => { o with ovRaw := v, stOV := o.stOV ||| v }) s

/-- Phase 2 after its read: the word, then the OV machine if protection is enabled, on the raw word as
it stands (R180, R206). -/
def phase2Unit (k : Bank) (now : U32) (r : Option Byte) (s : State) : State × Answer :=
  let s := storeOv k r s
  if s.ob[k].ovProtect then ovPass k now s else (s, .done)

/-- Phase 2 on one bank: over-voltage (R206). -/
def phase2Bank (b : Binding) (now : U32) (k : Bank) (next : Prog) : Prog :=
  transaction b (.outRead k b.outRegOv) fun r =>
    writeThrough b (phase2Unit k now r) fun _ => next

/-- Phase 3 on one bank: re-assert the commanded word (R207). -/
def phase3Bank (b : Binding) (k : Bank) (next : Prog) : Prog :=
  transaction b (.outWrite k .setOut) fun _ => next

/-- The thermal word of a successful read (R208). -/
def storeTh (k : Bank) (r : Option Byte) (s : State) : State :=
  match r with
  | none => s
  | some v => modOb k (fun o => { o with thRaw := v, stTH := o.stTH ||| v }) s

/-- Phase 4 on one bank: thermal (R208). -/
def phase4Bank (b : Binding) (now : U32) (k : Bank) (next : Prog) : Prog :=
  transaction b (.outRead k b.outRegTh) fun r =>
    loc (fun s => thPass k now (storeTh k r s)) fun a => thWrites b k a next

/-- `RunPhase(p, now)`: bank 0 completely, then bank 1 (R203). -/
def runPhase (b : Binding) (p : Fin 5) (now : U32) (next : Prog) : Prog :=
  match p with
  | 0 => phase0Bank b 0 (phase0Bank b 1 next)
  | 1 => phase1Bank b 0 (phase1Bank b 1 next)
  | 2 => phase2Bank b now 0 (phase2Bank b now 1 next)
  | 3 => phase3Bank b 0 (phase3Bank b 1 next)
  | 4 => phase4Bank b now 0 (phase4Bank b now 1 next)

/-- The gate and the advance of `SchedulerStep(now)`: the phase to run, if the gate is open (R202). -/
def schedGate (now : U32) (s : State) : State × Answer :=
  if reached now s.sched.lastMs Config.phaseGateMs then
    ({ s with sched := { phase := s.sched.phase + 1, lastMs := now } }, .phase s.sched.phase)
  else (s, .done)

/-- `SchedulerStep(now)` (R202). -/
def schedulerStep (b : Binding) (now : U32) (next : Prog) : Prog :=
  loc (schedGate now) fun a =>
    match a with
    | .phase p => runPhase b p now next
    | _ => next

/-- `statusOut <- STATUS_FN(state)` (R211). -/
def statusUnit (s : State) : State × Answer := ({ s with statusOut := Config.statusFn s }, .finish okDone)

/-- The stages after the scheduler: subscriptions, links, PWM, status (R200). -/
def conditioning (b : Binding) : Prog :=
  loc readMs fun t =>
  subscriptionPass t.read <|
  linkPass b t.read <|
  loc readUs fun u =>
  pwmPass b u.read <|
  oneUnit statusUnit

/-- `TickBody()` (R200): it always returns OK. -/
def tickProg (b : Binding) : Prog :=
  loc readMs fun t =>
  inputRefresh b 0 <|
  inputRefresh b 1 <|
  schedulerStep b t.read (conditioning b)

/-- TICK (R264). -/
def execTick (a b c : Byte) (s : State) : Host.Outcome State Fault Refusal :=
  .next (runOp (.tick a b c) (tickProg s.cfg) s)

end Sys2Proof.Machine
end

