-- ==== Sys2Proof/Machine/Dispatch.lean ====
section
/-! DEFINITION. exec: one arm per instruction, each one call of its meaning. -/

namespace Sys2Proof.Machine

def exec (i : Instr) (s : State) : Host.Outcome State Fault Refusal :=
  match i with
  | .config a b c => Sys2Proof.Machine.execConfig a b c s
  | .join a b c => Sys2Proof.Machine.execJoin a b c s
  | .dread a b c => Sys2Proof.Machine.execDread a b c s
  | .dwrite a b c => Sys2Proof.Machine.execDwrite a b c s
  | .toggle a b c => Sys2Proof.Machine.execToggle a b c s
  | .clearfaults a b c => Sys2Proof.Machine.execClearfaults a b c s
  | .subscribe a b c x y => Sys2Proof.Machine.execSubscribe a b c x y s
  | .link a b c x => Sys2Proof.Machine.execLink a b c x s
  | .pwm a b c x y => Sys2Proof.Machine.execPwm a b c x y s
  | .setovp a b c => Sys2Proof.Machine.execSetovp a b c s
  | .setled a b c => Sys2Proof.Machine.execSetled a b c s
  | .getled a b c => Sys2Proof.Machine.execGetled a b c s
  | .tick a b c => Sys2Proof.Machine.execTick a b c s
  | .getWb a b c => Sys2Proof.Machine.execGetWb a b c s
  | .getAlrmt1 a b c => Sys2Proof.Machine.execGetAlrmt1 a b c s
  | .getAlrmt2 a b c => Sys2Proof.Machine.execGetAlrmt2 a b c s
  | .getInot a b c => Sys2Proof.Machine.execGetInot a b c s
  | .getOl a b c => Sys2Proof.Machine.execGetOl a b c s
  | .getOv a b c => Sys2Proof.Machine.execGetOv a b c s
  | .getOvlock a b c => Sys2Proof.Machine.execGetOvlock a b c s
  | .getTh a b c => Sys2Proof.Machine.execGetTh a b c s
  | .getThlock a b c => Sys2Proof.Machine.execGetThlock a b c s
  | .inRead k reg crc => Sys2Proof.Machine.execInRead k reg crc s
  | .inWrite k reg d crc => Sys2Proof.Machine.execInWrite k reg d crc s
  | .outSetOut k clr d crc => Sys2Proof.Machine.execOutSetOut k clr d crc s
  | .outSetPp k clr d crc => Sys2Proof.Machine.execOutSetPp k clr d crc s
  | .outSetOlen k clr d crc => Sys2Proof.Machine.execOutSetOlen k clr d crc s
  | .outSetJoin k clr d crc => Sys2Proof.Machine.execOutSetJoin k clr d crc s
  | .outRead k reg crc => Sys2Proof.Machine.execOutRead k reg crc s
  | .outRtstat k => Sys2Proof.Machine.execOutRtstat k s

end Sys2Proof.Machine
end

