-- ==== Sys2Proof/Machine/Programs.lean ====
section
/-! DEFINITION. The units of every instruction, by which an operation in flight is taken up again (10_state.md R48,
20_memory.md R70), and one unit of the current context. -/

namespace Sys2Proof.Machine

/-- The operation of an instruction, as its units. -/
def programOf (b : Binding) : Instr → Prog
  | .config x y z => configProg b x y z
  | .join x y _ => joinProg b x y
  | .dread x _ _ => dreadProg x
  | .dwrite x y _ => dwriteProg b x y
  | .toggle x _ _ => toggleProg b x
  | .clearfaults _ _ _ => oneUnit clearfaultsUnit
  | .subscribe x _ _ u v => subscribeProg b x u v
  | .link x y z u => linkProg b x y z u
  | .pwm x _ _ u v => pwmProg b x u v
  | .setovp x y _ => setovpProg x y
  | .setled _ y _ => oneUnit (setledUnit (boolField y))
  | .getled _ _ _ => oneUnit getledUnit
  | .tick _ _ _ => tickProg b
  | .getWb x _ _ => getInProg .wb x
  | .getAlrmt1 x _ _ => getInProg .at1 x
  | .getAlrmt2 x _ _ => getInProg .at2 x
  | .getInot x _ _ => getInProg .ot x
  | .getOl x _ _ => getOutProg .ol x
  | .getOv x _ _ => getOutProg .ov x
  | .getOvlock x _ _ => getOvlockProg x
  | .getTh x _ _ => getOutProg .th x
  | .getThlock x _ _ => getThlockProg x
  | .inRead k reg _ => inReadProg b k reg
  | .inWrite k reg d _ => inWriteProg b k reg d
  | .outSetOut k _ _ _ => outSetOutProg b k
  | .outSetPp k _ _ _ => outCfg b k .pp .ret
  | .outSetOlen k _ _ _ => outCfg b k .olen .ret
  | .outSetJoin k _ _ _ => outCfg b k .join .ret
  | .outRead k reg _ => outReadProg b k reg
  | .outRtstat k => outRtstatProg b k

/-- What is left of the operation in flight on context `c`. -/
def remaining (c : Ctx) (s : State) : Option Prog :=
  match s.op[c] with
  | .idle => none
  | .busy i seen => some ((programOf s.cfg i).after seen)

/-- The end of a unit: the operation ends with its last unit, or stays in flight before its next. -/
def settle (next : Prog) (s : State) : State :=
  match next with
  | .ret r => complete r s
  | .unit _ _ _ => s

/-- A local unit: the maximal run of actions up to the next attempt, the next subscription entry, or the end of the
operation (R70). -/
def runLocal : Prog → State → State
  | .ret r, s => complete r s
  | .unit k act next, s => if k = .loc then runLocal (next (act s).2) (note (act s).2 (act s).1) else s

/-- One atomic unit of what is left of an operation; at an ACQ while the lock is held, the context waits and nothing
changes (R70, R111). -/
def takeUnit (p : Prog) (s : State) : State :=
  match p with
  | .ret r => complete r s
  | .unit k act next =>
    if k = .loc then runLocal p s
    else if enabled k s then settle (next (act s).2) (note (act s).2 (act s).1) else s

/-- One atomic unit of the operation in flight on the current context. -/
def unitStep (s : State) : State :=
  match remaining s.cur s with
  | none => s
  | some p => takeUnit p s

end Sys2Proof.Machine
end

