-- ==== Sys2Proof/Machine/Turn.lean ====
section
/-! DEFINITION. Taking a request, and which context moves (10_state.md R48; 20_memory.md R70, R71; 30_encoding.md R87,
R92). While one context alone has work, no unit of the other can fall between its units, and a step runs its whole
operation; while both have work, a step is one atomic unit of the context whose turn it is (log 7). -/

namespace Sys2Proof.Machine

/-! ### Requests -/

/-- What the current context finds when it looks for its next request. -/
inductive Fetched
  /-- a bus operation or a complete host request, and the state with it taken -/
  | instr (i : Instr) (s : State)
  /-- a reserved opcode: its head word alone is taken (R92) -/
  | reserved (s : State)
  /-- a frame that is no bus operation (R86) -/
  | notEmitted
  /-- no complete request -/
  | nothing
  deriving DecidableEq, Repr

/-- Take the current context's next request: a bus operation asked for on its own, else the next host request (R87). -/
def fetch (s : State) : Fetched :=
  match s.busReq[s.cur] with
  | (cs, f) :: rest =>
    match decodeFrame s.cfg cs f with
    | .ok i => .instr i { s with busReq := s.busReq.set s.cur rest }
    | .error _ => .notEmitted
  | [] =>
    match decodeHost s.req[s.cur] with
    | .ok (i, rest) => .instr i { s with req := s.req.set s.cur rest }
    | .error (.reservedOpcode _) => .reserved { s with req := s.req.set s.cur (s.req[s.cur]).tail }
    | .error .incomplete => .nothing
    | .error .frameNotEmitted => .nothing

/-- Context `c` has an operation in flight, a bus operation asked for, or a complete host request. -/
def hasWork (c : Ctx) (s : State) : Bool :=
  s.op[c] != .idle || !(s.busReq[c]).isEmpty ||
    match decodeHost s.req[c] with
    | .ok _ => true
    | .error (.reservedOpcode _) => true
    | .error .incomplete => false
    | .error .frameNotEmitted => false

/-! ### Moves -/

/-- The current context moves while the other has no work: its operation in flight runs to its end, or its next request
runs whole. -/
def runAlone (s : State) : Host.Outcome State Fault Refusal :=
  match remaining s.cur s with
  | some p => .next (drive p s)
  | none =>
    match fetch s with
    | .instr i t => exec i t
    | .reserved t => .next (complete (.fail .arg) t)
    | .notEmitted => .refused .frameNotEmitted
    | .nothing => .next s

/-- A request starts: the field checks of R90, then the operation is in flight before its first unit. -/
def issue (i : Instr) (s : State) : State :=
  if legal i then beginOp i s else complete (.fail .arg) s

/-- The current context moves while the other has work too: one atomic unit, or the start of its next request. -/
def moveOne (s : State) : Host.Outcome State Fault Refusal :=
  match remaining s.cur s with
  | some _ => .next (unitStep s)
  | none =>
    match fetch s with
    | .instr i t => .next (issue i t)
    | .reserved t => .next (complete (.fail .arg) t)
    | .notEmitted => .refused .frameNotEmitted
    | .nothing => .next s

/-- Context `c` becomes the one that executes. -/
def withCur (c : Ctx) (s : State) : State := { s with cur := c }

/-- One move of the block; with no work it waits for requests (R330). -/
def advance (s : State) : Host.Outcome State Fault Refusal :=
  match hasWork 0 s, hasWork 1 s with
  | false, false => .next s
  | true, false => runAlone (withCur 0 s)
  | false, true => runAlone (withCur 1 s)
  | true, true => moveOne (withCur (nextTurn s.env) (afterTurn s))

/-! ### Placing a table word -/

/-- How many words a request has, by its opcode alone (R87, R91). -/
def requestWords (op : Byte) : Nat :=
  if op = 0x07#8 then 3 else if op = 0x08#8 then 2 else if op = 0x09#8 then 3 else 1

/-- A table row's number as the request, or the frame, the block takes. -/
def tableImage (nbits w : Nat) : Image :=
  if nbits = 24 then
    let v := BitVec.ofNat 24 w
    .bus (tableChipSelect v) v
  else .host ((tableWords w).take (requestWords (headOp (BitVec.ofNat 32 w))))

/-- Context 0, idle, has this one image to take; context 1 is idle with nothing to do, and the lock is free. -/
def placeImage (m : Image) (s : State) : State :=
  let words := match m with
    | .host ws => ws
    | .bus _ _ => []
  let frames := match m with
    | .host _ => []
    | .bus cs f => [(cs, f)]
  { s with op := #v[.idle, .idle], lock := .free, req := #v[words, []], busReq := #v[frames, []] }

end Sys2Proof.Machine
end

