-- ==== Sys2Proof/Machine/Step.lean ====
section
/-! DEFINITION. One step of the block, and where the host places an instruction. -/

namespace Sys2Proof.Machine

/-- A bad binding, recorded at reset, never runs (60_exceptions.md R317); else the block moves. -/
def step (s : State) : Host.Outcome State Fault Refusal :=
  if s.faults.contains .badBinding then .fault .badBinding else advance s

/-- `s` with the instruction of a table row's number where the next step takes it: the only request of context 0, with
both contexts idle and the lock free, so that nothing comes before it (log 16). -/
def State.withFetchWord (s : State) (nbits w : Nat) : State := placeImage (tableImage nbits w) s

end Sys2Proof.Machine
end

