-- ==== Sys2Proof/Safety.lean ====
section
/-! DEFINITION. The terms the statements use: what a transaction does as a whole (40_bus_arbiter.md R114 to R116), the
invariants of the block (10_state.md R46, R52), and the frames it may emit (30_encoding.md R81 to R86). -/

namespace Sys2Proof.Machine

/-! ### A transaction as a whole

`drive` runs a transaction unit by unit; these functions say what it comes to when no unit of the other context falls
between: how many attempts are made (R114), what is recorded on the bus, what the state is after it. -/

/-- The n-th echo the environment will draw from here, n counted from 0. -/
def echoNo (e : Env) (n : Nat) : Frame := nextEcho (dropEcho^[n] e)

/-- The exchanges of one attempt (R113, R156). -/
def Xact.exchanges (x : Xact) : Nat := if x.twoPhase then 2 else 1

/-- The first echo of the n-th attempt. -/
def attemptEcho (x : Xact) (s : State) (n : Nat) : Frame := echoNo s.env (n * x.exchanges)

/-- The n-th attempt, were it made, is valid (R131, R152, R156). -/
def attemptOk (b : Binding) (x : Xact) (s : State) (n : Nat) : Bool :=
  attemptValid b x (attemptEcho x s n) (echoNo s.env (n * x.exchanges + (x.exchanges - 1)))

/-- Attempts are made until one is valid, at most three (R114). -/
def attemptsMade (b : Binding) (x : Xact) (s : State) : Nat :=
  if attemptOk b x s 0 then 1 else if attemptOk b x s 1 then 2 else 3

/-- One of the three attempts is valid. -/
def xactOk (b : Binding) (x : Xact) (s : State) : Bool :=
  attemptOk b x s 0 || attemptOk b x s 1 || attemptOk b x s 2

/-- What the n-th attempt records on the bus. -/
def attemptRecs (b : Binding) (x : Xact) (s : State) (n : Nat) : List BusRec :=
  { cs := x.cs, sent := (acquire b x s).2.frame, echo := attemptEcho x s n } ::
    if x.twoPhase then [{ cs := x.cs, sent := rtFrame b, echo := echoNo s.env (n * 2 + 1) }] else []

/-- The state with the exchanges of a transaction made and nothing else done. -/
def exchanged (b : Binding) (x : Xact) (s : State) : State :=
  { s with bus := s.bus ++ (List.range (attemptsMade b x s)).flatMap (attemptRecs b x s),
           env := dropEcho^[attemptsMade b x s * x.exchanges] s.env }

/-- The state after a transaction: the echo updates of its valid attempt, or `err` set (R113 to R116). -/
def afterXact (b : Binding) (x : Xact) (s : State) : State :=
  if xactOk b x s then
    attemptUpdate b x (acquire b x s).2.marker (attemptEcho x s (attemptsMade b x s - 1)) (exchanged b x s)
  else setErr x (exchanged b x s)

/-- The value of a transaction, or none when it fails. -/
def xactValue (b : Binding) (x : Xact) (s : State) : Option Byte :=
  if xactOk b x s then
    some (attemptValue b x (acquire b x s).2.data (attemptEcho x s (attemptsMade b x s - 1)))
  else none

/-- `OK`, or the failure of a transaction. -/
def xactResult (b : Binding) (x : Xact) (s : State) : Result :=
  match xactValue b x s with
  | some _ => okDone
  | none => crcFail

/-- What `OUT_CFG` comes to (R158). -/
def cfgResult (b : Binding) (k : Bank) (f : ConfField) (s : State) : Result :=
  match xactValue b (.outWrite k f.out) s with
  | none => crcFail
  | some sent =>
    match xactValue b (.outRead k (f.readBack b)) (afterXact b (.outWrite k f.out) s) with
    | none => crcFail
    | some got => if got = sent then okDone else verifyFail

/-- The state after `OUT_CFG`: a mismatch sets the bank's error flag (R158). -/
def afterCfg (b : Binding) (k : Bank) (f : ConfField) (s : State) : State :=
  match xactValue b (.outWrite k f.out) s with
  | none => afterXact b (.outWrite k f.out) s
  | some _ =>
    let t := afterXact b (.outRead k (f.readBack b)) (afterXact b (.outWrite k f.out) s)
    if cfgResult b k f s = verifyFail then modOb k (fun r => { r with err := true }) t else t

/-! ### Operations as a whole

What an operation comes to when no unit of the other context falls between its units: the rule's pseudocode read straight
through and written out field by field, without the actions of the operation itself, with a transaction as one action. -/

/-- The record update of one bit of an output bank's words (R253): `intent[c] <- v`, and `cmd[c] <- v` if `sends`. -/
def putLevel (p : Pin) (v sends : Bool) (s : State) : State :=
  let c := outChan p
  modOb (outBank p) (fun o =>
    { o with intent := setBit o.intent c v, cmd := if sends then setBit o.cmd c v else o.cmd }) s

/-- `WriteBody(p, v)` with its result ignored (R253): nothing where p is no output or a lock forbids v, the intent alone
under a lock, else intent, commanded bit and the SET_OUT write. -/
def writeRun (b : Binding) (p : Pin) (v : Bool) (s : State) : State :=
  let o := s.ob[outBank p]
  let ov := o.ovLock.getLsbD (outChan p).val
  let th := o.thLock.getLsbD (outChan p).val
  if s.mode[p] ≠ .hs ∧ s.mode[p] ≠ .pp then s
  else if ov = true ∧ v = false then s
  else if th = true ∧ v = true then s
  else if ov = true ∨ th = true then putLevel p v false s
  else afterXact b (.outWrite (outBank p) .setOut) (putLevel p v true s)

/-- `ToggleBody(p)` with its result ignored (R254). -/
def toggleRun (b : Binding) (p : Pin) (s : State) : State :=
  writeRun b p (!s.ob[outBank p].cmd.getLsbD (outChan p).val) s

/-- What S1 of CONFIG leaves for an input pin (R250): the intent LOW, and the commanded bit too unless over-voltage holds it. -/
def configDrop (p : Pin) (s : State) : State := putLevel p false (!s.ob[outBank p].ovLock.getLsbD (outChan p).val) s

/-- What the first line of S2 leaves (R250): the request in `ppIntent`, and in `pp` unless the thermal lock holds it. -/
def configPushPull (p : Pin) (on : Bool) (s : State) : State :=
  let c := outChan p
  modOb (outBank p) (fun o =>
    { o with ppIntent := setBit o.ppIntent c on, pp := if o.thLock.getLsbD c.val then o.pp else setBit o.pp c on }) s

/-- CONFIG from the device write of S2 on (R250). -/
def configTail (b : Binding) (p : Pin) (md : PinMode) (det : Bool) (s : State) : State × Result :=
  let k := outBank p
  match cfgResult b k .pp s with
  | .fail f => (afterCfg b k .pp s, .fail f)
  | .ok _ =>
    let s3 := modOb k (fun o => { o with olen := setBit o.olen (outChan p) (md = .hs ∧ det = true) }) (afterCfg b k .pp s)
    match cfgResult b k .olen s3 with
    | .fail f => (afterCfg b k .olen s3, .fail f)
    | .ok _ =>
      let wire : Bool := md = .input ∧ det = true
      let s4 := modIb (inBank p) (fun r => { r with wbCfg := setBit r.wbCfg (inChan p) wire }) (afterCfg b k .olen s3)
      let x := Xact.inWrite (inBank p) b.inRegCfg[inChan p] (if wire then b.inCfgDataOn else b.inCfgDataOff)
      if xactOk b x s4 then
        let t := afterXact b x s4
        ({ t with mode := t.mode.set p md }, okDone)
      else (afterXact b x s4, crcFail)

/-- CONFIG after its checks (R250). -/
def configRun (b : Binding) (p : Pin) (md : PinMode) (det : Bool) (s : State) : State × Result :=
  if md = .input then
    let x := Xact.outWrite (outBank p) .setOut
    let t := afterXact b x (configDrop p s)
    if xactOk b x (configDrop p s) then configTail b p md det (configPushPull p false t) else (t, crcFail)
  else configTail b p md det (configPushPull p (md = .pp) s)

/-- A word of input bank `k` taken from a transaction: what a successful read does, and nothing when it failed. -/
def onRead (b : Binding) (x : Xact) (f : Byte → State → State) (s : State) : State :=
  match xactValue b x s with
  | some v => f v (afterXact b x s)
  | none => afterXact b x s

/-- `InputRefresh(k)` (R201). -/
def refreshRun (b : Binding) (k : Bank) : State → State :=
  onRead b (.inRead k b.inRegWb) fun v =>
    modIb k fun r => { r with wbRaw := v, stWB := r.stWB ||| v }

/-- Phase 0 on one bank (R204): bit 3 is alarm T1, bit 4 alarm T2, bit 5 asks for fault register 2. -/
def phase0Run (b : Binding) (k : Bank) : State → State :=
  onRead b (.inRead k b.inRegFault1) fun v t =>
    let u := modIb k (fun r =>
      { r with f1Raw := v, stAT1 := if v.getLsbD 3 then 0xFF#8 else r.stAT1,
               stAT2 := if v.getLsbD 4 then 0xFF#8 else r.stAT2 }) t
    if v.getLsbD 5 then
      onRead b (.inRead k b.inRegFault2) (fun w => modIb k fun r =>
        { r with f2Raw := w, stOT := if w.getLsbD b.f2OtBit.val then 0xFF#8 else r.stOT }) u
    else u

/-- Phase 1 on one bank (R205). -/
def phase1Run (b : Binding) (k : Bank) : State → State :=
  onRead b (.outRead k b.outRegOl) fun v =>
    modOb k fun o => { o with olRaw := v, stOL := o.stOL ||| v }

/-- Phase 2 on one bank (R206, R182): the read, and only under protection the OV pass over the eight channels with its one
write when the commanded word changed. -/
def phase2Run (b : Binding) (now : U32) (k : Bank) (s : State) : State :=
  let t := onRead b (.outRead k b.outRegOv) (fun v => modOb k fun o => { o with ovRaw := v, stOV := o.stOV ||| v }) s
  if t.ob[k].ovProtect then
    let u := modOb k (ovSteps now) t
    if u.ob[k].cmd = t.ob[k].cmd then u else afterXact b (.outWrite k .setOut) u
  else t

/-- Phase 3 on one bank (R207). -/
def phase3Run (b : Binding) (k : Bank) (s : State) : State := afterXact b (.outWrite k .setOut) s

/-- Phase 4 on one bank (R208, R185): the read and the TH pass, the mode write when `pp` changed, the output write when `cmd`
changed. -/
def phase4Run (b : Binding) (now : U32) (k : Bank) (s : State) : State :=
  let t := onRead b (.outRead k b.outRegTh) (fun v => modOb k fun o => { o with thRaw := v, stTH := o.stTH ||| v }) s
  let u := modOb k (thSteps now) t
  let w := if u.ob[k].pp = t.ob[k].pp then u else afterCfg b k .pp u
  if w.ob[k].cmd = t.ob[k].cmd then w else afterXact b (.outWrite k .setOut) w

/-- `RunPhase(p, now)` (R203). -/
def phaseRun (b : Binding) (p : Fin 5) (now : U32) (s : State) : State :=
  match p with
  | 0 => phase0Run b 1 (phase0Run b 0 s)
  | 1 => phase1Run b 1 (phase1Run b 0 s)
  | 2 => phase2Run b now 1 (phase2Run b now 0 s)
  | 3 => phase3Run b 1 (phase3Run b 0 s)
  | 4 => phase4Run b now 1 (phase4Run b now 0 s)

/-- `SchedulerStep(now)` (R202). -/
def schedulerRun (b : Binding) (now : U32) (s : State) : State :=
  if 20 ≤ (now - s.sched.lastMs).toNat then
    phaseRun b s.sched.phase now { s with sched := { phase := s.sched.phase + 1, lastMs := now } }
  else s

/-- The active auxiliary entries among the first `n` (R222, R258): each has a fresh draw. -/
def auxActive (s : State) (n : Nat) : Nat :=
  ((List.finRange 4).filter fun a => a.val < n ∧ s.sub[a.val + 16].cb ≠ 0#32).length

/-- The level an active subscription entry sees in the pass that starts in `s` (R221, R258): its pin's level, or the draw of
its auxiliary line, one draw for each active auxiliary entry in index order. -/
def subLevel (i : SubIx) (s : State) : Option Bool :=
  match subPin i with
  | .inl p => pinLevel p s
  | .inr a => some (aux a (afterAux^[auxActive s a.val] s))

/-- An entry commits to a level in the pass that starts in `s` (R220, R222). -/
def subCommits (now : U32) (i : SubIx) (s : State) : Option Bool :=
  match subLevel i s with
  | some lv => if s.sub[i].cb ≠ 0#32 ∧ (debounce s.sub[i].gate lv now).2 = true then some lv else none
  | none => none

/-- An entry after the pass that starts in `s` (R220, R222). -/
def subAfter (now : U32) (i : SubIx) (s : State) : Sub :=
  match subLevel i s with
  | some lv => if s.sub[i].cb ≠ 0#32 then { s.sub[i] with gate := (debounce s.sub[i].gate lv now).1 } else s.sub[i]
  | none => s.sub[i]

/-- `SubscriptionPass(now)` (R222). -/
def subscriptionsRun (now : U32) (s : State) : State :=
  { s with
    sub := Vector.ofFn fun i => subAfter now i s,
    events := s.events ++ (List.finRange 20).filterMap fun i =>
      (subCommits now i s).map fun lv => { pin := i.val + 1, level := lv, cb := s.sub[i].cb },
    env := (afterAux^[auxActive s 4] s).env }

/-- One entry of the link pass (R226, R227): its sample, its gate, and on a commit its action. -/
def linkRun (b : Binding) (now : U32) (p q : Pin) (s : State) : State :=
  let e := s.link[p][q]
  match pinLevel p s with
  | none => s
  | some lv =>
    if e.lmode = .none then s
    else
      let gate := debounce e.gate lv now
      let t := { s with link := s.link.set p (s.link[p].set q { e with gate := gate.1 }) }
      if gate.2 then
        match e.lmode with
        | .none => t
        | .follow => writeRun b q lv t
        | .invert => writeRun b q (!lv) t
        | .flipAny => toggleRun b q t
        | .flipRise => if lv then toggleRun b q t else t
        | .flipFall => if lv then t else toggleRun b q t
      else t

/-- `LinkPass(now)` (R226): row by row. -/
def linksRun (b : Binding) (now : U32) (s : State) : State :=
  (List.finRange 16).foldl (fun t p => (List.finRange 16).foldl (fun t q => linkRun b now p q t) t) s

/-- One channel of `PwmPass(now)` (R233): strictly more than the period since its start it writes HIGH and restarts at `now`;
else HIGH for strictly more than its on-time it writes LOW. -/
def pwmChannelRun (b : Binding) (now : U32) (s : State) (p : Pin) : State :=
  let e := s.pwm[p]
  if s.mode[p] = .pp ∧ e.period ≠ 0#32 then
    if e.period.toNat < (now - e.start).toNat then
      { writeRun b p true s with pwm := s.pwm.set p { e with start := now, high := true } }
    else if e.high = true ∧ e.on.toNat < (now - e.start).toNat then
      { writeRun b p false s with pwm := s.pwm.set p { e with high := false } }
    else s
  else s

/-- `PwmPass(now)` (R233). -/
def pwmRun (b : Binding) (now : U32) (s : State) : State :=
  (List.finRange 16).foldl (pwmChannelRun b now) s

/-- The stages of `TickBody()` after the scheduler: subscriptions and links at one millisecond reading, PWM at one
microsecond reading (R200). -/
def conditioningRun (b : Binding) (s : State) : State :=
  let now := nowMs s
  let t := linksRun b now (subscriptionsRun now (afterMs s))
  pwmRun b (nowUs t) (afterUs t)

/-- `TickBody()` up to its scheduler: the time read and both banks refreshed (R200, R201). -/
def refreshed (b : Binding) (s : State) : State := refreshRun b 1 (refreshRun b 0 (afterMs s))

/-- `TickBody()` up to the status reconciliation (R200). -/
def tickRun (b : Binding) (s : State) : State :=
  conditioningRun b (schedulerRun b (nowMs s) (refreshed b s))

/-! ### What an instruction names -/

/-- The sticky bit of an input bank that a getter clears (R270 to R273). -/
def clearsIn : Instr → Option (InSticky × Pin)
  | .getWb a _ _ => (pin16? a).map fun p => (.wb, p)
  | .getAlrmt1 a _ _ => (pin16? a).map fun p => (.at1, p)
  | .getAlrmt2 a _ _ => (pin16? a).map fun p => (.at2, p)
  | .getInot a _ _ => (pin16? a).map fun p => (.ot, p)
  | .getOl _ _ _ | .getOv _ _ _ | .getOvlock _ _ _ | .getTh _ _ _ | .getThlock _ _ _ => none
  | .config _ _ _ | .join _ _ _ | .dread _ _ _ | .dwrite _ _ _ | .toggle _ _ _ | .clearfaults _ _ _
  | .subscribe _ _ _ _ _ | .link _ _ _ _ | .pwm _ _ _ _ _ | .setovp _ _ _ | .setled _ _ _ | .getled _ _ _
  | .tick _ _ _ => none
  | .inRead _ _ _ | .inWrite _ _ _ _ | .outSetOut _ _ _ _ | .outSetPp _ _ _ _ | .outSetOlen _ _ _ _
  | .outSetJoin _ _ _ _ | .outRead _ _ _ | .outRtstat _ => none

/-- The sticky bit of an output bank that a getter clears (R274, R275, R277). -/
def clearsOut : Instr → Option (OutSticky × Pin)
  | .getOl a _ _ => (pin16? a).map fun p => (.ol, p)
  | .getOv a _ _ => (pin16? a).map fun p => (.ov, p)
  | .getTh a _ _ => (pin16? a).map fun p => (.th, p)
  | .getWb _ _ _ | .getAlrmt1 _ _ _ | .getAlrmt2 _ _ _ | .getInot _ _ _ | .getOvlock _ _ _ | .getThlock _ _ _ => none
  | .config _ _ _ | .join _ _ _ | .dread _ _ _ | .dwrite _ _ _ | .toggle _ _ _ | .clearfaults _ _ _
  | .subscribe _ _ _ _ _ | .link _ _ _ _ | .pwm _ _ _ _ _ | .setovp _ _ _ | .setled _ _ _ | .getled _ _ _
  | .tick _ _ _ => none
  | .inRead _ _ _ | .inWrite _ _ _ _ | .outSetOut _ _ _ _ | .outSetPp _ _ _ _ | .outSetOlen _ _ _ _
  | .outSetJoin _ _ _ _ | .outRead _ _ _ | .outRtstat _ => none

/-- The pin CONFIG names and the mode it asks for (R250). -/
def configures : Instr → Option (Pin × PinMode)
  | .config a b _ =>
    match pin16? a, cfgMode? b with
    | some p, some md => some (p, md)
    | _, _ => none
  | .join _ _ _ | .dread _ _ _ | .dwrite _ _ _ | .toggle _ _ _ | .clearfaults _ _ _
  | .subscribe _ _ _ _ _ | .link _ _ _ _ | .pwm _ _ _ _ _ | .setovp _ _ _ | .setled _ _ _ | .getled _ _ _
  | .tick _ _ _ => none
  | .getWb _ _ _ | .getAlrmt1 _ _ _ | .getAlrmt2 _ _ _ | .getInot _ _ _ | .getOl _ _ _ | .getOv _ _ _
  | .getOvlock _ _ _ | .getTh _ _ _ | .getThlock _ _ _ => none
  | .inRead _ _ _ | .inWrite _ _ _ _ | .outSetOut _ _ _ _ | .outSetPp _ _ _ _ | .outSetOlen _ _ _ _
  | .outSetJoin _ _ _ _ | .outRead _ _ _ | .outRtstat _ => none

/-- The instruction context `c` would take next. -/
def nextRequest (c : Ctx) (s : State) : Option Instr :=
  match fetch (withCur c s) with
  | .instr i _ => some i
  | .reserved _ => none
  | .notEmitted => none
  | .nothing => none

/-- The instruction a move of context `c` runs, or runs a unit of: the one in flight, else its next request. -/
def MayRun (c : Ctx) (s : State) (i : Instr) : Prop :=
  (∃ seen, s.op[c] = .busy i seen) ∨ s.op[c] = .idle ∧ nextRequest c s = some i

/-! ### Operands written out (R89, R91) -/

/-- The field of a pin 1..16. -/
def pinByte (p : Pin) : Byte := BitVec.ofNat 8 (p.val + 1)

/-- The field of a pin 1..20. -/
def subByte (i : SubIx) : Byte := BitVec.ofNat 8 (i.val + 1)

/-- The field of an auxiliary pin 17..20. -/
def auxByte (a : Fin 4) : Byte := BitVec.ofNat 8 (a.val + 17)

/-- The field of a bank. -/
def bankByte (k : Bank) : Byte := BitVec.ofNat 8 k.val

/-- A Boolean field. -/
def boolByte (v : Bool) : Byte := if v then 1#8 else 0#8

/-- The mode field of CONFIG; `UNCONF` has none. -/
def modeByte : PinMode → Byte
  | .unconf => 0#8
  | .input => 1#8
  | .hs => 2#8
  | .pp => 3#8

/-- The link mode field. -/
def linkByte : LinkMode → Byte
  | .none => 0#8
  | .follow => 1#8
  | .invert => 2#8
  | .flipRise => 3#8
  | .flipFall => 4#8
  | .flipAny => 5#8

/-- A pin field in 1..n. -/
def pinField (n : Nat) (a : Byte) : Prop := 1 ≤ a.toNat ∧ a.toNat ≤ n

/-- The fields of each host operation as R91's table has them, in plain numbers; the SPI rows are no host requests. -/
def FieldsLegal : Instr → Prop
  | .config a b c => pinField 16 a ∧ 1 ≤ b.toNat ∧ b.toNat ≤ 3 ∧ c.toNat ≤ 1
  | .join a b c => pinField 16 a ∧ b.toNat ≤ 1 ∧ c.toNat = 0
  | .dread a b c => pinField 20 a ∧ b.toNat = 0 ∧ c.toNat = 0
  | .dwrite a b c => pinField 16 a ∧ b.toNat ≤ 1 ∧ c.toNat = 0
  | .toggle a b c => pinField 16 a ∧ b.toNat = 0 ∧ c.toNat = 0
  | .clearfaults a b c => a.toNat = 0 ∧ b.toNat = 0 ∧ c.toNat = 0
  | .subscribe a b c _ _ => pinField 20 a ∧ b.toNat = 0 ∧ c.toNat = 0
  | .link a b c _ => pinField 16 a ∧ pinField 16 b ∧ c.toNat ≤ 5
  | .pwm a b c _ y => pinField 16 a ∧ b.toNat = 0 ∧ c.toNat = 0 ∧ y.toNat < 65536
  | .setovp a b c => a.toNat ≤ 1 ∧ b.toNat ≤ 1 ∧ c.toNat = 0
  | .setled a b c => a.toNat = 0 ∧ b.toNat ≤ 1 ∧ c.toNat = 0
  | .getled a b c => a.toNat = 0 ∧ b.toNat = 0 ∧ c.toNat = 0
  | .tick a b c => a.toNat = 0 ∧ b.toNat = 0 ∧ c.toNat = 0
  | .getWb a b c => pinField 16 a ∧ b.toNat = 0 ∧ c.toNat = 0
  | .getAlrmt1 a b c => pinField 16 a ∧ b.toNat = 0 ∧ c.toNat = 0
  | .getAlrmt2 a b c => pinField 16 a ∧ b.toNat = 0 ∧ c.toNat = 0
  | .getInot a b c => pinField 16 a ∧ b.toNat = 0 ∧ c.toNat = 0
  | .getOl a b c => pinField 16 a ∧ b.toNat = 0 ∧ c.toNat = 0
  | .getOv a b c => pinField 16 a ∧ b.toNat = 0 ∧ c.toNat = 0
  | .getOvlock a b c => pinField 16 a ∧ b.toNat = 0 ∧ c.toNat = 0
  | .getTh a b c => pinField 16 a ∧ b.toNat = 0 ∧ c.toNat = 0
  | .getThlock a b c => pinField 16 a ∧ b.toNat = 0 ∧ c.toNat = 0
  | .inRead _ _ _ => True
  | .inWrite _ _ _ _ => True
  | .outSetOut _ _ _ _ => True
  | .outSetPp _ _ _ _ => True
  | .outSetOlen _ _ _ _ => True
  | .outSetJoin _ _ _ _ => True
  | .outRead _ _ _ => True
  | .outRtstat _ => True

/-! ### A write of a level, and an operation of one transaction, spelled out -/

/-- What `exec i` makes of the state `u` when the operation is `WriteBody(p, v)` (R253): refused when p is no output or
its lock forbids v; intent alone when locked; else intent, the commanded bit, and the whole commanded word sent. -/
def WritesLevel (i : Instr) (p : Pin) (v : Bool) (s u : State) : Prop :=
  let k := outBank p
  let c := outChan p
  let output := u.mode[p] = .hs ∨ u.mode[p] = .pp
  let ov := bit u.ob[k].ovLock c = true
  let th := bit u.ob[k].thLock c = true
  let kept := modOb k (fun o => { o with intent := setBit o.intent c v }) u
  let sent := modOb k (fun o => { o with intent := setBit o.intent c v, cmd := setBit o.cmd c v }) u
  (¬output → exec i s = .next (complete (.fail .arg) u)) ∧
    (output → ov ∧ v = false → exec i s = .next (complete (.fail .lock) u)) ∧
    (output → th ∧ v = true → exec i s = .next (complete (.fail .lock) u)) ∧
    (output → (ov ∨ th) → ¬(ov ∧ v = false) → ¬(th ∧ v = true) → exec i s = .next (complete okDone kept)) ∧
    (output → ¬ov → ¬th → s.lock = .free →
      exec i s = .next (complete (xactResult s.cfg (.outWrite k .setOut) sent) (afterXact s.cfg (.outWrite k .setOut) sent)))

/-- The state in which `n` exchanges of `frame` were made on `cs`, each with the next echo (R110). -/
def exchangedTimes (cs : ChipSelect) (frame : Frame) (n : Nat) (s : State) : State :=
  { s with bus := s.bus ++ (List.range n).map (fun j => { cs := cs, sent := frame, echo := echoNo s.env j }),
           env := dropEcho^[n] s.env }

/-- What `exec i` does when the operation is one transaction of single exchanges (R113, R114): after the n-th echo, the first
valid one, `good` and its result; after three invalid echoes `bad` and the failure. -/
def OneExchangeAttempts (i : Instr) (cs : ChipSelect) (frame : Frame) (valid : Frame → Bool)
    (good : Frame → State → State) (result : Frame → Result) (bad : State → State) (s : State) : Prop :=
  (∀ n : Nat, n < 3 → (∀ j : Nat, j < n → valid (echoNo s.env j) = false) → valid (echoNo s.env n) = true →
    exec i s = .next (complete (result (echoNo s.env n)) (good (echoNo s.env n) (exchangedTimes cs frame (n + 1) s)))) ∧
  ((∀ j : Nat, j < 3 → valid (echoNo s.env j) = false) →
    exec i s = .next (complete crcFail (bad (exchangedTimes cs frame 3 s))))

/-- The state in which `n` pairs of exchanges were made on `cs`: `frame`, then the realtime-status frame (R156). -/
def exchangedPairs (b : Binding) (cs : ChipSelect) (frame : Frame) (n : Nat) (s : State) : State :=
  { s with bus := s.bus ++ (List.range n).flatMap (fun j =>
             [{ cs := cs, sent := frame, echo := echoNo s.env (2 * j) },
              { cs := cs, sent := rtFrame b, echo := echoNo s.env (2 * j + 1) }]),
           env := dropEcho^[2 * n] s.env }

/-- The gate after a list of samples with their times, oldest first (R220). -/
def debounceAll (g : Gate) : List (Bool × U32) → Gate
  | [] => g
  | x :: rest => debounceAll (debounce g x.1 x.2).1 rest

/-! ### The bus lock (R46, R111, R112) -/

/-- The unit context `c` performs next. -/
def atUnit (c : Ctx) (s : State) : Option UnitKind :=
  match remaining c s with
  | some (.unit k _ _) => some k
  | some (.ret _) => none
  | none => none

/-- Between ACQ and FIN. -/
def insideAttempt : UnitKind → Bool
  | .ex1 => true
  | .ex2 => true
  | .fin => true
  | .acq => false
  | .loc => false
  | .entry => false

/-- Context `c` is inside a bus attempt. -/
def insideBus (c : Ctx) (s : State) : Bool :=
  match atUnit c s with
  | some k => insideAttempt k
  | none => false

/-- The lock is held by exactly the context that is inside a bus attempt. -/
def LockInv (s : State) : Prop := ∀ c : Ctx, s.lock = .held c ↔ insideBus c s = true

/-! ### The forced states of locked channels (R52) -/

/-- An OV-locked channel is commanded on; a TH-locked channel is out of push-pull and commanded off. -/
def channelForced (o : OutBank) (c : Chan) : Prop :=
  (bit o.ovLock c = true → bit o.cmd c = true) ∧
    (bit o.thLock c = true → bit o.pp c = false ∧ bit o.cmd c = false)

/-- Every channel is in the forced state of its lock (R52). -/
def ChannelsForced (s : State) : Prop := ∀ (k : Bank) (c : Chan), channelForced s.ob[k] c

/-- No channel holds both locks (I9). -/
def NoDoubleLock (s : State) : Prop :=
  ∀ (k : Bank) (c : Chan), ¬ (bit s.ob[k].ovLock c = true ∧ bit s.ob[k].thLock c = true)

/-! ### Frames (R81 to R86) -/

/-- A frame the block emits on an input line: an `InFrame` (R81, R132). -/
def emittedIn (f : Frame) : Prop := ∃ (w : Bool) (a d : Byte), f = inFrame w a d

/-- A frame the block emits on an output line: a marked or plain command, a read, or the realtime-status frame (R82 to
R84). -/
def emittedOut (b : Binding) (f : Frame) : Prop :=
  (∃ (marker : Bool) (g : OutField) (d : Byte), f = outFrame marker (g.command b) d) ∨
    (∃ reg : Byte, f = outFrame false b.outCmdReadReg reg) ∨ f = rtFrame b

/-- A recorded exchange whose frame the block may emit on its chip select (R86). -/
def emitted (b : Binding) (r : BusRec) : Prop :=
  match r.cs with
  | .in0 => emittedIn r.sent
  | .in1 => emittedIn r.sent
  | .out0 => emittedOut b r.sent
  | .out1 => emittedOut b r.sent

/-- The next unit of context `c` is the exchange `r`. -/
def SendsNext (c : Ctx) (s : State) (r : BusRec) : Prop :=
  ∃ k act next, remaining c s = some (.unit k act next) ∧ (act s).1.bus = s.bus ++ [r]

/-- Whatever exchange a context is about to make is of a frame the block may emit. -/
def FramesReady (s : State) : Prop := ∀ (c : Ctx) (r : BusRec), SendsNext c s r → emitted s.cfg r

/-- The exchanges of `t` after those of `s` are all of frames the block may emit, with their reserved bits zero (R81 to
R84). -/
def EmitsOnly (s t : State) : Prop :=
  ∃ new, t.bus = s.bus ++ new ∧ ∀ r ∈ new, emitted s.cfg r ∧
    ((r.cs = .in0 ∨ r.cs = .in1) → r.sent.chk.extractLsb' 5 3 = 0#3) ∧
    ((r.cs = .out0 ∨ r.cs = .out1) → r.sent.chk.getLsbD 7 = false)

end Sys2Proof.Machine
end

