-- ==== Sys2Proof/Certificates/Slice0/Obligations.lean ====
section
/-! DEFINITION. The statements for the provers. Each says what the spec's numbered rules say of an instruction or of the
block; where one rests on a choice of the model, its docstring names the log entry. Operands are written out from their
values (`pinByte p` is the field of pin p, and so on), so that no legal operand is shut out. -/

open Sys2Proof Sys2Proof.Machine

/-! ### Encodings and checks -/

/-- Words written out from 30_encoding.md R81, R83, R91 decode to the instructions they stand for (95_test_vectors.md V-ENC,
V-IN, V-OUT), and a reserved opcode to none. -/
def Obligations.WordsDecode : Prop :=
  decodeHost [0x01010201#32] = .ok (.config 1 2 1, []) ∧
  decodeHost [0x04020100#32] = .ok (.dwrite 2 1 0, []) ∧
  decodeHost [0x07110000#32, 0x64#32, 9#32] = .ok (.subscribe 0x11 0 0 0x64 9, []) ∧
  decodeHost [0x08010901#32, 0#32] = .ok (.link 1 9 1 0, []) ∧
  decodeHost [0x09050000#32, 0x3E8#32, 0x4000#32] = .ok (.pwm 5 0 0 0x3E8 0x4000, []) ∧
  decodeHost [0x0A000100#32] = .ok (.setovp 0 1 0, []) ∧
  decodeHost [0x0D000000#32] = .ok (.tick 0 0 0, []) ∧
  decodeHost [0x16020000#32] = .ok (.getOvlock 2 0 0, []) ∧
  decodeHost [0x0E000000#32] = .error (.reservedOpcode 0x0E) ∧
  ∀ b : Binding, decodeFrame b .in0 0x04000F#24 = .ok (.inRead 0 4 0x0F) ∧
    decodeFrame b .in1 0x861001#24 = .ok (.inWrite 1 6 0x10 1)

/-- No bit of an encoding is dropped: every instruction, well formed or not, is read back from its words. The output
rows need the binding's commands to be told apart (log 1). -/
def Obligations.EncodingReadBack : Prop :=
  ∀ (b : Binding) (i : Instr), bindingOk b = true → commandsDistinct b = true → decodeImage b (encode b i) = some i

/-- The other direction: whatever the decoder accepts is exactly the encoding of what it answers, so no two images that
differ in a bit are read as one instruction. -/
def Obligations.DecodingExact : Prop :=
  ∀ (b : Binding) (m : Image) (i : Instr), decodeImage b m = some i → encode b i = m

/-- R131: the echo check of the input family, what it says of the all-zero and all-ones echoes, that it finds every change
of a single bit, and that it does not find every change of two. -/
def Obligations.InputEchoCheck : Prop :=
  (∀ (b : Binding) (e : Frame), inValid b e = true ↔
    crc5 e.w1 e.w0 (if b.inRxCrcMsbs then e.chk &&& 0xE0#8 else 0#8) = e.chk.extractLsb' 0 5) ∧
  crc5 0 0 0 = 7#5 ∧ crc5 0xFF 0xFF 0xE0 = 3#5 ∧
  ∀ b : Binding, b.inRxCrcMsbs = true →
    inValid b ⟨0, 0, 0⟩ = false ∧ inValid b ⟨0xFF, 0xFF, 0xFF⟩ = false ∧
    (∀ (e : Frame) (i : Fin 24), inValid b e = true → inValid b (Frame.ofBits (e.bits ^^^ (1#24 <<< i.val))) = false) ∧
    inValid b (Frame.ofBits 0x020003#24) = true ∧ inValid b (Frame.ofBits 0x028002#24) = true

/-- R152: the echo check of the output family ignores bit 7 of the check word and finds every other change of a single bit. -/
def Obligations.OutputEchoCheck : Prop :=
  (∀ e : Frame, outValid e = true ↔ crc7 e.w1 e.w0 = e.chk.extractLsb' 0 7) ∧
  crc7 0 0 = 3#7 ∧ outValid ⟨0, 0, 0⟩ = false ∧
  (∀ (e : Frame) (i : Fin 24), i.val ≠ 7 → outValid e = true →
    outValid (Frame.ofBits (e.bits ^^^ (1#24 <<< i.val))) = false) ∧
  (∀ e : Frame, outValid (Frame.ofBits (e.bits ^^^ (1#24 <<< 7))) = outValid e)

/-! ### Pins and the join rule -/

/-- R136, R160, R137: the bank and bit of every pin on both sides, numbered in opposite directions. -/
def Obligations.PinMaps : Prop :=
  ∀ p : Pin,
    (p.val + 1 ≤ 8 → (inBank p).val = 0 ∧ (inChan p).val = 8 - (p.val + 1) ∧
      (outBank p).val = 0 ∧ (outChan p).val = (p.val + 1) - 1) ∧
    (9 ≤ p.val + 1 → (inBank p).val = 1 ∧ (inChan p).val = 16 - (p.val + 1) ∧
      (outBank p).val = 1 ∧ (outChan p).val = (p.val + 1) - 9) ∧
    (inChan p).val + (outChan p).val = 7

/-- R161, R162, R267: the join rule over every pin of the group, and when a configuration breaks it. -/
def Obligations.JoinRule : Prop :=
  (∀ (b : Binding) (mode : Vector PinMode 16) (p : Pin), joinAllowed b mode p = true ↔
    ∀ q : Pin, q.val / 4 = p.val / 4 →
      if b.joinSlots.getLsbD ((outChan q).val % 4) then mode[q] = .hs else mode[q] = .hs ∨ mode[q] = .input) ∧
  (∀ (b : Binding) (p : Pin) (md : PinMode) (s : State), joinBroken b p md s = true ↔
    (∃ q : Pin, q.val / 4 = p.val / 4 ∧ bit s.ob[outBank q].join (outChan q) = true) ∧
      joinAllowed b (s.mode.set p md) p = false)

/-! ### Failures that change nothing -/

/-- R90, R301: an illegal field ends a host request with `FAIL(ARG)`, and nothing else is read, written or sent. -/
def Obligations.IllegalFieldsRefused : Prop :=
  ∀ (i : Instr) (s : State), ¬FieldsLegal i → exec i s = .next (complete (.fail .arg) s)

/-- R301, R305: an operation that answers `FAIL(ARG)` has changed nothing; a host race it met is still recorded (R266). -/
def Obligations.ArgFailureChangesNothing : Prop :=
  ∀ (i : Instr) (s t : State), exec i s = .next t → t.resp[s.cur] = some (.fail .arg) →
    t = complete (.fail .arg) { s with faults := t.faults }

/-- R303, R305: an operation that answers `FAIL(LOCK)` has changed nothing, but that PWM with duty 0 has disabled its
channel first (R232; log 27). -/
def Obligations.LockFailureChangesNothing : Prop :=
  ∀ (i : Instr) (s t : State), exec i s = .next t → t.resp[s.cur] = some (.fail .lock) →
    t = complete (.fail .lock) { s with faults := t.faults } ∨
    ∃ (p : Pin) (f y : U32), i = .pwm (pinByte p) 0 0 f y ∧ duty y = 0 ∧
      t = complete (.fail .lock)
        { s with faults := t.faults, pwm := s.pwm.set p { s.pwm[p] with period := 0#32, on := 0#32, high := false } }

/-- R92, R265: a reserved opcode answers `FAIL(ARG)` and takes its head word, and does nothing else, on either context (R315). -/
def Obligations.ReservedOpcodeStep : Prop :=
  ∀ (c : Ctx) (s : State) (h : U32) (rest : List U32),
    (0x19 ≤ (headOp h).toNat ∨ (headOp h).toNat = 0 ∨ (headOp h).toNat = 0x0E ∨ (headOp h).toNat = 0x0F) →
    ModelFault.badBinding ∉ s.faults → s.op[c] = .idle → s.busReq[c] = [] →
    s.req[c] = h :: rest → hasWork (otherCtx c) s = false →
    step s = .next (complete (.fail .arg) { s with cur := c, req := s.req.set c rest })

/-! ### Status, fault memories, protection enable -/

/-- R262, R263: SETLED writes `led`, GETLED returns it, and nothing else happens. -/
def Obligations.LedOperations : Prop :=
  (∀ (v : Bool) (s : State), exec (.setled 0 (boolByte v) 0) s = .next (complete okDone { s with led := v })) ∧
  (∀ s : State, exec (.getled 0 0 0) s = .next (complete (.ok (.level s.led)) s))

/-- R256: CLEARFAULTS marks both output banks and touches nothing else: no sticky memory, no exchange. -/
def Obligations.ClearfaultsMarks : Prop :=
  ∀ s : State, exec (.clearfaults 0 0 0) s =
    .next (complete okDone { s with ob := #v[{ s.ob[0] with clrPending := true }, { s.ob[1] with clrPending := true }] })

/-- R261: SETOVP writes the bank's enable alone, so every lock bit stays as it is; a bank above 1 is `FAIL(ARG)`. -/
def Obligations.SetovpWrites : Prop :=
  (∀ (k : Bank) (en : Bool) (s : State),
    exec (.setovp (bankByte k) (boolByte en) 0) s =
      .next (complete okDone { s with ob := s.ob.set k { s.ob[k] with ovProtect := en } })) ∧
  (∀ (a : Byte) (en : Bool) (s : State), 1 < a.toNat →
    exec (.setovp a (boolByte en) 0) s = .next (complete (.fail .arg) s))

/-- R270 to R273, R279: the four getters of an input bank return the pin's sticky bit and clear it alone; a pin outside 1..16
is `FAIL(ARG)`. -/
def Obligations.InputGetters : Prop :=
  (∀ (p : Pin) (s : State),
    let k := inBank p
    let c := inChan p
    (let i := Instr.getWb (pinByte p) 0 0;
      exec i s = .next (complete (.ok (.level (bit s.ib[k].stWB c)))
        (modIb k (fun r => { r with stWB := setBit r.stWB c false }) (recordRace i s)))) ∧
    (let i := Instr.getAlrmt1 (pinByte p) 0 0;
      exec i s = .next (complete (.ok (.level (bit s.ib[k].stAT1 c)))
        (modIb k (fun r => { r with stAT1 := setBit r.stAT1 c false }) (recordRace i s)))) ∧
    (let i := Instr.getAlrmt2 (pinByte p) 0 0;
      exec i s = .next (complete (.ok (.level (bit s.ib[k].stAT2 c)))
        (modIb k (fun r => { r with stAT2 := setBit r.stAT2 c false }) (recordRace i s)))) ∧
    (let i := Instr.getInot (pinByte p) 0 0;
      exec i s = .next (complete (.ok (.level (bit s.ib[k].stOT c)))
        (modIb k (fun r => { r with stOT := setBit r.stOT c false }) (recordRace i s))))) ∧
  (∀ (a : Byte) (s : State), ¬pinField 16 a →
    exec (.getWb a 0 0) s = .next (complete (.fail .arg) s) ∧ exec (.getAlrmt1 a 0 0) s = .next (complete (.fail .arg) s) ∧
    exec (.getAlrmt2 a 0 0) s = .next (complete (.fail .arg) s) ∧ exec (.getInot a 0 0) s = .next (complete (.fail .arg) s))

/-- R274, R275, R277, R279: the three sticky getters of an output bank return the pin's sticky bit and clear it alone; a pin
outside 1..16 is `FAIL(ARG)`. -/
def Obligations.OutputGetters : Prop :=
  (∀ (p : Pin) (s : State),
    let k := outBank p
    let c := outChan p
    (let i := Instr.getOl (pinByte p) 0 0;
      exec i s = .next (complete (.ok (.level (bit s.ob[k].stOL c)))
        (modOb k (fun r => { r with stOL := setBit r.stOL c false }) (recordRace i s)))) ∧
    (let i := Instr.getOv (pinByte p) 0 0;
      exec i s = .next (complete (.ok (.level (bit s.ob[k].stOV c)))
        (modOb k (fun r => { r with stOV := setBit r.stOV c false }) (recordRace i s)))) ∧
    (let i := Instr.getTh (pinByte p) 0 0;
      exec i s = .next (complete (.ok (.level (bit s.ob[k].stTH c)))
        (modOb k (fun r => { r with stTH := setBit r.stTH c false }) (recordRace i s))))) ∧
  (∀ (a : Byte) (s : State), ¬pinField 16 a →
    exec (.getOl a 0 0) s = .next (complete (.fail .arg) s) ∧ exec (.getOv a 0 0) s = .next (complete (.fail .arg) s) ∧
    exec (.getTh a 0 0) s = .next (complete (.fail .arg) s))

/-- R276, R278: the lock getters return the lock bit and clear nothing; a pin outside 1..16 is `FAIL(ARG)`. -/
def Obligations.LockGetters : Prop :=
  (∀ (p : Pin) (s : State),
    (let i := Instr.getOvlock (pinByte p) 0 0;
      exec i s = .next (complete (.ok (.level (bit s.ob[outBank p].ovLock (outChan p)))) (recordRace i s))) ∧
    (let i := Instr.getThlock (pinByte p) 0 0;
      exec i s = .next (complete (.ok (.level (bit s.ob[outBank p].thLock (outChan p)))) (recordRace i s)))) ∧
  (∀ (a : Byte) (s : State), ¬pinField 16 a →
    exec (.getOvlock a 0 0) s = .next (complete (.fail .arg) s) ∧ exec (.getThlock a 0 0) s = .next (complete (.fail .arg) s))

/-! ### Reads, writes, configuration -/

/-- R252, R258: DREAD returns the input snapshot bit, the commanded bit, or a fresh draw of an auxiliary line; an UNCONF pin
and a pin outside 1..20 are `FAIL(ARG)`. No device access. -/
def Obligations.DreadReturns : Prop :=
  (∀ (p : Pin) (s : State),
    exec (.dread (pinByte p) 0 0) s = .next (complete
      (match s.mode[p] with
        | .input => .ok (.level (bit s.ib[inBank p].inputs (inChan p)))
        | .hs => .ok (.level (bit s.ob[outBank p].cmd (outChan p)))
        | .pp => .ok (.level (bit s.ob[outBank p].cmd (outChan p)))
        | .unconf => .fail .arg) s)) ∧
  (∀ (a : Fin 4) (s : State), exec (.dread (auxByte a) 0 0) s = .next (complete (.ok (.level (aux a s))) (afterAux s))) ∧
  (∀ (a : Byte) (s : State), ¬pinField 20 a → exec (.dread a 0 0) s = .next (complete (.fail .arg) s))

/-- R253, R183, R186: DWRITE in every case: not an output, refused by a lock, intent alone under a lock, or the commanded
bit set and the whole commanded word sent; a pin outside 1..16 is `FAIL(ARG)`. -/
def Obligations.DwriteEffect : Prop :=
  (∀ (p : Pin) (v : Bool) (s : State),
    let i := Instr.dwrite (pinByte p) (boolByte v) 0
    WritesLevel i p v s (recordRace i s)) ∧
  (∀ (a : Byte) (v : Bool) (s : State), ¬pinField 16 a →
    exec (.dwrite a (boolByte v) 0) s = .next (complete (.fail .arg) s))

/-- R254: TOGGLE is the write of the inverse of the commanded bit, in every case of DWRITE; a pin outside 1..16 is
`FAIL(ARG)`. -/
def Obligations.ToggleEffect : Prop :=
  (∀ (p : Pin) (s : State),
    let i := Instr.toggle (pinByte p) 0 0
    WritesLevel i p (!bit s.ob[outBank p].cmd (outChan p)) s (recordRace i s)) ∧
  (∀ (a : Byte) (s : State), ¬pinField 16 a → exec (.toggle a 0 0) s = .next (complete (.fail .arg) s))

/-- R250, R304: the checks of CONFIG in their order: push-pull with detection, a broken join group, push-pull under a
thermal lock. -/
def Obligations.ConfigRefused : Prop :=
  ∀ (p : Pin) (md : PinMode) (det : Bool) (s : State), md ≠ .unconf →
    let i := Instr.config (pinByte p) (modeByte md) (boolByte det)
    (md = .pp ∧ det = true → exec i s = .next (complete (.fail .arg) (recordRace i s))) ∧
    (joinBroken s.cfg p md s = true → exec i s = .next (complete (.fail .arg) (recordRace i s))) ∧
    (md = .pp ∧ det = false ∧ joinBroken s.cfg p md s = false ∧ bit s.ob[outBank p].thLock (outChan p) = true →
      exec i s = .next (complete (.fail .lock) (recordRace i s)))

/-- R250: a CONFIG that passes its checks runs S1 to S4 in order, ends at the first failing transaction, keeps what it wrote
before it, and sets the mode only at the end (`configRun`, the rule written out field by field). -/
def Obligations.ConfigEffect : Prop :=
  ∀ (p : Pin) (md : PinMode) (det : Bool) (s : State), md ≠ .unconf → s.lock = .free →
    ¬(md = .pp ∧ det = true) → joinBroken s.cfg p md s = false →
    ¬(md = .pp ∧ bit s.ob[outBank p].thLock (outChan p) = true) →
    let i := Instr.config (pinByte p) (modeByte md) (boolByte det)
    let out := configRun s.cfg p md det (recordRace i s)
    exec i s = .next (complete out.2 out.1)

/-- R250, R305: a CONFIG that passed its checks either answers OK, and then the pin alone has the new mode and its push-pull
(the request, unless the thermal lock holds the bit), open-load and wire-break bits are what the mode and the detection
flag ask for, or fails with TRANSPORT, and then no mode has changed. Either way S1 has made an input pin's intent LOW and its
commanded bit LOW unless over-voltage holds it, any other mode leaves both, and the bits of every other channel stay. -/
def Obligations.ConfigOutcome : Prop :=
  ∀ (p : Pin) (md : PinMode) (det : Bool) (s t : State), md ≠ .unconf → s.lock = .free →
    ¬(md = .pp ∧ det = true) → joinBroken s.cfg p md s = false →
    ¬(md = .pp ∧ bit s.ob[outBank p].thLock (outChan p) = true) →
    exec (.config (pinByte p) (modeByte md) (boolByte det)) s = .next t →
    let k := outBank p
    let c := outChan p
    ((t.resp[s.cur] = some okDone ∧ t.mode = s.mode.set p md ∧
        bit t.ob[k].ppIntent c = decide (md = .pp) ∧
        (bit s.ob[k].thLock c = true → bit t.ob[k].pp c = bit s.ob[k].pp c) ∧
        (bit s.ob[k].thLock c = false → bit t.ob[k].pp c = decide (md = .pp)) ∧
        bit t.ob[k].olen c = (decide (md = .hs) && det) ∧
        bit t.ib[inBank p].wbCfg (inChan p) = (decide (md = .input) && det)) ∨
      ((t.resp[s.cur] = some crcFail ∨ t.resp[s.cur] = some verifyFail) ∧ t.mode = s.mode)) ∧
    (md = .input → bit t.ob[k].intent c = false ∧
      (bit s.ob[k].ovLock c = true → bit t.ob[k].cmd c = bit s.ob[k].cmd c) ∧
      (bit s.ob[k].ovLock c = false → bit t.ob[k].cmd c = false)) ∧
    (md ≠ .input → bit t.ob[k].intent c = bit s.ob[k].intent c ∧ bit t.ob[k].cmd c = bit s.ob[k].cmd c) ∧
    (∀ (j : Bank) (d : Chan), ¬(j = k ∧ d = c) →
      bit t.ob[j].intent d = bit s.ob[j].intent d ∧ bit t.ob[j].cmd d = bit s.ob[j].cmd d ∧
      bit t.ob[j].ppIntent d = bit s.ob[j].ppIntent d ∧ bit t.ob[j].pp d = bit s.ob[j].pp d ∧
      bit t.ob[j].olen d = bit s.ob[j].olen d) ∧
    (∀ (j : Bank) (d : Chan), ¬(j = inBank p ∧ d = inChan p) → bit t.ib[j].wbCfg d = bit s.ib[j].wbCfg d)

/-- R251: JOIN refuses a group that does not allow it and changes nothing; else it writes the pin's own join bit and
configures the chip with read-back. Unjoining is never refused. -/
def Obligations.JoinEffect : Prop :=
  ∀ (p : Pin) (en : Bool) (s : State),
    let i := Instr.join (pinByte p) (boolByte en) 0
    let u := modOb (outBank p) (fun o => { o with join := setBit o.join (outChan p) en }) (recordRace i s)
    (en = true ∧ joinAllowed s.cfg s.mode p = false → exec i s = .next (complete (.fail .arg) (recordRace i s))) ∧
    (en = false ∨ joinAllowed s.cfg s.mode p = true → s.lock = .free →
      exec i s = .next (complete (cfgResult s.cfg (outBank p) .join u) (afterCfg s.cfg (outBank p) .join u)))

/-! ### Conditioning -/

/-- R257: SUBSCRIBE replaces the entry of pin 1..20, with a fresh window from NowMs and no stable value, or the present
sample where the binding says so; a null callback clears it. -/
def Obligations.SubscribeEffect : Prop :=
  ∀ (k : SubIx) (interval cb : U32) (s : State),
    let i := Instr.subscribe (subByte k) 0 0 interval cb
    let u := recordRace i s
    let fresh (stable : Option Bool) : Sub := { cb := cb, gate := { interval := interval, stable := stable, lastMatch := nowMs s } }
    (cb = 0#32 → exec i s = .next (complete okDone { u with sub := s.sub.set k Sub.reset })) ∧
    (cb ≠ 0#32 → s.cfg.initStable = .unknown →
      exec i s = .next (complete okDone { u with sub := s.sub.set k (fresh none), env := dropMs s.env })) ∧
    (cb ≠ 0#32 → s.cfg.initStable = .sample →
      exec i s = .next (complete okDone
        { (sample k (afterMs u)).2 with sub := s.sub.set k (fresh (sample k (afterMs u)).1) }))

/-- R259: LINK replaces the entry of the pair, whatever the pins' modes; mode NONE clears it. -/
def Obligations.LinkEffect : Prop :=
  ∀ (p q : Pin) (lm : LinkMode) (interval : U32) (s : State),
    let i := Instr.link (pinByte p) (pinByte q) (linkByte lm) interval
    let u := recordRace i s
    (lm = .none → exec i s = .next (complete okDone { u with link := s.link.set p (s.link[p].set q Link.reset) })) ∧
    (lm ≠ .none → exec i s = .next (complete okDone
      { u with
          link := s.link.set p (s.link[p].set q
            { lmode := lm,
              gate := { interval := interval,
                        stable := match s.cfg.initStable with
                          | .unknown => none
                          | .sample => pinLevel p s,
                        lastMatch := nowMs s } }),
          env := dropMs s.env }))

/-- R260, R232: PWM on a pin that is not push-pull is `FAIL(ARG)`; duty 0 disables the channel, whatever the frequency, and
writes LOW; a frequency of 0 or above 1,000,000 is `FAIL(ARG)`; else the channel restarts with the period and on-time of
R231, and no device access. -/
def Obligations.PwmEffect : Prop :=
  ∀ (p : Pin) (f : U32) (d : BitVec 16) (s : State),
    let i := Instr.pwm (pinByte p) 0 0 f (d.setWidth 32)
    let u := recordRace i s
    (s.mode[p] ≠ .pp → exec i s = .next (complete (.fail .arg) u)) ∧
    (s.mode[p] = .pp → d = 0#16 →
      WritesLevel i p false s { u with pwm := s.pwm.set p { s.pwm[p] with period := 0#32, on := 0#32, high := false } }) ∧
    (s.mode[p] = .pp → d ≠ 0#16 → f.toNat = 0 ∨ 1000000 < f.toNat → exec i s = .next (complete (.fail .arg) u)) ∧
    (s.mode[p] = .pp → d ≠ 0#16 → 1 ≤ f.toNat → f.toNat ≤ 1000000 → exec i s = .next (complete okDone
      { u with
          pwm := s.pwm.set p { period := BitVec.ofNat 32 (1000000 / f.toNat),
                               on := BitVec.ofNat 32 (1000000 / f.toNat * d.toNat / 65535), start := nowUs s, high := false },
          env := dropUs s.env }))

/-- R231: the period is 1 to 1,000,000 microseconds, the product is below 2^36, the on-time is at most the period and equal to
it exactly at full duty, and both fit their 32-bit fields. -/
def Obligations.PwmArithmetic : Prop :=
  ∀ f d : Nat, 1 ≤ f → f ≤ 1000000 → d ≤ 65535 →
    1 ≤ pwmPeriod f ∧ pwmPeriod f ≤ 1000000 ∧ pwmPeriod f * d < 2 ^ 36 ∧ pwmOn (pwmPeriod f) d ≤ pwmPeriod f ∧
    (pwmOn (pwmPeriod f) d = pwmPeriod f ↔ d = 65535) ∧
    (BitVec.ofNat 32 (pwmPeriod f)).toNat = pwmPeriod f ∧ (BitVec.ofNat 32 (pwmPeriod f) ≠ 0#32) ∧
    (BitVec.ofNat 32 (pwmOn (pwmPeriod f) d)).toNat = pwmOn (pwmPeriod f) d

/-- R220, R224: after a sample that equals the stable value, any number of samples before the interval has elapsed leave the
entry waiting whether they differ or not at its last match; the change commits at the first differing sample once the time
since the last match reaches the interval, and an equal sample starts the wait again. An entry with no stable value yet
(UNKNOWN) waits from its last match through any samples, and then commits to whatever level it sees. -/
def Obligations.DebounceCommitLaw : Prop :=
  (∀ (g : Gate) (v : Bool) (t now : U32) (waiting : List U32) (lv : Bool), g.stable = some v →
    (∀ x ∈ waiting, (x - t).toNat < g.interval.toNat) →
    let h := debounceAll g ((v, t) :: waiting.map fun x => (!v, x))
    h = { g with lastMatch := t } ∧
    ((debounce h lv now).2 = true ↔ lv = !v ∧ g.interval.toNat ≤ (now - t).toNat) ∧
    ((debounce h lv now).2 = true → (debounce h lv now).1 = { g with stable := some lv, lastMatch := now }) ∧
    (lv = v → (debounce h lv now).1 = { g with lastMatch := now }) ∧
    ((debounce h lv now).2 = false → lv ≠ v → (debounce h lv now).1 = h)) ∧
  (∀ (g : Gate) (now : U32) (waiting : List (Bool × U32)) (lv : Bool), g.stable = none →
    (∀ x ∈ waiting, (x.2 - g.lastMatch).toNat < g.interval.toNat) →
    let h := debounceAll g waiting
    h = g ∧
    ((debounce h lv now).2 = true ↔ g.interval.toNat ≤ (now - g.lastMatch).toNat) ∧
    ((debounce h lv now).2 = true → (debounce h lv now).1 = { g with stable := some lv, lastMatch := now }) ∧
    ((debounce h lv now).2 = false → (debounce h lv now).1 = g))

/-- R221 to R223, R258: the subscription pass, entry after entry, gives each of the twenty entries its debounce step on the
level it sees (`subLevel`: a pin's level, or for an auxiliary line its own fresh draw, the active ones in index order), emits
exactly the events of the entries that committed, in index order after those already there, skips an entry that is
inactive or whose pin is UNCONF, takes one draw for each active auxiliary entry, and changes nothing else. -/
def Obligations.SubscriptionPassEvents : Prop :=
  ∀ (now : U32) (s : State),
    let t := (List.finRange 20).foldl (fun u i => (subEntry now i u).1) s
    (∀ i : SubIx, t.sub[i] = match subLevel i s with
      | none => s.sub[i]
      | some lv => if s.sub[i].cb = 0#32 then s.sub[i] else { s.sub[i] with gate := (debounce s.sub[i].gate lv now).1 }) ∧
    t.events = s.events ++ (List.finRange 20).filterMap (fun i => match subLevel i s with
      | none => none
      | some lv =>
        if s.sub[i].cb ≠ 0#32 ∧ (debounce s.sub[i].gate lv now).2 = true then
          some { pin := i.val + 1, level := lv, cb := s.sub[i].cb }
        else none) ∧
    t.env = (afterAux^[auxActive s 4] s).env ∧
    t = { s with sub := t.sub, events := t.events, env := t.env }

/-! ### Protection -/

/-- R181, R182: the over-voltage pass treats each channel by itself: it engages, holds or releases as the rule says, and
touches the commanded bits, the lock bits and the timestamps alone. -/
def Obligations.OverVoltagePass : Prop :=
  ∀ (now : U32) (o : OutBank),
    let t := ovSteps now o
    t = { o with cmd := t.cmd, ovLock := t.ovLock, lockTs := t.lockTs } ∧
    ∀ c : Chan,
      let engage := bit o.ovRaw c = true ∧ bit o.pp c = false ∧ (bit o.cmd c = false ∨ bit o.ovLock c = true)
      let release := bit o.ovLock c = true ∧ 10000 ≤ (now - o.lockTs[c]).toNat
      (engage → bit t.cmd c = true ∧ bit t.ovLock c = true ∧ t.lockTs[c] = now) ∧
      (¬engage → release → bit t.cmd c = bit o.intent c ∧ bit t.ovLock c = false ∧ t.lockTs[c] = o.lockTs[c]) ∧
      (¬engage → ¬release → bit t.cmd c = bit o.cmd c ∧ bit t.ovLock c = bit o.ovLock c ∧ t.lockTs[c] = o.lockTs[c])

/-- R184, R185: the thermal pass, channel by channel: push-pull reverted and output forced off on engage, both restored to
what the user last asked for on release. -/
def Obligations.ThermalPass : Prop :=
  ∀ (now : U32) (o : OutBank),
    let t := thSteps now o
    t = { o with cmd := t.cmd, pp := t.pp, thLock := t.thLock, lockTs := t.lockTs } ∧
    ∀ c : Chan,
      let engage := bit o.thRaw c = true ∧ (bit o.pp c = true ∨ bit o.thLock c = true) ∧
        (bit o.cmd c = true ∨ bit o.thLock c = true)
      let release := bit o.thLock c = true ∧ 10000 ≤ (now - o.lockTs[c]).toNat
      (engage → bit t.pp c = false ∧ bit t.cmd c = false ∧ bit t.thLock c = true ∧ t.lockTs[c] = now) ∧
      (¬engage → release → bit t.pp c = bit o.ppIntent c ∧ bit t.cmd c = bit o.intent c ∧ bit t.thLock c = false ∧
        t.lockTs[c] = o.lockTs[c]) ∧
      (¬engage → ¬release → bit t.pp c = bit o.pp c ∧ bit t.cmd c = bit o.cmd c ∧ bit t.thLock c = bit o.thLock c ∧
        t.lockTs[c] = o.lockTs[c])

/-- R189: the lockout properties the source states. Over-voltage: a high-side channel that is off is forced on and locked; a
write of LOW under the lock fails; 10,000 ms later with the flag clear the next pass restores the last request and
unlocks. Thermal: a push-pull channel that is on reverts to high-side, is forced off and locked; a request for push-pull under
the lock fails; 10,000 ms later mode and value are restored. -/
def Obligations.LockoutProperties : Prop :=
  (∀ (now : U32) (o : OutBank) (c : Chan), bit o.pp c = false → bit o.ovRaw c = true → bit o.cmd c = false →
    bit (ovSteps now o).cmd c = true ∧ bit (ovSteps now o).ovLock c = true) ∧
  (∀ (p : Pin) (s : State), (s.mode[p] = .hs ∨ s.mode[p] = .pp) → bit s.ob[outBank p].ovLock (outChan p) = true →
    ∃ t, exec (.dwrite (pinByte p) 0 0) s = .next t ∧ t.resp[s.cur] = some (.fail .lock) ∧ t.ob = s.ob ∧ t.bus = s.bus) ∧
  (∀ (now : U32) (o : OutBank) (c : Chan), bit o.ovLock c = true → bit o.ovRaw c = false →
    10000 ≤ (now - o.lockTs[c]).toNat →
    bit (ovSteps now o).cmd c = bit o.intent c ∧ bit (ovSteps now o).ovLock c = false) ∧
  (∀ (now : U32) (o : OutBank) (c : Chan), bit o.pp c = true → bit o.thRaw c = true → bit o.cmd c = true →
    bit (thSteps now o).pp c = false ∧ bit (thSteps now o).cmd c = false ∧ bit (thSteps now o).thLock c = true) ∧
  (∀ (p : Pin) (s : State), bit s.ob[outBank p].thLock (outChan p) = true →
    ∃ t f, exec (.config (pinByte p) 3 0) s = .next t ∧ t.resp[s.cur] = some (.fail f) ∧
      (joinBroken s.cfg p .pp s = false → f = .lock) ∧ t.ob = s.ob ∧ t.mode = s.mode ∧ t.bus = s.bus) ∧
  (∀ (now : U32) (o : OutBank) (c : Chan), bit o.thLock c = true → bit o.thRaw c = false →
    10000 ≤ (now - o.lockTs[c]).toNat →
    bit (thSteps now o).pp c = bit o.ppIntent c ∧ bit (thSteps now o).cmd c = bit o.intent c ∧
      bit (thSteps now o).thLock c = false)

/-! ### The tick -/

/-- R200 to R208, R222, R226, R227, R233: TICK answers OK whatever fails inside it, and leaves the state that its stages leave
(`tickRun`, the rules written out field by field): the refresh of both banks, the phase if the gate is open, subscriptions,
links, PWM; then the status function of that state, its operation still in flight. STATUS_FN is the opaque function of
log 10; in its argument the tick stands in the table of operations `o` with all it has observed. -/
def Obligations.TickEffect : Prop :=
  ∀ s : State, s.lock = .free →
    let t := tickRun s.cfg (recordRace (.tick 0 0 0) s)
    ∃ o : Vector Op 2, o[otherCtx s.cur] = s.op[otherCtx s.cur] ∧ (∃ seen, o[s.cur] = .busy (.tick 0 0 0) seen) ∧
      exec (.tick 0 0 0) s = .next (complete okDone
        { t with statusOut := Config.statusFn { t with op := o, resp := s.resp.set s.cur none } })

/-- R202: a tick advances the phase modulo 5, and its time, exactly when 20 ms have passed since the phase before it
started; else it leaves the scheduler alone. Only the tick's first time reading counts. (What the phase does is
`TickEffect` and `TickWords`.) -/
def Obligations.TickScheduler : Prop :=
  ∀ s : State, s.lock = .free →
    ∃ t, exec (.tick 0 0 0) s = .next t ∧ t.resp[s.cur] = some okDone ∧
      (20 ≤ (nowMs s - s.sched.lastMs).toNat →
        t.sched.lastMs = nowMs s ∧ t.sched.phase.val = (s.sched.phase.val + 1) % 5) ∧
      ((nowMs s - s.sched.lastMs).toNat < 20 → t.sched = s.sched)

/-- R201, R204 to R206, R208, R180: what a whole TICK leaves in the raw and sticky words and the lock words, bank by bank. A
word is overwritten, and its sticky word ORed, by the value of its read when the read succeeds, and by nothing else: the
wire-open words at every tick; the fault-register words in phase 0 (bits 3 and 4 and the over-temperature bit fill their
sticky words, bit 5 alone asks for fault register 2); open load, over-voltage and thermal in phases 1, 2 and 4. The OV
machine runs in phase 2 on a protected bank alone, the TH machine in phase 4, on the raw word as it then stands. -/
def Obligations.TickWords : Prop :=
  ∀ s : State, s.lock = .free → ∃ t, exec (.tick 0 0 0) s = .next t ∧
    let b := s.cfg
    let now := nowMs s
    let u := refreshed b s
    let runs (n : Nat) : Prop := 20 ≤ (now - s.sched.lastMs).toNat ∧ s.sched.phase.val = n
    (∀ k : Bank,
      let r := xactValue b (.inRead k b.inRegWb) (if k = 0 then s else refreshRun b 0 s)
      t.ib[k].wbRaw = r.getD s.ib[k].wbRaw ∧ t.ib[k].stWB = s.ib[k].stWB ||| r.getD 0#8) ∧
    (¬runs 0 → ∀ k : Bank, t.ib[k].f1Raw = s.ib[k].f1Raw ∧ t.ib[k].f2Raw = s.ib[k].f2Raw ∧
      t.ib[k].stAT1 = s.ib[k].stAT1 ∧ t.ib[k].stAT2 = s.ib[k].stAT2 ∧ t.ib[k].stOT = s.ib[k].stOT) ∧
    (runs 0 → ∀ k : Bank,
      let v := if k = 0 then u else phase0Run b 0 u
      let r1 := xactValue b (.inRead k b.inRegFault1) v
      let r2 := if (r1.getD 0#8).getLsbD 5 = true then
        xactValue b (.inRead k b.inRegFault2) (afterXact b (.inRead k b.inRegFault1) v) else none
      t.ib[k].f1Raw = r1.getD s.ib[k].f1Raw ∧ t.ib[k].f2Raw = r2.getD s.ib[k].f2Raw ∧
      t.ib[k].stAT1 = (if (r1.getD 0#8).getLsbD 3 = true then 0xFF#8 else s.ib[k].stAT1) ∧
      t.ib[k].stAT2 = (if (r1.getD 0#8).getLsbD 4 = true then 0xFF#8 else s.ib[k].stAT2) ∧
      t.ib[k].stOT = (if (r2.getD 0#8).getLsbD b.f2OtBit.val = true then 0xFF#8 else s.ib[k].stOT)) ∧
    (¬runs 1 → ∀ k : Bank, t.ob[k].olRaw = s.ob[k].olRaw ∧ t.ob[k].stOL = s.ob[k].stOL) ∧
    (runs 1 → ∀ k : Bank,
      let r := xactValue b (.outRead k b.outRegOl) (if k = 0 then u else phase1Run b 0 u)
      t.ob[k].olRaw = r.getD s.ob[k].olRaw ∧ t.ob[k].stOL = s.ob[k].stOL ||| r.getD 0#8) ∧
    (¬runs 2 → ∀ k : Bank, t.ob[k].ovRaw = s.ob[k].ovRaw ∧ t.ob[k].stOV = s.ob[k].stOV ∧
      t.ob[k].ovLock = s.ob[k].ovLock) ∧
    (runs 2 → ∀ k : Bank,
      let r := xactValue b (.outRead k b.outRegOv) (if k = 0 then u else phase2Run b now 0 u)
      t.ob[k].ovRaw = r.getD s.ob[k].ovRaw ∧ t.ob[k].stOV = s.ob[k].stOV ||| r.getD 0#8 ∧
      (s.ob[k].ovProtect = false → t.ob[k].ovLock = s.ob[k].ovLock) ∧
      (s.ob[k].ovProtect = true →
        t.ob[k].ovLock = (ovSteps now { s.ob[k] with ovRaw := r.getD s.ob[k].ovRaw }).ovLock)) ∧
    (¬runs 4 → ∀ k : Bank, t.ob[k].thRaw = s.ob[k].thRaw ∧ t.ob[k].stTH = s.ob[k].stTH ∧
      t.ob[k].thLock = s.ob[k].thLock) ∧
    (runs 4 → ∀ k : Bank,
      let r := xactValue b (.outRead k b.outRegTh) (if k = 0 then u else phase4Run b now 0 u)
      t.ob[k].thRaw = r.getD s.ob[k].thRaw ∧ t.ob[k].stTH = s.ob[k].stTH ||| r.getD 0#8 ∧
      t.ob[k].thLock = (thSteps now { s.ob[k] with thRaw := r.getD s.ob[k].thRaw }).thLock)

/-! ### Bus operations -/

/-- R133, R134, R114 to R116: IN_READ sends its frame until an echo is valid, three times at most; a valid echo gives the
snapshot and the value and clears the error flag; three invalid ones set it and change nothing else.
That the row is an instruction of its own, and that its check field does not steer the frame sent, is log 2 (DEDUCED). -/
def Obligations.InReadEffect : Prop :=
  ∀ (k : Bank) (reg : BitVec 7) (crc : BitVec 5) (s : State), s.lock = .free →
    OneExchangeAttempts (.inRead k reg crc) (csIn k) (inFrame false (reg.setWidth 8) 0#8) (inValid s.cfg)
      (fun e => modIb k fun r => { r with inputs := echoWord e s.cfg.inEchoInputPos, err := false })
      (fun e => .ok (.word (echoWord e (1 - s.cfg.inEchoInputPos))))
      (modIb k fun r => { r with err := true }) s

/-- R135, R134, R114 to R116: IN_WRITE likewise; the register value of its echo is discarded and nothing is read back.
The row as an instruction whose check field is ignored is log 2 (DEDUCED). -/
def Obligations.InWriteEffect : Prop :=
  ∀ (k : Bank) (reg : BitVec 7) (d : Byte) (crc : BitVec 5) (s : State), s.lock = .free →
    OneExchangeAttempts (.inWrite k reg d crc) (csIn k) (inFrame true (reg.setWidth 8) d) (inValid s.cfg)
      (fun e => modIb k fun r => { r with inputs := echoWord e s.cfg.inEchoInputPos, err := false })
      (fun _ => okDone) (modIb k fun r => { r with err := true }) s

/-- R155, R83, R114 to R116: OUT_READ sends the read frame, never marked, and returns the value word of a valid echo.
The row as an instruction whose check field is ignored is log 2 (DEDUCED). -/
def Obligations.OutReadEffect : Prop :=
  ∀ (k : Bank) (reg : Byte) (crc : BitVec 7) (s : State), s.lock = .free →
    OneExchangeAttempts (.outRead k reg crc) (csOut k) (outFrame false s.cfg.outCmdReadReg reg) outValid
      (fun _ => modOb k fun r => { r with err := false })
      (fun e => .ok (.word (echoWord e s.cfg.outReadValuePos)))
      (modOb k fun r => { r with err := true }) s

/-- R157: the realtime-status frame by itself, which the spec sends only as the second exchange of a write: the model's
choice (log 3) that it is a transaction of its own. -/
def Obligations.OutRtstatEffect : Prop :=
  ∀ (k : Bank) (s : State), s.lock = .free →
    OneExchangeAttempts (.outRtstat k) (csOut k) (rtFrame s.cfg) outValid
      (fun _ => modOb k fun r => { r with err := false }) (fun _ => okDone) (modOb k fun r => { r with err := true }) s

/-- R156, R154: OUT_SET_OUT sends the commanded word, with the clear-faults marker when one is pending, and the
realtime-status frame after it, until both echoes are valid (the first only where the binding asks for it), three times at
most; success clears the error flag and a marker that was sent, and returns the word sent; failure sets the flag.
That the instruction's own marker, data word and check field are ignored, the state's `clrPending` and `cmd` being sent
instead, is log 2 (DEDUCED). -/
def Obligations.OutSetOutEffect : Prop :=
  ∀ (k : Bank) (clr : Bool) (d : Byte) (crc : BitVec 7) (s : State), s.lock = .free →
    let i := Instr.outSetOut k clr d crc
    let marker := s.ob[k].clrPending
    let frame := outFrame marker s.cfg.outCmdSetOut s.ob[k].cmd
    let good (n : Nat) : Prop := outValid (echoNo s.env (2 * n + 1)) = true ∧
      (s.cfg.outCheckPhase1 = true → outValid (echoNo s.env (2 * n)) = true)
    (∀ n : Nat, n < 3 → (∀ j : Nat, j < n → ¬good j) → good n →
      exec i s = .next (complete (.ok (.word s.ob[k].cmd))
        (modOb k (fun o => { o with err := false, clrPending := false })
          (exchangedPairs s.cfg (csOut k) frame (n + 1) s)))) ∧
    ((∀ j : Nat, j < 3 → ¬good j) →
      exec i s = .next (complete crcFail
        (modOb k (fun o => { o with err := true }) (exchangedPairs s.cfg (csOut k) frame 3 s))))

/-- R158, R153 to R156, R159: each of the three configuration writes sends its own command with its own word of the bank, marked
when a clear is pending, in pairs with the realtime-status frame as OUT_SET_OUT does; after a good pair it reads back its own
register, three times at most. It answers OK exactly when the value read is the word sent; a difference sets the bank's
error flag although both transactions succeeded; a transaction that fails sets it and answers TRANSPORT. That the
instruction's own marker, data word and check field are ignored is log 2 (DEDUCED). -/
def Obligations.OutConfigEffect : Prop :=
  ∀ (k : Bank) (f : ConfField) (clr : Bool) (d : Byte) (crc : BitVec 7) (s : State), s.lock = .free →
    let i := match f with
      | .pp => Instr.outSetPp k clr d crc
      | .olen => Instr.outSetOlen k clr d crc
      | .join => Instr.outSetJoin k clr d crc
    let command := match f with
      | .pp => s.cfg.outCmdSetPp
      | .olen => s.cfg.outCmdSetOlen
      | .join => s.cfg.outCmdSetJoin
    let word := match f with
      | .pp => s.ob[k].pp
      | .olen => s.ob[k].olen
      | .join => s.ob[k].join
    let register := match f with
      | .pp => s.cfg.outRegPp
      | .olen => s.cfg.outRegOlen
      | .join => s.cfg.outRegJoin
    let frame := outFrame s.ob[k].clrPending command word
    let readFrame := outFrame false s.cfg.outCmdReadReg register
    let flag (v : Bool) := modOb k fun o => { o with err := v }
    let good (n : Nat) : Prop := outValid (echoNo s.env (2 * n + 1)) = true ∧
      (s.cfg.outCheckPhase1 = true → outValid (echoNo s.env (2 * n)) = true)
    ((∀ j : Nat, j < 3 → ¬good j) →
      exec i s = .next (complete crcFail (flag true (exchangedPairs s.cfg (csOut k) frame 3 s)))) ∧
    (∀ n : Nat, n < 3 → (∀ j : Nat, j < n → ¬good j) → good n →
      let w := modOb k (fun o => { o with err := false, clrPending := false }) (exchangedPairs s.cfg (csOut k) frame (n + 1) s)
      ((∀ j : Nat, j < 3 → outValid (echoNo w.env j) = false) →
        exec i s = .next (complete crcFail (flag true (exchangedTimes (csOut k) readFrame 3 w)))) ∧
      (∀ m : Nat, m < 3 → (∀ j : Nat, j < m → outValid (echoNo w.env j) = false) → outValid (echoNo w.env m) = true →
        let r := exchangedTimes (csOut k) readFrame (m + 1) w
        let value := echoWord (echoNo w.env m) s.cfg.outReadValuePos
        (value = word → exec i s = .next (complete okDone (flag false r))) ∧
        (value ≠ word → exec i s = .next (complete verifyFail (flag true r)))))

/-- R111: while the other context holds the lock a bus operation waits at its ACQ step, in flight, with nothing done.
That `exec` answers a next state with the operation waiting there is log 22 (DESIGN CHOICE); that the eight rows are
instructions of their own is log 2 (DEDUCED). -/
def Obligations.WaitsForLock : Prop :=
  ∀ (i : Instr) (s : State), s.lock = .held (otherCtx s.cur) →
    (match i with
      | .inRead _ _ _ | .inWrite _ _ _ _ | .outSetOut _ _ _ _ | .outSetPp _ _ _ _ | .outSetOlen _ _ _ _
      | .outSetJoin _ _ _ _ | .outRead _ _ _ | .outRtstat _ => True
      | _ => False) →
    exec i s = .next { recordRace i s with op := s.op.set s.cur (.busy i []), resp := s.resp.set s.cur none } ∧
    unitStep { recordRace i s with op := s.op.set s.cur (.busy i []), resp := s.resp.set s.cur none } =
      { recordRace i s with op := s.op.set s.cur (.busy i []), resp := s.resp.set s.cur none }

/-! ### Units and steps -/

/-- R70, R71: an instruction run whole is its atomic units one after another from its start, each reading what the ones
before it wrote; a unit is what a contended step performs.
That the start of a request is a move of its own is log 15, how the position inside an operation is held is log 14 (both
DESIGN CHOICE). -/
def Obligations.ExecIsItsUnits : Prop :=
  ∀ (i : Instr) (s t : State), exec i s = .next t → ∃ n : Nat, unitStep^[n] (issue i s) = t

/-- R112, R316: an instruction leaves the bus lock as it found it: what it takes it gives back, attempt by attempt. -/
def Obligations.ExecLeavesLock : Prop :=
  ∀ (i : Instr) (s t : State), exec i s = .next t → t.lock = s.lock

/-- R266, R264, R317: what a starting operation records: a shared pin of two pin-mutating operations, or a second TICK; an
operation with an illegal field, and one that shares nothing, records nothing, and no exchange is ever outside the lock.
That the check comes after the field checks of R90, so that an illegal request leaves `faults` alone, and the reason recorded
with a race, are log 19 (DEDUCED). -/
def Obligations.HostRaceRecorded : Prop :=
  ∀ (i : Instr) (s t : State), exec i s = .next t →
    (FieldsLegal i → ∀ j seen, s.op[otherCtx s.cur] = .busy j seen →
      (sharePin i j = true → t.faults = (raiseFault (.hostRace .sharedPin) s).faults) ∧
      (sharePin i j = false → isTick i = true ∧ isTick j = true → t.faults = (raiseFault (.hostRace .twoTicks) s).faults) ∧
      (sharePin i j = false → ¬(isTick i = true ∧ isTick j = true) → t.faults = s.faults)) ∧
    (s.op[otherCtx s.cur] = .idle → t.faults = s.faults) ∧
    (¬FieldsLegal i → t.faults = s.faults)

/-- A step takes and runs the decoded instruction: with a context idle and alone, whichever it is (R315), the next host request,
or the next frame asked for, is run by `exec` with it taken from the queue (R87; log 7, 16). -/
def Obligations.StepRunsDecoded : Prop :=
  ∀ (c : Ctx) (s : State) (i : Instr), ModelFault.badBinding ∉ s.faults → s.op[c] = .idle →
    hasWork (otherCtx c) s = false →
    (∀ rest : List U32, s.busReq[c] = [] → decodeHost s.req[c] = .ok (i, rest) →
      step s = exec i { s with cur := c, req := s.req.set c rest }) ∧
    (∀ cs f rest, s.busReq[c] = (cs, f) :: rest → decodeFrame s.cfg cs f = .ok i →
      step s = exec i { s with cur := c, busReq := s.busReq.set c rest })

/-- R53, R74: no step changes the binding of the run. -/
def Obligations.StepKeepsBinding : Prop :=
  ∀ s t : State, step s = .next t → t.cfg = s.cfg

/-- R49, R50, R51: the events and the exchanges are records that only grow at their end, and no model fault is ever
withdrawn. -/
def Obligations.RecordsOnlyGrow : Prop :=
  ∀ s t : State, step s = .next t →
    (∃ new, t.events = s.events ++ new) ∧ (∃ new, t.bus = s.bus ++ new) ∧ ∀ f ∈ s.faults, f ∈ t.faults

/-- R40: the mode of a pin is set only by a CONFIG that names it, run by the context that moved (`t.cur`), and to the mode it
asks for. -/
def Obligations.ModeOnlyByConfig : Prop :=
  ∀ (s t : State) (p : Pin), step s = .next t → t.mode[p] ≠ s.mode[p] →
    ∃ i, MayRun t.cur s i ∧ configures i = some (p, t.mode[p])

/-- R28, R34, R210: a sticky fault bit is cleared only by the getter of that word on a pin that has that bit, run by the
context that moved (`t.cur`), never by polling. -/
def Obligations.StickyBitsKept : Prop :=
  ∀ s t : State, step s = .next t →
    (∀ (w : InSticky) (k : Bank) (c : Chan), bit (w.get s.ib[k]) c = true → bit (w.get t.ib[k]) c = false →
      ∃ i p, MayRun t.cur s i ∧ clearsIn i = some (w, p) ∧ inBank p = k ∧ inChan p = c) ∧
    (∀ (w : OutSticky) (k : Bank) (c : Chan), bit (w.get s.ob[k]) c = true → bit (w.get t.ob[k]) c = false →
      ∃ i p, MayRun t.cur s i ∧ clearsOut i = some (w, p) ∧ outBank p = k ∧ outChan p = c)

/-- R312: successive readings of either counter, as unbounded times, never decrease, and a reading is that time modulo 2^32. -/
def Obligations.TimeNeverDecreases : Prop :=
  (∀ s t : State, step s = .next t → s.env.msTime ≤ t.env.msTime ∧ s.env.usTime ≤ t.env.usTime) ∧
  (∀ s : State, (nowMs s).toNat = (afterMs s).env.msTime % 2 ^ 32 ∧ s.env.msTime ≤ (afterMs s).env.msTime ∧
    (nowUs s).toNat = (afterUs s).env.usTime % 2 ^ 32 ∧ s.env.usTime ≤ (afterUs s).env.usTime)

/-- R48, R315: a step moves the context that is the current one after it; the operation, the response and the requests of the
other stay as they are. -/
def Obligations.OtherContextUntouched : Prop :=
  ∀ s t : State, step s = .next t → ∀ d : Ctx, d ≠ t.cur →
    t.op[d] = s.op[d] ∧ t.resp[d] = s.resp[d] ∧ t.req[d] = s.req[d] ∧ t.busReq[d] = s.busReq[d]

/-! ### Invariants -/

/-- R46, R111, R112: in every step the lock stays held by exactly the context that is inside a bus attempt, and by none when
none is. -/
def Obligations.LockInvariantKept : Prop :=
  ∀ s t : State, LockInv s → step s = .next t → LockInv t

/-- The lock invariant holds at reset. -/
def Obligations.LockInvariantAtReset : Prop := LockInv State.reset

/-- R52: every atomic unit keeps the forced state of locked channels (an OV-locked channel commanded on, a TH-locked one out
of push-pull and commanded off), as long as no channel comes to hold both locks (I9; log 28). -/
def Obligations.ForcedStatesKept : Prop :=
  ∀ s : State, ChannelsForced s → NoDoubleLock s → NoDoubleLock (unitStep s) → ChannelsForced (unitStep s)

/-- At reset, under any binding, no channel is locked, so every channel is in the state its locks force. -/
def Obligations.ForcedStatesAtReset : Prop :=
  ∀ b : Binding, ChannelsForced (State.resetWith b) ∧ NoDoubleLock (State.resetWith b)

/-- R81 to R84, R86: every exchange is of a frame the block emits on that chip select: an input frame, a command frame, a read
frame without marker, or the realtime-status frame; so the reserved bits are never sent. So for an instruction run whole; and
so for every step, a contended one that makes a single exchange included, from any state in which the exchanges the
contexts are about to make are of such frames (`FramesReady`), which every step keeps and reset has. -/
def Obligations.FramesEmitted : Prop :=
  (∀ (i : Instr) (s t : State), exec i s = .next t → EmitsOnly s t) ∧
  (∀ s t : State, FramesReady s → step s = .next t → FramesReady t ∧ EmitsOnly s t) ∧
  (∀ b : Binding, FramesReady (State.resetWith b))

/-! ### Reset -/

/-- R330, R331, R332: what reset leaves, under any binding; `statusOut` alone is the model's choice (log 11) and is not
stated. -/
def Obligations.ResetValues : Prop :=
  ∀ b : Binding,
    let s := State.resetWith b
    (csIn 0 = .in0 ∧ csIn 1 = .in1 ∧ csOut 0 = .out0 ∧ csOut 1 = .out1) ∧
    (∀ k : Bank, s.ib[k] = { err := false, inputs := 0, wbRaw := 0, f1Raw := 0, f2Raw := 0, wbCfg := 0, stWB := 0,
                              stAT1 := 0, stAT2 := 0, stOT := 0 }) ∧
    (∀ k : Bank, s.ob[k] = { err := false, cmd := 0, intent := 0, clrPending := false, olRaw := 0, stOL := 0, ovRaw := 0,
                              stOV := 0, thRaw := 0, stTH := 0, pp := 0, ppIntent := 0, olen := 0, join := 0,
                              ovLock := 0, thLock := 0, lockTs := Vector.replicate 8 0, ovProtect := b.ovpReset[k] }) ∧
    (∀ p : Pin, s.mode[p] = .unconf) ∧
    (∀ i : SubIx, s.sub[i] = { cb := 0, gate := { interval := 0, stable := none, lastMatch := 0 } }) ∧
    (∀ p q : Pin, s.link[p][q] = { lmode := .none, gate := { interval := 0, stable := none, lastMatch := 0 } }) ∧
    (∀ p : Pin, s.pwm[p] = { period := 0, on := 0, start := 0, high := false }) ∧
    s.sched = { phase := 0, lastMs := 0 } ∧ s.led = false ∧ s.lock = .free ∧ (∀ c : Ctx, s.op[c] = .idle) ∧
    s.events = [] ∧ s.bus = [] ∧ (bindingOk b = true → s.faults = []) ∧
    (bindingOk b = true → step s = .next s)

/-- R317, R11, R84: a binding that breaks its constraints is recorded at reset, and the block does not run with it.
R317 says that a model should refuse to run; that every step of a state with the record is the fault badBinding is
log 20 (DESIGN CHOICE). -/
def Obligations.BadBindingNeverRuns : Prop :=
  (∀ b : Binding, bindingOk b = false → step (State.resetWith b) = .fault .badBinding) ∧
  (∀ s : State, ModelFault.badBinding ∈ s.faults → step s = .fault .badBinding) ∧
  (∀ b : Binding, bindingOk b = true ↔
    (∀ v ∈ [b.inRegWb, b.inRegFault1, b.inRegFault2, b.outCmdSetOut, b.outCmdSetPp, b.outCmdSetOlen, b.outCmdSetJoin,
        b.outCmdReadReg] ++ b.inRegCfg.toList, v.toNat < 0x80) ∧
      b.outRtCrc = crc7 b.outRtW1 b.outRtW0 ∧ ∃ i j : Fin 4, i < j ∧
        ∀ k : Fin 4, b.joinSlots.getLsbD k.val = true ↔ k = i ∨ k = j)
end

