-- ==== Sys2Proof/Laws/Decode.lean ====
section
/-! SUPPORT. The bits of an encoded word, and that every field is read back from the word it was put into. -/

namespace Sys2Proof

/-! ### Head words (R87) -/

theorem getLsbD_mkHead (op a b c : Byte) (i : Nat) : (mkHead op a b c).getLsbD i =
    if i < 8 then c.getLsbD i else if i < 16 then b.getLsbD (i - 8) else if i < 24 then a.getLsbD (i - 16)
      else op.getLsbD (i - 24) := by
  unfold mkHead
  rw [BitVec.getLsbD_append (x := op ++ a ++ b), BitVec.getLsbD_append (x := op ++ a), BitVec.getLsbD_append (x := op)]
  simp only [show (i - 8 < 8) = (i < 8 ∨ i < 16) by apply propext; omega, Nat.sub_sub, Nat.reduceAdd]
  split_ifs <;> first | rfl | omega

theorem headOp_mkHead (op a b c : Byte) : headOp (mkHead op a b c) = op := by
  apply BitVec.eq_of_getLsbD_eq
  intro i hi
  simp only [headOp, BitVec.getLsbD_extractLsb', getLsbD_mkHead, hi, decide_true, Bool.true_and]
  rw [if_neg (by omega), if_neg (by omega), if_neg (by omega), Nat.add_sub_cancel_left]

theorem headA_mkHead (op a b c : Byte) : headA (mkHead op a b c) = a := by
  apply BitVec.eq_of_getLsbD_eq
  intro i hi
  simp only [headA, BitVec.getLsbD_extractLsb', getLsbD_mkHead, hi, decide_true, Bool.true_and]
  rw [if_neg (by omega), if_neg (by omega), if_pos (by omega), Nat.add_sub_cancel_left]

theorem headB_mkHead (op a b c : Byte) : headB (mkHead op a b c) = b := by
  apply BitVec.eq_of_getLsbD_eq
  intro i hi
  simp only [headB, BitVec.getLsbD_extractLsb', getLsbD_mkHead, hi, decide_true, Bool.true_and]
  rw [if_neg (by omega), if_pos (by omega), Nat.add_sub_cancel_left]

theorem headC_mkHead (op a b c : Byte) : headC (mkHead op a b c) = c := by
  apply BitVec.eq_of_getLsbD_eq
  intro i hi
  simp only [headC, BitVec.getLsbD_extractLsb', getLsbD_mkHead, hi, decide_true, Bool.true_and]
  rw [if_pos (by omega), Nat.zero_add]

/-! ### Frames (R81 to R83) -/

theorem getLsbD_inBits (w : Bool) (a : BitVec 7) (d : Byte) (crc : BitVec 5) (i : Nat) :
    (inBits w a d crc).getLsbD i =
      if i < 5 then crc.getLsbD i else if i < 8 then false else if i < 16 then d.getLsbD (i - 8)
        else if i < 23 then a.getLsbD (i - 16) else (Machine.boolBit w).getLsbD (i - 23) := by
  unfold inBits
  rw [BitVec.getLsbD_append (x := Machine.boolBit w ++ a ++ d ++ 0#3),
    BitVec.getLsbD_append (x := Machine.boolBit w ++ a ++ d), BitVec.getLsbD_append (x := Machine.boolBit w ++ a),
    BitVec.getLsbD_append (x := Machine.boolBit w)]
  simp only [show (i - 5 < 3) = (i < 5 ∨ i < 8) by apply propext; omega, Nat.sub_sub, Nat.reduceAdd, BitVec.getLsbD_zero]
  split_ifs <;> first | rfl | omega

theorem getLsbD_outBits (m : Bool) (x d : Byte) (crc : BitVec 7) (i : Nat) : (outBits m x d crc).getLsbD i =
    if i < 7 then crc.getLsbD i else if i < 8 then false else if i < 16 then d.getLsbD (i - 8)
      else if i < 23 then x.getLsbD (i - 16) else (Machine.boolBit m).getLsbD (i - 23) := by
  unfold outBits
  rw [BitVec.getLsbD_append (x := Machine.boolBit m ++ x.setWidth 7 ++ d ++ 0#1),
    BitVec.getLsbD_append (x := Machine.boolBit m ++ x.setWidth 7 ++ d),
    BitVec.getLsbD_append (x := Machine.boolBit m ++ x.setWidth 7), BitVec.getLsbD_append (x := Machine.boolBit m)]
  simp only [show (i - 7 < 1) = (i < 7 ∨ i < 8) by apply propext; omega, Nat.sub_sub, Nat.reduceAdd,
    BitVec.getLsbD_setWidth, BitVec.getLsbD_zero]
  split_ifs <;> first | rfl | omega | skip
  simp; omega

theorem rtFrame_bit7 (b : Binding) : (Machine.rtFrame b).bits.getLsbD 7 = false := by
  unfold Machine.rtFrame Frame.bits
  rw [BitVec.getLsbD_append (x := b.outRtW1 ++ b.outRtW0)]
  simp

end Sys2Proof
end

