-- ==== Sys2Proof/Laws/State.lean ====
section
/-! SUPPORT. One lemma per field and update of the state, each tagged for simp, so that no proof unfolds a record update;
the bits of a bank word; and that reset is the recorded reset of its binding. -/

namespace Sys2Proof.Machine

/-! ### `modIb` -/

@[simp] theorem modIb_ob (k : Bank) (f : InBank → InBank) (s : State) : (modIb k f s).ob = s.ob := rfl
@[simp] theorem modIb_mode (k : Bank) (f : InBank → InBank) (s : State) : (modIb k f s).mode = s.mode := rfl
@[simp] theorem modIb_sub (k : Bank) (f : InBank → InBank) (s : State) : (modIb k f s).sub = s.sub := rfl
@[simp] theorem modIb_link (k : Bank) (f : InBank → InBank) (s : State) : (modIb k f s).link = s.link := rfl
@[simp] theorem modIb_pwm (k : Bank) (f : InBank → InBank) (s : State) : (modIb k f s).pwm = s.pwm := rfl
@[simp] theorem modIb_sched (k : Bank) (f : InBank → InBank) (s : State) : (modIb k f s).sched = s.sched := rfl
@[simp] theorem modIb_led (k : Bank) (f : InBank → InBank) (s : State) : (modIb k f s).led = s.led := rfl
@[simp] theorem modIb_statusOut (k : Bank) (f : InBank → InBank) (s : State) : (modIb k f s).statusOut = s.statusOut := rfl
@[simp] theorem modIb_lock (k : Bank) (f : InBank → InBank) (s : State) : (modIb k f s).lock = s.lock := rfl
@[simp] theorem modIb_op (k : Bank) (f : InBank → InBank) (s : State) : (modIb k f s).op = s.op := rfl
@[simp] theorem modIb_events (k : Bank) (f : InBank → InBank) (s : State) : (modIb k f s).events = s.events := rfl
@[simp] theorem modIb_bus (k : Bank) (f : InBank → InBank) (s : State) : (modIb k f s).bus = s.bus := rfl
@[simp] theorem modIb_faults (k : Bank) (f : InBank → InBank) (s : State) : (modIb k f s).faults = s.faults := rfl
@[simp] theorem modIb_resp (k : Bank) (f : InBank → InBank) (s : State) : (modIb k f s).resp = s.resp := rfl
@[simp] theorem modIb_cfg (k : Bank) (f : InBank → InBank) (s : State) : (modIb k f s).cfg = s.cfg := rfl
@[simp] theorem modIb_cur (k : Bank) (f : InBank → InBank) (s : State) : (modIb k f s).cur = s.cur := rfl
@[simp] theorem modIb_req (k : Bank) (f : InBank → InBank) (s : State) : (modIb k f s).req = s.req := rfl
@[simp] theorem modIb_busReq (k : Bank) (f : InBank → InBank) (s : State) : (modIb k f s).busReq = s.busReq := rfl
@[simp] theorem modIb_env (k : Bank) (f : InBank → InBank) (s : State) : (modIb k f s).env = s.env := rfl

/-! ### `modOb` -/

@[simp] theorem modOb_ib (k : Bank) (f : OutBank → OutBank) (s : State) : (modOb k f s).ib = s.ib := rfl
@[simp] theorem modOb_mode (k : Bank) (f : OutBank → OutBank) (s : State) : (modOb k f s).mode = s.mode := rfl
@[simp] theorem modOb_sub (k : Bank) (f : OutBank → OutBank) (s : State) : (modOb k f s).sub = s.sub := rfl
@[simp] theorem modOb_link (k : Bank) (f : OutBank → OutBank) (s : State) : (modOb k f s).link = s.link := rfl
@[simp] theorem modOb_pwm (k : Bank) (f : OutBank → OutBank) (s : State) : (modOb k f s).pwm = s.pwm := rfl
@[simp] theorem modOb_sched (k : Bank) (f : OutBank → OutBank) (s : State) : (modOb k f s).sched = s.sched := rfl
@[simp] theorem modOb_led (k : Bank) (f : OutBank → OutBank) (s : State) : (modOb k f s).led = s.led := rfl
@[simp] theorem modOb_statusOut (k : Bank) (f : OutBank → OutBank) (s : State) : (modOb k f s).statusOut = s.statusOut := rfl
@[simp] theorem modOb_lock (k : Bank) (f : OutBank → OutBank) (s : State) : (modOb k f s).lock = s.lock := rfl
@[simp] theorem modOb_op (k : Bank) (f : OutBank → OutBank) (s : State) : (modOb k f s).op = s.op := rfl
@[simp] theorem modOb_events (k : Bank) (f : OutBank → OutBank) (s : State) : (modOb k f s).events = s.events := rfl
@[simp] theorem modOb_bus (k : Bank) (f : OutBank → OutBank) (s : State) : (modOb k f s).bus = s.bus := rfl
@[simp] theorem modOb_faults (k : Bank) (f : OutBank → OutBank) (s : State) : (modOb k f s).faults = s.faults := rfl
@[simp] theorem modOb_resp (k : Bank) (f : OutBank → OutBank) (s : State) : (modOb k f s).resp = s.resp := rfl
@[simp] theorem modOb_cfg (k : Bank) (f : OutBank → OutBank) (s : State) : (modOb k f s).cfg = s.cfg := rfl
@[simp] theorem modOb_cur (k : Bank) (f : OutBank → OutBank) (s : State) : (modOb k f s).cur = s.cur := rfl
@[simp] theorem modOb_req (k : Bank) (f : OutBank → OutBank) (s : State) : (modOb k f s).req = s.req := rfl
@[simp] theorem modOb_busReq (k : Bank) (f : OutBank → OutBank) (s : State) : (modOb k f s).busReq = s.busReq := rfl
@[simp] theorem modOb_env (k : Bank) (f : OutBank → OutBank) (s : State) : (modOb k f s).env = s.env := rfl

/-! ### `setOp` -/

@[simp] theorem setOp_ib (c : Ctx) (o : Op) (s : State) : (setOp c o s).ib = s.ib := rfl
@[simp] theorem setOp_ob (c : Ctx) (o : Op) (s : State) : (setOp c o s).ob = s.ob := rfl
@[simp] theorem setOp_mode (c : Ctx) (o : Op) (s : State) : (setOp c o s).mode = s.mode := rfl
@[simp] theorem setOp_sub (c : Ctx) (o : Op) (s : State) : (setOp c o s).sub = s.sub := rfl
@[simp] theorem setOp_link (c : Ctx) (o : Op) (s : State) : (setOp c o s).link = s.link := rfl
@[simp] theorem setOp_pwm (c : Ctx) (o : Op) (s : State) : (setOp c o s).pwm = s.pwm := rfl
@[simp] theorem setOp_sched (c : Ctx) (o : Op) (s : State) : (setOp c o s).sched = s.sched := rfl
@[simp] theorem setOp_led (c : Ctx) (o : Op) (s : State) : (setOp c o s).led = s.led := rfl
@[simp] theorem setOp_statusOut (c : Ctx) (o : Op) (s : State) : (setOp c o s).statusOut = s.statusOut := rfl
@[simp] theorem setOp_lock (c : Ctx) (o : Op) (s : State) : (setOp c o s).lock = s.lock := rfl
@[simp] theorem setOp_events (c : Ctx) (o : Op) (s : State) : (setOp c o s).events = s.events := rfl
@[simp] theorem setOp_bus (c : Ctx) (o : Op) (s : State) : (setOp c o s).bus = s.bus := rfl
@[simp] theorem setOp_faults (c : Ctx) (o : Op) (s : State) : (setOp c o s).faults = s.faults := rfl
@[simp] theorem setOp_resp (c : Ctx) (o : Op) (s : State) : (setOp c o s).resp = s.resp := rfl
@[simp] theorem setOp_cfg (c : Ctx) (o : Op) (s : State) : (setOp c o s).cfg = s.cfg := rfl
@[simp] theorem setOp_cur (c : Ctx) (o : Op) (s : State) : (setOp c o s).cur = s.cur := rfl
@[simp] theorem setOp_req (c : Ctx) (o : Op) (s : State) : (setOp c o s).req = s.req := rfl
@[simp] theorem setOp_busReq (c : Ctx) (o : Op) (s : State) : (setOp c o s).busReq = s.busReq := rfl
@[simp] theorem setOp_env (c : Ctx) (o : Op) (s : State) : (setOp c o s).env = s.env := rfl

/-! ### `raiseFault` -/

@[simp] theorem raiseFault_ib (f : ModelFault) (s : State) : (raiseFault f s).ib = s.ib := rfl
@[simp] theorem raiseFault_ob (f : ModelFault) (s : State) : (raiseFault f s).ob = s.ob := rfl
@[simp] theorem raiseFault_mode (f : ModelFault) (s : State) : (raiseFault f s).mode = s.mode := rfl
@[simp] theorem raiseFault_sub (f : ModelFault) (s : State) : (raiseFault f s).sub = s.sub := rfl
@[simp] theorem raiseFault_link (f : ModelFault) (s : State) : (raiseFault f s).link = s.link := rfl
@[simp] theorem raiseFault_pwm (f : ModelFault) (s : State) : (raiseFault f s).pwm = s.pwm := rfl
@[simp] theorem raiseFault_sched (f : ModelFault) (s : State) : (raiseFault f s).sched = s.sched := rfl
@[simp] theorem raiseFault_led (f : ModelFault) (s : State) : (raiseFault f s).led = s.led := rfl
@[simp] theorem raiseFault_statusOut (f : ModelFault) (s : State) : (raiseFault f s).statusOut = s.statusOut := rfl
@[simp] theorem raiseFault_lock (f : ModelFault) (s : State) : (raiseFault f s).lock = s.lock := rfl
@[simp] theorem raiseFault_op (f : ModelFault) (s : State) : (raiseFault f s).op = s.op := rfl
@[simp] theorem raiseFault_events (f : ModelFault) (s : State) : (raiseFault f s).events = s.events := rfl
@[simp] theorem raiseFault_bus (f : ModelFault) (s : State) : (raiseFault f s).bus = s.bus := rfl
@[simp] theorem raiseFault_resp (f : ModelFault) (s : State) : (raiseFault f s).resp = s.resp := rfl
@[simp] theorem raiseFault_cfg (f : ModelFault) (s : State) : (raiseFault f s).cfg = s.cfg := rfl
@[simp] theorem raiseFault_cur (f : ModelFault) (s : State) : (raiseFault f s).cur = s.cur := rfl
@[simp] theorem raiseFault_req (f : ModelFault) (s : State) : (raiseFault f s).req = s.req := rfl
@[simp] theorem raiseFault_busReq (f : ModelFault) (s : State) : (raiseFault f s).busReq = s.busReq := rfl
@[simp] theorem raiseFault_env (f : ModelFault) (s : State) : (raiseFault f s).env = s.env := rfl

/-! ### `afterMs` -/

@[simp] theorem afterMs_ib (s : State) : (afterMs s).ib = s.ib := rfl
@[simp] theorem afterMs_ob (s : State) : (afterMs s).ob = s.ob := rfl
@[simp] theorem afterMs_mode (s : State) : (afterMs s).mode = s.mode := rfl
@[simp] theorem afterMs_sub (s : State) : (afterMs s).sub = s.sub := rfl
@[simp] theorem afterMs_link (s : State) : (afterMs s).link = s.link := rfl
@[simp] theorem afterMs_pwm (s : State) : (afterMs s).pwm = s.pwm := rfl
@[simp] theorem afterMs_sched (s : State) : (afterMs s).sched = s.sched := rfl
@[simp] theorem afterMs_led (s : State) : (afterMs s).led = s.led := rfl
@[simp] theorem afterMs_statusOut (s : State) : (afterMs s).statusOut = s.statusOut := rfl
@[simp] theorem afterMs_lock (s : State) : (afterMs s).lock = s.lock := rfl
@[simp] theorem afterMs_op (s : State) : (afterMs s).op = s.op := rfl
@[simp] theorem afterMs_events (s : State) : (afterMs s).events = s.events := rfl
@[simp] theorem afterMs_bus (s : State) : (afterMs s).bus = s.bus := rfl
@[simp] theorem afterMs_faults (s : State) : (afterMs s).faults = s.faults := rfl
@[simp] theorem afterMs_resp (s : State) : (afterMs s).resp = s.resp := rfl
@[simp] theorem afterMs_cfg (s : State) : (afterMs s).cfg = s.cfg := rfl
@[simp] theorem afterMs_cur (s : State) : (afterMs s).cur = s.cur := rfl
@[simp] theorem afterMs_req (s : State) : (afterMs s).req = s.req := rfl
@[simp] theorem afterMs_busReq (s : State) : (afterMs s).busReq = s.busReq := rfl

/-! ### `afterUs` -/

@[simp] theorem afterUs_ib (s : State) : (afterUs s).ib = s.ib := rfl
@[simp] theorem afterUs_ob (s : State) : (afterUs s).ob = s.ob := rfl
@[simp] theorem afterUs_mode (s : State) : (afterUs s).mode = s.mode := rfl
@[simp] theorem afterUs_sub (s : State) : (afterUs s).sub = s.sub := rfl
@[simp] theorem afterUs_link (s : State) : (afterUs s).link = s.link := rfl
@[simp] theorem afterUs_pwm (s : State) : (afterUs s).pwm = s.pwm := rfl
@[simp] theorem afterUs_sched (s : State) : (afterUs s).sched = s.sched := rfl
@[simp] theorem afterUs_led (s : State) : (afterUs s).led = s.led := rfl
@[simp] theorem afterUs_statusOut (s : State) : (afterUs s).statusOut = s.statusOut := rfl
@[simp] theorem afterUs_lock (s : State) : (afterUs s).lock = s.lock := rfl
@[simp] theorem afterUs_op (s : State) : (afterUs s).op = s.op := rfl
@[simp] theorem afterUs_events (s : State) : (afterUs s).events = s.events := rfl
@[simp] theorem afterUs_bus (s : State) : (afterUs s).bus = s.bus := rfl
@[simp] theorem afterUs_faults (s : State) : (afterUs s).faults = s.faults := rfl
@[simp] theorem afterUs_resp (s : State) : (afterUs s).resp = s.resp := rfl
@[simp] theorem afterUs_cfg (s : State) : (afterUs s).cfg = s.cfg := rfl
@[simp] theorem afterUs_cur (s : State) : (afterUs s).cur = s.cur := rfl
@[simp] theorem afterUs_req (s : State) : (afterUs s).req = s.req := rfl
@[simp] theorem afterUs_busReq (s : State) : (afterUs s).busReq = s.busReq := rfl

/-! ### `afterAux` -/

@[simp] theorem afterAux_ib (s : State) : (afterAux s).ib = s.ib := rfl
@[simp] theorem afterAux_ob (s : State) : (afterAux s).ob = s.ob := rfl
@[simp] theorem afterAux_mode (s : State) : (afterAux s).mode = s.mode := rfl
@[simp] theorem afterAux_sub (s : State) : (afterAux s).sub = s.sub := rfl
@[simp] theorem afterAux_link (s : State) : (afterAux s).link = s.link := rfl
@[simp] theorem afterAux_pwm (s : State) : (afterAux s).pwm = s.pwm := rfl
@[simp] theorem afterAux_sched (s : State) : (afterAux s).sched = s.sched := rfl
@[simp] theorem afterAux_led (s : State) : (afterAux s).led = s.led := rfl
@[simp] theorem afterAux_statusOut (s : State) : (afterAux s).statusOut = s.statusOut := rfl
@[simp] theorem afterAux_lock (s : State) : (afterAux s).lock = s.lock := rfl
@[simp] theorem afterAux_op (s : State) : (afterAux s).op = s.op := rfl
@[simp] theorem afterAux_events (s : State) : (afterAux s).events = s.events := rfl
@[simp] theorem afterAux_bus (s : State) : (afterAux s).bus = s.bus := rfl
@[simp] theorem afterAux_faults (s : State) : (afterAux s).faults = s.faults := rfl
@[simp] theorem afterAux_resp (s : State) : (afterAux s).resp = s.resp := rfl
@[simp] theorem afterAux_cfg (s : State) : (afterAux s).cfg = s.cfg := rfl
@[simp] theorem afterAux_cur (s : State) : (afterAux s).cur = s.cur := rfl
@[simp] theorem afterAux_req (s : State) : (afterAux s).req = s.req := rfl
@[simp] theorem afterAux_busReq (s : State) : (afterAux s).busReq = s.busReq := rfl

/-! ### `afterTurn` -/

@[simp] theorem afterTurn_ib (s : State) : (afterTurn s).ib = s.ib := rfl
@[simp] theorem afterTurn_ob (s : State) : (afterTurn s).ob = s.ob := rfl
@[simp] theorem afterTurn_mode (s : State) : (afterTurn s).mode = s.mode := rfl
@[simp] theorem afterTurn_sub (s : State) : (afterTurn s).sub = s.sub := rfl
@[simp] theorem afterTurn_link (s : State) : (afterTurn s).link = s.link := rfl
@[simp] theorem afterTurn_pwm (s : State) : (afterTurn s).pwm = s.pwm := rfl
@[simp] theorem afterTurn_sched (s : State) : (afterTurn s).sched = s.sched := rfl
@[simp] theorem afterTurn_led (s : State) : (afterTurn s).led = s.led := rfl
@[simp] theorem afterTurn_statusOut (s : State) : (afterTurn s).statusOut = s.statusOut := rfl
@[simp] theorem afterTurn_lock (s : State) : (afterTurn s).lock = s.lock := rfl
@[simp] theorem afterTurn_op (s : State) : (afterTurn s).op = s.op := rfl
@[simp] theorem afterTurn_events (s : State) : (afterTurn s).events = s.events := rfl
@[simp] theorem afterTurn_bus (s : State) : (afterTurn s).bus = s.bus := rfl
@[simp] theorem afterTurn_faults (s : State) : (afterTurn s).faults = s.faults := rfl
@[simp] theorem afterTurn_resp (s : State) : (afterTurn s).resp = s.resp := rfl
@[simp] theorem afterTurn_cfg (s : State) : (afterTurn s).cfg = s.cfg := rfl
@[simp] theorem afterTurn_cur (s : State) : (afterTurn s).cur = s.cur := rfl
@[simp] theorem afterTurn_req (s : State) : (afterTurn s).req = s.req := rfl
@[simp] theorem afterTurn_busReq (s : State) : (afterTurn s).busReq = s.busReq := rfl

/-! ### `acquireLock` -/

@[simp] theorem acquireLock_ib (s : State) : (acquireLock s).ib = s.ib := rfl
@[simp] theorem acquireLock_ob (s : State) : (acquireLock s).ob = s.ob := rfl
@[simp] theorem acquireLock_mode (s : State) : (acquireLock s).mode = s.mode := rfl
@[simp] theorem acquireLock_sub (s : State) : (acquireLock s).sub = s.sub := rfl
@[simp] theorem acquireLock_link (s : State) : (acquireLock s).link = s.link := rfl
@[simp] theorem acquireLock_pwm (s : State) : (acquireLock s).pwm = s.pwm := rfl
@[simp] theorem acquireLock_sched (s : State) : (acquireLock s).sched = s.sched := rfl
@[simp] theorem acquireLock_led (s : State) : (acquireLock s).led = s.led := rfl
@[simp] theorem acquireLock_statusOut (s : State) : (acquireLock s).statusOut = s.statusOut := rfl
@[simp] theorem acquireLock_op (s : State) : (acquireLock s).op = s.op := rfl
@[simp] theorem acquireLock_events (s : State) : (acquireLock s).events = s.events := rfl
@[simp] theorem acquireLock_bus (s : State) : (acquireLock s).bus = s.bus := rfl
@[simp] theorem acquireLock_faults (s : State) : (acquireLock s).faults = s.faults := rfl
@[simp] theorem acquireLock_resp (s : State) : (acquireLock s).resp = s.resp := rfl
@[simp] theorem acquireLock_cfg (s : State) : (acquireLock s).cfg = s.cfg := rfl
@[simp] theorem acquireLock_cur (s : State) : (acquireLock s).cur = s.cur := rfl
@[simp] theorem acquireLock_req (s : State) : (acquireLock s).req = s.req := rfl
@[simp] theorem acquireLock_busReq (s : State) : (acquireLock s).busReq = s.busReq := rfl
@[simp] theorem acquireLock_env (s : State) : (acquireLock s).env = s.env := rfl

/-! ### `releaseLock` -/

@[simp] theorem releaseLock_ib (s : State) : (releaseLock s).ib = s.ib := rfl
@[simp] theorem releaseLock_ob (s : State) : (releaseLock s).ob = s.ob := rfl
@[simp] theorem releaseLock_mode (s : State) : (releaseLock s).mode = s.mode := rfl
@[simp] theorem releaseLock_sub (s : State) : (releaseLock s).sub = s.sub := rfl
@[simp] theorem releaseLock_link (s : State) : (releaseLock s).link = s.link := rfl
@[simp] theorem releaseLock_pwm (s : State) : (releaseLock s).pwm = s.pwm := rfl
@[simp] theorem releaseLock_sched (s : State) : (releaseLock s).sched = s.sched := rfl
@[simp] theorem releaseLock_led (s : State) : (releaseLock s).led = s.led := rfl
@[simp] theorem releaseLock_statusOut (s : State) : (releaseLock s).statusOut = s.statusOut := rfl
@[simp] theorem releaseLock_op (s : State) : (releaseLock s).op = s.op := rfl
@[simp] theorem releaseLock_events (s : State) : (releaseLock s).events = s.events := rfl
@[simp] theorem releaseLock_bus (s : State) : (releaseLock s).bus = s.bus := rfl
@[simp] theorem releaseLock_faults (s : State) : (releaseLock s).faults = s.faults := rfl
@[simp] theorem releaseLock_resp (s : State) : (releaseLock s).resp = s.resp := rfl
@[simp] theorem releaseLock_cfg (s : State) : (releaseLock s).cfg = s.cfg := rfl
@[simp] theorem releaseLock_cur (s : State) : (releaseLock s).cur = s.cur := rfl
@[simp] theorem releaseLock_req (s : State) : (releaseLock s).req = s.req := rfl
@[simp] theorem releaseLock_busReq (s : State) : (releaseLock s).busReq = s.busReq := rfl
@[simp] theorem releaseLock_env (s : State) : (releaseLock s).env = s.env := rfl

/-! ### `complete` -/

@[simp] theorem complete_ib (r : Result) (s : State) : (complete r s).ib = s.ib := rfl
@[simp] theorem complete_ob (r : Result) (s : State) : (complete r s).ob = s.ob := rfl
@[simp] theorem complete_mode (r : Result) (s : State) : (complete r s).mode = s.mode := rfl
@[simp] theorem complete_sub (r : Result) (s : State) : (complete r s).sub = s.sub := rfl
@[simp] theorem complete_link (r : Result) (s : State) : (complete r s).link = s.link := rfl
@[simp] theorem complete_pwm (r : Result) (s : State) : (complete r s).pwm = s.pwm := rfl
@[simp] theorem complete_sched (r : Result) (s : State) : (complete r s).sched = s.sched := rfl
@[simp] theorem complete_led (r : Result) (s : State) : (complete r s).led = s.led := rfl
@[simp] theorem complete_statusOut (r : Result) (s : State) : (complete r s).statusOut = s.statusOut := rfl
@[simp] theorem complete_lock (r : Result) (s : State) : (complete r s).lock = s.lock := rfl
@[simp] theorem complete_events (r : Result) (s : State) : (complete r s).events = s.events := rfl
@[simp] theorem complete_bus (r : Result) (s : State) : (complete r s).bus = s.bus := rfl
@[simp] theorem complete_faults (r : Result) (s : State) : (complete r s).faults = s.faults := rfl
@[simp] theorem complete_cfg (r : Result) (s : State) : (complete r s).cfg = s.cfg := rfl
@[simp] theorem complete_cur (r : Result) (s : State) : (complete r s).cur = s.cur := rfl
@[simp] theorem complete_req (r : Result) (s : State) : (complete r s).req = s.req := rfl
@[simp] theorem complete_busReq (r : Result) (s : State) : (complete r s).busReq = s.busReq := rfl
@[simp] theorem complete_env (r : Result) (s : State) : (complete r s).env = s.env := rfl

/-! ### `setIntent` -/

@[simp] theorem setIntent_ib (p : Pin) (v : Bool) (s : State) : (setIntent p v s).ib = s.ib := rfl
@[simp] theorem setIntent_mode (p : Pin) (v : Bool) (s : State) : (setIntent p v s).mode = s.mode := rfl
@[simp] theorem setIntent_sub (p : Pin) (v : Bool) (s : State) : (setIntent p v s).sub = s.sub := rfl
@[simp] theorem setIntent_link (p : Pin) (v : Bool) (s : State) : (setIntent p v s).link = s.link := rfl
@[simp] theorem setIntent_pwm (p : Pin) (v : Bool) (s : State) : (setIntent p v s).pwm = s.pwm := rfl
@[simp] theorem setIntent_sched (p : Pin) (v : Bool) (s : State) : (setIntent p v s).sched = s.sched := rfl
@[simp] theorem setIntent_led (p : Pin) (v : Bool) (s : State) : (setIntent p v s).led = s.led := rfl
@[simp] theorem setIntent_statusOut (p : Pin) (v : Bool) (s : State) : (setIntent p v s).statusOut = s.statusOut := rfl
@[simp] theorem setIntent_lock (p : Pin) (v : Bool) (s : State) : (setIntent p v s).lock = s.lock := rfl
@[simp] theorem setIntent_op (p : Pin) (v : Bool) (s : State) : (setIntent p v s).op = s.op := rfl
@[simp] theorem setIntent_events (p : Pin) (v : Bool) (s : State) : (setIntent p v s).events = s.events := rfl
@[simp] theorem setIntent_bus (p : Pin) (v : Bool) (s : State) : (setIntent p v s).bus = s.bus := rfl
@[simp] theorem setIntent_faults (p : Pin) (v : Bool) (s : State) : (setIntent p v s).faults = s.faults := rfl
@[simp] theorem setIntent_resp (p : Pin) (v : Bool) (s : State) : (setIntent p v s).resp = s.resp := rfl
@[simp] theorem setIntent_cfg (p : Pin) (v : Bool) (s : State) : (setIntent p v s).cfg = s.cfg := rfl
@[simp] theorem setIntent_cur (p : Pin) (v : Bool) (s : State) : (setIntent p v s).cur = s.cur := rfl
@[simp] theorem setIntent_req (p : Pin) (v : Bool) (s : State) : (setIntent p v s).req = s.req := rfl
@[simp] theorem setIntent_busReq (p : Pin) (v : Bool) (s : State) : (setIntent p v s).busReq = s.busReq := rfl
@[simp] theorem setIntent_env (p : Pin) (v : Bool) (s : State) : (setIntent p v s).env = s.env := rfl

/-! ### `setCmd` -/

@[simp] theorem setCmd_ib (p : Pin) (v : Bool) (s : State) : (setCmd p v s).ib = s.ib := rfl
@[simp] theorem setCmd_mode (p : Pin) (v : Bool) (s : State) : (setCmd p v s).mode = s.mode := rfl
@[simp] theorem setCmd_sub (p : Pin) (v : Bool) (s : State) : (setCmd p v s).sub = s.sub := rfl
@[simp] theorem setCmd_link (p : Pin) (v : Bool) (s : State) : (setCmd p v s).link = s.link := rfl
@[simp] theorem setCmd_pwm (p : Pin) (v : Bool) (s : State) : (setCmd p v s).pwm = s.pwm := rfl
@[simp] theorem setCmd_sched (p : Pin) (v : Bool) (s : State) : (setCmd p v s).sched = s.sched := rfl
@[simp] theorem setCmd_led (p : Pin) (v : Bool) (s : State) : (setCmd p v s).led = s.led := rfl
@[simp] theorem setCmd_statusOut (p : Pin) (v : Bool) (s : State) : (setCmd p v s).statusOut = s.statusOut := rfl
@[simp] theorem setCmd_lock (p : Pin) (v : Bool) (s : State) : (setCmd p v s).lock = s.lock := rfl
@[simp] theorem setCmd_op (p : Pin) (v : Bool) (s : State) : (setCmd p v s).op = s.op := rfl
@[simp] theorem setCmd_events (p : Pin) (v : Bool) (s : State) : (setCmd p v s).events = s.events := rfl
@[simp] theorem setCmd_bus (p : Pin) (v : Bool) (s : State) : (setCmd p v s).bus = s.bus := rfl
@[simp] theorem setCmd_faults (p : Pin) (v : Bool) (s : State) : (setCmd p v s).faults = s.faults := rfl
@[simp] theorem setCmd_resp (p : Pin) (v : Bool) (s : State) : (setCmd p v s).resp = s.resp := rfl
@[simp] theorem setCmd_cfg (p : Pin) (v : Bool) (s : State) : (setCmd p v s).cfg = s.cfg := rfl
@[simp] theorem setCmd_cur (p : Pin) (v : Bool) (s : State) : (setCmd p v s).cur = s.cur := rfl
@[simp] theorem setCmd_req (p : Pin) (v : Bool) (s : State) : (setCmd p v s).req = s.req := rfl
@[simp] theorem setCmd_busReq (p : Pin) (v : Bool) (s : State) : (setCmd p v s).busReq = s.busReq := rfl
@[simp] theorem setCmd_env (p : Pin) (v : Bool) (s : State) : (setCmd p v s).env = s.env := rfl

/-! ### `setSub` -/

@[simp] theorem setSub_ib (i : SubIx) (e : Sub) (s : State) : (setSub i e s).ib = s.ib := rfl
@[simp] theorem setSub_ob (i : SubIx) (e : Sub) (s : State) : (setSub i e s).ob = s.ob := rfl
@[simp] theorem setSub_mode (i : SubIx) (e : Sub) (s : State) : (setSub i e s).mode = s.mode := rfl
@[simp] theorem setSub_link (i : SubIx) (e : Sub) (s : State) : (setSub i e s).link = s.link := rfl
@[simp] theorem setSub_pwm (i : SubIx) (e : Sub) (s : State) : (setSub i e s).pwm = s.pwm := rfl
@[simp] theorem setSub_sched (i : SubIx) (e : Sub) (s : State) : (setSub i e s).sched = s.sched := rfl
@[simp] theorem setSub_led (i : SubIx) (e : Sub) (s : State) : (setSub i e s).led = s.led := rfl
@[simp] theorem setSub_statusOut (i : SubIx) (e : Sub) (s : State) : (setSub i e s).statusOut = s.statusOut := rfl
@[simp] theorem setSub_lock (i : SubIx) (e : Sub) (s : State) : (setSub i e s).lock = s.lock := rfl
@[simp] theorem setSub_op (i : SubIx) (e : Sub) (s : State) : (setSub i e s).op = s.op := rfl
@[simp] theorem setSub_events (i : SubIx) (e : Sub) (s : State) : (setSub i e s).events = s.events := rfl
@[simp] theorem setSub_bus (i : SubIx) (e : Sub) (s : State) : (setSub i e s).bus = s.bus := rfl
@[simp] theorem setSub_faults (i : SubIx) (e : Sub) (s : State) : (setSub i e s).faults = s.faults := rfl
@[simp] theorem setSub_resp (i : SubIx) (e : Sub) (s : State) : (setSub i e s).resp = s.resp := rfl
@[simp] theorem setSub_cfg (i : SubIx) (e : Sub) (s : State) : (setSub i e s).cfg = s.cfg := rfl
@[simp] theorem setSub_cur (i : SubIx) (e : Sub) (s : State) : (setSub i e s).cur = s.cur := rfl
@[simp] theorem setSub_req (i : SubIx) (e : Sub) (s : State) : (setSub i e s).req = s.req := rfl
@[simp] theorem setSub_busReq (i : SubIx) (e : Sub) (s : State) : (setSub i e s).busReq = s.busReq := rfl
@[simp] theorem setSub_env (i : SubIx) (e : Sub) (s : State) : (setSub i e s).env = s.env := rfl

/-! ### `emit` -/

@[simp] theorem emit_ib (ev : Event) (s : State) : (emit ev s).ib = s.ib := rfl
@[simp] theorem emit_ob (ev : Event) (s : State) : (emit ev s).ob = s.ob := rfl
@[simp] theorem emit_mode (ev : Event) (s : State) : (emit ev s).mode = s.mode := rfl
@[simp] theorem emit_sub (ev : Event) (s : State) : (emit ev s).sub = s.sub := rfl
@[simp] theorem emit_link (ev : Event) (s : State) : (emit ev s).link = s.link := rfl
@[simp] theorem emit_pwm (ev : Event) (s : State) : (emit ev s).pwm = s.pwm := rfl
@[simp] theorem emit_sched (ev : Event) (s : State) : (emit ev s).sched = s.sched := rfl
@[simp] theorem emit_led (ev : Event) (s : State) : (emit ev s).led = s.led := rfl
@[simp] theorem emit_statusOut (ev : Event) (s : State) : (emit ev s).statusOut = s.statusOut := rfl
@[simp] theorem emit_lock (ev : Event) (s : State) : (emit ev s).lock = s.lock := rfl
@[simp] theorem emit_op (ev : Event) (s : State) : (emit ev s).op = s.op := rfl
@[simp] theorem emit_bus (ev : Event) (s : State) : (emit ev s).bus = s.bus := rfl
@[simp] theorem emit_faults (ev : Event) (s : State) : (emit ev s).faults = s.faults := rfl
@[simp] theorem emit_resp (ev : Event) (s : State) : (emit ev s).resp = s.resp := rfl
@[simp] theorem emit_cfg (ev : Event) (s : State) : (emit ev s).cfg = s.cfg := rfl
@[simp] theorem emit_cur (ev : Event) (s : State) : (emit ev s).cur = s.cur := rfl
@[simp] theorem emit_req (ev : Event) (s : State) : (emit ev s).req = s.req := rfl
@[simp] theorem emit_busReq (ev : Event) (s : State) : (emit ev s).busReq = s.busReq := rfl
@[simp] theorem emit_env (ev : Event) (s : State) : (emit ev s).env = s.env := rfl

/-! ### `setLink` -/

@[simp] theorem setLink_ib (p q : Pin) (e : Link) (s : State) : (setLink p q e s).ib = s.ib := rfl
@[simp] theorem setLink_ob (p q : Pin) (e : Link) (s : State) : (setLink p q e s).ob = s.ob := rfl
@[simp] theorem setLink_mode (p q : Pin) (e : Link) (s : State) : (setLink p q e s).mode = s.mode := rfl
@[simp] theorem setLink_sub (p q : Pin) (e : Link) (s : State) : (setLink p q e s).sub = s.sub := rfl
@[simp] theorem setLink_pwm (p q : Pin) (e : Link) (s : State) : (setLink p q e s).pwm = s.pwm := rfl
@[simp] theorem setLink_sched (p q : Pin) (e : Link) (s : State) : (setLink p q e s).sched = s.sched := rfl
@[simp] theorem setLink_led (p q : Pin) (e : Link) (s : State) : (setLink p q e s).led = s.led := rfl
@[simp] theorem setLink_statusOut (p q : Pin) (e : Link) (s : State) : (setLink p q e s).statusOut = s.statusOut := rfl
@[simp] theorem setLink_lock (p q : Pin) (e : Link) (s : State) : (setLink p q e s).lock = s.lock := rfl
@[simp] theorem setLink_op (p q : Pin) (e : Link) (s : State) : (setLink p q e s).op = s.op := rfl
@[simp] theorem setLink_events (p q : Pin) (e : Link) (s : State) : (setLink p q e s).events = s.events := rfl
@[simp] theorem setLink_bus (p q : Pin) (e : Link) (s : State) : (setLink p q e s).bus = s.bus := rfl
@[simp] theorem setLink_faults (p q : Pin) (e : Link) (s : State) : (setLink p q e s).faults = s.faults := rfl
@[simp] theorem setLink_resp (p q : Pin) (e : Link) (s : State) : (setLink p q e s).resp = s.resp := rfl
@[simp] theorem setLink_cfg (p q : Pin) (e : Link) (s : State) : (setLink p q e s).cfg = s.cfg := rfl
@[simp] theorem setLink_cur (p q : Pin) (e : Link) (s : State) : (setLink p q e s).cur = s.cur := rfl
@[simp] theorem setLink_req (p q : Pin) (e : Link) (s : State) : (setLink p q e s).req = s.req := rfl
@[simp] theorem setLink_busReq (p q : Pin) (e : Link) (s : State) : (setLink p q e s).busReq = s.busReq := rfl
@[simp] theorem setLink_env (p q : Pin) (e : Link) (s : State) : (setLink p q e s).env = s.env := rfl

/-! ### `setPwm` -/

@[simp] theorem setPwm_ib (p : Pin) (e : Pwm) (s : State) : (setPwm p e s).ib = s.ib := rfl
@[simp] theorem setPwm_ob (p : Pin) (e : Pwm) (s : State) : (setPwm p e s).ob = s.ob := rfl
@[simp] theorem setPwm_mode (p : Pin) (e : Pwm) (s : State) : (setPwm p e s).mode = s.mode := rfl
@[simp] theorem setPwm_sub (p : Pin) (e : Pwm) (s : State) : (setPwm p e s).sub = s.sub := rfl
@[simp] theorem setPwm_link (p : Pin) (e : Pwm) (s : State) : (setPwm p e s).link = s.link := rfl
@[simp] theorem setPwm_sched (p : Pin) (e : Pwm) (s : State) : (setPwm p e s).sched = s.sched := rfl
@[simp] theorem setPwm_led (p : Pin) (e : Pwm) (s : State) : (setPwm p e s).led = s.led := rfl
@[simp] theorem setPwm_statusOut (p : Pin) (e : Pwm) (s : State) : (setPwm p e s).statusOut = s.statusOut := rfl
@[simp] theorem setPwm_lock (p : Pin) (e : Pwm) (s : State) : (setPwm p e s).lock = s.lock := rfl
@[simp] theorem setPwm_op (p : Pin) (e : Pwm) (s : State) : (setPwm p e s).op = s.op := rfl
@[simp] theorem setPwm_events (p : Pin) (e : Pwm) (s : State) : (setPwm p e s).events = s.events := rfl
@[simp] theorem setPwm_bus (p : Pin) (e : Pwm) (s : State) : (setPwm p e s).bus = s.bus := rfl
@[simp] theorem setPwm_faults (p : Pin) (e : Pwm) (s : State) : (setPwm p e s).faults = s.faults := rfl
@[simp] theorem setPwm_resp (p : Pin) (e : Pwm) (s : State) : (setPwm p e s).resp = s.resp := rfl
@[simp] theorem setPwm_cfg (p : Pin) (e : Pwm) (s : State) : (setPwm p e s).cfg = s.cfg := rfl
@[simp] theorem setPwm_cur (p : Pin) (e : Pwm) (s : State) : (setPwm p e s).cur = s.cur := rfl
@[simp] theorem setPwm_req (p : Pin) (e : Pwm) (s : State) : (setPwm p e s).req = s.req := rfl
@[simp] theorem setPwm_busReq (p : Pin) (e : Pwm) (s : State) : (setPwm p e s).busReq = s.busReq := rfl
@[simp] theorem setPwm_env (p : Pin) (e : Pwm) (s : State) : (setPwm p e s).env = s.env := rfl

/-! ### `setMode` -/

@[simp] theorem setMode_ib (p : Pin) (md : PinMode) (s : State) : (setMode p md s).ib = s.ib := rfl
@[simp] theorem setMode_ob (p : Pin) (md : PinMode) (s : State) : (setMode p md s).ob = s.ob := rfl
@[simp] theorem setMode_sub (p : Pin) (md : PinMode) (s : State) : (setMode p md s).sub = s.sub := rfl
@[simp] theorem setMode_link (p : Pin) (md : PinMode) (s : State) : (setMode p md s).link = s.link := rfl
@[simp] theorem setMode_pwm (p : Pin) (md : PinMode) (s : State) : (setMode p md s).pwm = s.pwm := rfl
@[simp] theorem setMode_sched (p : Pin) (md : PinMode) (s : State) : (setMode p md s).sched = s.sched := rfl
@[simp] theorem setMode_led (p : Pin) (md : PinMode) (s : State) : (setMode p md s).led = s.led := rfl
@[simp] theorem setMode_statusOut (p : Pin) (md : PinMode) (s : State) : (setMode p md s).statusOut = s.statusOut := rfl
@[simp] theorem setMode_lock (p : Pin) (md : PinMode) (s : State) : (setMode p md s).lock = s.lock := rfl
@[simp] theorem setMode_op (p : Pin) (md : PinMode) (s : State) : (setMode p md s).op = s.op := rfl
@[simp] theorem setMode_events (p : Pin) (md : PinMode) (s : State) : (setMode p md s).events = s.events := rfl
@[simp] theorem setMode_bus (p : Pin) (md : PinMode) (s : State) : (setMode p md s).bus = s.bus := rfl
@[simp] theorem setMode_faults (p : Pin) (md : PinMode) (s : State) : (setMode p md s).faults = s.faults := rfl
@[simp] theorem setMode_resp (p : Pin) (md : PinMode) (s : State) : (setMode p md s).resp = s.resp := rfl
@[simp] theorem setMode_cfg (p : Pin) (md : PinMode) (s : State) : (setMode p md s).cfg = s.cfg := rfl
@[simp] theorem setMode_cur (p : Pin) (md : PinMode) (s : State) : (setMode p md s).cur = s.cur := rfl
@[simp] theorem setMode_req (p : Pin) (md : PinMode) (s : State) : (setMode p md s).req = s.req := rfl
@[simp] theorem setMode_busReq (p : Pin) (md : PinMode) (s : State) : (setMode p md s).busReq = s.busReq := rfl
@[simp] theorem setMode_env (p : Pin) (md : PinMode) (s : State) : (setMode p md s).env = s.env := rfl

/-! ### `withCur` -/

@[simp] theorem withCur_ib (c : Ctx) (s : State) : (withCur c s).ib = s.ib := rfl
@[simp] theorem withCur_ob (c : Ctx) (s : State) : (withCur c s).ob = s.ob := rfl
@[simp] theorem withCur_mode (c : Ctx) (s : State) : (withCur c s).mode = s.mode := rfl
@[simp] theorem withCur_sub (c : Ctx) (s : State) : (withCur c s).sub = s.sub := rfl
@[simp] theorem withCur_link (c : Ctx) (s : State) : (withCur c s).link = s.link := rfl
@[simp] theorem withCur_pwm (c : Ctx) (s : State) : (withCur c s).pwm = s.pwm := rfl
@[simp] theorem withCur_sched (c : Ctx) (s : State) : (withCur c s).sched = s.sched := rfl
@[simp] theorem withCur_led (c : Ctx) (s : State) : (withCur c s).led = s.led := rfl
@[simp] theorem withCur_statusOut (c : Ctx) (s : State) : (withCur c s).statusOut = s.statusOut := rfl
@[simp] theorem withCur_lock (c : Ctx) (s : State) : (withCur c s).lock = s.lock := rfl
@[simp] theorem withCur_op (c : Ctx) (s : State) : (withCur c s).op = s.op := rfl
@[simp] theorem withCur_events (c : Ctx) (s : State) : (withCur c s).events = s.events := rfl
@[simp] theorem withCur_bus (c : Ctx) (s : State) : (withCur c s).bus = s.bus := rfl
@[simp] theorem withCur_faults (c : Ctx) (s : State) : (withCur c s).faults = s.faults := rfl
@[simp] theorem withCur_resp (c : Ctx) (s : State) : (withCur c s).resp = s.resp := rfl
@[simp] theorem withCur_cfg (c : Ctx) (s : State) : (withCur c s).cfg = s.cfg := rfl
@[simp] theorem withCur_req (c : Ctx) (s : State) : (withCur c s).req = s.req := rfl
@[simp] theorem withCur_busReq (c : Ctx) (s : State) : (withCur c s).busReq = s.busReq := rfl
@[simp] theorem withCur_env (c : Ctx) (s : State) : (withCur c s).env = s.env := rfl

/-! ### `note` -/

/-- `note` writes `op` alone. -/
theorem note_eq (a : Answer) (s : State) : note a s = { s with op := (note a s).op } := by
  unfold note
  split <;> rfl

@[simp] theorem note_ib (a : Answer) (s : State) : (note a s).ib = s.ib := by rw [note_eq]
@[simp] theorem note_ob (a : Answer) (s : State) : (note a s).ob = s.ob := by rw [note_eq]
@[simp] theorem note_mode (a : Answer) (s : State) : (note a s).mode = s.mode := by rw [note_eq]
@[simp] theorem note_sub (a : Answer) (s : State) : (note a s).sub = s.sub := by rw [note_eq]
@[simp] theorem note_link (a : Answer) (s : State) : (note a s).link = s.link := by rw [note_eq]
@[simp] theorem note_pwm (a : Answer) (s : State) : (note a s).pwm = s.pwm := by rw [note_eq]
@[simp] theorem note_sched (a : Answer) (s : State) : (note a s).sched = s.sched := by rw [note_eq]
@[simp] theorem note_led (a : Answer) (s : State) : (note a s).led = s.led := by rw [note_eq]
@[simp] theorem note_statusOut (a : Answer) (s : State) : (note a s).statusOut = s.statusOut := by rw [note_eq]
@[simp] theorem note_lock (a : Answer) (s : State) : (note a s).lock = s.lock := by rw [note_eq]
@[simp] theorem note_events (a : Answer) (s : State) : (note a s).events = s.events := by rw [note_eq]
@[simp] theorem note_bus (a : Answer) (s : State) : (note a s).bus = s.bus := by rw [note_eq]
@[simp] theorem note_faults (a : Answer) (s : State) : (note a s).faults = s.faults := by rw [note_eq]
@[simp] theorem note_resp (a : Answer) (s : State) : (note a s).resp = s.resp := by rw [note_eq]
@[simp] theorem note_cfg (a : Answer) (s : State) : (note a s).cfg = s.cfg := by rw [note_eq]
@[simp] theorem note_cur (a : Answer) (s : State) : (note a s).cur = s.cur := by rw [note_eq]
@[simp] theorem note_req (a : Answer) (s : State) : (note a s).req = s.req := by rw [note_eq]
@[simp] theorem note_busReq (a : Answer) (s : State) : (note a s).busReq = s.busReq := by rw [note_eq]
@[simp] theorem note_env (a : Answer) (s : State) : (note a s).env = s.env := by rw [note_eq]

/-! ### `recordRace` and `beginOp` -/

/-- `recordRace` writes `faults` alone. -/
theorem recordRace_eq (i : Instr) (s : State) :
    recordRace i s = { s with faults := (recordRace i s).faults } := by
  unfold recordRace
  split <;> rfl

@[simp] theorem recordRace_ib (i : Instr) (s : State) : (recordRace i s).ib = s.ib := by rw [recordRace_eq]
@[simp] theorem recordRace_ob (i : Instr) (s : State) : (recordRace i s).ob = s.ob := by rw [recordRace_eq]
@[simp] theorem recordRace_mode (i : Instr) (s : State) : (recordRace i s).mode = s.mode := by rw [recordRace_eq]
@[simp] theorem recordRace_sub (i : Instr) (s : State) : (recordRace i s).sub = s.sub := by rw [recordRace_eq]
@[simp] theorem recordRace_link (i : Instr) (s : State) : (recordRace i s).link = s.link := by rw [recordRace_eq]
@[simp] theorem recordRace_pwm (i : Instr) (s : State) : (recordRace i s).pwm = s.pwm := by rw [recordRace_eq]
@[simp] theorem recordRace_sched (i : Instr) (s : State) : (recordRace i s).sched = s.sched := by rw [recordRace_eq]
@[simp] theorem recordRace_led (i : Instr) (s : State) : (recordRace i s).led = s.led := by rw [recordRace_eq]
@[simp] theorem recordRace_statusOut (i : Instr) (s : State) : (recordRace i s).statusOut = s.statusOut := by rw [recordRace_eq]
@[simp] theorem recordRace_lock (i : Instr) (s : State) : (recordRace i s).lock = s.lock := by rw [recordRace_eq]
@[simp] theorem recordRace_op (i : Instr) (s : State) : (recordRace i s).op = s.op := by rw [recordRace_eq]
@[simp] theorem recordRace_events (i : Instr) (s : State) : (recordRace i s).events = s.events := by rw [recordRace_eq]
@[simp] theorem recordRace_bus (i : Instr) (s : State) : (recordRace i s).bus = s.bus := by rw [recordRace_eq]
@[simp] theorem recordRace_resp (i : Instr) (s : State) : (recordRace i s).resp = s.resp := by rw [recordRace_eq]
@[simp] theorem recordRace_cfg (i : Instr) (s : State) : (recordRace i s).cfg = s.cfg := by rw [recordRace_eq]
@[simp] theorem recordRace_cur (i : Instr) (s : State) : (recordRace i s).cur = s.cur := by rw [recordRace_eq]
@[simp] theorem recordRace_req (i : Instr) (s : State) : (recordRace i s).req = s.req := by rw [recordRace_eq]
@[simp] theorem recordRace_busReq (i : Instr) (s : State) : (recordRace i s).busReq = s.busReq := by rw [recordRace_eq]
@[simp] theorem recordRace_env (i : Instr) (s : State) : (recordRace i s).env = s.env := by rw [recordRace_eq]

@[simp] theorem beginOp_ib (i : Instr) (s : State) : (beginOp i s).ib = s.ib := by simp [beginOp, startOp]
@[simp] theorem beginOp_ob (i : Instr) (s : State) : (beginOp i s).ob = s.ob := by simp [beginOp, startOp]
@[simp] theorem beginOp_mode (i : Instr) (s : State) : (beginOp i s).mode = s.mode := by simp [beginOp, startOp]
@[simp] theorem beginOp_sub (i : Instr) (s : State) : (beginOp i s).sub = s.sub := by simp [beginOp, startOp]
@[simp] theorem beginOp_link (i : Instr) (s : State) : (beginOp i s).link = s.link := by simp [beginOp, startOp]
@[simp] theorem beginOp_pwm (i : Instr) (s : State) : (beginOp i s).pwm = s.pwm := by simp [beginOp, startOp]
@[simp] theorem beginOp_sched (i : Instr) (s : State) : (beginOp i s).sched = s.sched := by simp [beginOp, startOp]
@[simp] theorem beginOp_led (i : Instr) (s : State) : (beginOp i s).led = s.led := by simp [beginOp, startOp]
@[simp] theorem beginOp_statusOut (i : Instr) (s : State) : (beginOp i s).statusOut = s.statusOut := by simp [beginOp, startOp]
@[simp] theorem beginOp_lock (i : Instr) (s : State) : (beginOp i s).lock = s.lock := by simp [beginOp, startOp]
@[simp] theorem beginOp_op (i : Instr) (s : State) : (beginOp i s).op = s.op.set s.cur (.busy i []) := by
  simp [beginOp, startOp]
@[simp] theorem beginOp_events (i : Instr) (s : State) : (beginOp i s).events = s.events := by simp [beginOp, startOp]
@[simp] theorem beginOp_bus (i : Instr) (s : State) : (beginOp i s).bus = s.bus := by simp [beginOp, startOp]
@[simp] theorem beginOp_faults (i : Instr) (s : State) : (beginOp i s).faults = (recordRace i s).faults := rfl
@[simp] theorem beginOp_resp (i : Instr) (s : State) : (beginOp i s).resp = s.resp.set s.cur none := by
  simp [beginOp, startOp]
@[simp] theorem beginOp_cfg (i : Instr) (s : State) : (beginOp i s).cfg = s.cfg := by simp [beginOp, startOp]
@[simp] theorem beginOp_cur (i : Instr) (s : State) : (beginOp i s).cur = s.cur := by simp [beginOp, startOp]
@[simp] theorem beginOp_req (i : Instr) (s : State) : (beginOp i s).req = s.req := by simp [beginOp, startOp]
@[simp] theorem beginOp_busReq (i : Instr) (s : State) : (beginOp i s).busReq = s.busReq := by simp [beginOp, startOp]
@[simp] theorem beginOp_env (i : Instr) (s : State) : (beginOp i s).env = s.env := by simp [beginOp, startOp]

/-! ### `checkLock` -/

/-- `checkLock` writes `faults` alone. -/
theorem checkLock_eq (s : State) : checkLock s = { s with faults := (checkLock s).faults } := by
  unfold checkLock
  split <;> rfl

/-- Inside the lock nothing is recorded. -/
theorem checkLock_held {s : State} (h : s.lock = .held s.cur) : checkLock s = s := by
  simp [checkLock, h]

@[simp] theorem checkLock_ib (s : State) : (checkLock s).ib = s.ib := by rw [checkLock_eq]
@[simp] theorem checkLock_ob (s : State) : (checkLock s).ob = s.ob := by rw [checkLock_eq]
@[simp] theorem checkLock_mode (s : State) : (checkLock s).mode = s.mode := by rw [checkLock_eq]
@[simp] theorem checkLock_sub (s : State) : (checkLock s).sub = s.sub := by rw [checkLock_eq]
@[simp] theorem checkLock_link (s : State) : (checkLock s).link = s.link := by rw [checkLock_eq]
@[simp] theorem checkLock_pwm (s : State) : (checkLock s).pwm = s.pwm := by rw [checkLock_eq]
@[simp] theorem checkLock_sched (s : State) : (checkLock s).sched = s.sched := by rw [checkLock_eq]
@[simp] theorem checkLock_led (s : State) : (checkLock s).led = s.led := by rw [checkLock_eq]
@[simp] theorem checkLock_statusOut (s : State) : (checkLock s).statusOut = s.statusOut := by rw [checkLock_eq]
@[simp] theorem checkLock_lock (s : State) : (checkLock s).lock = s.lock := by rw [checkLock_eq]
@[simp] theorem checkLock_op (s : State) : (checkLock s).op = s.op := by rw [checkLock_eq]
@[simp] theorem checkLock_events (s : State) : (checkLock s).events = s.events := by rw [checkLock_eq]
@[simp] theorem checkLock_bus (s : State) : (checkLock s).bus = s.bus := by rw [checkLock_eq]
@[simp] theorem checkLock_resp (s : State) : (checkLock s).resp = s.resp := by rw [checkLock_eq]
@[simp] theorem checkLock_cfg (s : State) : (checkLock s).cfg = s.cfg := by rw [checkLock_eq]
@[simp] theorem checkLock_cur (s : State) : (checkLock s).cur = s.cur := by rw [checkLock_eq]
@[simp] theorem checkLock_req (s : State) : (checkLock s).req = s.req := by rw [checkLock_eq]
@[simp] theorem checkLock_busReq (s : State) : (checkLock s).busReq = s.busReq := by rw [checkLock_eq]
@[simp] theorem checkLock_env (s : State) : (checkLock s).env = s.env := by rw [checkLock_eq]

/-! ### The fields an update does change -/

@[simp] theorem modIb_ib (k : Bank) (f : InBank → InBank) (s : State) : (modIb k f s).ib = s.ib.set k (f s.ib[k]) := rfl

@[simp] theorem modOb_ob (k : Bank) (f : OutBank → OutBank) (s : State) : (modOb k f s).ob = s.ob.set k (f s.ob[k]) := rfl

@[simp] theorem setMode_mode (p : Pin) (md : PinMode) (s : State) : (setMode p md s).mode = s.mode.set p md := rfl

@[simp] theorem setSub_sub (i : SubIx) (e : Sub) (s : State) : (setSub i e s).sub = s.sub.set i e := rfl

@[simp] theorem setPwm_pwm (p : Pin) (e : Pwm) (s : State) : (setPwm p e s).pwm = s.pwm.set p e := rfl

@[simp] theorem setOp_op (c : Ctx) (o : Op) (s : State) : (setOp c o s).op = s.op.set c o := rfl

@[simp] theorem complete_op (r : Result) (s : State) : (complete r s).op = s.op.set s.cur .idle := rfl

@[simp] theorem complete_resp (r : Result) (s : State) : (complete r s).resp = s.resp.set s.cur (some r) := rfl

@[simp] theorem acquireLock_lock (s : State) : (acquireLock s).lock = .held s.cur := rfl

@[simp] theorem releaseLock_lock (s : State) : (releaseLock s).lock = .free := rfl

@[simp] theorem withCur_cur (c : Ctx) (s : State) : (withCur c s).cur = c := rfl

/-- An update of a bank is read back on that bank and leaves the other bank alone. -/
theorem modOb_get (k j : Bank) (f : OutBank → OutBank) (s : State) :
    (modOb k f s).ob[j] = if k = j then f s.ob[k] else s.ob[j] := by
  simp only [modOb_ob, Fin.getElem_fin, Vector.getElem_set, Fin.ext_iff]

/-- An update of a bank is read back on that bank and leaves the other bank alone. -/
theorem modIb_get (k j : Bank) (f : InBank → InBank) (s : State) :
    (modIb k f s).ib[j] = if k = j then f s.ib[k] else s.ib[j] := by
  simp only [modIb_ib, Fin.getElem_fin, Vector.getElem_set, Fin.ext_iff]

/-- Two updates of one bank are one. -/
theorem modOb_modOb (k : Bank) (f g : OutBank → OutBank) (s : State) :
    modOb k f (modOb k g s) = modOb k (f ∘ g) s := by
  simp [modOb]

/-! ### Bits of a bank word -/

/-- A bit is read back as written, and no other bit changes (R12). -/
theorem bit_setBit (v : Byte) (c d : Chan) (b : Bool) :
    bit (setBit v c b) d = if c = d then b else bit v d := by
  revert v c d b
  unfold bit setBit
  intro v c d b
  have hd := d.isLt
  by_cases h : c = d
  · subst h
    cases b <;> simp [hd]
  · have hne : c.val ≠ d.val := fun e => h (Fin.ext e)
    cases b
    · rcases Nat.lt_or_gt_of_ne hne with hl | hl <;> simp [h, hd] <;> omega
    · rcases Nat.lt_or_gt_of_ne hne with hl | hl <;> simp [h, hd] <;> omega

/-! ### Reset -/

theorem below80_setWidth (v : BitVec 7) : below80 (v.setWidth 8) = true := by
  simp [below80]

/-- The binding of the run that starts at reset is one R11 and R84 allow. -/
theorem binding_ok : bindingOk Config.binding = true := by
  have h : twoSlots Config.joinPair.slots = true := by
    generalize Config.joinPair = j
    cases j <;> decide
  simp [bindingOk, Config.binding, below80_setWidth, h]

/-- Reset is the reset under its binding: nothing is recorded (R317). -/
theorem reset_eq_resetWith : State.reset = State.resetWith Config.binding := by
  unfold State.reset State.resetWith
  rw [binding_ok]
  rfl

end Sys2Proof.Machine
end

