-- ==== Sys2Proof/Laws/Ops.lean ====
section
/-! SUPPORT. What each shared operation can do, said once: starting and ending an operation, a local unit, a bus attempt,
a transaction, OUT_CFG, and a write through the guarded path, each as one rewriting of `drive`. -/

namespace Sys2Proof.Machine

/-! ### exec is the operation of its instruction -/

/-- Every arm of `exec` runs the units of its instruction. -/
theorem exec_eq (i : Instr) (s : State) : exec i s = .next (runOp i (programOf s.cfg i) s) := by
  cases i <;> rfl

theorem runOp_illegal {i : Instr} (p : Prog) {s : State} (h : legal i = false) :
    runOp i p s = complete (.fail .arg) s := by
  simp [runOp, h]

theorem runOp_legal {i : Instr} (p : Prog) {s : State} (h : legal i = true) :
    runOp i p s = drive p (beginOp i s) := by
  simp [runOp, h]

theorem drive_ret (r : Result) (s : State) : drive (.ret r) s = complete r s := rfl

theorem drive_loc (act : State → State × Answer) (next : Answer → Prog) (s : State) :
    drive (loc act next) s = drive (next (act s).2) (note (act s).2 (act s).1) := rfl

/-- A unit that is not ACQ is always enabled (R70). -/
theorem enabled_of_ne {k : UnitKind} (h : k ≠ .acq) (s : State) : enabled k s = true := by
  cases k <;> simp_all [enabled]

/-! ### The operations in flight and the responses are not looked at

Every unit but the status reconciliation neither reads nor writes `op` or `resp`, so neither its observations, noted in
`op`, nor the responses matter to what it does. -/

/-- The state with other operations in flight and other responses. -/
def withBook (o : Vector Op 2) (q : Vector (Option Result) 2) (s : State) : State := { s with op := o, resp := q }

@[simp] theorem withBook_self (s : State) : withBook s.op s.resp s = s := rfl
@[simp] theorem withBook_withBook (o p : Vector Op 2) (q r : Vector (Option Result) 2) (s : State) :
    withBook o q (withBook p r s) = withBook o q s := rfl
@[simp] theorem withBook_op (o : Vector Op 2) (q : Vector (Option Result) 2) (s : State) : (withBook o q s).op = o := rfl
@[simp] theorem withBook_resp (o : Vector Op 2) (q : Vector (Option Result) 2) (s : State) :
    (withBook o q s).resp = q := rfl
@[simp] theorem withBook_ib (o : Vector Op 2) (q : Vector (Option Result) 2) (s : State) :
    (withBook o q s).ib = s.ib := rfl
@[simp] theorem withBook_ob (o : Vector Op 2) (q : Vector (Option Result) 2) (s : State) :
    (withBook o q s).ob = s.ob := rfl
@[simp] theorem withBook_mode (o : Vector Op 2) (q : Vector (Option Result) 2) (s : State) :
    (withBook o q s).mode = s.mode := rfl
@[simp] theorem withBook_sub (o : Vector Op 2) (q : Vector (Option Result) 2) (s : State) :
    (withBook o q s).sub = s.sub := rfl
@[simp] theorem withBook_link (o : Vector Op 2) (q : Vector (Option Result) 2) (s : State) :
    (withBook o q s).link = s.link := rfl
@[simp] theorem withBook_pwm (o : Vector Op 2) (q : Vector (Option Result) 2) (s : State) :
    (withBook o q s).pwm = s.pwm := rfl
@[simp] theorem withBook_sched (o : Vector Op 2) (q : Vector (Option Result) 2) (s : State) :
    (withBook o q s).sched = s.sched := rfl
@[simp] theorem withBook_led (o : Vector Op 2) (q : Vector (Option Result) 2) (s : State) :
    (withBook o q s).led = s.led := rfl
@[simp] theorem withBook_statusOut (o : Vector Op 2) (q : Vector (Option Result) 2) (s : State) :
    (withBook o q s).statusOut = s.statusOut := rfl
@[simp] theorem withBook_lock (o : Vector Op 2) (q : Vector (Option Result) 2) (s : State) :
    (withBook o q s).lock = s.lock := rfl
@[simp] theorem withBook_events (o : Vector Op 2) (q : Vector (Option Result) 2) (s : State) :
    (withBook o q s).events = s.events := rfl
@[simp] theorem withBook_bus (o : Vector Op 2) (q : Vector (Option Result) 2) (s : State) :
    (withBook o q s).bus = s.bus := rfl
@[simp] theorem withBook_faults (o : Vector Op 2) (q : Vector (Option Result) 2) (s : State) :
    (withBook o q s).faults = s.faults := rfl
@[simp] theorem withBook_cfg (o : Vector Op 2) (q : Vector (Option Result) 2) (s : State) :
    (withBook o q s).cfg = s.cfg := rfl
@[simp] theorem withBook_cur (o : Vector Op 2) (q : Vector (Option Result) 2) (s : State) :
    (withBook o q s).cur = s.cur := rfl
@[simp] theorem withBook_req (o : Vector Op 2) (q : Vector (Option Result) 2) (s : State) :
    (withBook o q s).req = s.req := rfl
@[simp] theorem withBook_busReq (o : Vector Op 2) (q : Vector (Option Result) 2) (s : State) :
    (withBook o q s).busReq = s.busReq := rfl
@[simp] theorem withBook_env (o : Vector Op 2) (q : Vector (Option Result) 2) (s : State) :
    (withBook o q s).env = s.env := rfl

/-- A unit that neither reads nor writes `op` and `resp`, and leaves the running context alone. -/
structure Blind (act : State → State × Answer) : Prop where
  book : ∀ (s : State) (o : Vector Op 2) (q : Vector (Option Result) 2),
    act (withBook o q s) = (withBook o q (act s).1, (act s).2)
  cur : ∀ s : State, (act s).1.cur = s.cur

/-- Such a unit leaves `op` alone. -/
theorem Blind.op {act : State → State × Answer} (h : Blind act) (s : State) : (act s).1.op = s.op := by
  have e := h.book s s.op s.resp
  rw [withBook_self] at e
  simpa using congrArg (fun x : State × Answer => x.1.op) e

/-- Such a unit leaves `resp` alone. -/
theorem Blind.resp {act : State → State × Answer} (h : Blind act) (s : State) : (act s).1.resp = s.resp := by
  have e := h.book s s.op s.resp
  rw [withBook_self] at e
  simpa using congrArg (fun x : State × Answer => x.1.resp) e

/-- Two tables of operations that differ at most in how far context `c` has come in its operation. -/
structure Noted (c : Ctx) (o o' : Vector Op 2) : Prop where
  other : ∀ d : Ctx, d ≠ c → o'[d] = o[d]
  busy : ∀ i seen, o[c] = .busy i seen → ∃ seen', o'[c] = .busy i seen'

theorem Noted.refl (c : Ctx) (o : Vector Op 2) : Noted c o o := ⟨fun _ _ => rfl, fun _ seen h => ⟨seen, h⟩⟩

theorem Noted.trans {c : Ctx} {o o' o'' : Vector Op 2} (h : Noted c o o') (g : Noted c o' o'') : Noted c o o'' :=
  ⟨fun d hd => (g.other d hd).trans (h.other d hd), fun i seen e => by
    obtain ⟨seen', e'⟩ := h.busy i seen e
    exact g.busy i seen' e'⟩

/-- Noting an observation moves the running context on in its operation, and changes nothing else. -/
theorem note_withBook (a : Answer) (s : State) :
    ∃ o : Vector Op 2, note a s = withBook o s.resp s ∧ Noted s.cur s.op o := by
  unfold note
  split
  · rename_i i seen ho
    refine ⟨_, rfl, fun c hc => ?_, fun j seen' h => ⟨seen ++ [a], ?_⟩⟩
    · have hv : s.cur.val ≠ c.val := fun e => hc (Fin.ext e.symm)
      simp [hv]
    · rw [ho] at h
      cases h
      simp
  · exact ⟨s.op, rfl, .refl _ _⟩

/-- Running `p` from `s` comes to running `q` from `t`, whatever has been noted. -/
def Leads (p : Prog) (s : State) (q : Prog) (t : State) : Prop :=
  t.cur = s.cur ∧ t.op = s.op ∧ t.resp = s.resp ∧
    ∀ (o : Vector Op 2) (r : Vector (Option Result) 2), ∃ o' : Vector Op 2,
      Noted s.cur o o' ∧ drive p (withBook o r s) = drive q (withBook o' r t)

theorem Leads.refl (p : Prog) (s : State) : Leads p s p s :=
  ⟨rfl, rfl, rfl, fun o _ => ⟨o, .refl _ _, rfl⟩⟩

theorem Leads.trans {p q r : Prog} {s t u : State} (h : Leads p s q t) (g : Leads q t r u) : Leads p s r u := by
  obtain ⟨hc, ho, hr, h⟩ := h
  obtain ⟨gc, go, gr, g⟩ := g
  refine ⟨gc.trans hc, go.trans ho, gr.trans hr, fun o ρ => ?_⟩
  obtain ⟨o1, h1, e1⟩ := h o ρ
  obtain ⟨o2, h2, e2⟩ := g o1 ρ
  exact ⟨o2, h1.trans (hc ▸ h2), e1.trans e2⟩

/-- An enabled unit that does not look at `op` and `resp`. -/
theorem Leads.unit {k : UnitKind} {act : State → State × Answer} {next : Answer → Prog} {s : State}
    (he : enabled k s = true) (hb : Blind act) :
    Leads (.unit k act next) s (next (act s).2) (act s).1 := by
  refine ⟨hb.cur s, hb.op s, hb.resp s, fun o ρ => ?_⟩
  obtain ⟨o', h, ho'⟩ := note_withBook (act s).2 (withBook o ρ (act s).1)
  refine ⟨o', ?_, ?_⟩
  · simpa [hb.cur s] using ho'
  · have he' : enabled k (withBook o ρ s) = true := he
    simp only [drive, he', if_true, hb.book]
    rw [h, withBook_withBook, withBook_resp]

theorem Leads.loc {act : State → State × Answer} {next : Answer → Prog} {s : State} (hb : Blind act) :
    Leads (loc act next) s (next (act s).2) (act s).1 :=
  Leads.unit (enabled_of_ne (by decide) s) hb

theorem Leads.entry {act : State → State × Answer} {next : Answer → Prog} {s : State} (hb : Blind act) :
    Leads (.unit .entry act next) s (next (act s).2) (act s).1 :=
  Leads.unit (enabled_of_ne (by decide) s) hb

/-- Two tables that agree but at one context agree once that entry is overwritten. -/
theorem set_cur_eq {α : Type} {o o' : Vector α 2} {c : Ctx} (h : ∀ d : Ctx, d ≠ c → o'[d] = o[d]) (x : α) :
    o'.set c x = o.set c x := by
  apply Vector.ext
  intro j hj
  by_cases e : c.val = j
  · subst e; simp
  · have := h ⟨j, hj⟩ (fun q => e (by rw [← q]))
    simp only [Vector.getElem_set, e, if_false]
    simpa using this

/-- What has been noted is gone when the operation ends. -/
theorem complete_withBook {o : Vector Op 2} {q : Vector (Option Result) 2} {s : State}
    (h : ∀ d : Ctx, d ≠ s.cur → o[d] = s.op[d]) (g : ∀ d : Ctx, d ≠ s.cur → q[d] = s.resp[d]) (r : Result) :
    complete r (withBook o q s) = complete r s := by
  simp only [complete, withBook]
  rw [set_cur_eq h, set_cur_eq g]

/-- An entry that is not the one set. -/
theorem set_other {α : Type} (v : Vector α 2) (c d : Ctx) (x : α) (h : d ≠ c) : (v.set c x)[d] = v[d] := by
  have hv : c.val ≠ d.val := fun e => h (Fin.ext e.symm)
  simp [hv]

/-- An operation that comes to a result ends with it, in the state it comes to. -/
theorem Leads.done {p : Prog} {s t : State} {r : Result} (h : Leads p s (.ret r) t) (i : Instr) :
    drive p (startOp i s) = complete r t := by
  obtain ⟨hc, ho, hr, h⟩ := h
  obtain ⟨o', h', e⟩ := h (s.op.set s.cur (.busy i [])) (s.resp.set s.cur none)
  have hs : startOp i s = withBook (s.op.set s.cur (.busy i [])) (s.resp.set s.cur none) s := rfl
  rw [hs, e, drive_ret]
  apply complete_withBook
  · intro d hd
    rw [hc] at hd
    rw [h'.other d hd, ho, set_other _ _ _ _ hd]
  · intro d hd
    rw [hc] at hd
    rw [hr, set_other _ _ _ _ hd]

/-- An operation whose units come to a result, run whole. -/
theorem exec_of_leads {i : Instr} {s t : State} {r : Result} (hl : legal i = true)
    (h : Leads (programOf s.cfg i) (recordRace i s) (.ret r) t) : exec i s = .next (complete r t) := by
  rw [exec_eq, runOp_legal _ hl, beginOp, h.done i]

/-- An operation that meets no race starts from the state as it is. -/
theorem recordRace_none {i : Instr} (hm : pinMutating i = false) (ht : isTick i = false) (s : State) :
    recordRace i s = s := by
  have h : raceWith i s = none := by
    unfold raceWith
    split <;> simp [sharePin, hm, ht]
  simp [recordRace, h]

/-- An operation of one local unit, run whole. -/
theorem exec_oneUnit {i : Instr} {s t : State} {act : State → State × Answer} {r : Result} (hl : legal i = true)
    (hp : programOf s.cfg i = oneUnit act) (hb : Blind act) (hr : act (recordRace i s) = (t, .finish r)) :
    exec i s = .next (complete r t) := by
  apply exec_of_leads hl
  rw [hp]
  have h : (act (recordRace i s)).2 = .finish r := by rw [hr]
  have g := Leads.loc (next := fun a => match a with
    | .finish r => .ret r
    | _ => .ret okDone) (s := recordRace i s) hb
  rw [hr] at g
  exact g

/-- An operation with an illegal field does nothing but fail (R90). -/
theorem exec_illegal {i : Instr} {s : State} (hl : legal i = false) : exec i s = .next (complete (.fail .arg) s) := by
  rw [exec_eq, runOp_illegal _ hl]

/-! ### Units that do not look at them -/

theorem blind_exchange (cs : ChipSelect) (f : Frame) : Blind (exchange cs f) where
  book s o q := by
    have h : checkLock (withBook o q s) = withBook o q (checkLock s) := by
      by_cases h : s.lock = .held s.cur
      · simp [checkLock, h]
      · simp [checkLock, h]
        rfl
    simp only [exchange, h]
    rfl
  cur s := by simp [exchange]

theorem blind_acquire (b : Binding) (x : Xact) : Blind (acquire b x) where
  book s o q := by cases x <;> rfl
  cur s := by cases x <;> rfl

theorem blind_finish (b : Binding) (x : Xact) (m : Bool) (d : Byte) (e1 e2 : Frame) : Blind (finish b x m d e1 e2) where
  book s o q := by
    unfold finish
    split
    · cases x <;> rfl
    · rfl
  cur s := by
    unfold finish
    split
    · cases x <;> rfl
    · rfl

theorem blind_setErr (x : Xact) : Blind (fun s => (setErr x s, .done)) where
  book s o q := by cases x <;> rfl
  cur s := by cases x <;> rfl

theorem blind_modOb (k : Bank) (f : OutBank → OutBank) : Blind (fun s => (modOb k f s, .done)) where
  book _ _ _ := rfl
  cur _ := rfl

theorem blind_modIb (k : Bank) (f : InBank → InBank) : Blind (fun s => (modIb k f s, .done)) where
  book _ _ _ := rfl
  cur _ := rfl

theorem blind_writeLocal (p : Pin) (v : Bool) : Blind (writeLocal p v) where
  book s o q := by
    have e : writeLocal p v (withBook o q s) =
        if isOut p s then
          if ovLocked p s || thLocked p s then
            if ovLocked p s && !v then (withBook o q s, .finish (.fail .lock))
            else if thLocked p s && v then (withBook o q s, .finish (.fail .lock))
            else (withBook o q (setIntent p v s), .finish okDone)
          else (withBook o q (setCmd p v (setIntent p v s)), .send (outBank p))
        else (withBook o q s, .finish (.fail .arg)) := rfl
    rw [e]
    simp only [writeLocal]
    split_ifs <;> rfl
  cur s := by
    simp only [writeLocal]
    split_ifs <;> rfl

theorem blind_toggleLocal (p : Pin) : Blind (toggleLocal p) where
  book s o q := (blind_writeLocal p _).book s o q
  cur s := (blind_writeLocal p _).cur s

theorem sample_withBook (k : SubIx) (s : State) (o : Vector Op 2) (q : Vector (Option Result) 2) :
    sample k (withBook o q s) = ((sample k s).1, withBook o q (sample k s).2) := by
  unfold sample
  split <;> rfl

theorem sample_cur (k : SubIx) (s : State) : (sample k s).2.cur = s.cur := by
  unfold sample
  split <;> rfl

theorem blind_dreadUnit (k : SubIx) : Blind (dreadUnit k) where
  book s o q := by
    simp only [dreadUnit, sample_withBook]
    split <;> rfl
  cur s := by
    simp only [dreadUnit]
    split <;> exact sample_cur _ _

theorem blind_clearfaults : Blind clearfaultsUnit := ⟨fun _ _ _ => rfl, fun _ => rfl⟩

theorem blind_setovp (k : Bank) (en : Bool) : Blind (setovpUnit k en) := ⟨fun _ _ _ => rfl, fun _ => rfl⟩

theorem blind_setled (v : Bool) : Blind (setledUnit v) := ⟨fun _ _ _ => rfl, fun _ => rfl⟩

theorem blind_getled : Blind getledUnit := ⟨fun _ _ _ => rfl, fun _ => rfl⟩

theorem blind_readClearIn (w : InSticky) (p : Pin) : Blind (readClearIn w p) := ⟨fun _ _ _ => rfl, fun _ => rfl⟩

theorem blind_readClearOut (w : OutSticky) (p : Pin) : Blind (readClearOut w p) := ⟨fun _ _ _ => rfl, fun _ => rfl⟩

theorem blind_ovlock (p : Pin) : Blind (fun s => (s, .finish (.ok (.level (ovLocked p s))))) :=
  ⟨fun _ _ _ => rfl, fun _ => rfl⟩

theorem blind_thlock (p : Pin) : Blind (fun s => (s, .finish (.ok (.level (thLocked p s))))) :=
  ⟨fun _ _ _ => rfl, fun _ => rfl⟩

theorem configCheck_withBook (b : Binding) (p : Pin) (md : PinMode) (det : Bool) (s : State) (o : Vector Op 2)
    (q : Vector (Option Result) 2) : configCheck b p md det (withBook o q s) = configCheck b p md det s := rfl

theorem configS1_withBook (p : Pin) (s : State) (o : Vector Op 2) (q : Vector (Option Result) 2) :
    configS1 p (withBook o q s) = withBook o q (configS1 p s) := by
  simp only [configS1]
  by_cases h : ovLocked p (setIntent p false s) = true
  · rw [if_pos h, if_pos (show ovLocked p (setIntent p false (withBook o q s)) = true from h)]
    rfl
  · rw [if_neg h, if_neg (show ¬ovLocked p (setIntent p false (withBook o q s)) = true from h)]
    rfl

theorem blind_configFirst (b : Binding) (p : Pin) (md : PinMode) (det : Bool) : Blind (configFirst b p md det) where
  book s o q := by
    simp only [configFirst, configCheck_withBook, configS1_withBook]
    split
    · rfl
    · split_ifs <;> rfl
  cur s := by
    simp only [configFirst, configS1]
    split
    · rfl
    · split_ifs <;> rfl

theorem blind_configS2 (p : Pin) (md : PinMode) : Blind (fun s => (configS2 p md s, .done)) :=
  ⟨fun _ _ _ => rfl, fun _ => rfl⟩

theorem blind_configS3 (p : Pin) (md : PinMode) (det : Bool) : Blind (fun s => (configS3 p md det s, .done)) :=
  ⟨fun _ _ _ => rfl, fun _ => rfl⟩

theorem blind_configS4 (p : Pin) (md : PinMode) (det : Bool) : Blind (fun s => (configS4 p md det s, .done)) :=
  ⟨fun _ _ _ => rfl, fun _ => rfl⟩

theorem blind_setMode (p : Pin) (md : PinMode) : Blind (fun s => (setMode p md s, .done)) :=
  ⟨fun _ _ _ => rfl, fun _ => rfl⟩

theorem blind_joinFirst (b : Binding) (p : Pin) (en : Bool) : Blind (joinFirst b p en) where
  book s o q := by
    by_cases h : (en && !joinAllowed b s.mode p) = true
    · simp [joinFirst, h]
    · simp only [joinFirst, withBook_mode, h]
      rfl
  cur s := by
    simp only [joinFirst]
    split_ifs <;> rfl

theorem blind_subscribe (b : Binding) (k : SubIx) (iv cb : U32) : Blind (subscribeUnit b k iv cb) where
  book s o q := by
    have h : afterMs (withBook o q s) = withBook o q (afterMs s) := rfl
    simp only [subscribeUnit]
    split_ifs
    · rfl
    · split
      · rfl
      · rw [h, sample_withBook]
        rfl
  cur s := by
    simp only [subscribeUnit]
    split_ifs
    · rfl
    · split
      · rfl
      · exact sample_cur _ _

theorem blind_link (b : Binding) (p q : Pin) (lm : LinkMode) (iv : U32) : Blind (linkUnit b p q lm iv) where
  book s o r := by
    simp only [linkUnit]
    split_ifs <;> rfl
  cur s := by
    simp only [linkUnit]
    split_ifs <;> rfl

theorem blind_pwm (p : Pin) (f d : Nat) : Blind (pwmUnit p f d) where
  book s o q := by
    simp only [pwmUnit, withBook_mode]
    split_ifs
    · exact (blind_writeLocal p false).book (setPwm p _ s) o q
    · rfl
    · rfl
    · rfl
  cur s := by
    simp only [pwmUnit]
    split_ifs
    · exact (blind_writeLocal p false).cur (setPwm p _ s)
    · rfl
    · rfl
    · rfl

theorem blind_readMs : Blind readMs := ⟨fun _ _ _ => rfl, fun _ => rfl⟩

theorem blind_readUs : Blind readUs := ⟨fun _ _ _ => rfl, fun _ => rfl⟩

theorem blind_refresh (k : Bank) (v : Byte) : Blind (refreshUnit k v) := ⟨fun _ _ _ => rfl, fun _ => rfl⟩

theorem blind_fault1 (k : Bank) (v : Byte) : Blind (fault1Unit k v) := ⟨fun _ _ _ => rfl, fun _ => rfl⟩

theorem blind_fault2 (b : Binding) (k : Bank) (v : Byte) : Blind (fault2Unit b k v) := ⟨fun _ _ _ => rfl, fun _ => rfl⟩

theorem storeOv_withBook (k : Bank) (r : Option Byte) (s : State) (o : Vector Op 2) (q : Vector (Option Result) 2) :
    storeOv k r (withBook o q s) = withBook o q (storeOv k r s) := by
  cases r <;> rfl

theorem storeTh_withBook (k : Bank) (r : Option Byte) (s : State) (o : Vector Op 2) (q : Vector (Option Result) 2) :
    storeTh k r (withBook o q s) = withBook o q (storeTh k r s) := by
  cases r <;> rfl

theorem ovPass_withBook (k : Bank) (now : U32) (s : State) (o : Vector Op 2) (q : Vector (Option Result) 2) :
    ovPass k now (withBook o q s) = (withBook o q (ovPass k now s).1, (ovPass k now s).2) := by
  have h : modOb k (ovSteps now) (withBook o q s) = withBook o q (modOb k (ovSteps now) s) := rfl
  simp only [ovPass, h, withBook_ob]
  split_ifs <;> rfl

theorem blind_phase2 (k : Bank) (now : U32) (r : Option Byte) : Blind (phase2Unit k now r) where
  book s o q := by
    simp only [phase2Unit, storeOv_withBook, withBook_ob, ovPass_withBook]
    split_ifs <;> rfl
  cur s := by
    have h : (storeOv k r s).cur = s.cur := by cases r <;> rfl
    simp only [phase2Unit, ovPass]
    split_ifs <;> exact h

theorem blind_thermal (k : Bank) (now : U32) (r : Option Byte) : Blind (fun s => thPass k now (storeTh k r s)) where
  book s o q := by
    simp only [storeTh_withBook]
    rfl
  cur s := by cases r <;> rfl

theorem blind_thCmdChanged (k : Bank) (before : Byte) : Blind (thCmdChanged k before) where
  book s o q := by
    by_cases h : s.ob[k].cmd = before
    · simp only [thCmdChanged, withBook_ob, h, if_true]
    · simp only [thCmdChanged, withBook_ob, h, if_false]
  cur s := by
    simp only [thCmdChanged]
    split_ifs <;> rfl

theorem blind_schedGate (now : U32) : Blind (schedGate now) where
  book s o q := by
    by_cases h : reached now s.sched.lastMs Config.phaseGateMs = true
    · simp only [schedGate, withBook_sched, h, if_true]
      rfl
    · simp only [schedGate, withBook_sched, h]
      rfl
  cur s := by
    simp only [schedGate]
    split_ifs <;> rfl

theorem blind_subEntry (now : U32) (k : SubIx) : Blind (subEntry now k) where
  book s o q := by
    simp only [subEntry, withBook_sub, sample_withBook]
    split_ifs
    · rfl
    · split
      · rfl
      · split_ifs <;> rfl
  cur s := by
    simp only [subEntry]
    split_ifs
    · rfl
    · split
      · exact sample_cur _ _
      · split_ifs <;> exact sample_cur k s

theorem blind_linkAction (lm : LinkMode) (q : Pin) (lv : Bool) : Blind (linkAction lm q lv) := by
  have id : Blind (fun s => (s, .done)) := ⟨fun _ _ _ => rfl, fun _ => rfl⟩
  cases lm with
  | none => exact id
  | follow => exact blind_writeLocal q lv
  | invert => exact blind_writeLocal q (!lv)
  | flipAny => exact blind_toggleLocal q
  | flipRise => cases lv; exacts [id, blind_toggleLocal q]
  | flipFall => cases lv; exacts [blind_toggleLocal q, id]

theorem blind_linkEntry (now : U32) (p q : Pin) : Blind (linkEntry now p q) where
  book s o r := by
    have h : pinLevel p (withBook o r s) = pinLevel p s := rfl
    by_cases h1 : s.link[p][q].lmode = .none
    · simp only [linkEntry, withBook_link, h1, if_true]
    · simp only [linkEntry, withBook_link, h, h1, if_false]
      cases pinLevel p s with
      | none => rfl
      | some lv =>
        by_cases h2 : (debounce s.link[p][q].gate lv now).2 = true
        · simp only [h2, if_true]
          exact (blind_linkAction _ q _).book (setLink p q _ s) o r
        · simp only [h2]
          rfl
  cur s := by
    simp only [linkEntry]
    split_ifs
    · rfl
    · split
      · rfl
      · split_ifs
        · exact (blind_linkAction _ q _).cur (setLink p q _ s)
        · rfl

theorem blind_pwmEntry (now : U32) (p : Pin) : Blind (pwmEntry now p) where
  book s o q := by
    have h : pwmDue now p (withBook o q s) = pwmDue now p s := rfl
    simp only [pwmEntry, h, (blind_writeLocal p _).book]
    split
    · rfl
    · split <;> rfl
  cur s := by
    simp only [pwmEntry]
    split
    · rfl
    · split <;> exact (blind_writeLocal p _).cur s

theorem blind_pwmCommit (now : U32) (p : Pin) (v : Bool) : Blind (pwmCommit now p v) :=
  ⟨fun _ _ _ => rfl, fun _ => rfl⟩

/-! ### A bus attempt -/

/-- The exchanges of the n-th attempt from here, and nothing else. -/
def attempted (b : Binding) (x : Xact) (s : State) : State :=
  { s with bus := s.bus ++ attemptRecs b x s 0, env := dropEcho^[x.exchanges] s.env }

/-- What one attempt comes to when the lock is free (R113). -/
theorem attempt_leads (b : Binding) (x : Xact) (next : Option Byte → Prog) {s : State} (h : s.lock = .free) :
    Leads (attempt b x next) s
      (next (if attemptOk b x s 0 then some (attemptValue b x (acquire b x s).2.data (attemptEcho x s 0)) else none))
      (if attemptOk b x s 0 then attemptUpdate b x (acquire b x s).2.marker (attemptEcho x s 0) (attempted b x s)
        else attempted b x s) := by
  have hfree : enabled .acq s = true := by simp [enabled, h]
  refine (Leads.unit hfree (blind_acquire b x)).trans ?_
  refine (Leads.unit (enabled_of_ne (by decide) _) (blind_exchange _ _)).trans ?_
  cases x with
  | outWrite k f =>
    refine (Leads.unit (enabled_of_ne (by decide) _) (blind_exchange _ _)).trans ?_
    have key : ∀ (P : Option Byte) (Q : State) (R : State × Answer), R.1 = Q → R.2.found = P →
        Leads (next R.2.found) R.1 (next P) Q := by
      rintro P Q R rfl rfl; exact Leads.refl _ _
    refine (Leads.unit (enabled_of_ne (by decide) _) (blind_finish _ _ _ _ _ _)).trans (key _ _ _ ?_ ?_)
    all_goals
      simp only [finish, acquire, acquireLock, exchange, checkLock, if_true, Answer.echoed, Answer.marker, Answer.data]
      have e1 : attemptEcho (.outWrite k f) s 0 = nextEcho s.env := by simp [attemptEcho, echoNo]
      have e2 : echoNo s.env (0 * Xact.exchanges (.outWrite k f) + (Xact.exchanges (.outWrite k f) - 1)) =
          nextEcho (dropEcho s.env) := by simp [echoNo, Xact.exchanges, Xact.twoPhase]
      simp only [attemptOk, e1, e2]
      split <;>
        simp [*, Answer.found, releaseLock, attempted, attemptRecs, attemptEcho, echoNo, attemptUpdate, modOb, Xact.twoPhase,
          Xact.exchanges, Xact.cs, acquire, acquireLock, Answer.frame, List.append_assoc]
  | _ =>
    have key : ∀ (P : Option Byte) (Q : State) (R : State × Answer), R.1 = Q → R.2.found = P →
        Leads (next R.2.found) R.1 (next P) Q := by
      rintro P Q R rfl rfl; exact Leads.refl _ _
    refine (Leads.unit (enabled_of_ne (by decide) _) (blind_finish _ _ _ _ _ _)).trans (key _ _ _ ?_ ?_)
    all_goals
      simp only [finish, acquire, acquireLock, exchange, checkLock, if_true, Answer.echoed, Answer.marker, Answer.data]
      simp only [attemptOk, attemptEcho, echoNo, Xact.exchanges, Xact.twoPhase]
      simp only [Nat.zero_mul, Function.iterate_zero, id_eq, Bool.false_eq_true, if_false, Nat.sub_self, Nat.add_zero]
      split <;>
        simp [*, Answer.found, releaseLock, attempted, attemptRecs, attemptEcho, echoNo, attemptUpdate, modOb, modIb,
          Xact.twoPhase, Xact.exchanges, Xact.cs, acquire, acquireLock, Answer.frame]

/-! ### A transaction -/

theorem dropEcho_iterate (e : Env) (m n : Nat) : dropEcho^[n] (dropEcho^[m] e) = dropEcho^[n + m] e := by
  rw [Function.iterate_add_apply]

/-- The attempt after this one is the next one from here. -/
theorem attemptEcho_attempted (b : Binding) (x : Xact) (s : State) (n : Nat) :
    attemptEcho x (attempted b x s) n = attemptEcho x s (n + 1) := by
  simp only [attemptEcho, attempted, echoNo, dropEcho_iterate]
  congr 2
  ring

theorem attemptOk_attempted (b : Binding) (x : Xact) (s : State) (n : Nat) :
    attemptOk b x (attempted b x s) n = attemptOk b x s (n + 1) := by
  simp only [attemptOk, attemptEcho_attempted]
  congr 1
  simp only [attempted, echoNo, dropEcho_iterate]
  congr 2
  ring

theorem acquire_attempted (b : Binding) (x : Xact) (s : State) :
    (acquire b x (attempted b x s)).2 = (acquire b x s).2 := by
  cases x <;> rfl

theorem attemptRecs_attempted (b : Binding) (x : Xact) (s : State) (n : Nat) :
    attemptRecs b x (attempted b x s) n = attemptRecs b x s (n + 1) := by
  simp only [attemptRecs, attemptEcho_attempted, acquire_attempted]
  cases x <;> simp only [Xact.twoPhase, if_true, Bool.false_eq_true, if_false]
  simp only [attempted, echoNo, dropEcho_iterate, Xact.exchanges, Xact.twoPhase, if_true]
  rw [show n * 2 + 1 + 2 = (n + 1) * 2 + 1 by ring]

theorem attempted_lock (b : Binding) (x : Xact) (s : State) : (attempted b x s).lock = s.lock := rfl

/-- Two attempts made. -/
theorem attempted_two (b : Binding) (x : Xact) (s : State) :
    attempted b x (attempted b x s) =
      { s with bus := s.bus ++ (attemptRecs b x s 0 ++ attemptRecs b x s 1), env := dropEcho^[2 * x.exchanges] s.env } := by
  have h := attemptRecs_attempted b x s 0
  simp only [Nat.zero_add] at h
  rw [attempted, h]
  simp only [attempted, List.append_assoc, dropEcho_iterate]
  congr 2
  ring

/-- Three attempts made. -/
theorem attempted_three (b : Binding) (x : Xact) (s : State) :
    attempted b x (attempted b x (attempted b x s)) =
      { s with bus := s.bus ++ (attemptRecs b x s 0 ++ (attemptRecs b x s 1 ++ attemptRecs b x s 2)),
               env := dropEcho^[3 * x.exchanges] s.env } := by
  have h1 := attemptRecs_attempted b x s 0
  have h2 := attemptRecs_attempted b x s 1
  simp only [Nat.zero_add, Nat.reduceAdd] at h1 h2
  rw [attempted_two, h1, h2]
  simp only [attempted, List.append_assoc, dropEcho_iterate]
  congr 2
  ring

/-- What a transaction comes to when the lock is free (R114). -/
theorem transaction_leads (b : Binding) (x : Xact) (next : Option Byte → Prog) {s : State} (h : s.lock = .free) :
    Leads (transaction b x next) s (next (xactValue b x s)) (afterXact b x s) := by
  have ex1 : exchanged b x s = (if attemptOk b x s 0 then attempted b x s
      else if attemptOk b x s 1 then attempted b x (attempted b x s)
      else attempted b x (attempted b x (attempted b x s))) := by
    rw [attempted_three, attempted_two]
    simp only [exchanged, attemptsMade, attempted]
    split
    · simp [List.range_succ]
    · split <;> simp [List.range_succ]
  simp only [transaction, Config.attempts, tryAttempts]
  refine (attempt_leads b x _ h).trans ?_
  by_cases h0 : attemptOk b x s 0 = true
  · simp only [h0, if_true]
    have hm : attemptsMade b x s = 1 := by simp [attemptsMade, h0]
    have hx : xactOk b x s = true := by simp [xactOk, h0]
    simp only [afterXact, xactValue, hx, if_true, hm, ex1, h0, Nat.sub_self]
    exact Leads.refl _ _
  · simp only [h0]
    refine (attempt_leads b x _ (s := attempted b x s) h).trans ?_
    simp only [attemptOk_attempted, attemptEcho_attempted, acquire_attempted, Nat.zero_add]
    by_cases h1 : attemptOk b x s 1 = true
    · simp only [h1, if_true]
      have hm : attemptsMade b x s = 2 := by simp [attemptsMade, h0, h1]
      have hx : xactOk b x s = true := by simp [xactOk, h1]
      simp only [afterXact, xactValue, hx, if_true, hm, ex1, h0, h1, Nat.add_one_sub_one]
      exact Leads.refl _ _
    · simp only [h1]
      refine (attempt_leads b x _ (s := attempted b x (attempted b x s)) h).trans ?_
      simp only [attemptOk_attempted, attemptEcho_attempted, acquire_attempted, Nat.zero_add, Nat.reduceAdd]
      by_cases h2 : attemptOk b x s 2 = true
      · simp only [h2, if_true]
        have hm : attemptsMade b x s = 3 := by simp [attemptsMade, h0, h1]
        have hx : xactOk b x s = true := by simp [xactOk, h2]
        simp only [afterXact, xactValue, hx, if_true, hm, ex1, h0, h1, Nat.add_one_sub_one]
        exact Leads.refl _ _
      · simp only [h2]
        have hx : xactOk b x s = false := by simp [xactOk, h0, h1, h2]
        refine (Leads.loc (blind_setErr x)).trans ?_
        simp only [afterXact, xactValue, hx, ex1, h0, h1, Bool.false_eq_true, if_false]
        exact Leads.refl _ _

theorem xactValue_ok {b : Binding} {x : Xact} {s : State} (h : xactOk b x s = true) :
    xactValue b x s =
      some (attemptValue b x (acquire b x s).2.data (attemptEcho x s (attemptsMade b x s - 1))) := by
  simp [xactValue, h]

theorem xactValue_failed {b : Binding} {x : Xact} {s : State} (h : xactOk b x s = false) : xactValue b x s = none := by
  simp [xactValue, h]

/-- A transaction leaves the lock as it was. -/
theorem afterXact_lock (b : Binding) (x : Xact) (s : State) : (afterXact b x s).lock = s.lock := by
  unfold afterXact
  split <;> cases x <;> rfl

theorem afterXact_cur (b : Binding) (x : Xact) (s : State) : (afterXact b x s).cur = s.cur := by
  unfold afterXact
  split <;> cases x <;> rfl

theorem afterXact_op (b : Binding) (x : Xact) (s : State) : (afterXact b x s).op = s.op := by
  unfold afterXact
  split <;> cases x <;> rfl

/-! ### OUT_CFG and the guarded write path -/

/-- What OUT_CFG comes to when the lock is free (R158). -/
theorem outCfg_leads (b : Binding) (k : Bank) (f : ConfField) (next : Result → Prog) {s : State} (h : s.lock = .free) :
    Leads (outCfg b k f next) s (next (cfgResult b k f s)) (afterCfg b k f s) := by
  refine (transaction_leads b _ _ h).trans ?_
  have hl : (afterXact b (.outWrite k f.out) s).lock = .free := by rw [afterXact_lock, h]
  cases hw : xactValue b (.outWrite k f.out) s with
  | none =>
    simp only [cfgResult, afterCfg, hw]
    exact Leads.refl _ _
  | some sent =>
    refine (transaction_leads b _ _ hl).trans ?_
    cases hv : xactValue b (.outRead k (f.readBack b)) (afterXact b (.outWrite k f.out) s) with
    | none =>
      simp only [cfgResult, afterCfg, hw, hv, crcFail, verifyFail]
      exact Leads.refl _ _
    | some got =>
      by_cases e : got = sent
      · simp only [cfgResult, afterCfg, hw, hv, e, if_true, okDone, verifyFail]
        exact Leads.refl _ _
      · simp only [cfgResult, afterCfg, hw, hv, e, if_false, if_true]
        exact Leads.loc (blind_modOb k _)

theorem afterCfg_lock (b : Binding) (k : Bank) (f : ConfField) (s : State) : (afterCfg b k f s).lock = s.lock := by
  unfold afterCfg
  split
  · exact afterXact_lock _ _ _
  · simp only
    split <;> simp [afterXact_lock]

theorem afterCfg_op (b : Binding) (k : Bank) (f : ConfField) (s : State) : (afterCfg b k f s).op = s.op := by
  unfold afterCfg
  split
  · exact afterXact_op _ _ _
  · simp only
    split <;> simp [afterXact_op]

/-- A local action that may ask for a SET_OUT write, and that write, when no unit of the other context falls between. -/
def sendRun (b : Binding) (out : State × Answer) : State × Result :=
  match out.2 with
  | .send k => (afterXact b (.outWrite k .setOut) out.1, xactResult b (.outWrite k .setOut) out.1)
  | .finish r => (out.1, r)
  | _ => (out.1, okDone)

/-- What a local action with its write comes to when the lock is free (R253). -/
theorem writeThrough_leads (b : Binding) {act : State → State × Answer} (next : Result → Prog) {s : State}
    (hb : Blind act) (h : (act s).1.lock = .free) :
    Leads (writeThrough b act next) s (next (sendRun b (act s)).2) (sendRun b (act s)).1 := by
  refine (Leads.loc hb).trans ?_
  unfold sendRun
  cases e : (act s).2 with
  | send k =>
    simp only
    refine (transaction_leads b _ _ h).trans ?_
    simp only [xactResult]
    cases xactValue b (.outWrite k .setOut) (act s).1 <;> exact Leads.refl _ _
  | _ => exact Leads.refl _ _

/-- An operation of one local unit (R70). -/
theorem oneUnit_leads {act : State → State × Answer} {s : State} (hb : Blind act) {r : Result}
    (h : (act s).2 = .finish r) : Leads (oneUnit act) s (.ret r) (act s).1 := by
  have := Leads.loc (next := fun a => match a with
    | .finish r => .ret r
    | _ => .ret okDone) (s := s) hb
  rw [h] at this
  exact this

end Sys2Proof.Machine
end

