-- ==== Sys2Proof/Laws/Units.lean ====
section
/-! SUPPORT. Every action an operation can consist of, listed once; that every operation is built of local actions and whole bus
attempts, with at most one lockout pass in a local unit; that its actions come in the bracketing of 20_memory.md R70 (ACQ, EX1,
EX2, FIN); and where an operation can stand. -/

namespace Sys2Proof.Machine

/-- The local actions of an instruction's operation, but for the two lockout passes. One that writes a mode or clears a sticky
bit names the instruction. -/
inductive LocalOf (b : Binding) (i : Instr) : (State → State × Answer) → Prop
  | setErr (x : Xact) : LocalOf b i (fun s => (setErr x s, .done))
  | bankErr (k : Bank) : LocalOf b i (fun s => (modOb k (fun r => { r with err := true }) s, .done))
  | write (p : Pin) (v : Bool) : LocalOf b i (writeLocal p v)
  | toggle (p : Pin) : LocalOf b i (toggleLocal p)
  | dread (k : SubIx) : LocalOf b i (dreadUnit k)
  | clearfaults : LocalOf b i clearfaultsUnit
  | setovp (k : Bank) (en : Bool) : LocalOf b i (setovpUnit k en)
  | setled (v : Bool) : LocalOf b i (setledUnit v)
  | getled : LocalOf b i getledUnit
  | clearIn (w : InSticky) (p : Pin) (h : clearsIn i = some (w, p)) : LocalOf b i (readClearIn w p)
  | clearOut (w : OutSticky) (p : Pin) (h : clearsOut i = some (w, p)) : LocalOf b i (readClearOut w p)
  | ovlock (p : Pin) : LocalOf b i (fun s => (s, .finish (.ok (.level (ovLocked p s)))))
  | thlock (p : Pin) : LocalOf b i (fun s => (s, .finish (.ok (.level (thLocked p s)))))
  | configFirst (p : Pin) (md : PinMode) (det : Bool) : LocalOf b i (configFirst b p md det)
  | configS2 (p : Pin) (md : PinMode) : LocalOf b i (fun s => (configS2 p md s, .done))
  | configS3 (p : Pin) (md : PinMode) (det : Bool) : LocalOf b i (fun s => (configS3 p md det s, .done))
  | configS4 (p : Pin) (md : PinMode) (det : Bool) : LocalOf b i (fun s => (configS4 p md det s, .done))
  | setMode (p : Pin) (md : PinMode) (h : configures i = some (p, md)) :
      LocalOf b i (fun s => (setMode p md s, .done))
  | joinFirst (p : Pin) (en : Bool) : LocalOf b i (joinFirst b p en)
  | subscribe (k : SubIx) (iv cb : U32) : LocalOf b i (subscribeUnit b k iv cb)
  | link (p q : Pin) (lm : LinkMode) (iv : U32) : LocalOf b i (linkUnit b p q lm iv)
  | pwm (p : Pin) (f d : Nat) : LocalOf b i (pwmUnit p f d)
  | readMs : LocalOf b i readMs
  | readUs : LocalOf b i readUs
  | refresh (k : Bank) (v : Byte) : LocalOf b i (refreshUnit k v)
  | fault1 (k : Bank) (v : Byte) : LocalOf b i (fault1Unit k v)
  | fault2 (k : Bank) (w : Byte) : LocalOf b i (fault2Unit b k w)
  | openLoad (k : Bank) (v : Byte) :
      LocalOf b i (fun s => (modOb k (fun o => { o with olRaw := v, stOL := o.stOL ||| v }) s, .done))
  | thermalCmd (k : Bank) (before : Byte) : LocalOf b i (thCmdChanged k before)
  | gate (now : U32) : LocalOf b i (schedGate now)
  | linkEntry (now : U32) (p q : Pin) : LocalOf b i (linkEntry now p q)
  | pwmEntry (now : U32) (p : Pin) : LocalOf b i (pwmEntry now p)
  | pwmCommit (now : U32) (p : Pin) (v : Bool) : LocalOf b i (pwmCommit now p v)
  | status : LocalOf b i statusUnit

/-- The lockout passes of a tick: the only actions that change a lock bit (R181, R184). -/
inductive PassOf : (State → State × Answer) → Prop
  | overVoltage (k : Bank) (now : U32) (r : Option Byte) : PassOf (phase2Unit k now r)
  | thermal (k : Bank) (now : U32) (r : Option Byte) : PassOf (fun s => thPass k now (storeTh k r s))

/-- The actions of an instruction's operation. -/
inductive UnitOf (b : Binding) (i : Instr) : UnitKind → (State → State × Answer) → Prop
  | acquire (x : Xact) : UnitOf b i .acq (acquire b x)
  | exchange1 (x : Xact) (f : Frame) : UnitOf b i .ex1 (exchange x.cs f)
  | exchange2 (x : Xact) (h : x.twoPhase = true) : UnitOf b i .ex2 (exchange x.cs (rtFrame b))
  | finish (x : Xact) (m : Bool) (d : Byte) (e1 e2 : Frame) : UnitOf b i .fin (finish b x m d e1 e2)
  | subEntry (now : U32) (k : SubIx) : UnitOf b i .entry (subEntry now k)
  | action {act} (h : LocalOf b i act) : UnitOf b i .loc act
  | pass {act} (h : PassOf act) : UnitOf b i .loc act

/-- An operation whose units all satisfy `P` and are bracketed as R70 says; the flag says whether it is inside an attempt. -/
inductive Units (P : UnitKind → (State → State × Answer) → Prop) : Bool → Prog → Prop
  | ret (r : Result) : Units P false (.ret r)
  | loc {act next} (h : P .loc act) (n : ∀ a, Units P false (next a)) : Units P false (.unit .loc act next)
  | entry {act next} (h : P .entry act) (n : ∀ a, Units P false (next a)) : Units P false (.unit .entry act next)
  | acq {act next} (h : P .acq act) (n : ∀ a, Units P true (next a)) : Units P false (.unit .acq act next)
  | ex1 {act next} (h : P .ex1 act) (n : ∀ a, Units P true (next a)) : Units P true (.unit .ex1 act next)
  | ex2 {act next} (h : P .ex2 act) (n : ∀ a, Units P true (next a)) : Units P true (.unit .ex2 act next)
  | fin {act next} (h : P .fin act) (n : ∀ a, Units P false (next a)) : Units P true (.unit .fin act next)

/-- An operation built of local actions and whole bus attempts: what every operation is (R70, R113). The flag says whether the
local unit it begins with may still hold a lockout pass: after one, none comes before the next attempt or entry. -/
inductive Shape (b : Binding) (i : Instr) : Bool → Prog → Prop
  | ret {f} (r : Result) : Shape b i f (.ret r)
  | loc {f act next} (h : LocalOf b i act) (n : ∀ a, Shape b i f (next a)) : Shape b i f (.unit .loc act next)
  | pass {act next} (h : PassOf act) (n : ∀ a, Shape b i false (next a)) : Shape b i true (.unit .loc act next)
  | entry {f act next} (h : UnitOf b i .entry act) (n : ∀ a, Shape b i true (next a)) : Shape b i f (.unit .entry act next)
  | attempt {f} (x : Xact) {next : Option Byte → Prog} (n : ∀ v, Shape b i true (next v)) :
      Shape b i f (Machine.attempt b x next)

/-- What may hold no pass may be said to hold one. -/
theorem Shape.weaken {b : Binding} {i : Instr} {f : Bool} {p : Prog} (h : Shape b i f p) : Shape b i true p := by
  induction h with
  | ret r => exact .ret r
  | loc h _ ih => exact .loc h ih
  | pass h n _ => exact .pass h n
  | entry h n _ => exact .entry h n
  | attempt x n _ => exact .attempt x n

section Programs

variable {b : Binding} {i : Instr} {f : Bool}

theorem shape_tryAttempts (x : Xact) {next : Option Byte → Prog} (h : ∀ v, Shape b i true (next v)) (n : Nat) :
    Shape b i true (tryAttempts b x next n) := by
  induction n with
  | zero => exact .loc (.setErr x) fun _ => h _
  | succ n ih =>
    refine .attempt x fun v => ?_
    cases v
    · exact ih
    · exact h _

theorem shape_transaction (x : Xact) {next : Option Byte → Prog} (h : ∀ v, Shape b i true (next v)) :
    Shape b i f (transaction b x next) := by
  have e : transaction b x next = Machine.attempt b x fun o =>
      match o with
      | some v => next (some v)
      | none => tryAttempts b x next 2 := rfl
  rw [e]
  refine .attempt x fun v => ?_
  cases v
  · exact shape_tryAttempts x h _
  · exact h _

theorem shape_outCfg (k : Bank) (g : ConfField) {next : Result → Prog} (h : ∀ v, Shape b i true (next v)) :
    Shape b i f (outCfg b k g next) := by
  refine shape_transaction _ fun w => ?_
  cases w with
  | none => exact h _
  | some sent =>
    refine shape_transaction _ fun v => ?_
    cases v with
    | none => exact h _
    | some got =>
      simp only
      split
      · exact h _
      · exact .loc (.bankErr k) fun _ => h _

theorem shape_sent {next : Result → Prog} (h : ∀ v, Shape b i f (next v)) (a : Answer) :
    Shape b i f (match a with
      | .send k => transaction b (.outWrite k .setOut) fun w =>
        match w with
        | none => next crcFail
        | some _ => next okDone
      | .finish r => next r
      | _ => next okDone) := by
  cases a with
  | send k =>
    refine shape_transaction _ fun w => ?_
    cases w <;> exact (h _).weaken
  | _ => exact h _

theorem shape_writeThrough {act : State → State × Answer} (ha : LocalOf b i act) {next : Result → Prog}
    (h : ∀ v, Shape b i f (next v)) : Shape b i f (writeThrough b act next) := .loc ha (shape_sent h)

theorem shape_oneUnit {act : State → State × Answer} (ha : LocalOf b i act) :
    Shape b i f (oneUnit act) := by
  refine .loc ha fun a => ?_
  cases a <;> exact .ret _

theorem shape_subEntries (now : U32) {next : Prog} (h : Shape b i true next) (l : List SubIx) :
    Shape b i true (subEntries now next l) := by
  induction l with
  | nil => exact h
  | cons k rest ih => exact .entry (.subEntry now k) fun _ => ih

theorem shape_subscriptionPass (now : U32) {next : Prog} (h : Shape b i true next) :
    Shape b i f (subscriptionPass now next) := by
  rw [subscriptionPass, List.finRange_succ]
  exact .entry (.subEntry now _) fun _ => shape_subEntries now h _

theorem shape_linkEntries (now : U32) {next : Prog} (h : Shape b i true next) (l : List (Pin × Pin)) :
    Shape b i true (linkEntries b now next l) := by
  induction l with
  | nil => exact h
  | cons e rest ih => exact shape_writeThrough (.linkEntry now e.1 e.2) fun _ => ih

theorem shape_pwmChannels (now : U32) {next : Prog} (h : Shape b i true next) (l : List Pin) :
    Shape b i true (pwmChannels b now next l) := by
  induction l with
  | nil => exact h
  | cons p rest ih =>
    refine .loc (.pwmEntry now p) fun a => ?_
    cases a with
    | edge v k =>
      cases k with
      | none => exact .loc (.pwmCommit now p v) fun _ => ih
      | some k => exact shape_transaction _ fun _ => .loc (.pwmCommit now p v) fun _ => ih
    | _ => exact ih

theorem shape_thWrites (k : Bank) (a : Answer) {next : Prog} (h : Shape b i false next) :
    Shape b i false (thWrites b k a next) := by
  cases a with
  | thermal changed before =>
    simp only [thWrites]
    split
    · exact shape_outCfg _ _ fun _ => shape_writeThrough (.thermalCmd k before) fun _ => h.weaken
    · exact shape_writeThrough (.thermalCmd k before) fun _ => h
  | _ => exact h

/-- A phase on a bank that what follows it allows: no pass before the next attempt or entry. -/
theorem shape_runPhase (p : Fin 5) (now : U32) {next : Prog} (h : ∀ f, Shape b i f next) :
    Shape b i true (runPhase b p now next) := by
  have h0 : ∀ (k : Bank) {n : Prog}, (∀ f, Shape b i f n) → ∀ f, Shape b i f (phase0Bank b k n) := by
    intro k n hn f
    refine shape_transaction _ fun r => ?_
    cases r with
    | none => exact hn _
    | some v =>
      refine .loc (.fault1 k v) fun _ => ?_
      split
      · refine shape_transaction _ fun r => ?_
        cases r with
        | none => exact hn _
        | some w => exact .loc (.fault2 k w) fun _ => hn _
      · exact hn _
  have h1 : ∀ (k : Bank) {n : Prog}, (∀ f, Shape b i f n) → ∀ f, Shape b i f (phase1Bank b k n) := by
    intro k n hn f
    refine shape_transaction _ fun r => ?_
    cases r with
    | none => exact hn _
    | some v => exact .loc (.openLoad k v) fun _ => hn _
  have h2 : ∀ (k : Bank) {n : Prog}, (∀ f, Shape b i f n) → ∀ f, Shape b i f (phase2Bank b now k n) :=
    fun k _ hn f => shape_transaction _ fun r => .pass (.overVoltage k now r) (shape_sent fun _ => hn _)
  have h3 : ∀ (k : Bank) {n : Prog}, (∀ f, Shape b i f n) → ∀ f, Shape b i f (phase3Bank b k n) :=
    fun k _ hn f => shape_transaction _ fun _ => hn _
  have h4 : ∀ (k : Bank) {n : Prog}, (∀ f, Shape b i f n) → ∀ f, Shape b i f (phase4Bank b now k n) :=
    fun k _ hn f => shape_transaction _ fun r => .pass (.thermal k now r) fun a => shape_thWrites k a (hn _)
  match p with
  | 0 => exact h0 0 (h0 1 h) _
  | 1 => exact h1 0 (h1 1 h) _
  | 2 => exact h2 0 (h2 1 h) _
  | 3 => exact h3 0 (h3 1 h) _
  | 4 => exact h4 0 (h4 1 h) _

theorem shape_conditioning : Shape b i f (conditioning b) :=
  .loc .readMs fun _ => shape_subscriptionPass _ (shape_linkEntries _ (.loc .readUs fun _ =>
    shape_pwmChannels _ (shape_oneUnit .status) _) _)

theorem shape_inputRefresh (k : Bank) {next : Prog} (h : Shape b i true next) :
    Shape b i true (inputRefresh b k next) := by
  refine shape_transaction _ fun r => ?_
  cases r with
  | none => exact h
  | some v => exact .loc (.refresh k v) fun _ => h

theorem shape_tick : Shape b i true (tickProg b) := by
  refine .loc .readMs fun t => shape_inputRefresh 0 (shape_inputRefresh 1 (.loc (.gate _) fun a => ?_))
  cases a with
  | phase p => exact shape_runPhase p _ fun _ => shape_conditioning
  | _ => exact shape_conditioning

theorem shape_configRest (p : Pin) (md : PinMode) (det : Bool) (h : configures i = some (p, md)) :
    Shape b i true (configRest b p md det) := by
  refine shape_outCfg _ _ fun r => ?_
  cases r with
  | fail f => exact .ret _
  | ok v =>
    refine .loc (.configS3 p md det) fun _ => shape_outCfg _ _ fun r => ?_
    cases r with
    | fail f => exact .ret _
    | ok v =>
      refine .loc (.configS4 p md det) fun _ => shape_transaction _ fun w => ?_
      cases w with
      | none => exact .ret _
      | some w => exact .loc (.setMode p md h) fun _ => .ret _

end Programs

/-- The units of every instruction. -/
theorem shape_programOf (b : Binding) (i : Instr) : Shape b i true (programOf b i) := by
  cases i with
  | config x y z =>
    simp only [programOf, configProg]
    split
    · rename_i p md hp hm
      refine .loc (.configFirst p md _) fun a => ?_
      have hc : configures (.config x y z) = some (p, md) := by simp [configures, hp, hm]
      cases a with
      | finish r => exact .ret r
      | send k =>
        refine shape_transaction _ fun w => ?_
        cases w with
        | none => exact .ret _
        | some w => exact .loc (.configS2 p md) fun _ => shape_configRest p md _ hc
      | _ => exact shape_configRest p md _ hc
    · exact .ret _
  | join x y z =>
    simp only [programOf, joinProg]
    split
    · exact .ret _
    · refine .loc (.joinFirst _ _) fun a => ?_
      cases a with
      | finish r => exact .ret r
      | _ => exact shape_outCfg _ _ fun r => .ret r
  | dread x y z =>
    simp only [programOf, dreadProg]
    split
    · exact .ret _
    · exact shape_oneUnit (.dread _)
  | dwrite x y z =>
    simp only [programOf, dwriteProg]
    split
    · exact .ret _
    · exact shape_writeThrough (.write _ _) fun r => .ret r
  | toggle x y z =>
    simp only [programOf, toggleProg]
    split
    · exact .ret _
    · exact shape_writeThrough (.toggle _) fun r => .ret r
  | clearfaults x y z => exact shape_oneUnit .clearfaults
  | subscribe x y z u v =>
    simp only [programOf, subscribeProg]
    split
    · exact .ret _
    · exact shape_oneUnit (.subscribe _ _ _)
  | link x y z u =>
    simp only [programOf, linkProg]
    split
    · exact shape_oneUnit (.link _ _ _ _)
    · exact .ret _
  | pwm x y z u v =>
    simp only [programOf, pwmProg]
    split
    · exact .ret _
    · exact shape_writeThrough (.pwm _ _ _) fun r => .ret r
  | setovp x y z =>
    simp only [programOf, setovpProg]
    split
    · exact .ret _
    · exact shape_oneUnit (.setovp _ _)
  | setled x y z => exact shape_oneUnit (.setled _)
  | getled x y z => exact shape_oneUnit .getled
  | tick x y z => exact shape_tick
  | getWb x y z | getAlrmt1 x y z | getAlrmt2 x y z | getInot x y z =>
    simp only [programOf, getInProg]
    split
    · exact .ret _
    · rename_i p hp
      exact shape_oneUnit (.clearIn _ p (by simp [clearsIn, hp]))
  | getOl x y z | getOv x y z | getTh x y z =>
    simp only [programOf, getOutProg]
    split
    · exact .ret _
    · rename_i p hp
      exact shape_oneUnit (.clearOut _ p (by simp [clearsOut, hp]))
  | getOvlock x y z =>
    simp only [programOf, getOvlockProg]
    split
    · exact .ret _
    · exact shape_oneUnit (.ovlock _)
  | getThlock x y z =>
    simp only [programOf, getThlockProg]
    split
    · exact .ret _
    · exact shape_oneUnit (.thlock _)
  | inRead k reg crc =>
    simp only [programOf, inReadProg]
    refine shape_transaction _ fun v => ?_
    cases v <;> exact .ret _
  | inWrite k reg d crc =>
    simp only [programOf, inWriteProg]
    refine shape_transaction _ fun v => ?_
    cases v <;> exact .ret _
  | outSetOut k clr d crc =>
    simp only [programOf, outSetOutProg]
    refine shape_transaction _ fun v => ?_
    cases v <;> exact .ret _
  | outSetPp k clr d crc => exact shape_outCfg _ _ fun r => .ret r
  | outSetOlen k clr d crc => exact shape_outCfg _ _ fun r => .ret r
  | outSetJoin k clr d crc => exact shape_outCfg _ _ fun r => .ret r
  | outRead k reg crc =>
    simp only [programOf, outReadProg]
    refine shape_transaction _ fun v => ?_
    cases v <;> exact .ret _
  | outRtstat k =>
    simp only [programOf, outRtstatProg]
    refine shape_transaction _ fun v => ?_
    cases v <;> exact .ret _

/-- Such an operation is bracketed. -/
theorem Shape.units {b : Binding} {i : Instr} {f : Bool} {p : Prog} (h : Shape b i f p) : Units (UnitOf b i) false p := by
  induction h with
  | ret r => exact .ret r
  | loc h _ ih => exact .loc (.action h) ih
  | pass h _ ih => exact .loc (.pass h) ih
  | entry h _ ih => exact .entry h ih
  | attempt x _ ih =>
    refine .acq (.acquire x) fun a => .ex1 (.exchange1 x _) fun e1 => ?_
    split
    · exact .ex2 (.exchange2 x ‹_›) fun e2 => .fin (.finish x _ _ _ _) fun o => ih _
    · exact .fin (.finish x _ _ _ _) fun o => ih _

/-- The units of every instruction are bracketed. -/
theorem units_programOf (b : Binding) (i : Instr) : Units (UnitOf b i) false (programOf b i) := (shape_programOf b i).units

/-- The first action of an operation satisfies `P`, and what follows it is bracketed. -/
theorem units_next {P : UnitKind → (State → State × Answer) → Prop} {f : Bool} {k : UnitKind} {act : State → State × Answer}
    {next : Answer → Prog} (h : Units P f (.unit k act next)) : P k act ∧ ∀ a, ∃ g, Units P g (next a) := by
  cases h <;> exact ⟨‹_›, fun a => ⟨_, by rename_i n; exact n a⟩⟩

/-- What is left of an operation is bracketed too, wherever it stands (R48). -/
theorem units_follow {P : UnitKind → (State → State × Answer) → Prop} {f : Bool} {p : Prog} (h : Units P f p) (a : Answer) :
    ∃ g, Units P g (p.follow a) := by
  cases h with
  | ret r => exact ⟨_, .ret r⟩
  | loc h n => exact ⟨_, n a⟩
  | entry h n => exact ⟨_, n a⟩
  | acq h n => exact ⟨_, n a⟩
  | ex1 h n => exact ⟨_, n a⟩
  | ex2 h n => exact ⟨_, n a⟩
  | fin h n => exact ⟨_, n a⟩

theorem units_after {P : UnitKind → (State → State × Answer) → Prop} {f : Bool} {p : Prog} (h : Units P f p)
    (seen : List Answer) : ∃ g, Units P g (p.after seen) := by
  induction seen generalizing f p with
  | nil => exact ⟨f, h⟩
  | cons a rest ih =>
    obtain ⟨g, hg⟩ := units_follow h a
    exact ih hg

/-- Where an operation can stand: outside any attempt; or before EX1, EX2 or FIN of one, whatever its ACQ and EX1 observed. -/
inductive Place (b : Binding) (i : Instr) : Prog → Prop
  | outside {f p} (h : Shape b i f p) : Place b i p
  | ex1 (x : Xact) (a : Answer) {next : Option Byte → Prog} (n : ∀ v, Shape b i true (next v)) :
      Place b i ((Machine.attempt b x next).follow a)
  | ex2 (x : Xact) (a e : Answer) {next : Option Byte → Prog} (n : ∀ v, Shape b i true (next v)) (h : x.twoPhase = true) :
      Place b i (((Machine.attempt b x next).follow a).follow e)
  | fin (x : Xact) (m : Bool) (d : Byte) (e1 e2 : Frame) {next : Option Byte → Prog} (n : ∀ v, Shape b i true (next v)) :
      Place b i (.unit .fin (finish b x m d e1 e2) fun o => next o.found)

theorem Place.follow {b : Binding} {i : Instr} {p : Prog} (h : Place b i p) (a : Answer) : Place b i (p.follow a) := by
  cases h with
  | outside h =>
    cases h with
    | ret r => exact .outside (f := true) (.ret r)
    | loc h n => exact .outside (n a)
    | pass h n => exact .outside (n a)
    | entry h n => exact .outside (n a)
    | attempt x n => exact .ex1 x a n
  | ex1 x a' n =>
    by_cases h : x.twoPhase = true
    · exact .ex2 x a' a n h
    · simp only [Machine.attempt, Prog.follow, h]
      exact .fin x _ _ _ _ n
  | ex2 x a' e n h =>
    simp only [Machine.attempt, Prog.follow, h, if_true]
    exact .fin x _ _ _ _ n
  | fin x m d e1 e2 n => exact .outside (n _)

/-- Before a unit that is in no attempt, an operation is built as a whole one is. -/
theorem Place.shape {b : Binding} {i : Instr} {k : UnitKind} {act : State → State × Answer} {next : Answer → Prog}
    (h : Place b i (.unit k act next)) (hk : insideAttempt k = false) : ∃ f, Shape b i f (.unit k act next) := by
  generalize e : Prog.unit k act next = p at h
  cases h with
  | outside h => exact ⟨_, h⟩
  | ex1 x a n => cases e; cases hk
  | ex2 x a e' n h =>
    simp only [Machine.attempt, Prog.follow, h, if_true] at e
    cases e; cases hk
  | fin x m d e1 e2 n => cases e; cases hk

/-- The positions of an operation in flight, whatever was observed (R48). -/
theorem place_after (b : Binding) (i : Instr) (seen : List Answer) : Place b i ((programOf b i).after seen) := by
  have h : ∀ (l : List Answer) (p : Prog), Place b i p → Place b i (p.after l) := by
    intro l
    induction l with
    | nil => exact fun _ h => h
    | cons a l ih => exact fun p h => ih _ (h.follow a)
  exact h _ _ (.outside (shape_programOf b i))

end Sys2Proof.Machine
end

