-- ==== Sys2Proof/Laws/Step.lean ====
section
/-! SUPPORT. What a unit, an operation and a step can do, for any relation between the state before and the state after that
every unit keeps; and what no unit changes. -/

namespace Sys2Proof.Machine

/-! ### What no unit changes -/

theorem writeLocal_state (p : Pin) (v : Bool) (s : State) :
    (writeLocal p v s).1 = s ∨ (writeLocal p v s).1 = setIntent p v s ∨
      (writeLocal p v s).1 = setCmd p v (setIntent p v s) := by
  unfold writeLocal
  repeat' split
  all_goals simp

/-- `R` relates a state to itself updated on output banks only. -/
theorem writeLocal_modOb (p : Pin) (v : Bool) (s : State) :
    ∃ f : OutBank → OutBank, (writeLocal p v s).1 = modOb (outBank p) f s := by
  rcases writeLocal_state p v s with h | h | h
  · refine ⟨id, h.trans ?_⟩
    simp [modOb]
  · exact ⟨_, h⟩
  · exact ⟨_, h.trans (modOb_modOb _ _ _ _)⟩

/-- The fields no unit of an operation changes. -/
def sameFrame (s t : State) : Prop :=
  t.cfg = s.cfg ∧ t.cur = s.cur ∧ t.op = s.op ∧ t.resp = s.resp ∧ t.req = s.req ∧ t.busReq = s.busReq

theorem sameFrame_refl (s : State) : sameFrame s s := ⟨rfl, rfl, rfl, rfl, rfl, rfl⟩

theorem sameFrame_trans {s t u : State} (h : sameFrame s t) (g : sameFrame t u) : sameFrame s u := by
  obtain ⟨a, b, c, d, e, f⟩ := h
  obtain ⟨a', b', c', d', e', f'⟩ := g
  exact ⟨a'.trans a, b'.trans b, c'.trans c, d'.trans d, e'.trans e, f'.trans f⟩

theorem sameFrame_modOb (k : Bank) (f : OutBank → OutBank) (s : State) : sameFrame s (modOb k f s) :=
  ⟨rfl, rfl, rfl, rfl, rfl, rfl⟩

theorem sameFrame_modIb (k : Bank) (f : InBank → InBank) (s : State) : sameFrame s (modIb k f s) :=
  ⟨rfl, rfl, rfl, rfl, rfl, rfl⟩

theorem sameFrame_writeLocal (p : Pin) (v : Bool) (s : State) : sameFrame s (writeLocal p v s).1 := by
  obtain ⟨f, e⟩ := writeLocal_modOb p v s
  rw [e]; exact sameFrame_modOb _ _ _

theorem sameFrame_sample (k : SubIx) (s : State) : sameFrame s (sample k s).2 := by
  unfold sample
  split <;> exact ⟨rfl, rfl, rfl, rfl, rfl, rfl⟩

theorem sameFrame_setLink (p q : Pin) (e : Link) (s : State) : sameFrame s (setLink p q e s) :=
  ⟨rfl, rfl, rfl, rfl, rfl, rfl⟩

theorem sameFrame_linkAction (lm : LinkMode) (q : Pin) (lv : Bool) (s : State) :
    sameFrame s (linkAction lm q lv s).1 := by
  unfold linkAction toggleLocal
  split
  · exact sameFrame_refl _
  · exact sameFrame_writeLocal _ _ _
  · exact sameFrame_writeLocal _ _ _
  · exact sameFrame_writeLocal _ _ _
  · split
    · exact sameFrame_writeLocal _ _ _
    · exact sameFrame_refl _
  · split
    · exact sameFrame_refl _
    · exact sameFrame_writeLocal _ _ _

/-- No unit changes the binding, the running context, the operations in flight, the responses or the requests. -/
theorem UnitOf.frame {b : Binding} {i : Instr} {k : UnitKind} {act : State → State × Answer} (h : UnitOf b i k act)
    (s : State) : sameFrame s (act s).1 := by
  cases h with
  | acquire x => cases x <;> exact ⟨rfl, rfl, rfl, rfl, rfl, rfl⟩
  | exchange1 x f => simp [sameFrame, exchange]
  | exchange2 x _ => simp [sameFrame, exchange]
  | finish x m d e1 e2 =>
    unfold Machine.finish
    split
    · cases x <;> exact ⟨rfl, rfl, rfl, rfl, rfl, rfl⟩
    · exact ⟨rfl, rfl, rfl, rfl, rfl, rfl⟩
  | subEntry now k =>
    simp only [Machine.subEntry]
    split
    · exact sameFrame_refl _
    · split
      · exact sameFrame_sample _ _
      · split <;> exact sameFrame_trans (sameFrame_sample k s) ⟨rfl, rfl, rfl, rfl, rfl, rfl⟩
  | pass h =>
    cases h with
    | overVoltage k now r =>
      have h : sameFrame s (storeOv k r s) := by cases r <;> exact ⟨rfl, rfl, rfl, rfl, rfl, rfl⟩
      simp only [phase2Unit, ovPass]
      split
      · split <;> exact sameFrame_trans h (sameFrame_modOb _ _ _)
      · exact h
    | thermal k now r => cases r <;> exact ⟨rfl, rfl, rfl, rfl, rfl, rfl⟩
  | action h =>
    cases h with
    | setErr x => cases x <;> exact ⟨rfl, rfl, rfl, rfl, rfl, rfl⟩
    | write p v => exact sameFrame_writeLocal _ _ _
    | toggle p => exact sameFrame_writeLocal _ _ _
    | dread k =>
      simp only [dreadUnit]
      split <;> exact sameFrame_sample _ _
    | configFirst p md det =>
      unfold Machine.configFirst
      split
      · exact sameFrame_refl _
      · split
        · simp only [configS1]
          split <;> exact ⟨rfl, rfl, rfl, rfl, rfl, rfl⟩
        · exact ⟨rfl, rfl, rfl, rfl, rfl, rfl⟩
    | joinFirst p en =>
      unfold Machine.joinFirst
      split <;> exact ⟨rfl, rfl, rfl, rfl, rfl, rfl⟩
    | subscribe k iv cb =>
      simp only [subscribeUnit]
      split
      · exact ⟨rfl, rfl, rfl, rfl, rfl, rfl⟩
      · split
        · exact ⟨rfl, rfl, rfl, rfl, rfl, rfl⟩
        · exact sameFrame_trans (t := afterMs s) ⟨rfl, rfl, rfl, rfl, rfl, rfl⟩
            (sameFrame_trans (sameFrame_sample k _) ⟨rfl, rfl, rfl, rfl, rfl, rfl⟩)
    | link p q lm iv =>
      simp only [linkUnit]
      split <;> exact ⟨rfl, rfl, rfl, rfl, rfl, rfl⟩
    | pwm p f d =>
      simp only [pwmUnit]
      split
      · split
        · exact sameFrame_trans (t := setPwm p { s.pwm[p] with period := 0#32, on := 0#32, high := false } s)
            ⟨rfl, rfl, rfl, rfl, rfl, rfl⟩ (sameFrame_writeLocal _ _ _)
        · split <;> exact ⟨rfl, rfl, rfl, rfl, rfl, rfl⟩
      · exact sameFrame_refl _
    | thermalCmd k before =>
      unfold thCmdChanged
      split <;> exact sameFrame_refl _
    | gate now =>
      unfold schedGate
      split <;> exact ⟨rfl, rfl, rfl, rfl, rfl, rfl⟩
    | linkEntry now p q =>
      simp only [Machine.linkEntry]
      split
      · exact sameFrame_refl _
      · split
        · exact sameFrame_refl _
        · split
          · exact sameFrame_trans (sameFrame_setLink p q _ s) (sameFrame_linkAction _ _ _ _)
          · exact ⟨rfl, rfl, rfl, rfl, rfl, rfl⟩
    | pwmEntry now p =>
      simp only [Machine.pwmEntry]
      split
      · exact sameFrame_refl _
      · split <;> exact sameFrame_writeLocal _ _ _
    | _ => exact ⟨rfl, rfl, rfl, rfl, rfl, rfl⟩

/-- The fields no local unit changes. -/
def localFrame (s t : State) : Prop := t.lock = s.lock ∧ t.faults = s.faults ∧ t.bus = s.bus

theorem localFrame_refl (s : State) : localFrame s s := ⟨rfl, rfl, rfl⟩

theorem localFrame_trans {s t u : State} (h : localFrame s t) (g : localFrame t u) : localFrame s u :=
  ⟨g.1.trans h.1, g.2.1.trans h.2.1, g.2.2.trans h.2.2⟩

theorem localFrame_modOb (k : Bank) (f : OutBank → OutBank) (s : State) : localFrame s (modOb k f s) := ⟨rfl, rfl, rfl⟩

theorem localFrame_writeLocal (p : Pin) (v : Bool) (s : State) : localFrame s (writeLocal p v s).1 := by
  obtain ⟨f, e⟩ := writeLocal_modOb p v s
  rw [e]; exact localFrame_modOb _ _ _

theorem localFrame_sample (k : SubIx) (s : State) : localFrame s (sample k s).2 := by
  unfold sample
  split <;> exact ⟨rfl, rfl, rfl⟩

theorem localFrame_linkAction (lm : LinkMode) (q : Pin) (lv : Bool) (s : State) :
    localFrame s (linkAction lm q lv s).1 := by
  unfold linkAction toggleLocal
  split
  · exact localFrame_refl _
  · exact localFrame_writeLocal _ _ _
  · exact localFrame_writeLocal _ _ _
  · exact localFrame_writeLocal _ _ _
  · split
    · exact localFrame_writeLocal _ _ _
    · exact localFrame_refl _
  · split
    · exact localFrame_refl _
    · exact localFrame_writeLocal _ _ _

/-- A local unit leaves the lock, the model faults and the exchanges as they are. -/
theorem UnitOf.localFrame {b : Binding} {i : Instr} {act : State → State × Answer} (h : UnitOf b i .loc act)
    (s : State) : localFrame s (act s).1 := by
  cases h with
  | pass h =>
    cases h with
    | overVoltage k now r =>
      have h : Machine.localFrame s (storeOv k r s) := by cases r <;> exact ⟨rfl, rfl, rfl⟩
      simp only [phase2Unit, ovPass]
      split
      · split <;> exact localFrame_trans h (localFrame_modOb _ _ _)
      · exact h
    | thermal k now r => cases r <;> exact ⟨rfl, rfl, rfl⟩
  | action h =>
    cases h with
    | setErr x => cases x <;> exact ⟨rfl, rfl, rfl⟩
    | write p v => exact localFrame_writeLocal _ _ _
    | toggle p => exact localFrame_writeLocal _ _ _
    | dread k =>
      simp only [dreadUnit]
      split <;> exact localFrame_sample _ _
    | configFirst p md det =>
      unfold Machine.configFirst
      split
      · exact localFrame_refl _
      · split
        · simp only [configS1]
          split <;> exact ⟨rfl, rfl, rfl⟩
        · exact ⟨rfl, rfl, rfl⟩
    | joinFirst p en =>
      unfold Machine.joinFirst
      split <;> exact ⟨rfl, rfl, rfl⟩
    | subscribe k iv cb =>
      simp only [subscribeUnit]
      split
      · exact ⟨rfl, rfl, rfl⟩
      · split
        · exact ⟨rfl, rfl, rfl⟩
        · exact localFrame_trans (t := afterMs s) ⟨rfl, rfl, rfl⟩
            (localFrame_trans (localFrame_sample k _) ⟨rfl, rfl, rfl⟩)
    | link p q lm iv =>
      simp only [linkUnit]
      split <;> exact ⟨rfl, rfl, rfl⟩
    | pwm p f d =>
      simp only [pwmUnit]
      split
      · split
        · exact localFrame_trans (t := setPwm p { s.pwm[p] with period := 0#32, on := 0#32, high := false } s)
            ⟨rfl, rfl, rfl⟩ (localFrame_writeLocal _ _ _)
        · split <;> exact ⟨rfl, rfl, rfl⟩
      · exact localFrame_refl _
    | thermalCmd k before =>
      unfold thCmdChanged
      split <;> exact localFrame_refl _
    | gate now =>
      unfold schedGate
      split <;> exact ⟨rfl, rfl, rfl⟩
    | linkEntry now p q =>
      simp only [Machine.linkEntry]
      split
      · exact localFrame_refl _
      · split
        · exact localFrame_refl _
        · split
          · exact localFrame_trans (t := setLink p q _ s) ⟨rfl, rfl, rfl⟩ (localFrame_linkAction _ _ _ _)
          · exact ⟨rfl, rfl, rfl⟩
    | pwmEntry now p =>
      simp only [Machine.pwmEntry]
      split
      · exact localFrame_refl _
      · split <;> exact localFrame_writeLocal _ _ _
    | _ => exact ⟨rfl, rfl, rfl⟩

/-- So does an entry of the subscription pass. -/
theorem UnitOf.entryFrame {b : Binding} {i : Instr} {act : State → State × Answer} (h : UnitOf b i .entry act)
    (s : State) : Machine.localFrame s (act s).1 := by
  cases h with
  | subEntry now k =>
    simp only [Machine.subEntry]
    split
    · exact localFrame_refl _
    · split
      · exact localFrame_sample _ _
      · split <;> exact localFrame_trans (localFrame_sample k s) ⟨rfl, rfl, rfl⟩

theorem acquire_state (b : Binding) (x : Xact) (s : State) : (acquire b x s).1 = acquireLock s := by
  cases x <;> rfl

/-- FIN gives the lock back and leaves the model faults and the exchanges as they are. -/
theorem finish_frame (b : Binding) (x : Xact) (m : Bool) (d : Byte) (e1 e2 : Frame) (s : State) :
    (Machine.finish b x m d e1 e2 s).1.lock = .free ∧ (Machine.finish b x m d e1 e2 s).1.faults = s.faults ∧
      (Machine.finish b x m d e1 e2 s).1.bus = s.bus := by
  unfold Machine.finish
  split
  · cases x <;> exact ⟨rfl, rfl, rfl⟩
  · exact ⟨rfl, rfl, rfl⟩

/-- A relation every operation keeps, when every unit of the instructions in `Q` does. -/
structure Keeps (Q : Instr → Prop) (R : State → State → Prop) : Prop where
  refl : ∀ s, R s s
  trans : ∀ {s t u}, R s t → R t u → R s u
  unit : ∀ (b : Binding) (i : Instr) (k : UnitKind) (act : State → State × Answer) (s : State),
    Q i → UnitOf b i k act → R s (act s).1
  note : ∀ (a : Answer) (s : State), R s (note a s)
  complete : ∀ (r : Result) (s : State), R s (complete r s)

/-- A relation every move of a context keeps. -/
structure MoveKeeps (Q : Instr → Prop) (R : State → State → Prop) : Prop extends Keeps Q R where
  begin : ∀ (i : Instr) (s : State), R s (beginOp i s)
  req : ∀ (s : State) (q : Vector (List U32) 2), R s { s with req := q }
  busReq : ∀ (s : State) (q : Vector (List (ChipSelect × BitVec 24)) 2), R s { s with busReq := q }

/-- A relation every step keeps. -/
structure StepKeeps (Q : Instr → Prop) (R : State → State → Prop) : Prop extends MoveKeeps Q R where
  turn : ∀ s : State, R s (afterTurn s)
  cur : ∀ (c : Ctx) (s : State), R s (withCur c s)

section

variable {Q : Instr → Prop} {R : State → State → Prop}

/-- What is left of an operation keeps the relation. -/
theorem Keeps.drive (K : Keeps Q R) {b : Binding} {i : Instr} (hq : Q i) {f : Bool} {p : Prog}
    (h : Units (UnitOf b i) f p) (s : State) : R s (drive p s) := by
  induction p generalizing s f with
  | ret r => exact K.complete r s
  | unit k act next ih =>
    simp only [Machine.drive]
    split
    · obtain ⟨hu, hn⟩ := units_next h
      obtain ⟨g, hg⟩ := hn (act s).2
      exact K.trans (K.unit b i k act s hq hu) (K.trans (K.note _ _) (ih _ hg _))
    · exact K.refl s

/-- A local unit keeps the relation. -/
theorem Keeps.runLocal (K : Keeps Q R) {b : Binding} {i : Instr} (hq : Q i) {f : Bool} {p : Prog}
    (h : Units (UnitOf b i) f p) (s : State) : R s (runLocal p s) := by
  induction p generalizing s f with
  | ret r => exact K.complete r s
  | unit k act next ih =>
    simp only [Machine.runLocal]
    split
    · obtain ⟨hu, hn⟩ := units_next h
      obtain ⟨g, hg⟩ := hn (act s).2
      exact K.trans (K.unit b i k act s hq hu) (K.trans (K.note _ _) (ih _ hg _))
    · exact K.refl s

/-- One unit keeps the relation. -/
theorem Keeps.unitStep (K : Keeps Q R) (s : State)
    (hq : ∀ i seen, s.op[s.cur] = .busy i seen → Q i) : R s (unitStep s) := by
  unfold Machine.unitStep remaining
  cases ho : s.op[s.cur] with
  | idle => exact K.refl s
  | busy i seen =>
    obtain ⟨g, hg⟩ := units_after (units_programOf s.cfg i) seen
    simp only
    generalize (programOf s.cfg i).after seen = p at hg
    cases p with
    | ret r => exact K.complete r s
    | unit k act next =>
      simp only [takeUnit]
      split
      · exact K.runLocal (hq i seen ho) hg s
      · split
        · refine K.trans (K.unit _ _ _ _ s (hq i seen ho) (units_next hg).1) (K.trans (K.note (act s).2 _) ?_)
          unfold settle
          split
          · exact K.complete _ _
          · exact K.refl _
        · exact K.refl s

/-- An instruction run whole keeps the relation. -/
theorem MoveKeeps.exec (K : MoveKeeps Q R) {i : Instr} {s t : State} (hq : Q i) (h : exec i s = .next t) : R s t := by
  rw [exec_eq] at h
  cases h
  unfold runOp
  split
  · exact K.trans (K.begin i s) (K.toKeeps.drive hq (units_programOf _ i) _)
  · exact K.complete _ _

/-- The state in which the current context has taken its next request. -/
theorem MoveKeeps.fetch (K : MoveKeeps Q R) {s : State} :
    (∀ i t, fetch s = .instr i t → R s t) ∧ (∀ t, fetch s = .reserved t → R s t) := by
  unfold Machine.fetch
  constructor
  · intro i t h
    split at h
    · split at h
      · cases h; exact K.busReq _ _
      · cases h
    · split at h
      · cases h; exact K.req _ _
      · cases h
      · cases h
      · cases h
  · intro t h
    split at h
    · split at h <;> cases h
    · split at h
      · cases h
      · cases h; exact K.req _ _
      · cases h
      · cases h

theorem nextRequest_of_fetch {c : Ctx} {s t : State} {i : Instr} (h : Machine.fetch (withCur c s) = .instr i t) :
    nextRequest c s = some i := by
  simp [nextRequest, h]

/-- Drawing a turn changes nothing a fetch looks at. -/
theorem fetch_afterTurn {c : Ctx} {s t : State} {i : Instr} (h : Machine.fetch (withCur c (afterTurn s)) = .instr i t) :
    nextRequest c s = some i := by
  unfold nextRequest
  unfold Machine.fetch at h ⊢
  simp only [withCur_busReq, withCur_req, withCur_cfg, withCur_cur, afterTurn_busReq, afterTurn_req, afterTurn_cfg] at h ⊢
  split at h
  · split at h
    · simp_all
    · cases h
  · split at h <;> simp_all

/-- A move of a context that is alone keeps the relation. -/
theorem MoveKeeps.runAlone (K : MoveKeeps Q R) {c : Ctx} {s t : State} (hq : ∀ i, MayRun c s i → Q i)
    (h : runAlone (withCur c s) = .next t) : R (withCur c s) t := by
  unfold Machine.runAlone remaining at h
  cases ho : (withCur c s).op[(withCur c s).cur] with
  | busy i seen =>
    simp only [ho] at h
    cases h
    obtain ⟨g, hg⟩ := units_after (units_programOf (withCur c s).cfg i) seen
    exact K.toKeeps.drive (hq i (.inl ⟨seen, ho⟩)) hg _
  | idle =>
    simp only [ho] at h
    cases hf : Machine.fetch (withCur c s) with
    | instr i u =>
      simp only [hf] at h
      exact K.trans (K.fetch.1 i u hf) (K.exec (hq i (.inr ⟨ho, nextRequest_of_fetch hf⟩)) h)
    | reserved u =>
      simp only [hf] at h
      cases h
      exact K.trans (K.fetch.2 u hf) (K.complete _ _)
    | notEmitted => simp [hf] at h
    | nothing =>
      simp only [hf] at h
      cases h
      exact K.refl _

/-- A contended move keeps the relation. -/
theorem MoveKeeps.moveOne (K : MoveKeeps Q R) {c : Ctx} {s t : State} (hq : ∀ i, MayRun c s i → Q i)
    (h : moveOne (withCur c (afterTurn s)) = .next t) : R (withCur c (afterTurn s)) t := by
  unfold Machine.moveOne remaining at h
  cases ho : (withCur c (afterTurn s)).op[(withCur c (afterTurn s)).cur] with
  | busy i seen =>
    simp only [ho] at h
    cases h
    refine K.toKeeps.unitStep _ fun j sn hj => ?_
    exact hq j (.inl ⟨sn, hj⟩)
  | idle =>
    simp only [ho] at h
    cases hf : Machine.fetch (withCur c (afterTurn s)) with
    | instr i u =>
      simp only [hf] at h
      cases h
      refine K.trans (K.fetch.1 i u hf) ?_
      unfold issue
      split
      · exact K.begin _ _
      · exact K.complete _ _
    | reserved u =>
      simp only [hf] at h
      cases h
      exact K.trans (K.fetch.2 u hf) (K.complete _ _)
    | notEmitted => simp [hf] at h
    | nothing =>
      simp only [hf] at h
      cases h
      exact K.refl _

end

/-- No move changes which context is the current one. -/
theorem moveKeeps_cur : MoveKeeps (fun _ => True) (fun s t => t.cur = s.cur) where
  refl _ := rfl
  trans h g := g.trans h
  unit _ _ _ _ s _ hu := (hu.frame s).2.1
  note a s := by unfold note; split <;> rfl
  complete _ _ := rfl
  begin i s := recordRace_cur i s
  req _ _ := rfl
  busReq _ _ := rfl

/-- What a step is: nothing, or a move of the context that is the current one after it. -/
theorem step_moves {s t : State} (h : step s = .next t) :
    t = s ∨ runAlone (withCur t.cur s) = .next t ∨ moveOne (withCur t.cur (afterTurn s)) = .next t := by
  unfold Machine.step at h
  split at h
  · cases h
  · unfold advance at h
    split at h
    · cases h; exact .inl rfl
    all_goals right
    · have hc := moveKeeps_cur.runAlone (fun _ _ => trivial) h
      rw [show t.cur = 0 from hc]; exact .inl h
    · have hc := moveKeeps_cur.runAlone (fun _ _ => trivial) h
      rw [show t.cur = 1 from hc]; exact .inl h
    · have hc := moveKeeps_cur.moveOne (fun _ _ => trivial) h
      rw [show t.cur = nextTurn s.env from hc]; exact .inr h

/-- A step keeps the relation. -/
theorem StepKeeps.step {Q : Instr → Prop} {R : State → State → Prop} (K : StepKeeps Q R) {s t : State}
    (hq : ∀ i, MayRun t.cur s i → Q i) (h : step s = .next t) : R s t := by
  obtain rfl | h | h := step_moves h
  · exact K.refl _
  · exact K.trans (K.cur _ _) (K.toMoveKeeps.runAlone hq h)
  · exact K.trans (K.trans (K.turn _) (K.cur _ _)) (K.toMoveKeeps.moveOne hq h)

end Sys2Proof.Machine
end

