-- ==== Sys2Proof/Laws/Stages.lean ====
section
/-! SUPPORT. What each stage of a tick comes to, as one rewriting of `drive` (44_scheduler.md R200 to R211): the refresh, the
five phases, the subscription, link and PWM passes. Each action of the program is first rewritten as the rule spelled out in
Safety. -/

namespace Sys2Proof.Machine

/-! ### The actions of a tick as the rules spelled out -/

theorem reached_iff (now t limit : U32) : reached now t limit = true ↔ limit.toNat ≤ (now - t).toNat := by
  simp [reached, elapsed, BitVec.le_def]

theorem exceeded_iff (now t limit : U32) : exceeded now t limit = true ↔ limit.toNat < (now - t).toNat := by
  simp [exceeded, elapsed, BitVec.lt_def]

theorem onRead_lock {b : Binding} {x : Xact} {f : Byte → State → State} (hf : ∀ v t, (f v t).lock = t.lock) (s : State) :
    (onRead b x f s).lock = s.lock := by
  unfold onRead
  split <;> simp [hf, afterXact_lock]

theorem putLevel_true (p : Pin) (v : Bool) (s : State) : putLevel p v true s = setCmd p v (setIntent p v s) := by
  simp only [setCmd, setIntent, putLevel, modOb_modOb, if_true]
  rfl

theorem putLevel_false (p : Pin) (v : Bool) (s : State) : putLevel p v false s = setIntent p v s := by
  simp [setIntent, putLevel]

/-- `WriteBody` as the rule has it (R253). -/
theorem sendRun_writeLocal (b : Binding) (p : Pin) (v : Bool) (s : State) : (sendRun b (writeLocal p v s)).1 = writeRun b p v s := by
  have hl : ∀ o : OutBank, ∀ c : Chan, o.ovLock.getLsbD c.val = bit o.ovLock c ∧ o.thLock.getLsbD c.val = bit o.thLock c :=
    fun o c => ⟨rfl, rfl⟩
  unfold writeLocal writeRun isOut ovLocked thLocked
  simp only [hl]
  cases hm : s.mode[p] <;> cases ho : bit s.ob[outBank p].ovLock (outChan p) <;>
    cases ht : bit s.ob[outBank p].thLock (outChan p) <;> cases v <;>
    simp [sendRun, putLevel_true, putLevel_false]

/-- `ToggleBody` as the rule has it (R254). -/
theorem sendRun_toggleLocal (b : Binding) (p : Pin) (s : State) : (sendRun b (toggleLocal p s)).1 = toggleRun b p s :=
  sendRun_writeLocal b p _ s

/-- One entry of the link pass as the rule has it (R226, R227). -/
theorem sendRun_linkEntry (b : Binding) (now : U32) (p q : Pin) (s : State) :
    (sendRun b (linkEntry now p q s)).1 = linkRun b now p q s := by
  simp only [linkEntry, linkRun, setLink]
  generalize s.link[p][q] = e
  obtain ⟨m, g⟩ := e
  cases pinLevel p s with
  | none => cases m <;> rfl
  | some lv =>
    simp only
    generalize debounce g lv now = d
    obtain ⟨g', commits⟩ := d
    have ha : ∀ t, (sendRun b (linkAction m q lv t)).1 = match m with
        | .none => t
        | .follow => writeRun b q lv t
        | .invert => writeRun b q (!lv) t
        | .flipAny => toggleRun b q t
        | .flipRise => if lv then toggleRun b q t else t
        | .flipFall => if lv then t else toggleRun b q t := by
      intro t
      cases m
      case none => rfl
      case follow => exact sendRun_writeLocal _ _ _ _
      case invert => exact sendRun_writeLocal _ _ _ _
      case flipAny => exact sendRun_toggleLocal _ _ _
      all_goals
        cases lv
        · first | rfl | exact sendRun_toggleLocal _ _ _
        · first | rfl | exact sendRun_toggleLocal _ _ _
    by_cases hm : m = .none
    · subst hm; rfl
    · simp only [hm, if_false]
      cases commits
      · rfl
      · exact ha _

/-- One channel of the PWM pass as the rule has it (R233). -/
theorem pwmChannelRun_eq (b : Binding) (now : U32) (s : State) (p : Pin) :
    pwmChannelRun b now s p = match pwmDue now p s with
      | none => s
      | some v => (pwmCommit now p v (sendRun b (writeLocal p v s)).1).1 := by
  have hw : ∀ v, (writeRun b p v s).pwm = s.pwm := by
    intro v
    unfold writeRun
    have : ∀ x t, (afterXact b x t).pwm = t.pwm := by
      intro x t; unfold afterXact; split <;> cases x <;> rfl
    simp only
    repeat' split
    all_goals first | rfl | simp [this, putLevel]
  have he := exceeded_iff now s.pwm[p].start s.pwm[p].period
  have ho := exceeded_iff now s.pwm[p].start s.pwm[p].on
  simp only [pwmChannelRun, pwmDue]
  by_cases h1 : s.mode[p] = .pp ∧ s.pwm[p].period ≠ 0#32
  · rw [if_pos h1, if_pos h1]
    by_cases h2 : exceeded now s.pwm[p].start s.pwm[p].period = true
    · rw [if_pos (he.1 h2), if_pos h2]
      simp only [pwmCommit, setPwm, if_true, sendRun_writeLocal, hw]
    · rw [if_neg (mt he.2 h2), if_neg h2]
      by_cases h3 : (s.pwm[p].high && exceeded now s.pwm[p].start s.pwm[p].on) = true
      · have h3' := h3
        rw [Bool.and_eq_true] at h3'
        rw [if_pos ⟨h3'.1, ho.1 h3'.2⟩, if_pos h3]
        simp only [pwmCommit, setPwm, Bool.false_eq_true, if_false, sendRun_writeLocal, hw]
      · have h3' := h3
        rw [Bool.and_eq_true] at h3'
        rw [if_neg (fun h => h3' ⟨h.1, ho.2 h.2⟩), if_neg h3]
  · rw [if_neg h1, if_neg h1]

/-- What the refresh of a bank comes to (R201). -/
theorem refresh_leads (b : Binding) (k : Bank) (next : Prog) {s : State} (h : s.lock = .free) :
   Leads (inputRefresh b k next) s next (refreshRun b k s) := by
  refine (transaction_leads _ _ _ h).trans ?_
  simp only [refreshRun, onRead]
  cases xactValue b (.inRead k b.inRegWb) s with
  | none => exact Leads.refl _ _
  | some v => exact Leads.loc (blind_refresh k v)

theorem refresh_lock (b : Binding) (k : Bank) {s : State} : (refreshRun b k s).lock = s.lock := by
  unfold refreshRun
  exact onRead_lock (by intros; rfl) s

theorem sendRun_lock (b : Binding) (out : State × Answer) : (sendRun b out).1.lock = out.1.lock := by
  unfold sendRun; split <;> simp [afterXact_lock]

/-- What phase 0 on a bank comes to (R204). -/
theorem phase0_leads (b : Binding) (k : Bank) (next : Prog) {s : State} (h : s.lock = .free) :
   Leads (phase0Bank b k next) s next (phase0Run b k s) := by
  refine (transaction_leads _ _ _ h).trans ?_
  unfold phase0Run onRead
  cases xactValue b (.inRead k b.inRegFault1) s with
  | none => exact Leads.refl _ _
  | some v =>
    have e : (fault1Unit k v (afterXact b (.inRead k b.inRegFault1) s)).1 = modIb k (fun r =>
        { r with f1Raw := v, stAT1 := if v.getLsbD 3 then 0xFF#8 else r.stAT1,
                 stAT2 := if v.getLsbD 4 then 0xFF#8 else r.stAT2 }) (afterXact b (.inRead k b.inRegFault1) s) := rfl
    have h5 : bit v Config.f1Fault2Bit = v.getLsbD 5 := rfl
    refine (Leads.loc (blind_fault1 k v)).trans ?_
    rw [e]
    simp only [h5]
    cases v.getLsbD 5
    · exact Leads.refl _ _
    · simp only [if_true]
      refine (transaction_leads _ _ _ (by simp [afterXact_lock, h])).trans ?_
      generalize xactValue b (.inRead k b.inRegFault2) _ = w
      cases w with
      | none => exact Leads.refl _ _
      | some w => exact Leads.loc (blind_fault2 b k w)

theorem phase0_lock (b : Binding) (k : Bank) {s : State} : (phase0Run b k s).lock = s.lock := by
  unfold phase0Run
  refine onRead_lock (fun v t => ?_) s
  simp only
  split
  · exact (onRead_lock (by intros; rfl) _).trans rfl
  · rfl

/-- What phase 1 on a bank comes to (R205). -/
theorem phase1_leads (b : Binding) (k : Bank) (next : Prog) {s : State} (h : s.lock = .free) :
   Leads (phase1Bank b k next) s next (phase1Run b k s) := by
  refine (transaction_leads _ _ _ h).trans ?_
  simp only [phase1Run, onRead]
  cases xactValue b (.outRead k b.outRegOl) s with
  | none => exact Leads.refl _ _
  | some v => exact Leads.loc (blind_modOb k _)

theorem phase1_lock (b : Binding) (k : Bank) {s : State} : (phase1Run b k s).lock = s.lock := by
  unfold phase1Run
  exact onRead_lock (by intros; rfl) s

theorem storeOv_lock (k r s) : (storeOv k r s).lock = s.lock := by cases r <;> rfl
theorem storeTh_lock (k r s) : (storeTh k r s).lock = s.lock := by cases r <;> rfl
theorem phase2Unit_lock (k now r s) : (phase2Unit k now r s).1.lock = s.lock := by
  simp only [phase2Unit, ovPass]; split
  · split <;> simp [storeOv_lock]
  · simp [storeOv_lock]

/-- Phase 2 on a bank as the rule has it (R206, R182). -/
theorem phase2Run_eq (b : Binding) (now : U32) (k : Bank) (s : State) :
    phase2Run b now k s = (sendRun b (phase2Unit k now (xactValue b (.outRead k b.outRegOv) s)
      (afterXact b (.outRead k b.outRegOv) s))).1 := by
  have e : onRead b (.outRead k b.outRegOv) (fun v => modOb k fun o => { o with ovRaw := v, stOV := o.stOV ||| v }) s =
      storeOv k (xactValue b (.outRead k b.outRegOv) s) (afterXact b (.outRead k b.outRegOv) s) := by
    unfold onRead storeOv
    cases xactValue b (.outRead k b.outRegOv) s <;> rfl
  simp only [phase2Run, e, phase2Unit, ovPass]
  split
  · split <;> rfl
  · rfl

/-- What phase 2 on a bank comes to (R206). -/
theorem phase2_leads (b : Binding) (now : U32) (k : Bank) (next : Prog) {s : State} (h : s.lock = .free) :
   Leads (phase2Bank b now k next) s next (phase2Run b now k s) := by
  refine (transaction_leads _ _ _ h).trans ?_
  rw [phase2Run_eq]
  exact writeThrough_leads _ _ (blind_phase2 k now _) (by rw [phase2Unit_lock, afterXact_lock, h])

theorem phase2_lock (b : Binding) (now : U32) (k : Bank) {s : State} : (phase2Run b now k s).lock = s.lock := by
  simp only [phase2Run_eq, sendRun_lock, phase2Unit_lock, afterXact_lock]

/-- What phase 3 on a bank comes to (R207). -/
theorem phase3_leads (b : Binding) (k : Bank) (next : Prog) {s : State} (h : s.lock = .free) :
   Leads (phase3Bank b k next) s next (phase3Run b k s) := transaction_leads _ _ _ h

/-- What phase 4 on a bank comes to (R208). -/
theorem phase4_leads (b : Binding) (now : U32) (k : Bank) (next : Prog) {s : State} (h : s.lock = .free) :
   Leads (phase4Bank b now k next) s next (phase4Run b now k s) := by
  refine (transaction_leads _ _ _ h).trans ?_
  refine (Leads.loc (blind_thermal k now _)).trans ?_
  generalize hu : storeTh k (xactValue b (.outRead k b.outRegTh) s) (afterXact b (.outRead k b.outRegTh) s) = u
  have hul : u.lock = .free := by rw [← hu, storeTh_lock, afterXact_lock, h]
  have e : onRead b (.outRead k b.outRegTh) (fun v => modOb k fun o => { o with thRaw := v, stTH := o.stTH ||| v }) s = u := by
    rw [← hu]
    unfold onRead storeTh
    cases xactValue b (.outRead k b.outRegTh) s <;> rfl
  simp only [phase4Run, e, thPass, thWrites]
  have second : ∀ t : State, t.lock = .free → Leads (writeThrough b (thCmdChanged k u.ob[k].cmd) fun _ => next) t next
      (if t.ob[k].cmd = u.ob[k].cmd then t else afterXact b (.outWrite k .setOut) t) := by
    intro t ht
    refine (writeThrough_leads b (fun _ => next) (blind_thCmdChanged k u.ob[k].cmd) (s := t) ?_).trans ?_
    · simp only [thCmdChanged]; split <;> exact ht
    · simp only [thCmdChanged]
      split <;> exact Leads.refl _ _
  by_cases hp : (modOb k (thSteps now) u).ob[k].pp = u.ob[k].pp
  · simp only [hp, bne_self_eq_false, if_true]
    exact second _ (by simp [hul])
  · have : ((modOb k (thSteps now) u).ob[k].pp != u.ob[k].pp) = true := by simpa using hp
    simp only [this, hp, if_true, if_false]
    refine (outCfg_leads _ _ _ _ (by simp [hul])).trans ?_
    exact second _ (by simp [afterCfg_lock, hul])

theorem phase4_lock (b : Binding) (now : U32) (k : Bank) {s : State} : (phase4Run b now k s).lock = s.lock := by
  have e : (onRead b (.outRead k b.outRegTh)
      (fun v => modOb k fun o => { o with thRaw := v, stTH := o.stTH ||| v }) s).lock = s.lock :=
    onRead_lock (by intros; rfl) s
  simp only [phase4Run]
  split <;> split <;> simp [afterXact_lock, afterCfg_lock, e]

/-- What a phase comes to (R203). -/
theorem phase_leads (b : Binding) (p : Fin 5) (now : U32) (next : Prog) {s : State} (h : s.lock = .free) :
    Leads (runPhase b p now next) s next (phaseRun b p now s) ∧ (phaseRun b p now s).lock = .free := by
  match p with
  | 0 => exact ⟨(phase0_leads _ _ _ h).trans (phase0_leads _ _ _ (by rw [phase0_lock, h])), by simp [phaseRun, phase0_lock, h]⟩
  | 1 => exact ⟨(phase1_leads _ _ _ h).trans (phase1_leads _ _ _ (by rw [phase1_lock, h])), by simp [phaseRun, phase1_lock, h]⟩
  | 2 => exact ⟨(phase2_leads _ _ _ _ h).trans (phase2_leads _ _ _ _ (by rw [phase2_lock, h])), by simp [phaseRun, phase2_lock, h]⟩
  | 3 => exact ⟨(phase3_leads _ _ _ h).trans (phase3_leads _ _ _ (by rw [phase3Run, afterXact_lock, h])), by simp [phaseRun, phase3Run, afterXact_lock, h]⟩
  | 4 => exact ⟨(phase4_leads _ _ _ _ h).trans (phase4_leads _ _ _ _ (by rw [phase4_lock, h])), by simp [phaseRun, phase4_lock, h]⟩

/-- The entries of a subscription pass, one after another. -/
def subFold (now : U32) (s : State) : State := (List.finRange 20).foldl (fun t i => (subEntry now i t).1) s

/-- What the entries of a subscription pass come to (R222). -/
theorem subs_leads (now : U32) (next : Prog) (l : List SubIx) (s : State) :
    Leads (subEntries now next l) s next (l.foldl (fun t i => (subEntry now i t).1) s) := by
  induction l generalizing s with
  | nil => exact Leads.refl _ _
  | cons i l ih => exact (Leads.entry (blind_subEntry now i)).trans (ih _)

theorem sample_lock (k s) : (sample k s).2.lock = s.lock := by unfold sample; split <;> rfl
theorem subEntry_lock (now i s) : (subEntry now i s).1.lock = s.lock := by
  simp only [subEntry]; split
  · rfl
  · split
    · exact sample_lock _ _
    · split <;> exact sample_lock _ _

theorem subs_lock (now : U32) (l : List SubIx) (s : State) : (l.foldl (fun t i => (subEntry now i t).1) s).lock = s.lock := by
  induction l generalizing s with
  | nil => rfl
  | cons i l ih => simp only [List.foldl]; rw [ih, subEntry_lock]

theorem writeLocal_lock (p v s) : (writeLocal p v s).1.lock = s.lock := by
  obtain ⟨f, e⟩ := writeLocal_modOb p v s; rw [e]; rfl

theorem linkAction_lock (m q lv s) : (linkAction m q lv s).1.lock = s.lock := by
  cases m <;> cases lv <;> simp [linkAction, toggleLocal, writeLocal_lock]

theorem linkEntry_lock (now p q s) : (linkEntry now p q s).1.lock = s.lock := by
  simp only [linkEntry]; split
  · rfl
  · split
    · rfl
    · split
      · exact (linkAction_lock _ _ _ _)
      · rfl

theorem linkRun_lock (b : Binding) (now : U32) (p q : Pin) (s : State) : (linkRun b now p q s).lock = s.lock := by
  rw [← sendRun_linkEntry, sendRun_lock, linkEntry_lock]

/-- What the entries of a link pass come to (R226). -/
theorem links_leads (b : Binding) (now : U32) (next : Prog) (l : List (Pin × Pin)) (s : State) (h : s.lock = .free) :
    Leads (linkEntries b now next l) s next (l.foldl (fun t e => linkRun b now e.1 e.2 t) s) ∧
     (l.foldl (fun t e => linkRun b now e.1 e.2 t) s).lock = .free := by
  induction l generalizing s with
  | nil => exact ⟨Leads.refl _ _, h⟩
  | cons i l ih =>
    have := ih (linkRun b now i.1 i.2 s) (by rw [linkRun_lock, h])
    refine ⟨Leads.trans ?_ this.1, this.2⟩
    rw [← sendRun_linkEntry]
    exact writeThrough_leads _ _ (blind_linkEntry now _ _) (by rw [linkEntry_lock, h])

theorem linksRun_eq (b : Binding) (now : U32) (s : State) :
    linksRun b now s = pinPairs.foldl (fun t e => linkRun b now e.1 e.2 t) s := by
  simp only [linksRun, pinPairs, List.foldl_flatMap, List.foldl_map]

/-- What the channels of a PWM pass come to (R233). -/
theorem pwm_leads (b : Binding) (now : U32) (next : Prog) (l : List Pin) (s : State) (h : s.lock = .free) :
    Leads (pwmChannels b now next l) s next (l.foldl (pwmChannelRun b now) s) ∧ (l.foldl (pwmChannelRun b now) s).lock = .free := by
  induction l generalizing s with
  | nil => exact ⟨Leads.refl _ _, h⟩
  | cons p l ih =>
    have hk : (pwmChannelRun b now s p).lock = .free := by
      rw [pwmChannelRun_eq]; split
      · exact h
      · simp [pwmCommit, sendRun_lock, writeLocal_lock, h]
    have := ih _ hk
    refine ⟨Leads.trans ?_ this.1, this.2⟩
    simp only [pwmChannels, pwmChannel]
    refine (Leads.loc (blind_pwmEntry now p)).trans ?_
    simp only [pwmEntry, pwmChannelRun_eq]
    cases hd : pwmDue now p s with
    | none => exact Leads.refl _ _
    | some v =>
      simp only
      cases hw : (writeLocal p v s).2 with
      | send k =>
        simp only
        refine (transaction_leads _ _ _ (by rw [writeLocal_lock, h])).trans ?_
        simp only [sendRun, hw]
        exact Leads.loc (blind_pwmCommit now p v)
      | _ =>
        simp only [sendRun, hw]
        exact Leads.loc (blind_pwmCommit now p v)

/-- What the scheduler step comes to (R202). -/
theorem sched_leads (b : Binding) (now : U32) (next : Prog) {u : State} (hu : u.lock = .free) :
   Leads (schedulerStep b now next) u next (schedulerRun b now u) ∧ 
   (schedulerRun b now u).lock = .free := by
  have hr : reached now u.sched.lastMs Config.phaseGateMs = true ↔ 20 ≤ (now - u.sched.lastMs).toNat :=
    reached_iff _ _ _
  by_cases hg : reached now u.sched.lastMs Config.phaseGateMs = true
  · have e : schedGate now u = ({ u with sched := { phase := u.sched.phase + 1, lastMs := now } }, .phase u.sched.phase) := by
      simp only [schedGate, hg, if_true]
    have := phase_leads b u.sched.phase now next (s := { u with sched := { phase := u.sched.phase + 1, lastMs := now } }) hu
    simp only [schedulerRun, hr.1 hg, if_true]
    refine ⟨(Leads.loc (blind_schedGate now)).trans ?_, this.2⟩
    rw [e]
    exact this.1
  · have e : schedGate now u = (u, .done) := by
      simp only [schedGate, hg]; rfl
    have h2 : schedulerRun b now u = u := by rw [hr] at hg; simp only [schedulerRun, hg, if_false]
    rw [h2]
    refine ⟨(Leads.loc (blind_schedGate now)).trans ?_, hu⟩
    rw [e]
    exact Leads.refl _ _

/-- What the first `n` entries of a pass have done. -/
def subDone (now : U32) (s : State) (n : Nat) : State :=
  { s with
    sub := Vector.ofFn fun i => if i.val < n then subAfter now i s else s.sub[i],
    events := s.events ++ ((List.finRange 20).take n).filterMap fun i =>
      (subCommits now i s).map fun lv => { pin := i.val + 1, level := lv, cb := s.sub[i].cb },
    env := (afterAux^[auxActive s (n - 16)] s).env }

theorem auxActive_succ (s : State) (a : Fin 4) :
    auxActive s (a.val + 1) = auxActive s a.val + if s.sub[a.val + 16].cb ≠ 0#32 then 1 else 0 := by
  have h : List.finRange 4 = [0, 1, 2, 3] := by decide
  fin_cases a <;> simp only [auxActive, h, List.filter] <;>
    by_cases h0 : s.sub[16].cb = 0#32 <;> by_cases h1 : s.sub[17].cb = 0#32 <;> by_cases h2 : s.sub[18].cb = 0#32 <;>
    by_cases h3 : s.sub[19].cb = 0#32 <;> simp [h0, h1, h2, h3]

theorem subDone_sub (now : U32) (s : State) (n : Nat) (i : SubIx) :
    (subDone now s n).sub[i] = if i.val < n then subAfter now i s else s.sub[i] := by
  simp [subDone]

theorem afterAux_env (n : Nat) (s t : State) (h : t.env = s.env) : (afterAux^[n] t).env = (afterAux^[n] s).env := by
  induction n with
  | zero => exact h
  | succ n ih =>
    rw [Function.iterate_succ_apply', Function.iterate_succ_apply']
    simp only [afterAux, ih]

theorem take_finRange_succ (i : SubIx) : (List.finRange 20).take (i.val + 1) = (List.finRange 20).take i.val ++ [i] := by
  have h : i.val < (List.finRange 20).length := by simp
  rw [List.take_succ_eq_append_getElem h]
  simp

/-- The pass goes on by one entry: what it becomes, the event it emits, the draw it takes. -/
theorem subDone_succ (now : U32) (s : State) (i : SubIx) :
    subDone now s (i.val + 1) =
      { subDone now s i.val with
        sub := (subDone now s i.val).sub.set i (subAfter now i s),
        events := (subDone now s i.val).events ++ ((subCommits now i s).map fun lv =>
          ({ pin := i.val + 1, level := lv, cb := s.sub[i].cb } : Event)).toList,
        env := (afterAux^[auxActive s (i.val + 1 - 16)] s).env } := by
  have hv : (Vector.ofFn fun j : SubIx => if j.val < i.val + 1 then subAfter now j s else s.sub[j]) =
      (Vector.ofFn fun j : SubIx => if j.val < i.val then subAfter now j s else s.sub[j]).set i (subAfter now i s) := by
    apply Vector.ext
    intro j hj
    by_cases e : i.val = j
    · subst e; simp
    · simp only [Vector.getElem_set, e, if_false, Vector.getElem_ofFn]
      have : (j < i.val + 1) = (j < i.val) := by simp only [eq_iff_iff]; omega
      simp only [this]
  simp only [subDone, hv, take_finRange_succ, List.filterMap_append, List.append_assoc]
  cases hc : subCommits now i s <;> simp [List.filterMap, hc]

/-- The draws an entry adds (R258). -/
theorem auxActive_next (s : State) (i : SubIx) :
    auxActive s (i.val + 1 - 16) = auxActive s (i.val - 16) +
      match subPin i with
      | .inl _ => 0
      | .inr _ => if s.sub[i].cb ≠ 0#32 then 1 else 0 := by
  by_cases h : i.val < 16
  · simp [subPin, h, show i.val + 1 - 16 = 0 by omega, show i.val - 16 = 0 by omega]
  · have := auxActive_succ s ⟨i.val - 16, by omega⟩
    simp only [show i.val - 16 + 16 = i.val by omega, show i.val - 16 + 1 = i.val + 1 - 16 by omega] at this
    simpa [subPin, h] using this

/-- What an active entry sees when its turn comes. -/
theorem sample_of (i : SubIx) (s u : State) (hib : u.ib = s.ib) (hob : u.ob = s.ob) (hm : u.mode = s.mode)
    (he : u.env = (afterAux^[auxActive s (i.val - 16)] s).env) (hcb : s.sub[i].cb ≠ 0#32) :
    sample i u = (subLevel i s, { u with env := (afterAux^[auxActive s (i.val + 1 - 16)] s).env }) := by
  have hn := auxActive_next s i
  unfold sample subLevel
  cases hp : subPin i with
  | inl p =>
    rw [hp] at hn
    have hl : pinLevel p u = pinLevel p s := by simp only [pinLevel, hib, hob, hm]
    simp only [hn, Nat.add_zero, ← he, hl]
  | inr a =>
    have ha : a.val = i.val - 16 := by
      unfold subPin at hp
      split at hp <;> cases hp
      rfl
    rw [hp] at hn
    simp only [hcb, ne_eq, not_false_eq_true, if_true] at hn
    have e1 : aux a u = aux a (afterAux^[auxActive s a.val] s) := by simp only [aux, he, ha]
    have e2 : afterAux u = { u with env := (afterAux^[auxActive s (i.val + 1 - 16)] s).env } := by
      rw [hn, Function.iterate_succ_apply']
      simp only [afterAux, he]
    show (some (aux a u), afterAux u) = (some _, _)
    rw [e1, e2]

theorem subEntry_subDone (now : U32) (s : State) (i : SubIx) :
    (subEntry now i (subDone now s i.val)).1 = subDone now s (i.val + 1) := by
  have hsub : (subDone now s i.val).sub[i] = s.sub[i] := by rw [subDone_sub]; simp
  have hn := auxActive_next s i
  rw [subDone_succ]
  have hib : (subDone now s i.val).ib = s.ib := by simp only [subDone]
  have hob : (subDone now s i.val).ob = s.ob := by simp only [subDone]
  have hm : (subDone now s i.val).mode = s.mode := by simp only [subDone]
  have he : (subDone now s i.val).env = (afterAux^[auxActive s (i.val - 16)] s).env := by simp only [subDone]
  generalize subDone now s i.val = u at *
  have hkeep : u.sub.set i s.sub[i] = u.sub := by
    apply Vector.ext
    intro j hj
    by_cases e : i.val = j
    · subst e; rw [Vector.getElem_set_self, ← hsub]; rfl
    · rw [Vector.getElem_set_ne _ _ e]
  simp only [subEntry, hsub]
  by_cases hcb : s.sub[i].cb = 0#32
  · have hcb' : s.sub[i.val].cb = 0#32 := hcb
    have ha : subAfter now i s = s.sub[i] := by unfold subAfter; split <;> simp [hcb']
    have hc : subCommits now i s = none := by unfold subCommits; split <;> simp [hcb']
    have hz : auxActive s (i.val + 1 - 16) = auxActive s (i.val - 16) := by
      rw [hn]; split <;> simp [hcb']
    rw [if_pos hcb, ha, hc, hkeep, hz, ← he]
    simp
  · rw [if_neg hcb, sample_of i s u hib hob hm he hcb]
    simp only [subAfter, subCommits, hcb, ne_eq, not_false_eq_true, if_true, true_and]
    cases subLevel i s with
    | none =>
      have hkeep' : u.sub.set i.val s.sub[i.val] = u.sub := hkeep
      simp [hkeep']
    | some lv =>
      simp only
      cases hd : (debounce s.sub[i].gate lv now).2 <;> simp [setSub, emit]

theorem subFold_take (now : U32) (s : State) (n : Nat) (hn : n ≤ 20) :
    ((List.finRange 20).take n).foldl (fun t i => (subEntry now i t).1) s = subDone now s n := by
  induction n with
  | zero => simp [subDone, auxActive]
  | succ n ih =>
    have h : n < (List.finRange 20).length := by simpa using hn
    rw [List.take_succ_eq_append_getElem h, List.foldl_append, ih (by omega)]
    simpa using subEntry_subDone now s ⟨n, by omega⟩

theorem subFold_eq (now : U32) (s : State) : subFold now s = subscriptionsRun now s := by
  have h := subFold_take now s 20 (Nat.le_refl 20)
  rw [List.take_of_length_le (by simp)] at h
  rw [subFold, h, subDone, List.take_of_length_le (by simp)]
  simp only [subscriptionsRun, Fin.is_lt, if_true]

theorem subscriptions_leads (now : U32) (next : Prog) (s : State) :
    Leads (subscriptionPass now next) s next (subscriptionsRun now s) ∧ (subscriptionsRun now s).lock = s.lock := by
  rw [← subFold_eq]
  exact ⟨subs_leads now next _ s, subs_lock now _ s⟩

theorem linkPass_leads (b : Binding) (now : U32) (next : Prog) {s : State} (h : s.lock = .free) :
    Leads (linkPass b now next) s next (linksRun b now s) ∧ (linksRun b now s).lock = .free := by
  rw [linksRun_eq]
  exact links_leads b now next _ s h

theorem pwmPass_leads (b : Binding) (now : U32) (next : Prog) {s : State} (h : s.lock = .free) :
    Leads (pwmPass b now next) s next (pwmRun b now s) ∧ (pwmRun b now s).lock = .free :=
  pwm_leads b now next _ s h

theorem readMs_leads (next : U32 → Prog) (s : State) :
    Leads (loc readMs fun a => next a.read) s (next (nowMs s)) (afterMs s) := Leads.loc blind_readMs

theorem readUs_leads (next : U32 → Prog) (s : State) :
    Leads (loc readUs fun a => next a.read) s (next (nowUs s)) (afterUs s) := Leads.loc blind_readUs

theorem pwmStage_leads (b : Binding) {s : State} (hs : s.lock = .free) :
    Leads (loc readUs fun u => pwmPass b u.read <| oneUnit statusUnit) s (oneUnit statusUnit)
      (pwmRun b (nowUs s) (afterUs s)) := by
  have h := readUs_leads (fun u => pwmPass b u (oneUnit statusUnit)) s
  exact h.trans (pwmPass_leads b (nowUs s) (oneUnit statusUnit) (s := afterUs s) hs).1

theorem linkStage_leads (b : Binding) (now : U32) {s : State} (hs : s.lock = .free) :
    Leads (linkPass b now <| loc readUs fun u => pwmPass b u.read <| oneUnit statusUnit) s (oneUnit statusUnit)
      (pwmRun b (nowUs (linksRun b now s)) (afterUs (linksRun b now s))) := by
  have h := linkPass_leads b now (loc readUs fun u => pwmPass b u.read <| oneUnit statusUnit) hs
  generalize linksRun b now s = t at h
  exact h.1.trans (pwmStage_leads b h.2)

theorem subStage_leads (b : Binding) (now : U32) {s : State} (hs : s.lock = .free) :
    Leads (subscriptionPass now <| linkPass b now <| loc readUs fun u => pwmPass b u.read <| oneUnit statusUnit) s
      (oneUnit statusUnit)
      (pwmRun b (nowUs (linksRun b now (subscriptionsRun now s))) (afterUs (linksRun b now (subscriptionsRun now s)))) := by
  have h := subscriptions_leads now (linkPass b now <| loc readUs fun u => pwmPass b u.read <| oneUnit statusUnit) s
  generalize subscriptionsRun now s = t at h
  exact h.1.trans (linkStage_leads b now (h.2.trans hs))

/-- What the stages after the scheduler come to (R200). -/
theorem conditioning_leads (b : Binding) {u : State} (hu : u.lock = .free) : Leads (conditioning b) u (oneUnit statusUnit)
      (conditioningRun b u) := by
  unfold conditioning conditioningRun
  have h := readMs_leads (fun t => subscriptionPass t <| linkPass b t <| loc readUs fun u => pwmPass b u.read <| oneUnit statusUnit) u
  exact h.trans (subStage_leads b (nowMs u) (s := afterMs u) hu)

theorem schedStage_leads (b : Binding) (now : U32) {s : State} (hs : s.lock = .free) :
    Leads (schedulerStep b now (conditioning b)) s (oneUnit statusUnit) (conditioningRun b (schedulerRun b now s)) := by
  have h := sched_leads b now (conditioning b) hs
  generalize schedulerRun b now s = v at h
  exact h.1.trans (conditioning_leads b h.2)

theorem refresh1Stage_leads (b : Binding) (now : U32) {s : State} (hs : s.lock = .free) :
    Leads (inputRefresh b 1 <| schedulerStep b now (conditioning b)) s (oneUnit statusUnit)
      (conditioningRun b (schedulerRun b now (refreshRun b 1 s))) := by
  have h := refresh_leads b 1 (schedulerStep b now (conditioning b)) hs
  have l := (refresh_lock b 1 (s := s)).trans hs
  generalize refreshRun b 1 s = v at h l
  exact h.trans (schedStage_leads b now l)

theorem refresh0Stage_leads (b : Binding) (now : U32) {s : State} (hs : s.lock = .free) :
    Leads (inputRefresh b 0 <| inputRefresh b 1 <| schedulerStep b now (conditioning b)) s (oneUnit statusUnit)
      (conditioningRun b (schedulerRun b now (refreshRun b 1 (refreshRun b 0 s)))) := by
  have h := refresh_leads b 0 (inputRefresh b 1 <| schedulerStep b now (conditioning b)) hs
  have l := (refresh_lock b 0 (s := s)).trans hs
  generalize refreshRun b 0 s = v at h l
  exact h.trans (refresh1Stage_leads b now l)

/-- What a tick comes to up to its status reconciliation (R200). -/
theorem tick_leads (b : Binding) {s : State} (hl : s.lock = .free) :
    Leads (tickProg b) s (oneUnit statusUnit) (tickRun b s) := by
  unfold tickProg tickRun refreshed
  have h := readMs_leads (fun t => inputRefresh b 0 <| inputRefresh b 1 <| schedulerStep b t (conditioning b)) s
  exact h.trans (refresh0Stage_leads b (nowMs s) (s := afterMs s) hl)

/-- An operation that ends with the status reconciliation, run whole (R211). -/
theorem exec_of_leads_status {i : Instr} {s t : State} (hl : legal i = true)
    (main : Leads (programOf s.cfg i) (recordRace i s) (oneUnit statusUnit) t) :
    ∃ o : Vector Op 2, o[otherCtx s.cur] = s.op[otherCtx s.cur] ∧ (∃ seen, o[s.cur] = .busy i seen) ∧
      exec i s = .next (complete okDone
        { t with statusOut := Config.statusFn { t with op := o, resp := s.resp.set s.cur none } }) := by
  obtain ⟨hc, ho, hr, h⟩ := main
  rw [exec_eq, runOp_legal _ hl]
  obtain ⟨o', h', e⟩ := h (s.op.set s.cur (.busy i [])) (s.resp.set s.cur none)
  have hoc : otherCtx s.cur ≠ s.cur := by
    have : ∀ c : Ctx, otherCtx c ≠ c := by decide
    exact this _
  have h'' : Noted s.cur (s.op.set s.cur (.busy i [])) o' := by rw [recordRace_cur] at h'; exact h'
  refine ⟨o', ?_, h''.busy i [] (by simp), ?_⟩
  · rw [h''.other _ hoc, set_other _ _ _ _ hoc]
  have hb : beginOp i s = withBook (s.op.set s.cur (.busy i [])) (s.resp.set s.cur none) (recordRace i s) := by
    simp only [beginOp, startOp, withBook, recordRace_op, recordRace_cur, recordRace_resp]
  rw [hb, e]
  congr 1
  have hn : ∀ a u, complete okDone (note a u) = complete okDone u := by
    intro a u
    obtain ⟨o, ho, ho2⟩ := note_withBook a u
    rw [ho]
    exact complete_withBook ho2.other (fun _ _ => rfl) _
  simp only [oneUnit, drive_loc, statusUnit, drive_ret, hn]
  simp only [recordRace_cur, recordRace_op, recordRace_resp] at hc h' ho hr
  refine complete_withBook (o := o') (q := s.resp.set s.cur none) (s := { t with statusOut := Config.statusFn { t with op := o', resp := s.resp.set s.cur none } }) ?_ ?_ okDone
  · intro d hd
    simp only [hc] at hd
    rw [h''.other d hd, set_other _ _ _ _ hd, ho]
  · intro d hd
    simp only [hc] at hd
    rw [set_other _ _ _ _ hd, hr]

end Sys2Proof.Machine
end

