-- ==== Sys2Proof/Laws/Frames.lean ====
section
/-! SUPPORT. What larger pieces leave alone: the fields of a bank that no transaction touches, the fault words and lock bits that
the stages of a tick after its scheduler keep; where an operation stands after an action, after a local unit and when it
has run as far as it can; and the frames that ACQ builds. -/

namespace Sys2Proof.Machine

/-! ### What a transaction leaves alone -/

/-- An output bank but for what a transaction may change on it (R113, R114). -/
def outCore (o : OutBank) : OutBank := { o with err := false, clrPending := false }

/-- An input bank but for what a transaction may change on it (R113, R114, R134). -/
def inCore (r : InBank) : InBank := { r with err := false, inputs := 0#8 }

theorem outCore_eq {o o' : OutBank} (h : outCore o = outCore o') : o' = { o with err := o'.err, clrPending := o'.clrPending } := by
  cases o; cases o'; simp only [outCore, OutBank.mk.injEq] at h ⊢; simp_all

theorem inCore_eq {r r' : InBank} (h : inCore r = inCore r') : r' = { r with err := r'.err, inputs := r'.inputs } := by
  cases r; cases r'; simp only [inCore, InBank.mk.injEq] at h ⊢; simp_all

theorem afterXact_outCore (b : Binding) (x : Xact) (s : State) (k : Bank) : outCore (afterXact b x s).ob[k] = outCore s.ob[k] := by
  unfold afterXact
  split <;> cases x <;> simp only [attemptUpdate, setErr, modOb_get, modIb_ob, exchanged] <;> (try split) <;>
    first | rfl | (subst_vars; rfl)

theorem afterXact_inCore (b : Binding) (x : Xact) (s : State) (k : Bank) : inCore (afterXact b x s).ib[k] = inCore s.ib[k] := by
  unfold afterXact
  split <;> cases x <;> simp only [attemptUpdate, setErr, modIb_get, modOb_ib, exchanged] <;> (try split) <;>
    first | rfl | (subst_vars; rfl)

theorem afterXact_mode (b : Binding) (x : Xact) (s : State) : (afterXact b x s).mode = s.mode := by
  unfold afterXact; split <;> cases x <;> rfl

theorem afterXact_sched (b : Binding) (x : Xact) (s : State) : (afterXact b x s).sched = s.sched := by
  unfold afterXact; split <;> cases x <;> rfl

/-- `OUT_CFG` is a transaction, perhaps a second, perhaps the bank's error flag (R158). -/
theorem afterCfg_cases (b : Binding) (k : Bank) (f : ConfField) (s : State) :
    ∃ t, (t = afterXact b (.outWrite k f.out) s ∨
        t = afterXact b (.outRead k (f.readBack b)) (afterXact b (.outWrite k f.out) s)) ∧
      (afterCfg b k f s = t ∨ afterCfg b k f s = modOb k (fun o => { o with err := true }) t) := by
  unfold afterCfg
  split
  · exact ⟨_, .inl rfl, .inl rfl⟩
  · refine ⟨_, .inr rfl, ?_⟩
    simp only
    split
    · exact .inr rfl
    · exact .inl rfl

theorem afterCfg_outCore (b : Binding) (j : Bank) (f : ConfField) (s : State) (k : Bank) :
    outCore (afterCfg b j f s).ob[k] = outCore s.ob[k] := by
  have h : ∀ t : State, outCore (modOb j (fun o => { o with err := true }) t).ob[k] = outCore t.ob[k] := by
    intro t; rw [modOb_get]; split
    · subst_vars; rfl
    · rfl
  obtain ⟨t, rfl | rfl, e | e⟩ := afterCfg_cases b j f s <;> rw [e] <;> simp only [h, afterXact_outCore]

theorem afterCfg_inCore (b : Binding) (j : Bank) (f : ConfField) (s : State) (k : Bank) :
    inCore (afterCfg b j f s).ib[k] = inCore s.ib[k] := by
  obtain ⟨t, rfl | rfl, e | e⟩ := afterCfg_cases b j f s <;> rw [e] <;> simp only [modOb_ib, afterXact_inCore]

theorem afterCfg_mode (b : Binding) (k : Bank) (f : ConfField) (s : State) : (afterCfg b k f s).mode = s.mode := by
  obtain ⟨t, rfl | rfl, e | e⟩ := afterCfg_cases b k f s <;> rw [e] <;> simp only [modOb_mode, afterXact_mode]

theorem afterCfg_sched (b : Binding) (k : Bank) (f : ConfField) (s : State) : (afterCfg b k f s).sched = s.sched := by
  obtain ⟨t, rfl | rfl, e | e⟩ := afterCfg_cases b k f s <;> rw [e] <;> simp only [modOb_sched, afterXact_sched]

/-! ### What the stages of a tick after its scheduler leave alone -/

/-- An output bank but for the words a write of a level may change too (R253). -/
def outFaults (o : OutBank) : OutBank := { outCore o with cmd := 0#8, intent := 0#8 }

/-- The raw and sticky words, the lock bits and timestamps, the enables and the scheduler stay as they are. -/
def FaultsKept (s t : State) : Prop :=
  t.sched = s.sched ∧ ∀ k : Bank, outFaults t.ob[k] = outFaults s.ob[k] ∧ inCore t.ib[k] = inCore s.ib[k]

theorem FaultsKept.refl (s : State) : FaultsKept s s := ⟨rfl, fun _ => ⟨rfl, rfl⟩⟩

theorem FaultsKept.trans {s t u : State} (h : FaultsKept s t) (g : FaultsKept t u) : FaultsKept s u :=
  ⟨g.1.trans h.1, fun k => ⟨(g.2 k).1.trans (h.2 k).1, (g.2 k).2.trans (h.2 k).2⟩⟩

theorem FaultsKept.of_eq {s t : State} (h1 : t.sched = s.sched) (h2 : t.ob = s.ob) (h3 : t.ib = s.ib) : FaultsKept s t := by
  refine ⟨h1, fun k => ?_⟩
  rw [h2, h3]
  exact ⟨rfl, rfl⟩

theorem FaultsKept.xact (b : Binding) (x : Xact) (s : State) : FaultsKept s (afterXact b x s) :=
  ⟨afterXact_sched b x s, fun k => ⟨by unfold outFaults; rw [afterXact_outCore], afterXact_inCore b x s k⟩⟩

theorem FaultsKept.putLevel (p : Pin) (v sends : Bool) (s : State) : FaultsKept s (Machine.putLevel p v sends s) := by
  refine ⟨rfl, fun k => ⟨?_, rfl⟩⟩
  simp only [Machine.putLevel, modOb_get]
  split
  · subst_vars; rfl
  · rfl

theorem FaultsKept.write (b : Binding) (p : Pin) (v : Bool) (s : State) : FaultsKept s (writeRun b p v s) := by
  unfold writeRun
  simp only
  split_ifs
  all_goals
    first
      | exact .refl _
      | exact .putLevel _ _ _ _
      | exact (FaultsKept.putLevel _ _ _ _).trans (.xact _ _ _)

theorem FaultsKept.toggle (b : Binding) (p : Pin) (s : State) : FaultsKept s (toggleRun b p s) := .write _ _ _ _

theorem FaultsKept.link (b : Binding) (now : U32) (p q : Pin) (s : State) : FaultsKept s (linkRun b now p q s) := by
  unfold linkRun
  simp only
  split
  · exact .refl _
  · rename_i lv _
    split
    · exact .refl _
    · generalize ht : ({ s with
        link := s.link.set p (s.link[p].set q { s.link[p][q] with gate := (debounce s.link[p][q].gate lv now).1 }) } : State) = t
      have h : FaultsKept s t := by rw [← ht]; exact .of_eq rfl rfl rfl
      split
      · refine h.trans ?_
        split
        · exact .refl _
        · exact .write _ _ _ _
        · exact .write _ _ _ _
        · exact .toggle _ _ _
        · split
          · exact .toggle _ _ _
          · exact .refl _
        · split
          · exact .refl _
          · exact .toggle _ _ _
      · exact h

theorem FaultsKept.fold {α : Type} (f : State → α → State) (h : ∀ s a, FaultsKept s (f s a)) (l : List α) (s : State) :
    FaultsKept s (l.foldl f s) := by
  induction l generalizing s with
  | nil => exact .refl _
  | cons a l ih => exact (h s a).trans (ih _)

theorem FaultsKept.links (b : Binding) (now : U32) (s : State) : FaultsKept s (linksRun b now s) := by
  have h : ∀ l : List (Pin × Pin), FaultsKept s (l.foldl (fun t e => linkRun b now e.1 e.2 t) s) :=
    fun l => .fold _ (fun t e => .link b now e.1 e.2 t) l s
  rw [linksRun_eq]
  exact h _

theorem FaultsKept.pwmChannel (b : Binding) (now : U32) (s : State) (p : Pin) : FaultsKept s (pwmChannelRun b now s p) := by
  have h : ∀ (t : State) (x : Vector Pwm 16), FaultsKept s t → FaultsKept s { t with pwm := x } :=
    fun t x h => h.trans (.of_eq rfl rfl rfl)
  unfold pwmChannelRun
  simp only
  split_ifs
  · exact h _ _ (.write b p true s)
  · exact h _ _ (.write b p false s)
  · exact .refl _
  · exact .refl _

theorem FaultsKept.pwm (b : Binding) (now : U32) (s : State) : FaultsKept s (pwmRun b now s) := by
  have h : ∀ l : List Pin, FaultsKept s (l.foldl (pwmChannelRun b now) s) := fun l => .fold _ (.pwmChannel b now) l s
  rw [pwmRun]
  exact h _

theorem FaultsKept.subscriptions (now : U32) (s : State) : FaultsKept s (subscriptionsRun now s) := by
  refine .of_eq ?_ ?_ ?_ <;> simp only [subscriptionsRun]

/-- Subscriptions, links and PWM (R222, R226, R233). -/
theorem FaultsKept.conditioning (b : Binding) (s : State) : FaultsKept s (conditioningRun b s) := by
  have h1 : FaultsKept s (afterMs s) := .of_eq rfl rfl rfl
  have h2 : ∀ t, FaultsKept t (afterUs t) := fun t => .of_eq rfl rfl rfl
  rw [conditioningRun]
  exact h1.trans ((FaultsKept.subscriptions _ _).trans ((FaultsKept.links _ _ _).trans ((h2 _).trans (.pwm _ _ _))))

/-! ### Where an operation stands -/

/-- After an action: the context has noted what it observed, and stands before what follows it (R48). -/
theorem stands_note {i : Instr} {s : State} {k : UnitKind} {act : State → State × Answer} {next : Answer → Prog}
    (hu : UnitOf s.cfg i k act) {seen : List Answer} (ho : s.op[s.cur] = .busy i seen)
    (hp : (programOf s.cfg i).after seen = .unit k act next) :
    (note (act s).2 (act s).1).op = s.op.set s.cur (.busy i (seen ++ [(act s).2])) ∧
      (programOf s.cfg i).after (seen ++ [(act s).2]) = next (act s).2 ∧
      (note (act s).2 (act s).1).cfg = s.cfg ∧ (note (act s).2 (act s).1).cur = s.cur := by
  obtain ⟨f1, f2, f3, -⟩ := hu.frame s
  have ho' : (act s).1.op[(act s).1.cur] = .busy i seen := by simp only [f2, f3]; exact ho
  refine ⟨?_, ?_, by simp [f1], by simp [f2]⟩
  · unfold note
    rw [ho']
    simp only [setOp_op, f2, f3]
  · rw [Prog.after, List.foldl_append]
    change Prog.follow ((programOf s.cfg i).after seen) _ = _
    rw [hp]
    rfl

/-- After a local unit: the context is idle, or stands before an attempt or a subscription entry (R70). -/
theorem stands_runLocal {b : Binding} {i : Instr} {f : Bool} {p : Prog} (c : Ctx) (h : Shape b i f p) (s : State)
    (seen : List Answer) (hb : s.cfg = b) (hc : s.cur = c) (ho : s.op[c] = .busy i seen)
    (hp : (programOf b i).after seen = p) :
    (runLocal p s).cur = c ∧ (runLocal p s).cfg = b ∧ ((runLocal p s).op = s.op.set c .idle ∨
      ∃ seen' k act next g, (runLocal p s).op = s.op.set c (.busy i seen') ∧
        (programOf b i).after seen' = .unit k act next ∧ k ≠ .loc ∧ Shape b i g (.unit k act next)) := by
  induction p generalizing s f seen with
  | ret r => subst hc; exact ⟨rfl, hb, .inl (by simp [runLocal, complete])⟩
  | unit k act next ih =>
    by_cases hk : k = .loc
    · subst hk
      simp only [runLocal, if_true]
      have hn : ∀ a, ∃ g, Shape b i g (next a) := by
        intro a
        cases h with
        | loc h n => exact ⟨_, n a⟩
        | pass h n => exact ⟨_, n a⟩
      obtain ⟨r1, r2, r3, r4⟩ := stands_note (by rw [hb]; exact (units_next h.units).1) (by subst hc; exact ho)
        (by rw [hb]; exact hp)
      obtain ⟨g, hs⟩ := hn (act s).2
      have r1' : (note (act s).2 (act s).1).op = s.op.set c (.busy i (seen ++ [(act s).2])) := by subst hc; exact r1
      have := ih (act s).2 hs (note (act s).2 (act s).1) (seen ++ [(act s).2]) (r3.trans hb) (r4.trans hc)
        (by rw [r1']; simp) (by rw [← hb]; exact r2)
      rw [r1'] at this
      simpa using this
    · simp only [runLocal, hk, if_false]
      refine ⟨hc, hb, .inr ⟨seen, k, act, next, f, ?_, hp, hk, h⟩⟩
      rw [← ho]
      simp

/-- When an operation has run as far as it can: the context is idle, or waits before an ACQ (R111). -/
theorem stands_drive {b : Binding} {i : Instr} {f : Bool} {p : Prog} (c : Ctx) (h : Units (UnitOf b i) f p) (s : State)
    (seen : List Answer) (hb : s.cfg = b) (hc : s.cur = c) (ho : s.op[c] = .busy i seen)
    (hp : (programOf b i).after seen = p) :
    (drive p s).cfg = b ∧ ((drive p s).op = s.op.set c .idle ∨
      ∃ seen' act next, (drive p s).op = s.op.set c (.busy i seen') ∧
        (programOf b i).after seen' = .unit .acq act next) := by
  induction p generalizing s f seen with
  | ret r => subst hc; exact ⟨hb, .inl (by simp [drive, complete])⟩
  | unit k act next ih =>
    by_cases he : enabled k s = true
    · simp only [drive, he, if_true]
      obtain ⟨hu, hn⟩ := units_next h
      obtain ⟨g, hg⟩ := hn (act s).2
      obtain ⟨r1, r2, r3, r4⟩ := stands_note (by rw [hb]; exact hu) (by subst hc; exact ho) (by rw [hb]; exact hp)
      have r1' : (note (act s).2 (act s).1).op = s.op.set c (.busy i (seen ++ [(act s).2])) := by subst hc; exact r1
      have := ih (act s).2 hg (note (act s).2 (act s).1) (seen ++ [(act s).2]) (r3.trans hb) (r4.trans hc)
        (by rw [r1']; simp) (by rw [← hb]; exact r2)
      rw [r1'] at this
      simpa using this
    · simp only [drive, he]
      have hk : k = .acq := by
        by_contra h
        exact he (enabled_of_ne h s)
      subst hk
      refine ⟨hb, .inr ⟨seen, act, next, ?_, hp⟩⟩
      rw [← ho]
      simp

/-! ### The frames of an attempt -/

/-- ACQ builds a frame the block may emit on the transaction's chip select (R132, R153, R155, R157). -/
theorem emitted_acquire (b : Binding) (x : Xact) (s : State) (e : Frame) :
    emitted b { cs := x.cs, sent := (acquire b x s).2.frame, echo := e } := by
  have hi : ∀ k : Bank, csIn k = .in0 ∨ csIn k = .in1 := by decide
  have ho : ∀ k : Bank, csOut k = .out0 ∨ csOut k = .out1 := by decide
  cases x with
  | inRead k a => rcases hi k with h | h <;> simp only [emitted, Xact.cs, h] <;> exact ⟨_, _, _, rfl⟩
  | inWrite k a d => rcases hi k with h | h <;> simp only [emitted, Xact.cs, h] <;> exact ⟨_, _, _, rfl⟩
  | outRead k reg => rcases ho k with h | h <;> simp only [emitted, Xact.cs, h] <;> exact .inr (.inl ⟨_, rfl⟩)
  | outWrite k f => rcases ho k with h | h <;> simp only [emitted, Xact.cs, h] <;> exact .inl ⟨_, _, _, rfl⟩
  | rtstat k => rcases ho k with h | h <;> simp only [emitted, Xact.cs, h] <;> exact .inr (.inr rfl)

/-- So is the second frame of an output write (R156, R157). -/
theorem emitted_second (b : Binding) {x : Xact} (h : x.twoPhase = true) (e : Frame) :
    emitted b { cs := x.cs, sent := rtFrame b, echo := e } := by
  have ho : ∀ k : Bank, csOut k = .out0 ∨ csOut k = .out1 := by decide
  cases x <;> simp only [Xact.twoPhase, Bool.false_eq_true] at h
  rename_i k f
  rcases ho k with h | h <;> simp only [emitted, Xact.cs, h] <;> exact .inr (.inr rfl)

end Sys2Proof.Machine
end

