-- ==== Sys2Proof/Laws/PerInstr.lean ====
section
/-! SUPPORT. The statement made instruction by instruction: the shape of every instruction's words. A host request has the
number of words its opcode fixes (30_encoding.md R87, R91); a frame has bit 7 clear, as every frame sent has (R81 to R84). -/

namespace Sys2Proof.Laws.RequestShape

/-- The shape of the words of an instruction. -/
def Statement (i : Instr) : Prop :=
  ∀ b : Binding, match encode b i with
    | .host [] => False
    | .host (h :: rest) => rest.length + 1 = Machine.requestWords (headOp h)
    | .bus _ f => f.getLsbD 7 = false

theorem config (a : Byte) (b : Byte) (c : Byte) : Statement (.config a b c) := by
  intro b0
  simp only [encode, headOp_mkHead]
  rfl

theorem join (a : Byte) (b : Byte) (c : Byte) : Statement (.join a b c) := by
  intro b0
  simp only [encode, headOp_mkHead]
  rfl

theorem dread (a : Byte) (b : Byte) (c : Byte) : Statement (.dread a b c) := by
  intro b0
  simp only [encode, headOp_mkHead]
  rfl

theorem dwrite (a : Byte) (b : Byte) (c : Byte) : Statement (.dwrite a b c) := by
  intro b0
  simp only [encode, headOp_mkHead]
  rfl

theorem toggle (a : Byte) (b : Byte) (c : Byte) : Statement (.toggle a b c) := by
  intro b0
  simp only [encode, headOp_mkHead]
  rfl

theorem clearfaults (a : Byte) (b : Byte) (c : Byte) : Statement (.clearfaults a b c) := by
  intro b0
  simp only [encode, headOp_mkHead]
  rfl

theorem subscribe (a : Byte) (b : Byte) (c : Byte) (x : U32) (y : U32) : Statement (.subscribe a b c x y) := by
  intro b0
  simp only [encode, headOp_mkHead]
  rfl

theorem link (a : Byte) (b : Byte) (c : Byte) (x : U32) : Statement (.link a b c x) := by
  intro b0
  simp only [encode, headOp_mkHead]
  rfl

theorem pwm (a : Byte) (b : Byte) (c : Byte) (x : U32) (y : U32) : Statement (.pwm a b c x y) := by
  intro b0
  simp only [encode, headOp_mkHead]
  rfl

theorem setovp (a : Byte) (b : Byte) (c : Byte) : Statement (.setovp a b c) := by
  intro b0
  simp only [encode, headOp_mkHead]
  rfl

theorem setled (a : Byte) (b : Byte) (c : Byte) : Statement (.setled a b c) := by
  intro b0
  simp only [encode, headOp_mkHead]
  rfl

theorem getled (a : Byte) (b : Byte) (c : Byte) : Statement (.getled a b c) := by
  intro b0
  simp only [encode, headOp_mkHead]
  rfl

theorem tick (a : Byte) (b : Byte) (c : Byte) : Statement (.tick a b c) := by
  intro b0
  simp only [encode, headOp_mkHead]
  rfl

theorem getWb (a : Byte) (b : Byte) (c : Byte) : Statement (.getWb a b c) := by
  intro b0
  simp only [encode, headOp_mkHead]
  rfl

theorem getAlrmt1 (a : Byte) (b : Byte) (c : Byte) : Statement (.getAlrmt1 a b c) := by
  intro b0
  simp only [encode, headOp_mkHead]
  rfl

theorem getAlrmt2 (a : Byte) (b : Byte) (c : Byte) : Statement (.getAlrmt2 a b c) := by
  intro b0
  simp only [encode, headOp_mkHead]
  rfl

theorem getInot (a : Byte) (b : Byte) (c : Byte) : Statement (.getInot a b c) := by
  intro b0
  simp only [encode, headOp_mkHead]
  rfl

theorem getOl (a : Byte) (b : Byte) (c : Byte) : Statement (.getOl a b c) := by
  intro b0
  simp only [encode, headOp_mkHead]
  rfl

theorem getOv (a : Byte) (b : Byte) (c : Byte) : Statement (.getOv a b c) := by
  intro b0
  simp only [encode, headOp_mkHead]
  rfl

theorem getOvlock (a : Byte) (b : Byte) (c : Byte) : Statement (.getOvlock a b c) := by
  intro b0
  simp only [encode, headOp_mkHead]
  rfl

theorem getTh (a : Byte) (b : Byte) (c : Byte) : Statement (.getTh a b c) := by
  intro b0
  simp only [encode, headOp_mkHead]
  rfl

theorem getThlock (a : Byte) (b : Byte) (c : Byte) : Statement (.getThlock a b c) := by
  intro b0
  simp only [encode, headOp_mkHead]
  rfl

theorem inRead (k : Bank) (r : BitVec 7) (c : BitVec 5) : Statement (.inRead k r c) := by
  intro b0
  simp only [encode, getLsbD_inBits]
  rfl

theorem inWrite (k : Bank) (r : BitVec 7) (d : Byte) (c : BitVec 5) : Statement (.inWrite k r d c) := by
  intro b0
  simp only [encode, getLsbD_inBits]
  rfl

theorem outSetOut (k : Bank) (m : Bool) (d : Byte) (c : BitVec 7) : Statement (.outSetOut k m d c) := by
  intro b0
  simp only [encode, getLsbD_outBits]
  rfl

theorem outSetPp (k : Bank) (m : Bool) (d : Byte) (c : BitVec 7) : Statement (.outSetPp k m d c) := by
  intro b0
  simp only [encode, getLsbD_outBits]
  rfl

theorem outSetOlen (k : Bank) (m : Bool) (d : Byte) (c : BitVec 7) : Statement (.outSetOlen k m d c) := by
  intro b0
  simp only [encode, getLsbD_outBits]
  rfl

theorem outSetJoin (k : Bank) (m : Bool) (d : Byte) (c : BitVec 7) : Statement (.outSetJoin k m d c) := by
  intro b0
  simp only [encode, getLsbD_outBits]
  rfl

theorem outRead (k : Bank) (r : Byte) (c : BitVec 7) : Statement (.outRead k r c) := by
  intro b0
  simp only [encode, getLsbD_outBits]
  rfl

theorem outRtstat (k : Bank) : Statement (.outRtstat k) := by
  intro b0
  simp only [encode, rtFrame_bit7]

end Sys2Proof.Laws.RequestShape
end

