-- ==== Sys2Proof/Tests/Slice0.lean ====
section
/-! SUPPORT. Tests of the model: each check of WellFormed refuses an ill-formed term; every constructor's word, written out from
30_encoding.md, decodes to it; one step per instruction against the vectors of spec/95_test_vectors.md; and, for every
statement with hypotheses, a state and operands that meet them. The binding is the vectors' example binding EB. -/

namespace Sys2Proof.Tests

open Sys2Proof Sys2Proof.Machine

-- one theorem after another: theorems by `decide` checked side by side each hold a thread until the kernel reaches them
set_option Elab.async false

/-! ### The example binding and small states -/

/-- `EB` (95_test_vectors.md §0). -/
def EB : Binding where
  inRegWb := 0x02
  inRegFault1 := 0x04
  inRegFault2 := 0x1C
  inRegCfg := #v[0x06, 0x07, 0x08, 0x09, 0x0A, 0x0B, 0x0C, 0x0D]
  inCfgDataOff := 0x00
  inCfgDataOn := 0x10
  f2OtBit := 0
  outCmdSetOut := 0x00
  outCmdSetPp := 0x01
  outCmdSetOlen := 0x02
  outCmdSetJoin := 0x03
  outCmdReadReg := 0x7F
  outRtW1 := 0x05
  outRtW0 := 0x0F
  outRtCrc := 0x03
  outRegPp := 0x11
  outRegOlen := 0x12
  outRegJoin := 0x13
  outRegOl := 0x20
  outRegOv := 0x21
  outRegTh := 0x22
  joinSlots := 0b0011
  ovpReset := #v[false, false]
  spiClockHz := 0
  spiMode := 0
  inRxCrcMsbs := true
  inEchoInputPos := 0
  outCheckPhase1 := true
  outReadValuePos := 1
  initStable := .unknown

/-- Reset under `EB`. -/
def S0 : State := State.resetWith EB

/-- The echo of an output chip in good order. -/
def okOut : Frame := ⟨0x00, 0x00, 0x03⟩

/-- The echo of an input chip in good order. -/
def okIn : Frame := ⟨0x00, 0x00, 0x07⟩

/-- An echo both families refuse. -/
def noise : Frame := ⟨0x00, 0x00, 0x00⟩

/-- Echoes to come. -/
def echoing (l : List Frame) (s : State) : State := { s with env := { s.env with echoes := l } }

/-- Advances of the two time bases to come. -/
def timing (ms us : List Nat) (s : State) : State := { s with env := { s.env with msSteps := ms, usSteps := us } }

/-- A pin in a mode. -/
def moded (p : Pin) (m : PinMode) (s : State) : State := { s with mode := s.mode.set p m }

/-- The state after an instruction. -/
def after (i : Instr) (s : State) : State :=
  match exec i s with
  | .next t => t
  | .fault _ => s
  | .refused _ => s

/-- The result of an instruction. -/
def answer (i : Instr) (s : State) : Option Result := (after i s).resp[s.cur]

/-- The state after a step. -/
def stepped (s : State) : State :=
  match step s with
  | .next t => t
  | .fault _ => s
  | .refused _ => s

/-- A step goes on. -/
def goes (s : State) : Bool :=
  match step s with
  | .next _ => true
  | .fault _ => false
  | .refused _ => false

/-- The frames sent, with their chip selects. -/
def sent (s : State) : List (ChipSelect × Frame) := s.bus.map fun r => (r.cs, r.sent)

/-- Requests of context 0. -/
def asking (ws : List U32) (s : State) : State := { s with req := s.req.set 0 ws }

/-- Requests of context 1. -/
def asking1 (ws : List U32) (s : State) : State := { s with req := s.req.set 1 ws }

/-- The other context is in the middle of an operation. -/
def beside (i : Instr) (s : State) : State := { s with op := s.op.set 1 (.busy i []) }

/-! ### WellFormed: each check refuses an ill-formed term -/

theorem test_wf_pin : wellFormed EB (.dwrite 17 1 0) = false ∧ wellFormed EB (.toggle 0 0 0) = false := by decide +kernel
theorem test_wf_pin20 : wellFormed EB (.dread 21 0 0) = false ∧ wellFormed EB (.subscribe 0 0 0 1 1) = false := by decide +kernel
theorem test_wf_mode : wellFormed EB (.config 1 4 0) = false ∧ wellFormed EB (.config 1 0 0) = false := by decide +kernel
theorem test_wf_boolean : wellFormed EB (.config 1 2 2) = false ∧ wellFormed EB (.setled 0 3 0) = false := by decide +kernel
theorem test_wf_bank : wellFormed EB (.setovp 2 1 0) = false := by decide +kernel
theorem test_wf_link_mode : wellFormed EB (.link 1 9 6 0) = false := by decide +kernel
theorem test_wf_duty : wellFormed EB (.pwm 1 0 0 1 0x10000) = false := by decide +kernel
theorem test_wf_unused : wellFormed EB (.dwrite 1 1 1) = false ∧ wellFormed EB (.tick 1 0 0) = false := by decide +kernel
theorem test_wf_crc5 : wellFormed EB (.inRead 0 4 0x0E) = false ∧ wellFormed EB (.inRead 0 4 0x0F) = true := by decide +kernel
theorem test_wf_crc5_write :
    wellFormed EB (.inWrite 0 6 0x10 2) = false ∧ wellFormed EB (.inWrite 0 6 0x10 1) = true := by decide +kernel
theorem test_wf_crc7 :
    wellFormed EB (.outSetOut 0 false 2 0x59) = false ∧ wellFormed EB (.outSetOut 0 true 2 0x59) = true := by decide +kernel
theorem test_wf_crc7_config : wellFormed EB (.outSetPp 0 false 1 6) = false ∧ wellFormed EB (.outSetPp 0 false 1 5) = true ∧
    wellFormed EB (.outSetOlen 0 false 1 0x0B) = false ∧ wellFormed EB (.outSetOlen 0 false 1 0x0A) = true ∧
    wellFormed EB (.outSetJoin 0 false 1 0x63) = false ∧ wellFormed EB (.outSetJoin 0 false 1 0x62) = true := by decide +kernel
theorem test_wf_crc7_read :
    wellFormed EB (.outRead 1 0x21 0x56) = false ∧ wellFormed EB (.outRead 1 0x21 0x57) = true := by decide +kernel
theorem test_commands_distinct :
    commandsDistinct EB = true ∧ commandsDistinct { EB with outCmdSetPp := 0x00 } = false ∧
      commandsDistinct { EB with outRtW1 := 0x81 } = false := by decide +kernel
theorem test_binding_check : bindingOk EB = true ∧ bindingOk { EB with outRtCrc := 4 } = false ∧
    bindingOk { EB with joinSlots := 0b0111 } = false ∧ bindingOk { EB with inRegWb := 0x80 } = false := by decide +kernel

/-! ### Decoding: the words of V-ENC, V-IN and V-OUT, and of 30_encoding.md -/

theorem test_decode_config : decodeHost [0x01010201#32] = .ok (.config 1 2 1, []) := by decide
theorem test_decode_join : decodeHost [0x02010100#32] = .ok (.join 1 1 0, []) := by decide
theorem test_decode_dread : decodeHost [0x03010000#32] = .ok (.dread 1 0 0, []) := by decide
theorem test_decode_dwrite : decodeHost [0x04020100#32] = .ok (.dwrite 2 1 0, []) := by decide
theorem test_decode_toggle : decodeHost [0x05020000#32] = .ok (.toggle 2 0 0, []) := by decide
theorem test_decode_clearfaults : decodeHost [0x06000000#32] = .ok (.clearfaults 0 0 0, []) := by decide
theorem test_decode_subscribe :
    decodeHost [0x07110000#32, 0x64#32, 9#32] = .ok (.subscribe 17 0 0 100 9, []) := by decide +kernel
theorem test_decode_link : decodeHost [0x08010901#32, 0#32] = .ok (.link 1 9 1 0, []) := by decide
theorem test_decode_pwm : decodeHost [0x09050000#32, 0x3E8#32, 0x4000#32] = .ok (.pwm 5 0 0 1000 16384, []) := by decide
theorem test_decode_setovp : decodeHost [0x0A000100#32] = .ok (.setovp 0 1 0, []) := by decide
theorem test_decode_setled : decodeHost [0x0B000100#32] = .ok (.setled 0 1 0, []) := by decide
theorem test_decode_getled : decodeHost [0x0C000000#32] = .ok (.getled 0 0 0, []) := by decide
theorem test_decode_tick : decodeHost [0x0D000000#32] = .ok (.tick 0 0 0, []) := by decide
theorem test_decode_getWb : decodeHost [0x10010000#32] = .ok (.getWb 1 0 0, []) := by decide
theorem test_decode_getAlrmt1 : decodeHost [0x11020000#32] = .ok (.getAlrmt1 2 0 0, []) := by decide
theorem test_decode_getAlrmt2 : decodeHost [0x12030000#32] = .ok (.getAlrmt2 3 0 0, []) := by decide
theorem test_decode_getInot : decodeHost [0x13040000#32] = .ok (.getInot 4 0 0, []) := by decide
theorem test_decode_getOl : decodeHost [0x14090000#32] = .ok (.getOl 9 0 0, []) := by decide
theorem test_decode_getOv : decodeHost [0x150A0000#32] = .ok (.getOv 10 0 0, []) := by decide
theorem test_decode_getOvlock : decodeHost [0x16020000#32] = .ok (.getOvlock 2 0 0, []) := by decide
theorem test_decode_getTh : decodeHost [0x17100000#32] = .ok (.getTh 16 0 0, []) := by decide
theorem test_decode_getThlock : decodeHost [0x18050000#32] = .ok (.getThlock 5 0 0, []) := by decide
theorem test_decode_inRead : decodeFrame EB .in0 0x04000F#24 = .ok (.inRead 0 0x04 0x0F) := by decide
theorem test_decode_inWrite : decodeFrame EB .in1 0x861001#24 = .ok (.inWrite 1 0x06 0x10 0x01) := by decide
theorem test_decode_outSetOut : decodeFrame EB .out0 0x800259#24 = .ok (.outSetOut 0 true 0x02 0x59) := by decide
theorem test_decode_outSetPp : decodeFrame EB .out0 0x010105#24 = .ok (.outSetPp 0 false 0x01 0x05) := by decide
theorem test_decode_outSetOlen : decodeFrame EB .out1 0x02010A#24 = .ok (.outSetOlen 1 false 0x01 0x0A) := by decide
theorem test_decode_outSetJoin : decodeFrame EB .out0 0x030162#24 = .ok (.outSetJoin 0 false 0x01 0x62) := by decide
theorem test_decode_outRead : decodeFrame EB .out1 0x7F1107#24 = .ok (.outRead 1 0x11 0x07) := by decide
theorem test_decode_outRtstat : decodeFrame EB .out0 0x050F03#24 = .ok (.outRtstat 0) := by decide

theorem test_decode_reserved : decodeHost [0x0E000000#32] = .error (.reservedOpcode 0x0E) ∧
    decodeHost [0x19000000#32] = .error (.reservedOpcode 0x19) := by decide +kernel
theorem test_decode_incomplete : decodeHost [0x07110000#32, 0x64#32] = .error .incomplete ∧
    decodeHost [0x08010901#32] = .error .incomplete := by decide +kernel
theorem test_decode_not_emitted : decodeFrame EB .in0 0x04000F#24 ≠ decodeFrame EB .in0 0x04002F#24 ∧
    decodeFrame EB .in0 0x04002F#24 = .error .frameNotEmitted ∧
    decodeFrame EB .out0 0x040000#24 = .error .frameNotEmitted ∧
    decodeFrame EB .out0 0xFF1107#24 = .error .frameNotEmitted := by decide +kernel
theorem test_table_word : decodeTableWord 32 0x04020100 = some (.dwrite 2 1 0) ∧
    decodeTableWord 24 0x04000F = some (.inRead 0 4 0x0F) ∧
    decodeTableWord 96 (0x07110000 + 100 * 2 ^ 32 + 9 * 2 ^ 64) = some (.subscribe 17 0 0 100 9) := by decide +kernel
theorem test_fetch_word : (stepped (State.reset.withFetchWord 32 0x0B000100)).led = true := by decide +kernel

/-! ### Checks: V-CRC5, V-CRC7, V-IN, V-OUT -/

theorem test_crc5 : crc5 0x81 0x24 0x00 = 0x19 ∧ crc5 0xAA 0x55 0x00 = 0x0D ∧ crc5 0x12 0x34 0xA0 = 0x1E ∧
    crc5 0x00 0x00 0x1F = 0x07 := by decide +kernel
theorem test_crc7 : crc7 0x12 0x34 = 0x68 ∧ crc7 0x55 0xAA = 0x4B ∧ crc7 0x81 0xFF = 0x35 := by decide +kernel
theorem test_in_frame : inFrame false 0x02 0xFF = ⟨0x02, 0x00, 0x03⟩ ∧ inFrame true 0x0D 0x00 = ⟨0x8D, 0x00, 0x0B⟩ := by
  decide +kernel
theorem test_out_frame : outFrame true 0x00 0x02 = ⟨0x80, 0x02, 0x59⟩ ∧ rtFrame EB = ⟨0x05, 0x0F, 0x03⟩ := by decide +kernel
theorem test_in_valid_msbs : inValid EB ⟨0x00, 0x00, 0xE6⟩ = true ∧
    inValid { EB with inRxCrcMsbs := false } ⟨0x00, 0x00, 0xE6⟩ = false ∧ inValid EB ⟨0x00, 0x00, 0x27⟩ = false := by decide +kernel
theorem test_out_valid : outValid ⟨0x00, 0x5A, 0x5A⟩ = true ∧ outValid ⟨0x00, 0x5A, 0xDA⟩ = true := by decide +kernel

/-! ### One operation each -/

/-- V-JN-4, V-PRI: the join rule before the lock, the field check before both. -/
theorem test_config_refused :
    answer (.config 1 3 1) { S0 with ob := S0.ob.set 0 { S0.ob[0] with thLock := 1 } } = some (.fail .arg) ∧
    answer (.config 1 3 0) { S0 with ob := S0.ob.set 0 { S0.ob[0] with thLock := 1 } } = some (.fail .lock) := by
  decide +kernel

/-- CONFIG 1, HS with the chips in good order (P1): the verify reads and the input configuration write, then the mode. -/
theorem test_config : (after (.config 1 2 0) (echoing [okOut, okOut, okOut, okOut, okOut, okOut, okIn] S0)).mode[0] = .hs ∧
    sent (after (.config 1 2 0) (echoing [okOut, okOut, okOut, okOut, okOut, okOut, okIn] S0)) =
      [(.out0, ⟨0x01, 0x00, 0x6B⟩), (.out0, ⟨0x05, 0x0F, 0x03⟩), (.out0, ⟨0x7F, 0x11, 0x07⟩),
       (.out0, ⟨0x02, 0x00, 0x64⟩), (.out0, ⟨0x05, 0x0F, 0x03⟩), (.out0, ⟨0x7F, 0x12, 0x02⟩),
       (.in0, ⟨0x8D, 0x00, 0x0B⟩)] := by decide +kernel

/-- Pins 1..4 = HS, HS, INPUT, m. -/
def group (m : PinMode) : State := moded 0 .hs (moded 1 .hs (moded 2 .input (moded 3 m S0)))

/-- V-JN-1, with the join register read back. -/
theorem test_join : (after (.join 1 1 0) (echoing [okOut, okOut, ⟨0x00, 0x01, 0x6D⟩] (group .hs))).ob[0].join = 0x01 ∧
    answer (.join 1 1 0) (echoing [okOut, okOut, ⟨0x00, 0x01, 0x6D⟩] (group .hs)) = some okDone := by decide +kernel

/-- V-JN-2. -/
theorem test_join_refused : answer (.join 1 1 0) (group .pp) = some (.fail .arg) ∧
    (after (.join 1 1 0) (group .pp)).bus = [] := by decide +kernel

/-- V-IO-1. -/
theorem test_dread :
    answer (.dread 9 0 0) (moded 8 .input { S0 with ib := S0.ib.set 1 { S0.ib[1] with inputs := 0x80 } }) =
      some (.ok (.level true)) ∧
    answer (.dread 17 0 0) { S0 with env := { S0.env with auxLevels := [true] } } = some (.ok (.level true)) := by
  decide +kernel

/-- V-IO-2. -/
theorem test_dwrite : (after (.dwrite 2 1 0) (echoing [okOut, okOut] (moded 1 .hs S0))).ob[0].cmd = 0x02 ∧
    sent (after (.dwrite 2 1 0) (echoing [okOut, okOut] (moded 1 .hs S0))) =
      [(.out0, ⟨0x00, 0x02, 0x68⟩), (.out0, ⟨0x05, 0x0F, 0x03⟩)] := by decide +kernel

/-- Pin 2 is an output whose channel is on and locked by over-voltage. -/
def ovHeld : State := moded 1 .hs { S0 with ob := S0.ob.set 0 { S0.ob[0] with ovLock := 0x02, cmd := 0x02 } }

/-- V-PR-5. -/
theorem test_dwrite_locked : answer (.dwrite 2 0 0) ovHeld = some (.fail .lock) ∧
    answer (.dwrite 2 1 0) ovHeld = some okDone ∧ (after (.dwrite 2 1 0) ovHeld).ob[0].intent = 0x02 ∧
    (after (.dwrite 2 1 0) ovHeld).bus = [] := by decide +kernel

/-- V-IO-2, V-PR-5. -/
theorem test_toggle : answer (.toggle 2 0 0) ovHeld = some (.fail .lock) ∧
    (after (.toggle 2 0 0) (echoing [okOut, okOut] (moded 1 .hs S0))).ob[0].cmd = 0x02 := by decide +kernel

/-- V-CLR. -/
theorem test_clearfaults : (after (.clearfaults 0 0 0) S0).ob[1].clrPending = true ∧
    (after (.clearfaults 0 0 0) S0).bus = [] := by decide +kernel

/-- V-DB-4: a new entry, and its removal by a null callback. -/
theorem test_subscribe :
    (after (.subscribe 3 0 0 100 7) (timing [40] [] S0)).sub[2] = { cb := 7, gate := { interval := 100, stable := none, lastMatch := 40 } } ∧
    (after (.subscribe 3 0 0 100 0) { S0 with sub := S0.sub.set 2 { cb := 7, gate := Gate.reset } }).sub[2] = Sub.reset := by
  decide +kernel

/-- P3: the link of pin 1 to pin 9. -/
theorem test_link : (after (.link 1 9 1 0) (timing [100] [] S0)).link[0][8] =
    { lmode := .follow, gate := { interval := 0, stable := none, lastMatch := 100 } } := by decide +kernel

/-- P4, V-PWM-5. -/
theorem test_pwm : (after (.pwm 5 0 0 1000 16384) (timing [] [3] (moded 4 .pp S0))).pwm[4] =
      { period := 1000, on := 250, start := 3, high := false } ∧
    answer (.pwm 5 0 0 1000001 1) (moded 4 .pp S0) = some (.fail .arg) := by decide +kernel

/-- V-PWM-3. -/
theorem test_pwm_duty_zero : answer (.pwm 5 0 0 0 0) (echoing [okOut, okOut] (moded 4 .pp S0)) = some okDone ∧
    (after (.pwm 5 0 0 0 0) (echoing [okOut, okOut] { moded 4 .pp S0 with pwm := S0.pwm.set 4 ⟨1000, 250, 0, true⟩ })).pwm[4] =
      Pwm.reset := by decide +kernel

theorem test_setovp : (after (.setovp 1 1 0) S0).ob[1].ovProtect = true ∧ (after (.setovp 1 1 0) S0).ob[0].ovProtect = false := by
  decide +kernel

theorem test_led : (after (.setled 0 1 0) S0).led = true ∧ answer (.getled 0 0 0) { S0 with led := true } = some (.ok (.level true)) := by
  decide +kernel

/-- V-GET: reading clears the pin's own bit only. -/
theorem test_getWb : answer (.getWb 1 0 0) { S0 with ib := S0.ib.set 0 { S0.ib[0] with stWB := 0xC0 } } = some (.ok (.level true)) ∧
    (after (.getWb 1 0 0) { S0 with ib := S0.ib.set 0 { S0.ib[0] with stWB := 0xC0 } }).ib[0].stWB = 0x40 := by decide +kernel

theorem test_getAlrmt1 : (after (.getAlrmt1 1 0 0) { S0 with ib := S0.ib.set 0 { S0.ib[0] with stAT1 := 0xFF } }).ib[0].stAT1 = 0x7F := by
  decide +kernel

theorem test_getAlrmt2 : (after (.getAlrmt2 16 0 0) { S0 with ib := S0.ib.set 1 { S0.ib[1] with stAT2 := 0xFF } }).ib[1].stAT2 = 0xFE := by
  decide +kernel

theorem test_getInot : (after (.getInot 8 0 0) { S0 with ib := S0.ib.set 0 { S0.ib[0] with stOT := 0xFF } }).ib[0].stOT = 0xFE := by
  decide +kernel

theorem test_getOl : answer (.getOl 9 0 0) { S0 with ob := S0.ob.set 1 { S0.ob[1] with stOL := 0x01 } } = some (.ok (.level true)) ∧
    (after (.getOl 9 0 0) { S0 with ob := S0.ob.set 1 { S0.ob[1] with stOL := 0x01 } }).ob[1].stOL = 0 := by decide +kernel

theorem test_getOv : (after (.getOv 2 0 0) { S0 with ob := S0.ob.set 0 { S0.ob[0] with stOV := 0xFF } }).ob[0].stOV = 0xFD := by
  decide +kernel

theorem test_getTh : (after (.getTh 16 0 0) { S0 with ob := S0.ob.set 1 { S0.ob[1] with stTH := 0xFF } }).ob[1].stTH = 0x7F := by
  decide +kernel

theorem test_getOvlock : answer (.getOvlock 2 0 0) ovHeld = some (.ok (.level true)) ∧
    (after (.getOvlock 2 0 0) ovHeld).ob[0].ovLock = 0x02 := by decide +kernel

theorem test_getThlock : answer (.getThlock 9 0 0) { S0 with ob := S0.ob.set 1 { S0.ob[1] with thLock := 0x01 } } =
    some (.ok (.level true)) := by decide +kernel

/-- V-SCH-2, V-SCH-4: a tick before the gate opens runs the refresh alone. -/
theorem test_tick_refresh :
    (after (.tick 0 0 0) (timing [19, 0] [0] (echoing [⟨0x80, 0x80, 0x10⟩, okIn] S0))).ib[0].stWB = 0x80 ∧
    (after (.tick 0 0 0) (timing [19, 0] [0] (echoing [⟨0x80, 0x80, 0x10⟩, okIn] S0))).sched.phase = 0 := by decide +kernel

/-- V-SCH-3: phase 0 with both alarms' bits. -/
theorem test_tick_phase0 :
    (after (.tick 0 0 0) (timing [20, 0] [0] (echoing [okIn, okIn, ⟨0x00, 0x28, 0x04⟩, ⟨0x00, 0x01, 0x11⟩, okIn] S0))).ib[0].stAT1 = 0xFF ∧
    (after (.tick 0 0 0) (timing [20, 0] [0] (echoing [okIn, okIn, ⟨0x00, 0x28, 0x04⟩, ⟨0x00, 0x01, 0x11⟩, okIn] S0))).ib[0].stOT = 0xFF := by
  decide +kernel

/-- V-BUS-1, V-IN-3. -/
theorem test_inRead : answer (.inRead 0 0x02 0x03) (echoing [noise, ⟨0xFF, 0xFF, 0xFF⟩, ⟨0x40, 0x00, 0x0C⟩] S0) =
      some (.ok (.word 0)) ∧
    (after (.inRead 0 0x02 0x03) (echoing [noise, ⟨0xFF, 0xFF, 0xFF⟩, ⟨0x40, 0x00, 0x0C⟩] S0)).ib[0].inputs = 0x40 := by
  decide +kernel

/-- V-BUS-2. -/
theorem test_inRead_failed : answer (.inRead 0 0x02 0x03) (echoing [noise, noise, noise] S0) = some crcFail ∧
    (after (.inRead 0 0x02 0x03) (echoing [noise, noise, noise] S0)).ib[0].err = true := by decide +kernel

/-- V-IN-2, V-IN-7. -/
theorem test_inWrite : sent (after (.inWrite 0 0x06 0x10 0x01) (echoing [okIn] S0)) = [(.in0, ⟨0x86, 0x10, 0x01⟩)] ∧
    answer (.inWrite 0 0x06 0x10 0x01) (echoing [okIn] S0) = some okDone := by decide +kernel

/-- V-OUT-5: the marker of a pending clear is sent and cleared. -/
theorem test_outSetOut :
    sent (after (.outSetOut 0 false 0 0) (echoing [okOut, okOut] { S0 with ob := S0.ob.set 0 { S0.ob[0] with cmd := 2, clrPending := true } })) =
      [(.out0, ⟨0x80, 0x02, 0x59⟩), (.out0, ⟨0x05, 0x0F, 0x03⟩)] ∧
    (after (.outSetOut 0 false 0 0) (echoing [okOut, okOut] { S0 with ob := S0.ob.set 0 { S0.ob[0] with cmd := 2, clrPending := true } })).ob[0].clrPending =
      false := by decide +kernel

/-- V-OUT-7. -/
theorem test_outSetPp : answer (.outSetPp 0 false 1 5) (echoing [okOut, okOut, okOut] { S0 with ob := S0.ob.set 0 { S0.ob[0] with pp := 1 } }) =
    some verifyFail := by decide +kernel

theorem test_outSetOlen : sent (after (.outSetOlen 1 false 0 0) (echoing [okOut, okOut, okOut] S0)) =
    [(.out1, ⟨0x02, 0x00, 0x64⟩), (.out1, ⟨0x05, 0x0F, 0x03⟩), (.out1, ⟨0x7F, 0x12, 0x02⟩)] := by decide +kernel

theorem test_outSetJoin : sent (after (.outSetJoin 0 false 0 0) (echoing [okOut, okOut, okOut] { S0 with ob := S0.ob.set 0 { S0.ob[0] with join := 1 } })) =
    [(.out0, ⟨0x03, 0x01, 0x62⟩), (.out0, ⟨0x05, 0x0F, 0x03⟩), (.out0, ⟨0x7F, 0x13, 0x6C⟩)] := by decide +kernel

/-- V-OUT-2, V-OUT-3. -/
theorem test_outRead : answer (.outRead 0 0x21 0x57) (echoing [⟨0x00, 0x5A, 0x5A⟩] S0) = some (.ok (.word 0x5A)) ∧
    sent (after (.outRead 0 0x21 0x57) (echoing [⟨0x00, 0x5A, 0x5A⟩] S0)) = [(.out0, ⟨0x7F, 0x21, 0x57⟩)] := by decide +kernel

theorem test_outRtstat : sent (after (.outRtstat 1) (echoing [okOut] S0)) = [(.out1, ⟨0x05, 0x0F, 0x03⟩)] := by decide +kernel

/-! ### Protection and conditioning -/

/-- V-PR-1, V-PR-2, V-PR-4. -/
theorem test_ovStep : (ovSteps 5000 { OutBank.reset false with ovRaw := 1 }).cmd = 1 ∧
    ovSteps 5000 { OutBank.reset false with ovRaw := 1, cmd := 1 } = { OutBank.reset false with ovRaw := 1, cmd := 1 } ∧
    (ovSteps 10000 { OutBank.reset false with ovLock := 1, cmd := 1 }).ovLock = 0 := by decide +kernel

/-- V-PR-6. -/
theorem test_thStep :
    (thSteps 100 { OutBank.reset false with thRaw := 4, pp := 4, cmd := 4 }).thLock = 4 ∧
    (thSteps 100 { OutBank.reset false with thRaw := 4, pp := 4 }).thLock = 0 := by decide +kernel

/-- V-DB-1, V-DB-2. -/
theorem test_debounce : (debounce ⟨50, some false, 1000⟩ true 1040).2 = false ∧
    debounce ⟨50, some false, 1000⟩ true 1050 = (⟨50, some true, 1050⟩, true) ∧
    debounce ⟨50, some false, 1000⟩ false 1030 = (⟨50, some false, 1030⟩, false) := by decide +kernel

/-- V-DB-6. -/
def eventful : State :=
  moded 2 .input { S0 with
    ib := S0.ib.set 0 { S0.ib[0] with inputs := 0x20 },
    sub := S0.sub.set 2 { cb := 7, gate := { interval := 0, stable := some false, lastMatch := 0 } } }

theorem test_events : (subscriptionsRun 5 eventful).events = [{ pin := 3, level := true, cb := 7 }] ∧
    (subscriptionsRun 5 eventful).sub[2].gate.stable = some true := by decide +kernel

/-- V-LK-1: FOLLOW and FLIP_FALL. -/
theorem test_link_action : (linkAction .follow 8 true (moded 8 .hs S0)).1.ob[1].cmd = 1 ∧
    (linkAction .flipFall 8 true (moded 8 .hs S0)).1.ob[1].cmd = 0 := by decide +kernel

/-- V-PWM-2. -/
theorem test_pwm_due : pwmDue 1001 4 { moded 4 .pp S0 with pwm := S0.pwm.set 4 ⟨1000, 250, 0, false⟩ } = some true ∧
    pwmDue 1252 4 { moded 4 .pp S0 with pwm := S0.pwm.set 4 ⟨1000, 250, 1001, true⟩ } = some false ∧
    pwmDue 2001 4 { moded 4 .pp S0 with pwm := S0.pwm.set 4 ⟨1000, 250, 1001, false⟩ } = none := by decide +kernel

/-- A tick beside a request of the other context, after the valid FIN of bank 1's refresh. -/
def midTick : State :=
  { S0 with
    op := #v[.busy (.tick 0 0 0) [.time 5, .built default false 0, .echo default, .outcome (some 0), .done,
      .built default false 0, .echo default, .outcome (some 0x80)], .idle]
    req := #v[[], [0x0B000100]]
    env := { S0.env with msSteps := [7], turns := [0, 0] } }

/-- R70, R222: the refresh, the gate and the second time reading are one local unit; each subscription entry is one. -/
theorem test_local_run : (stepped midTick).ib[1].stWB = 0x80 ∧ (stepped midTick).env.msTime = 7 ∧
    atUnit 0 (stepped midTick) = some .entry ∧ (stepped midTick).led = false ∧
    atUnit 0 (stepped (stepped midTick)) = some .entry ∧
    (stepped (stepped midTick)).op[0] ≠ (stepped midTick).op[0] := by decide +kernel

/-! ### Witnesses: states and operands that meet the hypotheses of each statement, clause by clause -/

theorem exec_after (i : Instr) (s : State) : exec i s = .next (after i s) := by
  unfold after
  rw [exec_eq]

theorem step_of_goes {s : State} (h : goes s = true) : step s = .next (stepped s) := by
  unfold goes at h
  unfold stepped
  cases e : step s <;> simp_all

theorem witness_EncodingReadBack : bindingOk EB = true ∧ commandsDistinct EB = true := by decide +kernel

theorem witness_DecodingExact : decodeImage EB (.bus .in0 0x04000F#24) = some (.inRead 0 4 0x0F) ∧
    decodeImage EB (.host [0x08010901#32, 0#32]) = some (.link 1 9 1 0) := by decide

theorem witness_InputEchoCheck : EB.inRxCrcMsbs = true ∧ inValid EB ⟨0x02, 0x00, 0x03⟩ = true ∧
    inValid EB ⟨0x00, 0x00, 0xE6⟩ = true := by decide +kernel

theorem witness_OutputEchoCheck : outValid ⟨0x00, 0x5A, 0xDA⟩ = true ∧ (0 : Fin 24).val ≠ 7 ∧ (23 : Fin 24).val ≠ 7 := by
  decide +kernel

theorem witness_PinMaps : (0 : Pin).val + 1 ≤ 8 ∧ (7 : Pin).val + 1 ≤ 8 ∧ 9 ≤ (8 : Pin).val + 1 ∧ 9 ≤ (15 : Pin).val + 1 := by
  decide

/-- V-JN-1, V-JN-2: a group that may be joined, and one that may not; a joined group that a mode breaks. -/
theorem witness_JoinRule : joinAllowed EB (group .hs).mode 0 = true ∧ joinAllowed EB (group .pp).mode 0 = false ∧
    joinBroken EB 2 .pp { group .hs with ob := S0.ob.set 0 { S0.ob[0] with join := 1 } } = true := by decide +kernel

theorem witness_IllegalFieldsRefused : ¬FieldsLegal (.dwrite 17 1 0) ∧ ¬FieldsLegal (.config 0 2 0) ∧
    ¬FieldsLegal (.link 1 9 6 0) ∧ ¬FieldsLegal (.pwm 1 0 0 1 0x10000) ∧ ¬FieldsLegal (.dwrite 1 1 1) := by
  refine ⟨fun h => ?_, fun h => ?_, fun h => ?_, fun h => ?_, fun h => ?_⟩
  · exact absurd h.1.2 (by decide)
  · exact absurd h.1.1 (by decide)
  · exact absurd h.2.2 (by decide)
  · exact absurd h.2.2.2 (by decide)
  · exact absurd h.2.2 (by decide)

theorem witness_ArgFailureChangesNothing : exec (.dread 1 0 0) S0 = .next (after (.dread 1 0 0) S0) ∧
    (after (.dread 1 0 0) S0).resp[S0.cur] = some (.fail .arg) := ⟨exec_after _ _, by decide +kernel⟩

/-- Pin 5 is push-pull and its channel is on and locked by over-voltage. -/
def ovHeldPP : State := moded 4 .pp { S0 with ob := S0.ob.set 0 { S0.ob[0] with ovLock := 0x10, cmd := 0x10 } }

theorem witness_LockFailureChangesNothing : exec (.dwrite 2 0 0) ovHeld = .next (after (.dwrite 2 0 0) ovHeld) ∧
    answer (.dwrite 2 0 0) ovHeld = some (.fail .lock) ∧
    exec (.pwm 5 0 0 0 0) ovHeldPP = .next (after (.pwm 5 0 0 0 0) ovHeldPP) ∧
    answer (.pwm 5 0 0 0 0) ovHeldPP = some (.fail .lock) := ⟨exec_after _ _, by decide +kernel, exec_after _ _, by decide +kernel⟩

theorem witness_ReservedOpcodeStep :
    0x19 ≤ (headOp 0x19000000#32).toNat ∧ 0x19 ≤ (headOp 0xFF123456#32).toNat ∧ (headOp 0x00000000#32).toNat = 0 ∧
    (headOp 0x0E000000#32).toNat = 0x0E ∧ (headOp 0x0F000000#32).toNat = 0x0F ∧
    ModelFault.badBinding ∉ (asking [0x0E000000] S0).faults ∧ (asking [0x0E000000] S0).op[(0 : Ctx)] = .idle ∧
    (asking [0x0E000000] S0).busReq[(0 : Ctx)] = [] ∧ (asking [0x0E000000] S0).req[(0 : Ctx)] = [0x0E000000#32] ∧
    hasWork 1 (asking [0x0E000000] S0) = false ∧
    ModelFault.badBinding ∉ (asking1 [0x19000000] S0).faults ∧ (asking1 [0x19000000] S0).op[(1 : Ctx)] = .idle ∧
    (asking1 [0x19000000] S0).busReq[(1 : Ctx)] = [] ∧ (asking1 [0x19000000] S0).req[(1 : Ctx)] = [0x19000000#32] ∧
    hasWork (otherCtx 1) (asking1 [0x19000000] S0) = false := by decide +kernel

/-- DREAD in every mode. -/
theorem witness_DreadReturns : (moded 8 .input S0).mode[8] = .input ∧ (moded 0 .hs S0).mode[0] = .hs ∧
    (moded 15 .pp S0).mode[15] = .pp ∧ S0.mode[0] = .unconf := by decide +kernel

/-- Fields outside each range, at its ends. -/
theorem witness_bad_fields : 1 < (2 : Byte).toNat ∧ ¬pinField 16 0 ∧ ¬pinField 16 17 ∧ ¬pinField 20 0 ∧ ¬pinField 20 21 := by
  unfold pinField
  decide

/-- Pin 2 is an output whose channel is off and locked by temperature. -/
def thHeld : State := moded 1 .pp { S0 with ob := S0.ob.set 0 { S0.ob[0] with thLock := 0x02 } }

/-- Every clause of a write: no output; refused by each lock; intent alone under each lock; free. -/
theorem witness_DwriteEffect : S0.mode[1] ≠ .hs ∧ S0.mode[1] ≠ .pp ∧
    ovHeld.mode[1] = .hs ∧ bit ovHeld.ob[0].ovLock 1 = true ∧ bit ovHeld.ob[0].thLock 1 = false ∧
    thHeld.mode[1] = .pp ∧ bit thHeld.ob[0].thLock 1 = true ∧ bit thHeld.ob[0].ovLock 1 = false ∧
    (moded 1 .hs S0).mode[1] = .hs ∧ bit (moded 1 .hs S0).ob[0].ovLock 1 = false ∧
    bit (moded 1 .hs S0).ob[0].thLock 1 = false ∧ (moded 1 .hs S0).lock = .free := by decide +kernel

/-- TOGGLE of a channel that is on, and of one that is off. -/
theorem witness_ToggleEffect : bit ovHeld.ob[0].cmd 1 = true ∧ bit thHeld.ob[0].cmd 1 = false ∧
    ovHeld.lock = .free ∧ thHeld.lock = .free := by decide +kernel

theorem witness_ConfigRefused : PinMode.pp ≠ .unconf ∧
    joinBroken EB 2 .pp { group .hs with ob := S0.ob.set 0 { S0.ob[0] with join := 1 } } = true ∧
    joinBroken EB 1 .pp thHeld = false ∧ bit thHeld.ob[outBank 1].thLock (outChan 1) = true := by decide +kernel

/-- What CONFIG asks of a state before it goes on, met. -/
def passes (p : Pin) (md : PinMode) (det : Bool) (s : State) : Bool :=
  md != .unconf && s.lock == .free && !(md == .pp && det) && !joinBroken s.cfg p md s &&
    !(md == .pp && bit s.ob[outBank p].thLock (outChan p))

theorem witness_ConfigEffect : passes 0 .hs true S0 = true ∧ passes 0 .input true S0 = true ∧ passes 15 .pp false S0 = true ∧
    passes 1 .hs false thHeld = true := by decide +kernel

/-- Both outcomes of a CONFIG that passed its checks; an input whose channel over-voltage holds, and one it does not; a
thermally locked channel. -/
theorem witness_ConfigOutcome : passes 0 .hs false S0 = true ∧ passes 1 .input true ovHeld = true ∧
    bit ovHeld.ob[outBank 1].ovLock (outChan 1) = true ∧ bit S0.ob[outBank 1].ovLock (outChan 1) = false ∧
    passes 1 .input true S0 = true ∧ passes 1 .hs true thHeld = true ∧
    bit thHeld.ob[outBank 1].thLock (outChan 1) = true ∧
    answer (.config 1 2 0) (echoing [okOut, okOut, okOut, okOut, okOut, okOut, okIn] S0) = some okDone ∧
    answer (.config 1 2 0) (echoing [noise, noise, noise, noise, noise, noise] S0) = some crcFail ∧
    answer (.config 1 3 0) (echoing [okOut, okOut, okOut] S0) = some verifyFail ∧
    (after (.config 2 1 0) (echoing [noise, noise, noise, noise, noise, noise] ovHeld)).ob[0].cmd = 0x02 := by decide +kernel

theorem witness_JoinEffect : joinAllowed EB (group .pp).mode 0 = false ∧ joinAllowed EB (group .hs).mode 0 = true ∧
    (group .hs).lock = .free := by decide +kernel

theorem witness_SubscribeEffect : (9 : U32) ≠ 0#32 ∧ S0.cfg.initStable = .unknown ∧
    (State.resetWith { EB with initStable := .sample }).cfg.initStable = .sample := by decide +kernel

theorem witness_LinkEffect : LinkMode.none = .none ∧ LinkMode.flipAny ≠ .none := by decide

/-- PWM: not push-pull; duty 0; frequency 0 and 1,000,001; 1 and 1,000,000. -/
theorem witness_PwmEffect : S0.mode[4] ≠ .pp ∧ (moded 4 .pp S0).mode[4] = .pp ∧ (1 : BitVec 16) ≠ 0#16 ∧
    (0 : U32).toNat = 0 ∧ 1000000 < (1000001 : U32).toNat ∧ 1 ≤ (1 : U32).toNat ∧ (1000000 : U32).toNat ≤ 1000000 := by
  decide +kernel

theorem witness_PwmArithmetic : 1 ≤ 1000000 ∧ 1000000 ≤ 1000000 ∧ 65535 ≤ 65535 ∧ pwmOn (pwmPeriod 1000000) 65534 = 0 ∧
    pwmOn (pwmPeriod 1) 65535 = 1000000 := by decide +kernel

/-- One tick before the interval is over, and at it; the same for an entry with no stable value. -/
theorem witness_DebounceCommitLaw : (⟨50, some false, 0⟩ : Gate).stable = some false ∧
    ((1020 : U32) - 1000).toNat < (50 : U32).toNat ∧ ((1049 : U32) - 1000).toNat < (50 : U32).toNat ∧
    (50 : U32).toNat ≤ ((1050 : U32) - 1000).toNat ∧ (⟨50, none, 1000⟩ : Gate).stable = none ∧
    debounceAll ⟨50, none, 1000⟩ [(true, 1020), (false, 1049)] = ⟨50, none, 1000⟩ ∧
    debounce ⟨50, none, 1000⟩ false 1050 = (⟨50, some false, 1050⟩, true) := by decide +kernel

/-- Auxiliary pins 18 and 20 are subscribed beside pin 3. -/
def auxiliary : State :=
  { eventful with
    sub := (eventful.sub.set 17 { cb := 8, gate := { interval := 0, stable := some false, lastMatch := 0 } }).set 19
      { cb := 9, gate := { interval := 0, stable := some false, lastMatch := 0 } }
    env := { eventful.env with auxLevels := [false, true] } }

/-- A pin entry and an auxiliary one that commit, each on its own draw; one that does not; one that is not active. -/
theorem witness_SubscriptionPassEvents : subLevel 2 auxiliary = some true ∧ subLevel 17 auxiliary = some false ∧
    subLevel 19 auxiliary = some true ∧ auxiliary.sub[2].cb = 7 ∧ auxiliary.sub[16].cb = 0 ∧
    (debounce auxiliary.sub[19].gate true 5).2 = true ∧ (debounce auxiliary.sub[17].gate false 5).2 = false ∧
    (subscriptionsRun 5 auxiliary).events =
      [{ pin := 3, level := true, cb := 7 }, { pin := 20, level := true, cb := 9 }] := by decide +kernel

/-- An output bank with channel 0 locked, its flag clear, since 5000. -/
def ovOld : OutBank := { OutBank.reset false with ovLock := 1, cmd := 1, lockTs := (Vector.replicate 8 0#32).set 0 5000 }

/-- Engage; hold; release at 10,000 ms and not at 9,999. -/
theorem witness_OverVoltagePass :
    bit { OutBank.reset false with ovRaw := 1 }.ovRaw 0 = true ∧ bit (OutBank.reset false).cmd 0 = false ∧
    bit ovOld.ovLock 0 = true ∧ bit ovOld.ovRaw 0 = false ∧ 10000 ≤ ((15000 : U32) - ovOld.lockTs[(0 : Chan)]).toNat ∧
    ¬ 10000 ≤ ((14999 : U32) - ovOld.lockTs[(0 : Chan)]).toNat := by decide +kernel

/-- An output bank with channel 2 locked by temperature, its flag clear, since 100. -/
def thOld : OutBank := { OutBank.reset false with thLock := 4, ppIntent := 4, intent := 4, lockTs := (Vector.replicate 8 0#32).set 2 100 }

theorem witness_ThermalPass :
    bit { OutBank.reset false with thRaw := 4, pp := 4, cmd := 4 }.thRaw 2 = true ∧
    bit thOld.thLock 2 = true ∧ bit thOld.thRaw 2 = false ∧ 10000 ≤ ((10100 : U32) - thOld.lockTs[(2 : Chan)]).toNat ∧
    ¬ 10000 ≤ ((10099 : U32) - thOld.lockTs[(2 : Chan)]).toNat := by decide +kernel

theorem witness_LockoutProperties : bit (OutBank.reset false).pp 0 = false ∧
    bit { OutBank.reset false with ovRaw := 1 }.ovRaw 0 = true ∧ bit (OutBank.reset false).cmd 0 = false ∧
    ovHeld.mode[1] = .hs ∧ bit ovHeld.ob[outBank 1].ovLock (outChan 1) = true ∧
    bit ovOld.ovLock 0 = true ∧ bit ovOld.ovRaw 0 = false ∧ 10000 ≤ ((15000 : U32) - ovOld.lockTs[(0 : Chan)]).toNat ∧
    bit { OutBank.reset false with thRaw := 4, pp := 4, cmd := 4 }.pp 2 = true ∧
    joinBroken thHeld.cfg 1 .pp thHeld = false ∧ bit thHeld.ob[outBank 1].thLock (outChan 1) = true ∧
    bit thOld.thLock 2 = true ∧ bit thOld.thRaw 2 = false ∧ 10000 ≤ ((10100 : U32) - thOld.lockTs[(2 : Chan)]).toNat := by
  decide +kernel

theorem witness_TickEffect : S0.lock = .free := rfl

/-- Before a phase `n` that is due. -/
def duePhase (n : Fin 5) : State := timing [20, 0] [0] { S0 with sched := { phase := n, lastMs := 0 } }

/-- The gate shut, and open on every phase with a sticky effect; a protected bank and an unprotected one. -/
theorem witness_TickWords : (timing [19] [] S0).lock = .free ∧
    (nowMs (timing [19] [] S0) - (timing [19] [] S0).sched.lastMs).toNat < 20 ∧
    (∀ n : Fin 5, (duePhase n).lock = .free ∧ 20 ≤ (nowMs (duePhase n) - (duePhase n).sched.lastMs).toNat ∧
      (duePhase n).sched.phase.val = n.val) ∧
    (duePhase 2).ob[0].ovProtect = false ∧ { (duePhase 2).ob[0] with ovProtect := true }.ovProtect = true := by decide +kernel

/-- The gate at 20 ms and at 19. -/
theorem witness_TickScheduler : (timing [20] [] S0).lock = .free ∧
    20 ≤ (nowMs (timing [20] [] S0) - (timing [20] [] S0).sched.lastMs).toNat ∧
    (nowMs (timing [19] [] S0) - (timing [19] [] S0).sched.lastMs).toNat < 20 := by decide +kernel

/-- The first echo valid; the third; none. -/
theorem witness_InReadEffect :
    inValid EB (echoNo (echoing [okIn] S0).env 0) = true ∧
    (∀ j : Fin 2, inValid EB (echoNo (echoing [noise, noise, okIn] S0).env j.val) = false) ∧
    inValid EB (echoNo (echoing [noise, noise, okIn] S0).env 2) = true ∧
    (∀ j : Fin 3, inValid EB (echoNo (echoing [noise, noise, noise] S0).env j.val) = false) ∧
    (echoing [noise, noise, noise] S0).lock = .free := by decide +kernel

theorem witness_InWriteEffect :
    inValid S0.cfg (echoNo (echoing [okIn] S0).env 0) = true ∧
    (∀ j : Fin 2, inValid (echoing [noise, noise, okIn] S0).cfg (echoNo (echoing [noise, noise, okIn] S0).env j.val) = false) ∧
    inValid (echoing [noise, noise, okIn] S0).cfg (echoNo (echoing [noise, noise, okIn] S0).env 2) = true ∧
    (∀ j : Fin 3, inValid S0.cfg (echoNo (echoing [noise, noise, noise] S0).env j.val) = false) ∧
    (echoing [noise, noise, okIn] S0).lock = .free := by decide +kernel

theorem witness_OutReadEffect :
    outValid (echoNo (echoing [okOut] S0).env 0) = true ∧
    (∀ j : Fin 2, outValid (echoNo (echoing [noise, noise, okOut] S0).env j.val) = false) ∧
    outValid (echoNo (echoing [noise, noise, okOut] S0).env 2) = true ∧
    (∀ j : Fin 3, outValid (echoNo (echoing [noise, noise, noise] S0).env j.val) = false) ∧
    (echoing [okOut] S0).lock = .free := by decide +kernel

theorem witness_OutRtstatEffect : outValid (echoNo (echoing [noise, okOut] S0).env 0) = false ∧
    outValid (echoNo (echoing [noise, okOut] S0).env 1) = true ∧ (echoing [noise, okOut] S0).lock = .free := by decide +kernel

/-- The second pair is good; and a pair whose first echo is bad is good where the binding does not ask for it. -/
theorem witness_OutSetOutEffect :
    outValid (echoNo (echoing [okOut, noise, okOut, okOut] S0).env 1) = false ∧
    outValid (echoNo (echoing [okOut, noise, okOut, okOut] S0).env 2) = true ∧
    outValid (echoNo (echoing [okOut, noise, okOut, okOut] S0).env 3) = true ∧
    outValid (echoNo (echoing [noise, okOut] S0).env 1) = true ∧ { EB with outCheckPhase1 := false }.outCheckPhase1 = false ∧
    (∀ j : Fin 3, outValid (echoNo (echoing [okOut, noise, okOut, noise, okOut, noise] S0).env (2 * j.val + 1)) = false) ∧
    (echoing [okOut, noise, okOut, okOut] S0).lock = .free := by decide +kernel

/-- A good pair at attempt n of a write (R156). -/
def pairGood (s : State) (n : Nat) : Bool :=
  outValid (echoNo s.env (2 * n + 1)) && (!s.cfg.outCheckPhase1 || outValid (echoNo s.env (2 * n)))

/-- No good pair; the second pair good; then no valid read echo, an equal word, a different word at the second echo. -/
theorem witness_OutConfigEffect : S0.lock = .free ∧
    (∀ j : Fin 3, pairGood (echoing [noise, noise, noise, noise, noise, noise] S0) j.val = false) ∧
    pairGood (echoing [noise, okOut, okOut, okOut] S0) 0 = false ∧ pairGood (echoing [noise, okOut, okOut, okOut] S0) 1 = true ∧
    answer (.outSetPp 0 false 0 0) (echoing [okOut, okOut, noise, noise, noise] S0) = some crcFail ∧
    answer (.outSetPp 0 false 0 0) (echoing [noise, okOut, okOut, okOut, okOut] S0) = some okDone ∧
    answer (.outSetPp 0 false 0 0) (echoing [okOut, okOut, noise, ⟨0x00, 0x01, 0x6D⟩] S0) = some verifyFail := by decide +kernel

theorem witness_WaitsForLock : { S0 with lock := .held 1 }.lock = .held (otherCtx { S0 with lock := .held 1 }.cur) := by
  decide +kernel

theorem witness_ExecIsItsUnits : exec (.dwrite 2 1 0) (echoing [okOut, okOut] (moded 1 .hs S0)) =
    .next (after (.dwrite 2 1 0) (echoing [okOut, okOut] (moded 1 .hs S0))) := exec_after _ _

theorem witness_ExecLeavesLock : exec (.tick 0 0 0) S0 = .next (after (.tick 0 0 0) S0) := exec_after _ _

/-- A shared pin; two ticks; neither; an idle context; an illegal field. -/
theorem witness_HostRaceRecorded :
    FieldsLegal (.dwrite 2 1 0) ∧ (beside (.toggle 2 0 0) S0).op[otherCtx S0.cur] = .busy (.toggle 2 0 0) [] ∧
    sharePin (.dwrite 2 1 0) (.toggle 2 0 0) = true ∧
    FieldsLegal (.tick 0 0 0) ∧ sharePin (.tick 0 0 0) (.tick 0 0 0) = false ∧ isTick (.tick 0 0 0) = true ∧
    sharePin (.dwrite 2 1 0) (.toggle 3 0 0) = false ∧ isTick (.dwrite 2 1 0) = false ∧
    S0.op[otherCtx S0.cur] = .idle ∧ ¬FieldsLegal (.tick 1 0 0) := by
  refine ⟨⟨⟨by decide, by decide⟩, by decide, by decide⟩, by decide +kernel, by decide, ⟨by decide, by decide, by decide⟩,
    by decide, by decide, by decide, by decide, by decide +kernel, fun h => ?_⟩
  exact absurd h.1 (by decide)

/-- A host request, and a frame asked for on its own. -/
theorem witness_StepRunsDecoded : ModelFault.badBinding ∉ S0.faults ∧ (asking [0x0B000100] S0).op[(0 : Ctx)] = .idle ∧
    hasWork 1 (asking [0x0B000100] S0) = false ∧ (asking [0x0B000100] S0).busReq[(0 : Ctx)] = [] ∧
    decodeHost (asking [0x0B000100] S0).req[(0 : Ctx)] = .ok (.setled 0 1 0, []) ∧
    hasWork (otherCtx 1) (asking1 [0x0B000100] S0) = false ∧
    decodeHost (asking1 [0x0B000100] S0).req[(1 : Ctx)] = .ok (.setled 0 1 0, []) ∧
    (stepped (asking1 [0x0B000100] S0)).led = true ∧ (stepped (asking1 [0x0B000100] S0)).resp[(1 : Ctx)] = some okDone ∧
    { S0 with busReq := S0.busReq.set 0 [(.in0, 0x04000F#24)] }.busReq[(0 : Ctx)] = [(.in0, 0x04000F#24)] ∧
    decodeFrame EB .in0 0x04000F#24 = .ok (.inRead 0 4 0x0F) := by decide +kernel

theorem witness_StepKeepsBinding : step (asking [0x0B000100] S0) = .next (stepped (asking [0x0B000100] S0)) :=
  step_of_goes (by decide +kernel)

/-- A step that makes an exchange. -/
theorem witness_RecordsOnlyGrow :
    step { echoing [okIn] S0 with busReq := S0.busReq.set 0 [(.in0, 0x04000F#24)] } =
      .next (stepped { echoing [okIn] S0 with busReq := S0.busReq.set 0 [(.in0, 0x04000F#24)] }) ∧
    (stepped { echoing [okIn] S0 with busReq := S0.busReq.set 0 [(.in0, 0x04000F#24)] }).bus ≠ [] :=
  ⟨step_of_goes (by decide +kernel), by decide +kernel⟩

/-- A step that changes a mode. -/
theorem witness_ModeOnlyByConfig :
    step (asking [0x01010200] (echoing [okOut, okOut, okOut, okOut, okOut, okOut, okIn] S0)) =
      .next (stepped (asking [0x01010200] (echoing [okOut, okOut, okOut, okOut, okOut, okOut, okIn] S0))) ∧
    (stepped (asking [0x01010200] (echoing [okOut, okOut, okOut, okOut, okOut, okOut, okIn] S0))).mode[(0 : Pin)] ≠
      S0.mode[(0 : Pin)] := ⟨step_of_goes (by decide +kernel), by decide +kernel⟩

/-- Steps that clear a sticky bit of either family. -/
theorem witness_StickyBitsKept :
    step (asking [0x10010000] { S0 with ib := S0.ib.set 0 { S0.ib[0] with stWB := 0x80 } }) =
      .next (stepped (asking [0x10010000] { S0 with ib := S0.ib.set 0 { S0.ib[0] with stWB := 0x80 } })) ∧
    bit (stepped (asking [0x10010000] { S0 with ib := S0.ib.set 0 { S0.ib[0] with stWB := 0x80 } })).ib[0].stWB 7 = false ∧
    step (asking [0x14090000] { S0 with ob := S0.ob.set 1 { S0.ob[1] with stOL := 1 } }) =
      .next (stepped (asking [0x14090000] { S0 with ob := S0.ob.set 1 { S0.ob[1] with stOL := 1 } })) ∧
    bit (stepped (asking [0x14090000] { S0 with ob := S0.ob.set 1 { S0.ob[1] with stOL := 1 } })).ob[1].stOL 0 = false :=
  ⟨step_of_goes (by decide +kernel), by decide +kernel, step_of_goes (by decide +kernel), by decide +kernel⟩

/-- A step that reads the time. -/
theorem witness_TimeNeverDecreases : step (asking [0x08010901, 0] (timing [5] [] S0)) =
      .next (stepped (asking [0x08010901, 0] (timing [5] [] S0))) ∧
    (stepped (asking [0x08010901, 0] (timing [5] [] S0))).env.msTime = 5 := ⟨step_of_goes (by decide +kernel), by decide +kernel⟩

/-- Both contexts have work, and context 0 is inside an attempt, so context 1 waits or it moves on. -/
def contended : State :=
  { echoing [okIn] S0 with
    lock := .held 0
    op := #v[.busy (.inRead 0 4 0x0F) [.built ⟨0x04, 0x00, 0x0F⟩ false 0], .idle]
    req := #v[[], [0x0B000100]]
    env := { S0.env with echoes := [okIn], turns := [0] } }

theorem witness_OtherContextUntouched : step contended = .next (stepped contended) ∧
    (stepped contended).bus.length = 1 ∧ (1 : Ctx) ≠ (stepped contended).cur ∧ contended.req[(1 : Ctx)] ≠ [] :=
  ⟨step_of_goes (by decide +kernel), by decide +kernel, by decide +kernel, by decide +kernel⟩

theorem witness_LockInvariantKept : LockInv contended ∧ step contended = .next (stepped contended) := by
  refine ⟨?_, step_of_goes (by decide +kernel)⟩
  unfold LockInv
  decide +kernel

/-- Locked channels of both kinds, with a write in flight. -/
def lockedBoth : State :=
  { moded 1 .hs S0 with
    ob := S0.ob.set 0 { S0.ob[0] with ovLock := 0x02, cmd := 0x02, thLock := 0x04 }
    op := #v[.busy (.dwrite 2 1 0) [], .idle] }

theorem witness_ForcedStatesKept : ChannelsForced lockedBoth ∧ NoDoubleLock lockedBoth ∧ NoDoubleLock (unitStep lockedBoth) := by
  unfold ChannelsForced channelForced NoDoubleLock
  decide +kernel

theorem witness_FramesEmitted : exec (.outSetOut 0 false 0 3) (echoing [okOut, okOut] S0) =
      .next (after (.outSetOut 0 false 0 3) (echoing [okOut, okOut] S0)) ∧
    (after (.outSetOut 0 false 0 3) (echoing [okOut, okOut] S0)).bus.length = 2 := ⟨exec_after _ _, by decide +kernel⟩

/-- A contended state in which the next exchange of context 0 is a read of register 4. -/
theorem witness_FramesReady : FramesReady contended ∧ step contended = .next (stepped contended) ∧
    (stepped contended).bus.map (·.sent) = [⟨0x04, 0x00, 0x0F⟩] := by
  refine ⟨?_, step_of_goes (by decide +kernel), by decide +kernel⟩
  rintro c r ⟨k, act, next, h, hr⟩
  have hc : ∀ c : Ctx, c = 0 ∨ c = 1 := by decide
  rcases hc c with rfl | rfl
  · obtain ⟨n, e⟩ : ∃ n, remaining 0 contended = some (.unit .ex1 (exchange .in0 ⟨0x04, 0x00, 0x0F⟩) n) := ⟨_, rfl⟩
    rw [e] at h
    cases h
    have hb : (exchange .in0 ⟨0x04, 0x00, 0x0F⟩ contended).1.bus = [⟨.in0, ⟨0x04, 0x00, 0x0F⟩, okIn⟩] := by decide +kernel
    rw [hb] at hr
    cases hr
    exact ⟨false, 4, 0, by decide +kernel⟩
  · cases h

theorem witness_BadBindingNeverRuns : bindingOk { EB with outRtCrc := 4 } = false ∧
    ModelFault.badBinding ∈ (State.resetWith { EB with outRtCrc := 4 }).faults := by decide +kernel

theorem witness_ResetValues : bindingOk EB = true := by decide +kernel

end Sys2Proof.Tests
end

section
/-! The field checks of a host request (30_encoding.md R89 to R91) in plain numbers, and what an illegal field does (R90). -/

namespace Sys2Proof.Machine

/-! ### Operand forms (R89) -/

theorem isSome_pin16?_iff (a : Byte) : (pin16? a).isSome = true ↔ pinField 16 a := by
  unfold pin16? pinField
  split <;> simp [*]

theorem isSome_pin20?_iff (a : Byte) : (pin20? a).isSome = true ↔ pinField 20 a := by
  unfold pin20? pinField
  split <;> simp [*]

theorem isSome_bank?_iff (a : Byte) : (bank? a).isSome = true ↔ a.toNat ≤ 1 := by
  unfold bank?
  split <;> simp <;> omega

theorem boolOk_iff (v : Byte) : boolOk v = true ↔ v.toNat ≤ 1 := by
  simp only [boolOk, Bool.or_eq_true, beq_iff_eq]
  bv_omega

theorem unused_iff (v : Byte) : unused v = true ↔ v.toNat = 0 := by
  simp only [unused, beq_iff_eq]
  bv_omega

theorem isSome_cfgMode?_iff (v : Byte) : (cfgMode? v).isSome = true ↔ 1 ≤ v.toNat ∧ v.toNat ≤ 3 := by
  unfold cfgMode?
  split_ifs <;> simp <;> bv_omega

theorem isSome_linkMode?_iff (v : Byte) : (linkMode? v).isSome = true ↔ v.toNat ≤ 5 := by
  unfold linkMode?
  split_ifs <;> simp <;> bv_omega

/-- The high half of the duty word is 0. -/
theorem dutyOk_iff (y : U32) : dutyOk y = true ↔ y.toNat < 65536 := by
  simp only [dutyOk, beq_iff_eq, ← BitVec.toNat_inj, BitVec.extractLsb'_toNat, BitVec.toNat_ofNat, Nat.shiftRight_eq_div_pow]
  omega

/-! ### Requests (R90, R91) -/

theorem pinOnly_iff (a b c : Byte) : pinOnly a b c = true ↔ pinField 16 a ∧ b.toNat = 0 ∧ c.toNat = 0 := by
  simp only [pinOnly, Bool.and_eq_true, isSome_pin16?_iff, unused_iff, and_assoc]

/-- The model's check of a request is R91's table; the rows are grouped by the form of their fields. -/
theorem legal_iff_fieldsLegal (i : Instr) : legal i = true ↔ FieldsLegal i := by
  cases i with
  | config a b c =>
    simp only [legal, FieldsLegal, Bool.and_eq_true, isSome_pin16?_iff, isSome_cfgMode?_iff, boolOk_iff, and_assoc]
  | join a b c | dwrite a b c =>
    simp only [legal, FieldsLegal, Bool.and_eq_true, isSome_pin16?_iff, boolOk_iff, unused_iff, and_assoc]
  | dread a b c | subscribe a b c =>
    simp only [legal, FieldsLegal, Bool.and_eq_true, isSome_pin20?_iff, unused_iff, and_assoc]
  | link a b c =>
    simp only [legal, FieldsLegal, Bool.and_eq_true, isSome_pin16?_iff, isSome_linkMode?_iff, and_assoc]
  | pwm a b c =>
    simp only [legal, FieldsLegal, Bool.and_eq_true, isSome_pin16?_iff, unused_iff, dutyOk_iff, and_assoc]
  | setovp a b c =>
    simp only [legal, FieldsLegal, Bool.and_eq_true, isSome_bank?_iff, boolOk_iff, unused_iff, and_assoc]
  | setled a b c =>
    simp only [legal, FieldsLegal, Bool.and_eq_true, boolOk_iff, unused_iff, and_assoc]
  | clearfaults a b c | getled a b c | tick a b c =>
    simp only [legal, FieldsLegal, Bool.and_eq_true, unused_iff, and_assoc]
  | toggle a b c | getWb a b c | getAlrmt1 a b c | getAlrmt2 a b c | getInot a b c | getOl a b c | getOv a b c
  | getOvlock a b c | getTh a b c | getThlock a b c => exact pinOnly_iff a b c
  | inRead | inWrite | outSetOut | outSetPp | outSetOlen | outSetJoin | outRead | outRtstat =>
    exact iff_of_true rfl trivial

/-- Settles O8: the check of R90 fails exactly on the fields R91 forbids, and it comes before everything else `exec` does. -/
theorem illegalFieldsRefused : Obligations.IllegalFieldsRefused := by
  intro i s hfields
  have hcheck : legal i = false := Bool.eq_false_iff.mpr (mt (legal_iff_fieldsLegal i).mp hfields)
  exact exec_illegal hcheck

end Sys2Proof.Machine
end

section
/-! The input echo check (41_input_bank.md R131). Up to the constant of the seed, the two registers it compares are
additive in the bits of the echo, so whether a change of a valid echo is found depends on the changed bits alone
(`inValid_xor_iff`). -/

namespace Sys2Proof.Machine

/-! ### Additivity of a bit-serial check -/

/-- A register that takes one bit a step and is additive in both, run over the positions `l` of a word, is additive in its
start and in the word. -/
theorem foldl_getLsbD_xor {m n : Nat} {f : BitVec m → Bool → BitVec m}
    (hf : ∀ r t a b, f (r ^^^ t) (a ^^ b) = f r a ^^^ f t b) (v w : BitVec n) (l : List Nat) (r t : BitVec m) :
    l.foldl (fun r i => f r ((v ^^^ w).getLsbD i)) (r ^^^ t) =
      l.foldl (fun r i => f r (v.getLsbD i)) r ^^^ l.foldl (fun r i => f r (w.getLsbD i)) t := by
  induction l generalizing r t with
  | nil => rfl
  | cons i l ih => rw [List.foldl_cons, BitVec.getLsbD_xor, hf, ih, List.foldl_cons, List.foldl_cons]

theorem boolBit_xor (a b : Bool) : boolBit (a ^^ b) = boolBit a ^^^ boolBit b := by
  cases a <;> cases b <;> rfl

/-- The reduction by the polynomial is additive: it is made exactly when the bit shifted out is set. -/
theorem crc5Step_xor (r t : BitVec 6) (a b : Bool) : crc5Step (r ^^^ t) (a ^^ b) = crc5Step r a ^^^ crc5Step t b := by
  have hshift : ((r ^^^ t).setWidth 5 ++ boolBit (a ^^ b) : BitVec 6) =
      (r.setWidth 5 ++ boolBit a) ^^^ (t.setWidth 5 ++ boolBit b) := by
    rw [BitVec.setWidth_xor, boolBit_xor, BitVec.xor_append]
  have hcancel (x y p : BitVec 6) : x ^^^ y = (x ^^^ p) ^^^ (y ^^^ p) := by
    rw [show (x ^^^ p) ^^^ (y ^^^ p) = (x ^^^ y) ^^^ (p ^^^ p) by ac_rfl, BitVec.xor_self, BitVec.xor_zero]
  unfold crc5Step
  rw [hshift]
  generalize (r.setWidth 5 ++ boolBit a : BitVec 6) = x, (t.setWidth 5 ++ boolBit b : BitVec 6) = y
  cases hx : x.getLsbD 5 <;> cases hy : y.getLsbD 5 <;> simp only [BitVec.getLsbD_xor, hx, hy]
  case false.false => rfl
  case false.true => exact BitVec.xor_assoc ..
  case true.false =>
    show (x ^^^ y) ^^^ Config.inCrcPoly = (x ^^^ Config.inCrcPoly) ^^^ y
    ac_rfl
  case true.true => exact hcancel ..

/-! ### CRC5 as a remainder (R130) -/

/-- What the register of R130 holds after the 19 steps over a payload. -/
def crc5Remainder (v : BitVec 24) : BitVec 5 :=
  ((List.range Config.inCrcSteps).reverse.foldl (fun r i => crc5Step r (v.getLsbD i))
    ((v.extractLsb' 19 5).setWidth 6)).setWidth 5

theorem crc5_eq_remainder (d2 d1 d0 : Byte) : crc5 d2 d1 d0 = crc5Remainder (crc5Payload d2 d1 d0) := rfl

theorem crc5Remainder_xor (v w : BitVec 24) : crc5Remainder (v ^^^ w) = crc5Remainder v ^^^ crc5Remainder w := by
  unfold crc5Remainder
  rw [BitVec.extractLsb'_xor, BitVec.setWidth_xor, foldl_getLsbD_xor crc5Step_xor, BitVec.setWidth_xor]

/-- The mask of the payload clears the low five bits of the last word alone. -/
theorem append_and_payloadMask (d2 d1 d0 : Byte) :
    (d2 ++ d1 ++ d0 : BitVec 24) &&& 0xFFFFE0#24 = (d2 ++ d1 ++ (d0 &&& 0xE0#8) : BitVec 24) :=
  calc (d2 ++ d1 ++ d0 : BitVec 24) &&& (BitVec.allOnes 16 ++ 0xE0#8 : BitVec 24)
    _ = ((d2 ++ d1) &&& BitVec.allOnes 16) ++ (d0 &&& 0xE0#8) := BitVec.and_append
    _ = d2 ++ d1 ++ (d0 &&& 0xE0#8) := by rw [BitVec.and_allOnes]

/-- The payload of an echo whose three further bits are covered (R81): its low five bits play no part. -/
theorem crc5Payload_echo (e : Frame) :
    crc5Payload e.w1 e.w0 (e.chk &&& 0xE0#8) = (e.bits &&& 0xFFFFE0#24) ||| Config.inCrcSeed := by
  unfold crc5Payload Frame.bits
  rw [append_and_payloadMask, append_and_payloadMask, BitVec.and_assoc, BitVec.and_self]

/-- The seed stands where the mask has cleared the word, so a change of the word does not reach it. -/
theorem seeded_xor (v w : BitVec 24) : ((v ^^^ w) &&& 0xFFFFE0#24) ||| Config.inCrcSeed =
    ((v &&& 0xFFFFE0#24) ||| Config.inCrcSeed) ^^^ (w &&& 0xFFFFE0#24) := by
  have hdisjoint : 0xFFFFE0#24 &&& Config.inCrcSeed = 0#24 := rfl
  apply BitVec.eq_of_getLsbD_eq
  intro i _
  have hi := congrArg (·.getLsbD i) hdisjoint
  simp only [BitVec.getLsbD_and, BitVec.getLsbD_zero] at hi
  simp only [BitVec.getLsbD_and, BitVec.getLsbD_or, BitVec.getLsbD_xor]
  grind

/-! ### The check and the changes it finds (R131) -/

theorem inValid_iff (b : Binding) (e : Frame) : inValid b e = true ↔
    crc5 e.w1 e.w0 (if b.inRxCrcMsbs then e.chk &&& 0xE0#8 else 0#8) = e.chk.extractLsb' 0 5 := by
  rw [← BitVec.setWidth_eq_extractLsb' (by omega)]
  exact beq_iff_eq

/-- The difference of the two registers the check compares, over the 24 bits of an echo. -/
def inSyndrome (v : BitVec 24) : BitVec 5 :=
  crc5Remainder ((v &&& 0xFFFFE0#24) ||| Config.inCrcSeed) ^^^ v.setWidth 5

theorem inValid_iff_inSyndrome {b : Binding} (hmsbs : b.inRxCrcMsbs = true) (e : Frame) :
    inValid b e = true ↔ inSyndrome e.bits = 0#5 := by
  have hchk : e.bits.setWidth 5 = e.chk.extractLsb' 0 5 := by
    rw [BitVec.setWidth_eq_extractLsb' (by omega)]
    exact BitVec.extractLsb'_append_eq_of_add_le (by omega)
  rw [inValid_iff, if_pos hmsbs, crc5_eq_remainder, crc5Payload_echo, inSyndrome, hchk, BitVec.xor_eq_zero_iff]

/-- What flipping the bits `w` of an echo adds to its syndrome. -/
def inChange (w : BitVec 24) : BitVec 5 := crc5Remainder (w &&& 0xFFFFE0#24) ^^^ w.setWidth 5

theorem inSyndrome_xor (v w : BitVec 24) : inSyndrome (v ^^^ w) = inSyndrome v ^^^ inChange w := by
  unfold inSyndrome inChange
  rw [seeded_xor, crc5Remainder_xor, BitVec.setWidth_xor]
  ac_rfl

theorem bits_ofBits (v : BitVec 24) : (Frame.ofBits v).bits = v := by
  have hwords : v.extractLsb' 16 8 ++ v.extractLsb' 8 8 = v.extractLsb' 8 16 :=
    BitVec.extractLsb'_append_extractLsb'_eq_extractLsb' rfl
  unfold Frame.bits Frame.ofBits
  rw [hwords]
  exact (BitVec.extractLsb'_append_extractLsb'_eq_extractLsb' rfl).trans BitVec.extractLsb'_eq_self

/-- A change of a valid echo stays unfound exactly when the flipped bits, taken alone, add nothing to the syndrome. -/
theorem inValid_xor_iff {b : Binding} (hmsbs : b.inRxCrcMsbs = true) {e : Frame} (hvalid : inValid b e = true)
    (w : BitVec 24) : inValid b (Frame.ofBits (e.bits ^^^ w)) = true ↔ inChange w = 0#5 := by
  rw [inValid_iff_inSyndrome hmsbs] at hvalid ⊢
  rw [bits_ofBits, inSyndrome_xor, hvalid, BitVec.zero_xor]

theorem inChange_singleBit_ne_zero : ∀ i : Fin 24, inChange (1#24 <<< i.val) ≠ 0#5 := by decide +kernel

/-- Settles O4: additivity leaves the 24 single flipped bits to look at, and for the unfound change of two bits the pair
15 and 0, which takes the valid echo 0x020003 to 0x028002. -/
theorem inputEchoCheck : Obligations.InputEchoCheck := by
  refine ⟨inValid_iff, by decide +kernel, by decide +kernel, fun b hmsbs => ?_⟩
  have hvalid : inValid b (Frame.ofBits 0x020003#24) = true := (inValid_iff_inSyndrome hmsbs _).mpr (by decide +kernel)
  have hinvalid {e : Frame} (hne : inSyndrome e.bits ≠ 0#5) : inValid b e = false :=
    Bool.eq_false_iff.mpr (mt (inValid_iff_inSyndrome hmsbs e).mp hne)
  refine ⟨hinvalid (by decide +kernel), hinvalid (by decide +kernel), ?singleBit, hvalid, ?twoBits⟩
  case singleBit =>
    intro e i he
    exact Bool.eq_false_iff.mpr (mt (inValid_xor_iff hmsbs he _).mp (inChange_singleBit_ne_zero i))
  case twoBits =>
    have hpair : inChange 0x008001#24 = 0#5 := by decide +kernel
    have hflip : (Frame.ofBits 0x020003#24).bits ^^^ 0x008001#24 = 0x028002#24 := by decide +kernel
    exact hflip ▸ (inValid_xor_iff hmsbs hvalid _).mpr hpair

end Sys2Proof.Machine
end

section
/-! The output echo check (42_output_bank.md R152), by the additivity of a bit-serial check as for the input family: what
flipping bits of an echo does to the check depends on the flipped bits alone (`outSyndrome_xor`). -/

namespace Sys2Proof.Machine

/-! ### CRC7 is additive up to its seed and its last word (R150, R151) -/

/-- A reduction made exactly when a bit of the register is set is additive in that bit and the register. -/
theorem reduce_xor {n : Nat} (x y p : BitVec n) (a b : Bool) :
    (if a ^^ b then (x ^^^ y) ^^^ p else x ^^^ y) = (if a then x ^^^ p else x) ^^^ (if b then y ^^^ p else y) := by
  cases a <;> cases b
  case false.false => rfl
  case false.true => exact BitVec.xor_assoc ..
  case true.false =>
    show (x ^^^ y) ^^^ p = (x ^^^ p) ^^^ y
    ac_rfl
  case true.true =>
    calc x ^^^ y
      _ = (x ^^^ y) ^^^ (p ^^^ p) := by rw [BitVec.xor_self, BitVec.xor_zero]
      _ = (x ^^^ p) ^^^ (y ^^^ p) := by ac_rfl

theorem fold7Bit_xor (r t : BitVec 7) (a b : Bool) : fold7Bit (r ^^^ t) (a ^^ b) = fold7Bit r a ^^^ fold7Bit t b := by
  have hshift : ((r ^^^ t) ++ 0#1 : BitVec 8) = (r ++ 0#1) ^^^ (t ++ 0#1) := by
    rw [BitVec.xor_append, BitVec.xor_self]
  simp only [fold7Bit, hshift, BitVec.getLsbD_xor, reduce_xor, boolBit_xor, BitVec.setWidth_xor]
  ac_rfl

theorem fold7_xor (r t : BitVec 7) (v w : Byte) : fold7 (r ^^^ t) (v ^^^ w) = fold7 r v ^^^ fold7 t w :=
  foldl_getLsbD_xor fold7Bit_xor v w _ r t

/-- What flipping the bits `d1`, `d0` of the two words adds to their CRC7: the fold without the seed and the last word. -/
def crc7Change (d1 d0 : Byte) : BitVec 7 := fold7 (fold7 (fold7 0#7 d1) d0) 0#8

theorem crc7_xor (w1 w0 d1 d0 : Byte) : crc7 (w1 ^^^ d1) (w0 ^^^ d0) = crc7 w1 w0 ^^^ crc7Change d1 d0 := by
  unfold crc7 crc7Change
  rw [← fold7_xor, ← fold7_xor, ← fold7_xor, BitVec.xor_zero, BitVec.xor_zero]

/-! ### The check and the changes it finds (R152) -/

theorem outValid_iff (e : Frame) : outValid e = true ↔ crc7 e.w1 e.w0 = e.chk.extractLsb' 0 7 := by
  rw [← BitVec.setWidth_eq_extractLsb' (by omega)]
  exact beq_iff_eq

theorem ofBits_bits (e : Frame) : Frame.ofBits e.bits = e := by
  obtain ⟨w1, w0, chk⟩ := e
  have hw1 : (w1 ++ w0 ++ chk : BitVec 24).extractLsb' 16 8 = w1 := by
    rw [BitVec.extractLsb'_append_eq_of_le (by omega), BitVec.extractLsb'_append_eq_left]
  have hw0 : (w1 ++ w0 ++ chk : BitVec 24).extractLsb' 8 8 = w0 := by
    rw [BitVec.extractLsb'_append_eq_of_le (by omega), BitVec.extractLsb'_append_eq_right]
  have hchk : (w1 ++ w0 ++ chk : BitVec 24).extractLsb' 0 8 = chk := BitVec.extractLsb'_append_eq_right
  simp only [Frame.ofBits, Frame.bits, hw1, hw0, hchk]

/-- The difference of the two registers the check compares, over the 24 bits of an echo. -/
def outSyndrome (v : BitVec 24) : BitVec 7 :=
  crc7 (v.extractLsb' 16 8) (v.extractLsb' 8 8) ^^^ (v.extractLsb' 0 8).extractLsb' 0 7

theorem outValid_ofBits_iff (v : BitVec 24) : outValid (Frame.ofBits v) = true ↔ outSyndrome v = 0#7 := by
  rw [outValid_iff, outSyndrome, BitVec.xor_eq_zero_iff]
  rfl

theorem outValid_iff_outSyndrome (e : Frame) : outValid e = true ↔ outSyndrome e.bits = 0#7 := by
  rw [← outValid_ofBits_iff, ofBits_bits]

/-- What flipping the bits `w` of an echo adds to its syndrome. -/
def outChange (w : BitVec 24) : BitVec 7 :=
  crc7Change (w.extractLsb' 16 8) (w.extractLsb' 8 8) ^^^ (w.extractLsb' 0 8).extractLsb' 0 7

theorem outSyndrome_xor (v w : BitVec 24) : outSyndrome (v ^^^ w) = outSyndrome v ^^^ outChange w := by
  simp only [outSyndrome, outChange, BitVec.extractLsb'_xor, crc7_xor]
  ac_rfl

/-- A change of a valid echo stays unfound exactly when the flipped bits, taken alone, add nothing to the syndrome. -/
theorem outValid_xor_iff {e : Frame} (hvalid : outValid e = true) (w : BitVec 24) :
    outValid (Frame.ofBits (e.bits ^^^ w)) = true ↔ outChange w = 0#7 := by
  rw [outValid_iff_outSyndrome] at hvalid
  rw [outValid_ofBits_iff, outSyndrome_xor, hvalid, BitVec.zero_xor]

/-- Flipped bits that add nothing to the syndrome change no verdict, of a valid echo or of another. -/
theorem outValid_xor_of_outChange_eq_zero {w : BitVec 24} (hw : outChange w = 0#7) (e : Frame) :
    outValid (Frame.ofBits (e.bits ^^^ w)) = outValid e := by
  rw [Bool.eq_iff_iff, outValid_ofBits_iff, outSyndrome_xor, hw, BitVec.xor_zero, outValid_iff_outSyndrome]

theorem outChange_singleBit_eq_zero_iff : ∀ i : Fin 24, outChange (1#24 <<< i.val) = 0#7 ↔ i.val = 7 := by decide +kernel

/-- Settles O5: additivity leaves the 24 single flipped bits to look at, and of these bit 7 alone adds nothing. -/
theorem outputEchoCheck : Obligations.OutputEchoCheck := by
  refine ⟨outValid_iff, by decide +kernel, by decide +kernel, ?singleBit, ?bitSeven⟩
  case singleBit =>
    intro e i hi he
    have hfound : outChange (1#24 <<< i.val) ≠ 0#7 := mt (outChange_singleBit_eq_zero_iff i).mp hi
    exact Bool.eq_false_iff.mpr (mt (outValid_xor_iff he _).mp hfound)
  case bitSeven => exact outValid_xor_of_outChange_eq_zero ((outChange_singleBit_eq_zero_iff 7).mpr rfl)

end Sys2Proof.Machine
end

section
/-! The lockout machines (43_protection.md R181, R184, R189). A step on channel `c` reads and writes the bits of `c` alone, so
a pass over the eight channels does to each channel what its own step does to it (`chan_ovSteps`, `chan_thSteps`). -/

namespace Sys2Proof.Machine

/-! ### One channel of a bank -/

/-- What the lockout machines read and write of one channel: its bit of each word, and its timestamp. -/
structure ChanState where
  ovRaw : Bool
  thRaw : Bool
  cmd : Bool
  intent : Bool
  pp : Bool
  ppIntent : Bool
  ovLock : Bool
  thLock : Bool
  lockTs : U32

/-- Channel `c` of a bank. -/
@[simps] def chan (o : OutBank) (c : Chan) : ChanState where
  ovRaw := bit o.ovRaw c
  thRaw := bit o.thRaw c
  cmd := bit o.cmd c
  intent := bit o.intent c
  pp := bit o.pp c
  ppIntent := bit o.ppIntent c
  ovLock := bit o.ovLock c
  thLock := bit o.thLock c
  lockTs := o.lockTs[c]

/-- R181 on the channel's own bits; tied to the model's step by `chan_ovStep`. -/
def ChanState.ov (now : U32) (x : ChanState) : ChanState :=
  if x.ovRaw = true ∧ x.pp = false ∧ (x.cmd = false ∨ x.ovLock = true) then
    { x with cmd := true, ovLock := true, lockTs := now }
  else if x.ovLock = true ∧ 10000 ≤ (now - x.lockTs).toNat then { x with cmd := x.intent, ovLock := false }
  else x

/-- R184 on the channel's own bits; tied to the model's step by `chan_thStep`. -/
def ChanState.th (now : U32) (x : ChanState) : ChanState :=
  if x.thRaw = true ∧ (x.pp = true ∨ x.thLock = true) ∧ (x.cmd = true ∨ x.thLock = true) then
    { x with pp := false, cmd := false, thLock := true, lockTs := now }
  else if x.thLock = true ∧ 10000 ≤ (now - x.lockTs).toNat then
    { x with pp := x.ppIntent, cmd := x.intent, thLock := false }
  else x

/-- The cool-down of both machines is 10,000 ms. -/
theorem reached_cooldownMs (now t : U32) : reached now t Config.cooldownMs = true ↔ 10000 ≤ (now - t).toNat :=
  reached_iff now t Config.cooldownMs

/-- A step of the over-voltage machine is R181 on its own channel, and leaves every other channel alone. -/
theorem chan_ovStep (now : U32) (o : OutBank) (c d : Chan) :
    chan (ovStep now o c) d = if c = d then (chan o d).ov now else chan o d := by
  by_cases hcd : c = d
  · subst hcd
    simp only [ovStep, ChanState.ov, chan_ovRaw, chan_pp, chan_cmd, chan_ovLock, chan_lockTs, Bool.and_eq_true, Bool.or_eq_true,
      Bool.not_eq_true', reached_cooldownMs, and_assoc, if_true]
    split_ifs <;> simp [chan, bit_setBit]
  · unfold ovStep
    split_ifs <;> simp [chan, bit_setBit, Fin.val_inj, hcd]

/-- A step of the thermal machine is R184 on its own channel, and leaves every other channel alone. -/
theorem chan_thStep (now : U32) (o : OutBank) (c d : Chan) :
    chan (thStep now o c) d = if c = d then (chan o d).th now else chan o d := by
  by_cases hcd : c = d
  · subst hcd
    simp only [thStep, ChanState.th, chan_thRaw, chan_pp, chan_cmd, chan_thLock, chan_lockTs, Bool.and_eq_true, Bool.or_eq_true,
      reached_cooldownMs, and_assoc, if_true]
    split_ifs <;> simp [chan, bit_setBit]
  · unfold thStep
    split_ifs <;> simp [chan, bit_setBit, Fin.val_inj, hcd]

/-! ### A pass over the channels -/

/-- Steps that each do `g` to their own channel and leave the others alone do `g` once to every channel of a list. -/
theorem chan_foldl {f : OutBank → Chan → OutBank} {g : ChanState → ChanState}
    (hf : ∀ o c d, chan (f o c) d = if c = d then g (chan o d) else chan o d) (d : Chan) {l : List Chan} (hl : l.Nodup)
    (o : OutBank) : chan (l.foldl f o) d = if d ∈ l then g (chan o d) else chan o d := by
  induction l generalizing o with
  | nil => simp
  | cons c rest ih =>
    obtain ⟨hc, hrest⟩ := List.nodup_cons.mp hl
    rw [List.foldl_cons, ih hrest, hf]
    by_cases hcd : c = d
    · subst hcd
      simp [hc]
    · simp [hcd, Ne.symm hcd]

theorem nodup_channels : channels.Nodup := by decide

theorem mem_channels : ∀ c : Chan, c ∈ channels := by decide

/-- The over-voltage pass is R181 on each channel by itself. -/
theorem chan_ovSteps (now : U32) (o : OutBank) (c : Chan) : chan (ovSteps now o) c = (chan o c).ov now := by
  rw [ovSteps, chan_foldl (chan_ovStep now) c nodup_channels, if_pos (mem_channels c)]

/-- The thermal pass is R184 on each channel by itself. -/
theorem chan_thSteps (now : U32) (o : OutBank) (c : Chan) : chan (thSteps now o) c = (chan o c).th now := by
  rw [thSteps, chan_foldl (chan_thStep now) c nodup_channels, if_pos (mem_channels c)]

/-- The over-voltage pass writes the commanded word, the lock word and the timestamps alone. -/
theorem ovSteps_frame (now : U32) (o : OutBank) :
    ∃ cmd lock ts, ovSteps now o = { o with cmd := cmd, ovLock := lock, lockTs := ts } := by
  unfold ovSteps
  induction channels generalizing o with
  | nil => exact ⟨_, _, _, rfl⟩
  | cons c rest ih =>
    obtain ⟨_, _, _, h⟩ := ih (ovStep now o c)
    rw [List.foldl_cons, h]
    unfold ovStep
    split_ifs <;> exact ⟨_, _, _, rfl⟩

/-- The thermal pass writes the commanded word, the push-pull word, the lock word and the timestamps alone. -/
theorem thSteps_frame (now : U32) (o : OutBank) :
    ∃ cmd pp lock ts, thSteps now o = { o with cmd := cmd, pp := pp, thLock := lock, lockTs := ts } := by
  unfold thSteps
  induction channels generalizing o with
  | nil => exact ⟨_, _, _, _, rfl⟩
  | cons c rest ih =>
    obtain ⟨_, _, _, _, h⟩ := ih (thStep now o c)
    rw [List.foldl_cons, h]
    unfold thStep
    split_ifs <;> exact ⟨_, _, _, _, rfl⟩

/-- What an over-voltage pass may write of a channel, read off the channel. -/
theorem ovFields_of_chan {o : OutBank} {c : Chan} {x : ChanState} (h : chan o c = x) :
    bit o.cmd c = x.cmd ∧ bit o.ovLock c = x.ovLock ∧ o.lockTs[c] = x.lockTs := by
  subst h
  exact ⟨rfl, rfl, rfl⟩

/-- What a thermal pass may write of a channel, read off the channel. -/
theorem thFields_of_chan {o : OutBank} {c : Chan} {x : ChanState} (h : chan o c = x) :
    bit o.pp c = x.pp ∧ bit o.cmd c = x.cmd ∧ bit o.thLock c = x.thLock ∧ o.lockTs[c] = x.lockTs := by
  subst h
  exact ⟨rfl, rfl, rfl, rfl⟩

/-- Settles O31: each channel of the pass is R181 on that channel (`chan_ovSteps`), in R181's three cases. -/
theorem overVoltagePass : Obligations.OverVoltagePass := by
  intro now o
  refine ⟨?frame, fun c => ?channel⟩
  case frame =>
    obtain ⟨_, _, _, h⟩ := ovSteps_frame now o
    rw [h]
  case channel =>
    have hc : chan (ovSteps now o) c = (chan o c).ov now := chan_ovSteps now o c
    exact ⟨fun engage => ovFields_of_chan (hc.trans (if_pos engage)),
      fun hold release => ovFields_of_chan (hc.trans ((if_neg hold).trans (if_pos release))),
      fun hold keep => ovFields_of_chan (hc.trans ((if_neg hold).trans (if_neg keep)))⟩

/-- Settles O32: each channel of the pass is R184 on that channel (`chan_thSteps`), in R184's three cases. -/
theorem thermalPass : Obligations.ThermalPass := by
  intro now o
  refine ⟨?frame, fun c => ?channel⟩
  case frame =>
    obtain ⟨_, _, _, _, h⟩ := thSteps_frame now o
    rw [h]
  case channel =>
    have hc : chan (thSteps now o) c = (chan o c).th now := chan_thSteps now o c
    exact ⟨fun engage => thFields_of_chan (hc.trans (if_pos engage)),
      fun hold release => thFields_of_chan (hc.trans ((if_neg hold).trans (if_pos release))),
      fun hold keep => thFields_of_chan (hc.trans ((if_neg hold).trans (if_neg keep)))⟩

/-! ### Requests a lock refuses (R189, R250, R253) -/

theorem toNat_pinByte (p : Pin) : (pinByte p).toNat = p.val + 1 := by
  rw [pinByte, BitVec.toNat_ofNat, Nat.mod_eq_of_lt (by omega)]

theorem pin16?_pinByte (p : Pin) : pin16? (pinByte p) = some p := by
  simp [pin16?, toNat_pinByte]

/-- A local action that finds the result ends what hangs on it, whoever holds the lock. -/
theorem loc_finish_leads {act : State → State × Answer} {next : Answer → Prog} {s t : State} {r : Result}
    (hb : Blind act) (hact : act s = (t, .finish r)) : Leads (loc act next) s (next (.finish r)) t := by
  have h : Leads (loc act next) s (next (act s).2) (act s).1 := Leads.loc hb
  rwa [hact] at h

/-- The write gate of an over-voltage lock (R253): LOW is refused before anything is written. -/
theorem writeLocal_low_of_ovLocked {p : Pin} {s : State} (hout : isOut p s = true) (hlock : ovLocked p s = true) :
    writeLocal p false s = (s, .finish (.fail .lock)) := by
  simp [writeLocal, hout, hlock]

/-- The mode gate of a thermal lock (R250): push-pull is refused, after the check of the group alone. -/
theorem configCheck_pp_of_thLocked {b : Binding} {p : Pin} {s : State} (hlock : thLocked p s = true) :
    configCheck b p .pp false s = some (if joinBroken b p .pp s then .arg else .lock) := by
  by_cases hjoin : joinBroken b p .pp s = true <;> simp [configCheck, hlock, hjoin]

theorem configFirst_of_check {b : Binding} {p : Pin} {md : PinMode} {det : Bool} {s : State} {f : Failure}
    (h : configCheck b p md det s = some f) : configFirst b p md det s = (s, .finish (.fail f)) := by
  simp only [configFirst, h]

/-- A write of LOW under an over-voltage lock, run whole: a response, and at most a host race recorded. -/
theorem exec_dwrite_low_of_ovLocked {p : Pin} {s : State} (hout : isOut p s = true) (hlock : ovLocked p s = true) :
    exec (.dwrite (pinByte p) 0 0) s =
      .next (complete (.fail .lock) (recordRace (.dwrite (pinByte p) 0 0) s)) := by
  have hlegal : legal (.dwrite (pinByte p) 0 0) = true := by simp [legal, pin16?_pinByte, boolOk, unused]
  have hact : writeLocal p (boolField 0) (recordRace (.dwrite (pinByte p) 0 0) s) =
      (recordRace (.dwrite (pinByte p) 0 0) s, .finish (.fail .lock)) :=
    writeLocal_low_of_ovLocked (by simpa [isOut] using hout) (by simpa [ovLocked] using hlock)
  refine exec_of_leads hlegal ?_
  simp only [programOf, dwriteProg, pin16?_pinByte]
  exact loc_finish_leads (blind_writeLocal p _) hact

theorem joinBroken_recordRace (b : Binding) (p : Pin) (md : PinMode) (i : Instr) (s : State) :
    joinBroken b p md (recordRace i s) = joinBroken b p md s := by
  simp [joinBroken, slotJoined]

/-- A request for push-pull under a thermal lock, run whole: a response, and at most a host race recorded. -/
theorem exec_config_pp_of_thLocked {p : Pin} {s : State} (hlock : thLocked p s = true) :
    exec (.config (pinByte p) 3 0) s =
      .next (complete (.fail (if joinBroken s.cfg p .pp s then .arg else .lock))
        (recordRace (.config (pinByte p) 3 0) s)) := by
  have hlegal : legal (.config (pinByte p) 3 0) = true := by simp [legal, pin16?_pinByte, cfgMode?, boolOk]
  have hcheck : configCheck s.cfg p .pp (boolField 0) (recordRace (.config (pinByte p) 3 0) s) =
      some (if joinBroken s.cfg p .pp s then .arg else .lock) := by
    rw [← joinBroken_recordRace _ _ _ (.config (pinByte p) 3 0) s]
    exact configCheck_pp_of_thLocked (by simpa [thLocked] using hlock)
  refine exec_of_leads hlegal ?_
  have hmode : cfgMode? 3 = some .pp := by decide
  simp only [programOf, configProg, pin16?_pinByte, hmode]
  exact loc_finish_leads (blind_configFirst _ _ _ _) (configFirst_of_check hcheck)

theorem complete_recordRace_resp (r : Result) (i : Instr) (s : State) :
    (complete r (recordRace i s)).resp[s.cur] = some r := by
  simp

theorem isOut_iff (p : Pin) (s : State) : isOut p s = true ↔ s.mode[p] = .hs ∨ s.mode[p] = .pp := by
  simp [isOut]

/-- Settles O33: what the passes do to a channel is O31 and O32 in the case named; a refused request writes no state but its
response, and the record of a host race. -/
theorem lockoutProperties : Obligations.LockoutProperties := by
  refine ⟨?ovEngage, ?ovRefuse, ?ovRelease, ?thEngage, ?thRefuse, ?thRelease⟩
  case ovEngage =>
    intro now o c hpp hraw hcmd
    obtain ⟨engages, -, -⟩ := (overVoltagePass now o).2 c
    obtain ⟨hon, hlocked, -⟩ := engages ⟨hraw, hpp, .inl hcmd⟩
    exact ⟨hon, hlocked⟩
  case ovRefuse =>
    intro p s hout hlock
    exact ⟨_, exec_dwrite_low_of_ovLocked ((isOut_iff p s).mpr hout) hlock, complete_recordRace_resp _ _ s, by simp, by simp⟩
  case ovRelease =>
    intro now o c hlock hraw hdue
    obtain ⟨-, releases, -⟩ := (overVoltagePass now o).2 c
    obtain ⟨hcmd, hfree, -⟩ := releases (by simp [hraw]) ⟨hlock, hdue⟩
    exact ⟨hcmd, hfree⟩
  case thEngage =>
    intro now o c hpp hraw hcmd
    obtain ⟨engages, -, -⟩ := (thermalPass now o).2 c
    obtain ⟨hhs, hoff, hlocked, -⟩ := engages ⟨hraw, .inl hpp, .inl hcmd⟩
    exact ⟨hhs, hoff, hlocked⟩
  case thRefuse =>
    intro p s hlock
    exact ⟨_, _, exec_config_pp_of_thLocked hlock, complete_recordRace_resp _ _ s, fun hjoin => by simp [hjoin],
      by simp, by simp, by simp⟩
  case thRelease =>
    intro now o c hlock hraw hdue
    obtain ⟨-, releases, -⟩ := (thermalPass now o).2 c
    obtain ⟨hmode, hcmd, hfree, -⟩ := releases (by simp [hraw]) ⟨hlock, hdue⟩
    exact ⟨hmode, hcmd, hfree⟩

end Sys2Proof.Machine
end

section
/-! The arithmetic of a software PWM channel (45_conditioning.md R231). Both divisions round down, so the on-time meets the
period only where the duty is full; everything stays below 2^32, so the channel's two 32-bit fields hold it exactly. -/

namespace Sys2Proof.Machine

/-! ### The period -/

theorem pwmPeriod_pos {f : Nat} (hpos : 1 ≤ f) (hle : f ≤ 1000000) : 1 ≤ pwmPeriod f :=
  Nat.div_pos hle hpos

theorem pwmPeriod_le (f : Nat) : pwmPeriod f ≤ 1000000 :=
  Nat.div_le_self 1000000 f

/-- The product is taken before the division, and needs more than 32 bits but no more than 36. -/
theorem pwmPeriod_mul_duty_lt (f : Nat) {d : Nat} (hd : d ≤ 65535) : pwmPeriod f * d < 2 ^ 36 :=
  calc pwmPeriod f * d ≤ 1000000 * 65535 := Nat.mul_le_mul (pwmPeriod_le f) hd
    _ < 2 ^ 36 := by decide

/-! ### The on-time -/

theorem pwmOn_le {d : Nat} (period : Nat) (hd : d ≤ 65535) : pwmOn period d ≤ period :=
  Nat.div_le_of_le_mul (Nat.mul_comm 65535 period ▸ Nat.mul_le_mul_left period hd)

theorem pwmOn_full (period : Nat) : pwmOn period 65535 = period :=
  Nat.mul_div_cancel period (by decide)

/-- Short of full duty the product is short of `period` whole multiples of the full duty, so rounding down loses one. -/
theorem pwmOn_lt {period d : Nat} (hperiod : 1 ≤ period) (hd : d < 65535) : pwmOn period d < period :=
  Nat.div_lt_of_lt_mul (Nat.mul_comm 65535 period ▸ Nat.mul_lt_mul_of_pos_left hd hperiod)

theorem pwmOn_eq_period_iff {period d : Nat} (hperiod : 1 ≤ period) (hd : d ≤ 65535) :
    pwmOn period d = period ↔ d = 65535 := by
  constructor
  · intro heq
    by_contra hne
    have hlt : pwmOn period d < period := pwmOn_lt hperiod (Nat.lt_of_le_of_ne hd hne)
    omega
  · rintro rfl
    exact pwmOn_full period

/-! ### The fields of a channel -/

/-- Times up to the longest period are kept exactly in a 32-bit field. -/
theorem toNat_ofNat_of_le_usPerS {n : Nat} (h : n ≤ 1000000) : (BitVec.ofNat 32 n).toNat = n := by
  rw [BitVec.toNat_ofNat, Nat.mod_eq_of_lt (by omega)]

/-- Settles O28: the bounds of the period, the on-time against the period, and the two fields, which the bounds make exact. -/
theorem pwmArithmetic : Obligations.PwmArithmetic := by
  intro f d hpos hle hd
  have hperiod : 1 ≤ pwmPeriod f := pwmPeriod_pos hpos hle
  have hon : pwmOn (pwmPeriod f) d ≤ pwmPeriod f := pwmOn_le _ hd
  have hfield : (BitVec.ofNat 32 (pwmPeriod f)).toNat = pwmPeriod f := toNat_ofNat_of_le_usPerS (pwmPeriod_le f)
  refine ⟨hperiod, pwmPeriod_le f, pwmPeriod_mul_duty_lt f hd, hon, pwmOn_eq_period_iff hperiod hd, hfield, ?nonzero,
    toNat_ofNat_of_le_usPerS (hon.trans (pwmPeriod_le f))⟩
  case nonzero =>
    intro hzero
    have hperiod_zero : pwmPeriod f = 0 := hfield.symm.trans (congrArg BitVec.toNat hzero)
    omega

end Sys2Proof.Machine
end

section
/-! The pin and indicator operations as a whole (46_pin_api.md R252 to R254, R262, R263, R270 to R279). Each is one local unit,
but for a write of a level, which may ask for the SET_OUT write of its bank; so the statements come from the result of that
unit (`exec_oneUnit`), or from the gates of R253 in `writeLocal` (`writesLevel_of_act`). -/

namespace Sys2Proof.Machine

/-! ### Operands written out (R89) -/

theorem pinOnly_pinByte (p : Pin) : pinOnly (pinByte p) 0 0 = true := by
  simp [pinOnly, pin16?_pinByte, unused]

theorem boolField_boolByte (v : Bool) : boolField (boolByte v) = v := by
  cases v <;> rfl

theorem boolOk_boolByte (v : Bool) : boolOk (boolByte v) = true := by
  cases v <;> rfl

theorem legal_dwrite_pinByte (p : Pin) (v : Bool) : legal (.dwrite (pinByte p) (boolByte v) 0) = true := by
  simp [legal, pin16?_pinByte, boolOk_boolByte, unused]

/-- The index of a pin 1..16 in a table of twenty entries (R41). -/
def pinIx (p : Pin) : SubIx := p.castLE (by decide)

/-- The index of an auxiliary line, pin 17..20, in a table of twenty entries (R41, R258). -/
def auxIx (a : Fin 4) : SubIx := a.natAdd 16

theorem pin20?_pinByte (p : Pin) : pin20? (pinByte p) = some (pinIx p) := by
  have hle : p.val + 1 ≤ 20 := by omega
  simp [pin20?, toNat_pinByte, pinIx, Fin.ext_iff, hle]

theorem toNat_auxByte (a : Fin 4) : (auxByte a).toNat = a.val + 17 := by
  rw [auxByte, BitVec.toNat_ofNat, Nat.mod_eq_of_lt (by omega)]

theorem pin20?_auxByte (a : Fin 4) : pin20? (auxByte a) = some (auxIx a) := by
  have hrange : 1 ≤ (auxByte a).toNat ∧ (auxByte a).toNat ≤ 20 := by rw [toNat_auxByte]; omega
  have hix : (auxByte a).toNat - 1 = 16 + a.val := by rw [toNat_auxByte]; omega
  rw [pin20?, dif_pos hrange, Option.some_inj, Fin.ext_iff]
  exact hix

theorem subPin_pinIx (p : Pin) : subPin (pinIx p) = .inl p := by
  simp [subPin, pinIx]

theorem subPin_auxIx (a : Fin 4) : subPin (auxIx a) = .inr a := by
  simp [subPin, auxIx]

/-! ### The status indicator (R262, R263) -/

/-- Settles O12: each is its one unit, and neither is pin-mutating, so there is no race to record. -/
theorem ledOperations : Obligations.LedOperations := by
  refine ⟨fun v s => ?set, fun s => ?get⟩
  case set =>
    have hlegal : legal (.setled 0 (boolByte v) 0) = true := by simp [legal, boolOk_boolByte, unused]
    refine exec_oneUnit hlegal rfl (blind_setled _) ?_
    rw [recordRace_none rfl rfl, boolField_boolByte]
    rfl
  case get =>
    refine exec_oneUnit rfl rfl blind_getled ?_
    rw [recordRace_none rfl rfl]
    rfl

/-! ### Getters (R270 to R279) -/

/-- The read-and-clear of an input bank's sticky word, run whole. -/
theorem exec_readClearIn {i : Instr} {w : InSticky} {p : Pin} {s : State} (hlegal : legal i = true)
    (hprog : programOf s.cfg i = getInProg w (pinByte p)) :
    exec i s = .next (complete (.ok (.level (bit (w.get s.ib[inBank p]) (inChan p))))
      (modIb (inBank p) (fun r => w.put (setBit (w.get r) (inChan p) false) r) (recordRace i s))) := by
  refine exec_oneUnit hlegal ?_ (blind_readClearIn w p) ?_
  · simp only [hprog, getInProg, pin16?_pinByte]
  · simp only [readClearIn, recordRace_ib]

/-- The read-and-clear of an output bank's sticky word, run whole. -/
theorem exec_readClearOut {i : Instr} {w : OutSticky} {p : Pin} {s : State} (hlegal : legal i = true)
    (hprog : programOf s.cfg i = getOutProg w (pinByte p)) :
    exec i s = .next (complete (.ok (.level (bit (w.get s.ob[outBank p]) (outChan p))))
      (modOb (outBank p) (fun r => w.put (setBit (w.get r) (outChan p) false) r) (recordRace i s))) := by
  refine exec_oneUnit hlegal ?_ (blind_readClearOut w p) ?_
  · simp only [hprog, getOutProg, pin16?_pinByte]
  · simp only [readClearOut, recordRace_ob]

/-- Settles O15: the four getters are one read-and-clear at four words; a pin field out of range is illegal (R90). -/
theorem inputGetters : Obligations.InputGetters := by
  refine ⟨fun p s => ?pin, fun a s ha => ?outside⟩
  case pin =>
    have hlegal : pinOnly (pinByte p) 0 0 = true := pinOnly_pinByte p
    exact ⟨exec_readClearIn (w := .wb) hlegal rfl, exec_readClearIn (w := .at1) hlegal rfl,
      exec_readClearIn (w := .at2) hlegal rfl, exec_readClearIn (w := .ot) hlegal rfl⟩
  case outside =>
    have hfields {q : Prop} : ¬(pinField 16 a ∧ q) := mt And.left ha
    exact ⟨illegalFieldsRefused _ s hfields, illegalFieldsRefused _ s hfields, illegalFieldsRefused _ s hfields,
      illegalFieldsRefused _ s hfields⟩

/-- Settles O16: the three getters are one read-and-clear at three words; a pin field out of range is illegal (R90). -/
theorem outputGetters : Obligations.OutputGetters := by
  refine ⟨fun p s => ?pin, fun a s ha => ?outside⟩
  case pin =>
    have hlegal : pinOnly (pinByte p) 0 0 = true := pinOnly_pinByte p
    exact ⟨exec_readClearOut (w := .ol) hlegal rfl, exec_readClearOut (w := .ov) hlegal rfl,
      exec_readClearOut (w := .th) hlegal rfl⟩
  case outside =>
    have hfields {q : Prop} : ¬(pinField 16 a ∧ q) := mt And.left ha
    exact ⟨illegalFieldsRefused _ s hfields, illegalFieldsRefused _ s hfields, illegalFieldsRefused _ s hfields⟩

/-- Settles O17: the unit of a lock getter reads the lock bit, which a recorded race leaves alone, and writes nothing. -/
theorem lockGetters : Obligations.LockGetters := by
  refine ⟨fun p s => ⟨?ovlock, ?thlock⟩, fun a s ha => ?outside⟩
  case ovlock =>
    refine exec_oneUnit (pinOnly_pinByte p) ?_ (blind_ovlock p) ?_
    · simp only [programOf, getOvlockProg, pin16?_pinByte]
    · simp only [ovLocked, recordRace_ob]
  case thlock =>
    refine exec_oneUnit (pinOnly_pinByte p) ?_ (blind_thlock p) ?_
    · simp only [programOf, getThlockProg, pin16?_pinByte]
    · simp only [thLocked, recordRace_ob]
  case outside =>
    have hfields {q : Prop} : ¬(pinField 16 a ∧ q) := mt And.left ha
    exact ⟨illegalFieldsRefused _ s hfields, illegalFieldsRefused _ s hfields⟩

/-! ### DREAD (R252, R258) -/

theorem dreadUnit_pinIx_level {p : Pin} {s : State} {v : Bool} (h : pinLevel p s = some v) :
    dreadUnit (pinIx p) s = (s, .finish (.ok (.level v))) := by
  simp only [dreadUnit, sample, subPin_pinIx, h]

theorem dreadUnit_pinIx_unconf {p : Pin} {s : State} (h : pinLevel p s = none) :
    dreadUnit (pinIx p) s = (s, .finish (.fail .arg)) := by
  simp only [dreadUnit, sample, subPin_pinIx, h]

theorem dreadUnit_auxIx (a : Fin 4) (s : State) :
    dreadUnit (auxIx a) s = (afterAux s, .finish (.ok (.level (aux a s)))) := by
  simp only [dreadUnit, sample, subPin_auxIx]

/-- DREAD of a legal field is its one unit; it is not pin-mutating, so there is no race to record. -/
theorem exec_dread {a : Byte} {k : SubIx} {s t : State} {r : Result} (ha : pin20? a = some k)
    (hunit : dreadUnit k s = (t, .finish r)) : exec (.dread a 0 0) s = .next (complete r t) := by
  have hlegal : legal (.dread a 0 0) = true := by simp [legal, ha, unused]
  refine exec_oneUnit hlegal ?_ (blind_dreadUnit k) ?_
  · simp only [programOf, dreadProg, ha]
  · rw [recordRace_none rfl rfl, hunit]

/-- Settles O18, by the mode of the pin. -/
theorem dreadReturns : Obligations.DreadReturns := by
  refine ⟨fun p s => ?pin, fun a s => exec_dread (pin20?_auxByte a) (dreadUnit_auxIx a s),
    fun a s ha => illegalFieldsRefused _ s (mt And.left ha)⟩
  case pin =>
    refine exec_dread (pin20?_pinByte p) ?_
    cases hmode : s.mode[p] with
    | unconf => exact dreadUnit_pinIx_unconf (by simp only [pinLevel, hmode])
    | input | hs | pp => exact dreadUnit_pinIx_level (by simp only [pinLevel, hmode])

/-! ### The write of a level (R253, R254) -/

theorem writeLocal_of_not_isOut {p : Pin} {v : Bool} {s : State} (hout : isOut p s = false) :
    writeLocal p v s = (s, .finish (.fail .arg)) := by
  simp [writeLocal, hout]

/-- The write gate of a thermal lock (R253): HIGH is refused before anything is written. -/
theorem writeLocal_high_of_thLocked {p : Pin} {s : State} (hout : isOut p s = true) (hlock : thLocked p s = true) :
    writeLocal p true s = (s, .finish (.fail .lock)) := by
  simp [writeLocal, hout, hlock]

/-- A lock that forces the level written lets the intent alone be recorded (R253). -/
theorem writeLocal_of_forced {p : Pin} {v : Bool} {s : State} (hout : isOut p s = true)
    (hlocked : ovLocked p s = true ∨ thLocked p s = true) (hlow : ¬(ovLocked p s = true ∧ v = false))
    (hhigh : ¬(thLocked p s = true ∧ v = true)) : writeLocal p v s = (setIntent p v s, .finish okDone) := by
  cases v <;> simp_all [writeLocal]

/-- Unlocked, the commanded word is sent, even when the bit already has the value (R253). -/
theorem writeLocal_of_unlocked {p : Pin} {v : Bool} {s : State} (hout : isOut p s = true) (hov : ¬ovLocked p s = true)
    (hth : ¬thLocked p s = true) : writeLocal p v s = (putLevel p v true s, .send (outBank p)) := by
  simp [writeLocal, hout, hov, hth, putLevel_true]

section
variable {i : Instr} {act : State → State × Answer} {s t : State}

/-- A guarded write that sends nothing, run whole, whoever holds the bus lock. -/
theorem exec_writeThrough_finish {r : Result} (hlegal : legal i = true) (hprog : programOf s.cfg i = writeThrough s.cfg act .ret)
    (hblind : Blind act) (hact : act (recordRace i s) = (t, .finish r)) : exec i s = .next (complete r t) := by
  refine exec_of_leads hlegal ?_
  rw [hprog]
  exact loc_finish_leads hblind hact

/-- A guarded write that sends the commanded word of bank `k`, run whole while the bus lock is free. -/
theorem exec_writeThrough_send {k : Bank} (hlegal : legal i = true) (hprog : programOf s.cfg i = writeThrough s.cfg act .ret)
    (hblind : Blind act) (hact : act (recordRace i s) = (t, .send k)) (hfree : t.lock = .free) :
    exec i s = .next (complete (xactResult s.cfg (.outWrite k .setOut) t) (afterXact s.cfg (.outWrite k .setOut) t)) := by
  have hleads := writeThrough_leads s.cfg .ret (s := recordRace i s) hblind (by rw [hact]; exact hfree)
  rw [hact, ← hprog] at hleads
  exact exec_of_leads hlegal hleads

/-- An operation whose action comes to `WriteBody(p, v)` on the state `u` writes the level there, in every case of R253. -/
theorem writesLevel_of_act {p : Pin} {v : Bool} {u : State} (hlegal : legal i = true)
    (hprog : programOf s.cfg i = writeThrough s.cfg act .ret) (hblind : Blind act)
    (hact : act (recordRace i s) = writeLocal p v u) (hlock : u.lock = s.lock) : WritesLevel i p v s u := by
  have finishes {r : Result} {t : State} (h : writeLocal p v u = (t, .finish r)) : exec i s = .next (complete r t) :=
    exec_writeThrough_finish hlegal hprog hblind (hact.trans h)
  refine ⟨?notOutput, ?low, ?high, ?forced, ?unlocked⟩
  case notOutput =>
    intro hout
    exact finishes (writeLocal_of_not_isOut (Bool.eq_false_iff.mpr (mt (isOut_iff p u).mp hout)))
  case low =>
    rintro hout ⟨hov, rfl⟩
    exact finishes (writeLocal_low_of_ovLocked ((isOut_iff p u).mpr hout) hov)
  case high =>
    rintro hout ⟨hth, rfl⟩
    exact finishes (writeLocal_high_of_thLocked ((isOut_iff p u).mpr hout) hth)
  case forced =>
    intro hout hlocked hlow hhigh
    exact finishes (writeLocal_of_forced ((isOut_iff p u).mpr hout) hlocked hlow hhigh)
  case unlocked =>
    intro hout hov hth hfree
    have hsend : writeLocal p v u = (putLevel p v true u, .send (outBank p)) :=
      writeLocal_of_unlocked ((isOut_iff p u).mpr hout) hov hth
    exact exec_writeThrough_send hlegal hprog hblind (hact.trans hsend) (hlock.trans hfree)

end

/-- Settles O19: DWRITE is `WriteBody(p, v)` after the record of a race, which leaves the bus lock alone. -/
theorem dwriteEffect : Obligations.DwriteEffect := by
  refine ⟨fun p v s => ?pin, fun a v s ha => illegalFieldsRefused _ s (mt And.left ha)⟩
  case pin =>
    refine writesLevel_of_act (legal_dwrite_pinByte p v) ?_ (blind_writeLocal p v) rfl (recordRace_lock _ s)
    simp only [programOf, dwriteProg, pin16?_pinByte, boolField_boolByte]

/-- Settles O20: TOGGLE is `WriteBody` of the inverse of the commanded bit, which the record of a race leaves alone. -/
theorem toggleEffect : Obligations.ToggleEffect := by
  refine ⟨fun p s => ?pin, fun a s ha => illegalFieldsRefused _ s (mt And.left ha)⟩
  case pin =>
    refine writesLevel_of_act (pinOnly_pinByte p) ?_ (blind_toggleLocal p) ?_ (recordRace_lock _ s)
    · simp only [programOf, toggleProg, pin16?_pinByte]
    · simp only [toggleLocal, recordRace_ob]

end Sys2Proof.Machine
end

section
/-! What reset leaves (70_reset_and_hazards.md R330 to R332): the tables, entry by entry, for reset under any binding, and that
a block no context has work for waits. -/

namespace Sys2Proof.Machine

/-! ### The tables at reset (R330) -/

section
variable (b : Binding)

theorem resetWith_ib (k : Bank) : (State.resetWith b).ib[k] = InBank.reset := Vector.getElem_replicate k.isLt

theorem resetWith_ob (k : Bank) : (State.resetWith b).ob[k] = OutBank.reset b.ovpReset[k] := by
  fin_cases k <;> rfl

theorem resetWith_mode (p : Pin) : (State.resetWith b).mode[p] = .unconf := Vector.getElem_replicate p.isLt

theorem resetWith_sub (i : SubIx) : (State.resetWith b).sub[i] = Sub.reset := Vector.getElem_replicate i.isLt

theorem resetWith_link (p q : Pin) : (State.resetWith b).link[p][q] = Link.reset := by
  have hrow : (State.resetWith b).link[p] = Vector.replicate 16 Link.reset := Vector.getElem_replicate p.isLt
  rw [hrow]
  exact Vector.getElem_replicate q.isLt

theorem resetWith_pwm (p : Pin) : (State.resetWith b).pwm[p] = Pwm.reset := Vector.getElem_replicate p.isLt

theorem resetWith_op (c : Ctx) : (State.resetWith b).op[c] = .idle := Vector.getElem_replicate c.isLt

theorem resetWith_req (c : Ctx) : (State.resetWith b).req[c] = [] := Vector.getElem_replicate c.isLt

theorem resetWith_busReq (c : Ctx) : (State.resetWith b).busReq[c] = [] := Vector.getElem_replicate c.isLt

end

/-- A binding that R11 and R84 allow leaves no record (R317). -/
theorem resetWith_faults {b : Binding} (hok : bindingOk b = true) : (State.resetWith b).faults = [] :=
  if_pos hok

/-! ### A block with nothing to do -/

/-- An idle context that nothing was asked of has no work. -/
theorem hasWork_of_nothing_asked {c : Ctx} {s : State} (hidle : s.op[c] = .idle) (hbus : s.busReq[c] = [])
    (hreq : s.req[c] = []) : hasWork c s = false := by
  have hnone : decodeHost [] = .error .incomplete := rfl
  simp [hasWork, hidle, hbus, hreq, hnone]

/-- With no bad binding on record and no work for either context, a step changes nothing (R330). -/
theorem step_of_no_work {s : State} (hbinding : ModelFault.badBinding ∉ s.faults) (h0 : hasWork 0 s = false)
    (h1 : hasWork 1 s = false) : step s = .next s := by
  have hmoves : step s = advance s := if_neg (by simpa using hbinding)
  have hwaits : advance s = .next s := by simp [advance, h0, h1]
  exact hmoves.trans hwaits

/-- No context has work right after reset. -/
theorem hasWork_resetWith (b : Binding) (c : Ctx) : hasWork c (State.resetWith b) = false :=
  hasWork_of_nothing_asked (resetWith_op b c) (resetWith_busReq b c) (resetWith_req b c)

/-- After reset under an allowed binding the block waits for host requests (R330). -/
theorem step_resetWith {b : Binding} (hok : bindingOk b = true) :
    step (State.resetWith b) = .next (State.resetWith b) := by
  have hbinding : ModelFault.badBinding ∉ (State.resetWith b).faults := by simp [resetWith_faults hok]
  exact step_of_no_work hbinding (hasWork_resetWith b 0) (hasWork_resetWith b 1)

/-- Settles O58: the tables by their entries at reset, the other fields as reset writes them, and the wait of a block with
nothing to do. -/
theorem resetValues : Obligations.ResetValues := by
  intro b
  have hchips : csIn 0 = .in0 ∧ csIn 1 = .in1 ∧ csOut 0 = .out0 ∧ csOut 1 = .out1 := ⟨rfl, rfl, rfl, rfl⟩
  exact ⟨hchips, resetWith_ib b, resetWith_ob b, resetWith_mode b, resetWith_sub b, resetWith_link b, resetWith_pwm b,
    rfl, rfl, rfl, resetWith_op b, rfl, rfl, resetWith_faults, step_resetWith⟩

end Sys2Proof.Machine
end

section
/-! Steps as runs. A step takes a request and runs an operation, or one atomic unit of it (10_state.md R48; 20_memory.md R70,
R71); so a relation that each of these keeps is kept by every step, although no single unit keeps it. And an
operation run whole is its atomic units, one after another. -/

namespace Sys2Proof.Machine

/-! ### Positions in an operation (R48) -/

/-- The position of an operation in flight. -/
theorem remaining_busy {c : Ctx} {s : State} {i : Instr} {seen : List Answer} (h : s.op[c] = .busy i seen) :
    remaining c s = some ((programOf s.cfg i).after seen) := by
  simp only [remaining, h]

theorem remaining_idle {c : Ctx} {s : State} (h : s.op[c] = .idle) : remaining c s = none := by
  simp only [remaining, h]

/-- The position of a context is found from its own entry in the table of operations. -/
theorem remaining_congr {c : Ctx} {s t : State} (hcfg : t.cfg = s.cfg) (hop : t.op[c] = s.op[c]) :
    remaining c t = remaining c s := by
  simp only [remaining, hcfg, hop]

/-- An operation just begun stands before its first unit. -/
theorem beginOp_busy (i : Instr) (s : State) : (beginOp i s).op[(beginOp i s).cur] = .busy i [] := by
  simp

theorem unitStep_busy {s : State} {i : Instr} {seen : List Answer} (h : s.op[s.cur] = .busy i seen) :
    unitStep s = takeUnit ((programOf s.cfg i).after seen) s := by
  simp only [unitStep, remaining_busy h]

theorem unitStep_idle {s : State} (h : s.op[s.cur] = .idle) : unitStep s = s := by
  simp only [unitStep, remaining_idle h]

/-! ### Taking a request (R87) -/

/-- Taking a request drops it from the running context's queue, and changes nothing else. -/
theorem fetch_taken {s t : State} (h : (∃ i, fetch s = .instr i t) ∨ fetch s = .reserved t) :
    (∃ rest, t = { s with req := s.req.set s.cur rest }) ∨ ∃ rest, t = { s with busReq := s.busReq.set s.cur rest } := by
  unfold fetch at h
  split at h
  · split at h
    · obtain ⟨j, hj⟩ | hj := h
      · cases hj
        exact .inr ⟨_, rfl⟩
      · cases hj
    · simp at h
  · split at h
    · obtain ⟨j, hj⟩ | hj := h
      · cases hj
        exact .inl ⟨_, rfl⟩
      · cases hj
    · obtain ⟨j, hj⟩ | hj := h
      · cases hj
      · cases hj
        exact .inl ⟨_, rfl⟩
    · simp at h
    · simp at h

/-! ### Relations that runs keep -/

/-- A relation kept by taking a request, starting and ending an operation, running one on and running one atomic unit. -/
structure RunKeeps (R : State → State → Prop) : Prop where
  refl : ∀ s, R s s
  trans : ∀ {s t u}, R s t → R t u → R s u
  req : ∀ (s : State) (l : List U32), R s { s with req := s.req.set s.cur l }
  busReq : ∀ (s : State) (l : List (ChipSelect × BitVec 24)), R s { s with busReq := s.busReq.set s.cur l }
  complete : ∀ (r : Result) (s : State), s.op[s.cur] = .idle → R s (complete r s)
  begin : ∀ (i : Instr) (s : State), s.op[s.cur] = .idle → R s (beginOp i s)
  drive : ∀ (i : Instr) (seen : List Answer) (s : State), s.op[s.cur] = .busy i seen →
    R s (drive ((programOf s.cfg i).after seen) s)
  unit : ∀ (i : Instr) (seen : List Answer) (s : State), s.op[s.cur] = .busy i seen → R s (unitStep s)

section
variable {R : State → State → Prop}

theorem RunKeeps.taken (K : RunKeeps R) {s t : State} (h : (∃ i, fetch s = .instr i t) ∨ fetch s = .reserved t) : R s t := by
  obtain ⟨l, rfl⟩ | ⟨l, rfl⟩ := fetch_taken h
  · exact K.req s l
  · exact K.busReq s l

/-- Taking a request leaves the running context, and its operation, as they are. -/
theorem fetch_idle {s t : State} (h : (∃ i, fetch s = .instr i t) ∨ fetch s = .reserved t) (hidle : s.op[s.cur] = .idle) :
    t.op[t.cur] = .idle := by
  obtain ⟨l, rfl⟩ | ⟨l, rfl⟩ := fetch_taken h <;> exact hidle

/-- An instruction run whole from an idle context. -/
theorem RunKeeps.exec (K : RunKeeps R) {i : Instr} {s t : State} (hidle : s.op[s.cur] = .idle) (h : exec i s = .next t) :
    R s t := by
  rw [exec_eq] at h
  cases h
  cases hl : legal i with
  | false =>
    rw [runOp_illegal _ hl]
    exact K.complete _ s hidle
  | true =>
    rw [runOp_legal _ hl]
    have hrun := K.drive i [] (beginOp i s) (beginOp_busy i s)
    rw [beginOp_cfg] at hrun
    exact K.trans (K.begin i s hidle) hrun

/-- The move of a context that is alone. -/
theorem RunKeeps.runAlone (K : RunKeeps R) {s t : State} (h : runAlone s = .next t) : R s t := by
  unfold Machine.runAlone at h
  cases ho : s.op[s.cur] with
  | busy i seen =>
    rw [remaining_busy ho] at h
    cases h
    exact K.drive i seen s ho
  | idle =>
    rw [remaining_idle ho] at h
    cases hf : fetch s with
    | instr i u =>
      rw [hf] at h
      exact K.trans (K.taken (.inl ⟨i, hf⟩)) (K.exec (fetch_idle (.inl ⟨i, hf⟩) ho) h)
    | reserved u =>
      rw [hf] at h
      cases h
      exact K.trans (K.taken (.inr hf)) (K.complete _ u (fetch_idle (.inr hf) ho))
    | notEmitted => simp [hf] at h
    | nothing =>
      rw [hf] at h
      cases h
      exact K.refl s

/-- A contended move: one atomic unit, or the start of a request. -/
theorem RunKeeps.moveOne (K : RunKeeps R) {s t : State} (h : moveOne s = .next t) : R s t := by
  unfold Machine.moveOne at h
  cases ho : s.op[s.cur] with
  | busy i seen =>
    rw [remaining_busy ho] at h
    cases h
    exact K.unit i seen s ho
  | idle =>
    rw [remaining_idle ho] at h
    cases hf : fetch s with
    | instr i u =>
      rw [hf] at h
      cases h
      have hu : u.op[u.cur] = .idle := fetch_idle (.inl ⟨i, hf⟩) ho
      refine K.trans (K.taken (.inl ⟨i, hf⟩)) ?_
      unfold issue
      split
      · exact K.begin i u hu
      · exact K.complete _ u hu
    | reserved u =>
      rw [hf] at h
      cases h
      exact K.trans (K.taken (.inr hf)) (K.complete _ u (fetch_idle (.inr hf) ho))
    | notEmitted => simp [hf] at h
    | nothing =>
      rw [hf] at h
      cases h
      exact K.refl s

/-- A step keeps the relation, from the state in which the context that moves is the current one. -/
theorem RunKeeps.step (K : RunKeeps R) {s t : State} (h : step s = .next t) :
    t = s ∨ R (withCur t.cur s) t ∨ R (withCur t.cur (afterTurn s)) t := by
  obtain rfl | h | h := step_moves h
  · exact .inl rfl
  · exact .inr (.inl (K.runAlone h))
  · exact .inr (.inr (K.moveOne h))

end

/-! ### An operation run whole is its units (R70) -/

/-- From any position, running on is a number of atomic units; and so it is once the local unit begun there has ended. -/
theorem iterate_unitStep_drive {b : Binding} {i : Instr} {f : Bool} {p : Prog} (h : Units (UnitOf b i) f p) (s : State)
    (seen : List Answer) (hcfg : s.cfg = b) (hop : s.op[s.cur] = .busy i seen) (hp : (programOf b i).after seen = p) :
    (∃ n, unitStep^[n] s = drive p s) ∧ ∃ n, unitStep^[n] (runLocal p s) = drive p s := by
  have hstep : unitStep s = takeUnit p s := by rw [unitStep_busy hop, hcfg, hp]
  induction p generalizing s f seen with
  | ret r => exact ⟨⟨1, hstep⟩, ⟨0, rfl⟩⟩
  | unit k act next ih =>
    subst hcfg
    obtain ⟨hunit, hnext⟩ := units_next h
    obtain ⟨g, hg⟩ := hnext (act s).2
    obtain ⟨hop', hp', hcfg', hcur'⟩ := stands_note hunit hop hp
    have hbusy : (note (act s).2 (act s).1).op[(note (act s).2 (act s).1).cur] = .busy i (seen ++ [(act s).2]) := by
      simp only [hop', hcur']
      simp
    have hrest := ih (act s).2 hg _ _ hcfg' hbusy hp' (by rw [unitStep_busy hbusy, hcfg', hp'])
    by_cases hk : k = .loc
    · subst hk
      have hlocal : drive (.unit .loc act next) s = drive (next (act s).2) (note (act s).2 (act s).1) := rfl
      have hrun : runLocal (.unit .loc act next) s = runLocal (next (act s).2) (note (act s).2 (act s).1) := rfl
      rw [hlocal, hrun]
      obtain ⟨n, hn⟩ := hrest.2
      refine ⟨⟨n + 1, ?_⟩, n, hn⟩
      rw [Function.iterate_succ_apply, hstep]
      exact hn
    · have hself : runLocal (.unit k act next) s = s := if_neg hk
      rw [hself, and_self]
      by_cases he : enabled k s = true
      · have hone : unitStep s = settle (next (act s).2) (note (act s).2 (act s).1) := by
          rw [hstep]
          simp only [takeUnit, hk, he, if_true, if_false]
        have hdrive : drive (.unit k act next) s = drive (next (act s).2) (note (act s).2 (act s).1) := if_pos he
        rw [hdrive]
        cases hr : next (act s).2 with
        | ret r => exact ⟨1, by rw [Function.iterate_one, hone, hr]; rfl⟩
        | unit k' act' next' =>
          obtain ⟨n, hn⟩ := hrest.1
          refine ⟨n + 1, ?_⟩
          rw [Function.iterate_succ_apply, hone, hr]
          rw [hr] at hn
          exact hn
      · exact ⟨0, (if_neg he).symm⟩

/-- Settles O43: an illegal request ends as it starts; a legal one runs on from its first unit. -/
theorem execIsItsUnits : Obligations.ExecIsItsUnits := by
  intro i s t h
  rw [exec_eq] at h
  cases h
  cases hl : legal i with
  | false => exact ⟨0, by simp [issue, runOp, hl]⟩
  | true =>
    have hissue : issue i s = beginOp i s := if_pos hl
    rw [hissue, runOp_legal _ hl]
    exact (iterate_unitStep_drive (units_programOf s.cfg i) (beginOp i s) [] (beginOp_cfg i s) (beginOp_busy i s) rfl).1

end Sys2Proof.Machine
end

section
/-! The bus lock (40_bus_arbiter.md R111, R112; 10_state.md R46). Every unit keeps what the lock is outside an attempt
(`unit_lock`): an attempt takes it when free and gives it back. So an operation leaves the lock as it found it, no exchange is
made without it, and it is held by exactly the context that is inside an attempt. -/

namespace Sys2Proof.Machine

/-! ### One unit -/

/-- What the lock is once the attempt a context is in, if any, has ended. -/
def lockOutside (inside : Bool) (s : State) : Lock := if inside then .free else s.lock

/-- An enabled unit of a context that holds the lock if it is inside an attempt: so it does after the unit, the lock outside
the attempt stays, and nothing is recorded. -/
theorem unit_lock {b : Binding} {i : Instr} {f : Bool} {k : UnitKind} {act : State → State × Answer}
    {next : Answer → Prog} (h : Units (UnitOf b i) f (.unit k act next)) {s : State} (he : enabled k s = true)
    (hheld : f = true → s.lock = .held s.cur) :
    ∃ g, (∀ a, Units (UnitOf b i) g (next a)) ∧ (g = true → (act s).1.lock = .held s.cur) ∧
      lockOutside g (act s).1 = lockOutside f s ∧ (act s).1.faults = s.faults := by
  cases h with
  | loc hu hn =>
    obtain ⟨hlock, hfaults, -⟩ := hu.localFrame s
    exact ⟨false, hn, by simp, hlock, hfaults⟩
  | entry hu hn =>
    obtain ⟨hlock, hfaults, -⟩ := hu.entryFrame s
    exact ⟨false, hn, by simp, hlock, hfaults⟩
  | acq hu hn =>
    have hfree : s.lock = .free := by simpa [enabled] using he
    cases hu with
    | acquire x =>
      rw [acquire_state]
      exact ⟨true, hn, fun _ => rfl, hfree.symm, rfl⟩
  | ex1 hu hn =>
    cases hu with
    | exchange1 x frame => exact ⟨true, hn, by simp [exchange, hheld], rfl, by simp [exchange, checkLock, hheld]⟩
  | ex2 hu hn =>
    cases hu with
    | exchange2 x htwo => exact ⟨true, hn, by simp [exchange, hheld], rfl, by simp [exchange, checkLock, hheld]⟩
  | fin hu hn =>
    cases hu with
    | finish x m d e1 e2 =>
      obtain ⟨hlock, hfaults, -⟩ := finish_frame b x m d e1 e2 s
      exact ⟨false, hn, by simp, hlock, hfaults⟩

/-! ### An operation run on -/

/-- Running on, an operation leaves the lock as it is outside the attempt it begins in, and records nothing. -/
theorem drive_lock_faults {b : Binding} {i : Instr} {f : Bool} {p : Prog} (h : Units (UnitOf b i) f p) (s : State)
    (hheld : f = true → s.lock = .held s.cur) :
    (drive p s).lock = lockOutside f s ∧ (drive p s).faults = s.faults := by
  induction p generalizing s f with
  | ret r =>
    cases h
    exact ⟨rfl, rfl⟩
  | unit k act next ih =>
    by_cases he : enabled k s = true
    · obtain ⟨g, hn, hheld', hlock, hfaults⟩ := unit_lock h he hheld
      have hcur : (act s).1.cur = s.cur := ((units_next h).1.frame s).2.1
      obtain ⟨hl, hf⟩ := ih (act s).2 (hn _) (note (act s).2 (act s).1) (by simpa [hcur] using hheld')
      simp only [drive, he, if_true, hl, hf, note_faults, hfaults, and_true]
      simpa [lockOutside] using hlock
    · have hk : k = .acq := by
        by_contra hne
        exact he (enabled_of_ne hne s)
      have hf : f = false := by
        subst hk
        cases h
        rfl
      subst hf
      simp only [drive, he]
      exact ⟨rfl, rfl⟩

/-- An instruction run whole leaves the lock as it is, and records what its start records and nothing else. -/
theorem exec_lock_faults {i : Instr} {s t : State} (h : exec i s = .next t) :
    t.lock = s.lock ∧ (legal i = true → t.faults = (recordRace i s).faults) ∧ (legal i = false → t.faults = s.faults) := by
  rw [exec_eq] at h
  cases h
  cases hl : legal i with
  | false =>
    rw [runOp_illegal _ hl]
    exact ⟨rfl, by simp, fun _ => rfl⟩
  | true =>
    rw [runOp_legal _ hl]
    obtain ⟨hlock, hfaults⟩ := drive_lock_faults (units_programOf s.cfg i) (beginOp i s) (by simp)
    exact ⟨hlock.trans (beginOp_lock i s), fun _ => hfaults, by simp⟩

/-- Settles O44: an operation begins outside any attempt, so the lock outside it is the lock before it. -/
theorem execLeavesLock : Obligations.ExecLeavesLock :=
  fun _ _ _ h => (exec_lock_faults h).1

/-! ### Model faults (R266, R317) -/

/-- Settles O45: only the start of a legal operation records anything, and that is its race. -/
theorem hostRaceRecorded : Obligations.HostRaceRecorded := by
  intro i s t h
  obtain ⟨-, hstarted, hrefused⟩ := exec_lock_faults h
  refine ⟨fun hlegal j seen hbusy => ?busy, fun hidle => ?idle, fun hillegal => ?illegal⟩
  case busy =>
    have hfaults := hstarted ((legal_iff_fieldsLegal i).mpr hlegal)
    refine ⟨fun hshare => ?_, fun hshare hticks => ?_, fun hshare hticks => ?_⟩
    · simp [hfaults, recordRace, raceWith, hbusy, hshare]
    · simp [hfaults, recordRace, raceWith, hbusy, hshare, hticks.1, hticks.2]
    · have hno : (isTick i && isTick j) = false := by simpa using hticks
      simp [hfaults, recordRace, raceWith, hbusy, hshare, hno]
  case idle =>
    have hnone : recordRace i s = s := by simp only [recordRace, raceWith, hidle]
    rw [hnone] at hstarted
    cases hl : legal i with
    | false => exact hrefused hl
    | true => exact hstarted hl
  case illegal => exact hrefused (Bool.eq_false_iff.mpr (mt (legal_iff_fieldsLegal i).mp hillegal))

/-! ### The lock invariant -/

/-- Whether a context is inside an attempt is told by its position. -/
theorem insideBus_busy {c : Ctx} {s : State} {i : Instr} {seen : List Answer} {f : Bool} (hop : s.op[c] = .busy i seen)
    (h : Units (UnitOf s.cfg i) f ((programOf s.cfg i).after seen)) : insideBus c s = f := by
  simp only [insideBus, atUnit, remaining_busy hop]
  generalize (programOf s.cfg i).after seen = p at h
  cases h <;> rfl

theorem insideBus_idle {c : Ctx} {s : State} (hop : s.op[c] = .idle) : insideBus c s = false := by
  simp only [insideBus, atUnit, remaining_idle hop]

theorem insideBus_congr {c : Ctx} {s t : State} (hcfg : t.cfg = s.cfg) (hop : t.op[c] = s.op[c]) :
    insideBus c t = insideBus c s := by
  simp only [insideBus, atUnit, remaining_congr hcfg hop]

/-- The invariant speaks of the lock and of the positions alone. -/
theorem LockInv.congr {s t : State} (h : LockInv s) (hlock : t.lock = s.lock) (hcfg : t.cfg = s.cfg) (hop : t.op = s.op) :
    LockInv t := by
  intro c
  rw [hlock, insideBus_congr hcfg (by rw [hop])]
  exact h c

/-- The context inside an attempt is not another one. -/
theorem lockOutside_held_iff {f : Bool} {s : State} {c d : Ctx} (hne : d ≠ c) (hheld : f = true → s.lock = .held c) :
    lockOutside f s = .held d ↔ s.lock = .held d := by
  cases f with
  | false => rfl
  | true => simp [lockOutside, hheld rfl, Ne.symm hne]

/-- A move of the running context keeps the invariant when it keeps the lock outside its attempts, and the context holds the
lock if it ends inside one. -/
theorem LockInv.move {s t : State} (h : LockInv s) (hcfg : t.cfg = s.cfg) (hother : ∀ d, d ≠ s.cur → t.op[d] = s.op[d])
    (hheld : insideBus s.cur t = true → t.lock = .held s.cur)
    (hlock : lockOutside (insideBus s.cur t) t = lockOutside (insideBus s.cur s) s) : LockInv t := by
  have hself := h s.cur
  intro d
  by_cases hd : d = s.cur
  · subst hd
    refine ⟨fun hl => ?_, hheld⟩
    by_contra hout
    cases hin : insideBus s.cur s <;> simp_all [lockOutside]
  · rw [insideBus_congr hcfg (hother d hd), ← h d]
    rw [← lockOutside_held_iff hd hheld, hlock, lockOutside_held_iff hd hself.mpr]

/-- From an idle context to an idle one, or to the start of an operation: the lock is not looked at. -/
theorem LockInv.move_outside {s t : State} (h : LockInv s) (hcfg : t.cfg = s.cfg) (hlock : t.lock = s.lock)
    (hother : ∀ d, d ≠ s.cur → t.op[d] = s.op[d]) (hbefore : insideBus s.cur s = false)
    (hafter : insideBus s.cur t = false) : LockInv t :=
  h.move hcfg hother (by simp [hafter]) (by simp [hbefore, hafter, lockOutside, hlock])

theorem LockInv.complete {s : State} (h : LockInv s) (hout : insideBus s.cur s = false) (r : Result) :
    LockInv (complete r s) :=
  h.move_outside rfl rfl (fun d hd => set_other _ _ _ _ hd) hout (insideBus_idle (by simp))

theorem LockInv.begin {s : State} (h : LockInv s) (hidle : s.op[s.cur] = .idle) (i : Instr) : LockInv (beginOp i s) := by
  have hafter : insideBus s.cur (beginOp i s) = false :=
    insideBus_busy (i := i) (seen := []) (by simp) (units_programOf (beginOp i s).cfg i)
  refine h.move_outside (beginOp_cfg i s) (beginOp_lock i s) (fun d hd => ?_) (insideBus_idle hidle) hafter
  rw [beginOp_op, set_other _ _ _ _ hd]

/-- Run on, an operation ends, or waits before an ACQ: outside any attempt. -/
theorem LockInv.drive {s : State} (h : LockInv s) {i : Instr} {seen : List Answer} (hop : s.op[s.cur] = .busy i seen) :
    LockInv (drive ((programOf s.cfg i).after seen) s) := by
  obtain ⟨f, hunits⟩ := units_after (units_programOf s.cfg i) seen
  have hinside : insideBus s.cur s = f := insideBus_busy hop hunits
  obtain ⟨hlock, -⟩ := drive_lock_faults hunits s fun hf => (h s.cur).mpr (hinside.trans hf)
  obtain ⟨hcfg, hstands⟩ := stands_drive s.cur hunits s seen rfl rfl hop rfl
  have hafter : insideBus s.cur (Machine.drive ((programOf s.cfg i).after seen) s) = false := by
    obtain hidle | ⟨seen', act, next, hbusy, hacq⟩ := hstands
    · exact insideBus_idle (by simp [hidle])
    · obtain ⟨g, hunits'⟩ := units_after (units_programOf s.cfg i) seen'
      have hg : g = false := by
        rw [hacq] at hunits'
        cases hunits'
        rfl
      subst hg
      refine insideBus_busy (i := i) (seen := seen') (by simp [hbusy]) ?_
      rw [hcfg]
      exact hunits'
  refine h.move hcfg (fun d hd => ?_) (by simp [hafter]) (by simp [hafter, hinside, lockOutside, hlock])
  obtain hop' | ⟨_, _, _, hop', -⟩ := hstands <;> rw [hop', set_other _ _ _ _ hd]

/-- The actions of a local unit leave the lock alone. -/
theorem runLocal_lock {b : Binding} {i : Instr} {f : Bool} {p : Prog} (h : Units (UnitOf b i) f p) (s : State) :
    (runLocal p s).lock = s.lock := by
  induction p generalizing s f with
  | ret r => rfl
  | unit k act next ih =>
    by_cases hk : k = .loc
    · subst hk
      obtain ⟨hunit, hnext⟩ := units_next h
      obtain ⟨g, hg⟩ := hnext (act s).2
      have hlock := ih (act s).2 hg (note (act s).2 (act s).1)
      simp only [runLocal, if_true, hlock, note_lock]
      exact (hunit.localFrame s).1
    · simp only [runLocal, hk, if_false]

/-- One atomic unit: a local one begins and ends outside any attempt, any other is one action. -/
theorem LockInv.unit {s : State} (h : LockInv s) {i : Instr} {seen : List Answer} (hop : s.op[s.cur] = .busy i seen) :
    LockInv (unitStep s) := by
  rw [unitStep_busy hop]
  obtain ⟨f, hunits⟩ := units_after (units_programOf s.cfg i) seen
  have hinside : insideBus s.cur s = f := insideBus_busy hop hunits
  have hplace := place_after s.cfg i seen
  generalize hp : (programOf s.cfg i).after seen = p at hunits hplace
  cases p with
  | ret r =>
    cases hunits
    exact h.complete hinside r
  | unit k act next =>
    by_cases hk : k = .loc
    · subst hk
      have hout : f = false := by
        cases hunits
        rfl
      obtain ⟨_, hshape⟩ := hplace.shape rfl
      obtain ⟨-, hcfg, hstands⟩ := stands_runLocal s.cur hshape s seen rfl rfl hop hp
      have hafter : insideBus s.cur (runLocal (.unit .loc act next) s) = false := by
        obtain hidle | ⟨seen', k', act', next', _, hbusy, hp', -, hshape'⟩ := hstands
        · exact insideBus_idle (by simp [hidle])
        · refine insideBus_busy (i := i) (seen := seen') (by simp [hbusy]) ?_
          rw [hcfg, hp']
          exact hshape'.units
      refine h.move_outside hcfg (runLocal_lock hunits s) (fun d hd => ?_) (hinside.trans hout) hafter
      show (runLocal (.unit .loc act next) s).op[d] = s.op[d]
      obtain hop' | ⟨_, _, _, _, _, hop', -⟩ := hstands <;> rw [hop', set_other _ _ _ _ hd]
    · by_cases he : enabled k s = true
      · obtain ⟨hop', hp', hcfg', hcur'⟩ := stands_note (units_next hunits).1 hop hp
        obtain ⟨g, hn, hheld, hlock, -⟩ := unit_lock hunits he fun hf => (h s.cur).mpr (hinside.trans hf)
        have hinside' : insideBus s.cur (note (act s).2 (act s).1) = g := by
          refine insideBus_busy (i := i) (seen := seen ++ [(act s).2]) (by simp [hop']) ?_
          rw [hcfg', hp']
          exact hn _
        have hnoted : LockInv (note (act s).2 (act s).1) := by
          refine h.move hcfg' (fun d hd => by rw [hop', set_other _ _ _ _ hd]) ?_ ?_
          · simpa [hinside'] using hheld
          · rw [hinside', hinside, ← hlock]
            simp [lockOutside]
        simp only [takeUnit, hk, he, if_true, if_false]
        have hnext := hn (act s).2
        generalize next (act s).2 = q at hnext
        cases q with
        | ret r =>
          cases hnext
          exact hnoted.complete (hcur'.symm ▸ hinside') r
        | unit k' act' next' => exact hnoted
      · simp only [takeUnit, hk, he, if_false]
        exact h

/-- Every run keeps the invariant. -/
theorem runKeeps_lockInv : RunKeeps fun s t => LockInv s → LockInv t where
  refl _ h := h
  trans h g hs := g (h hs)
  req _ _ h := h.congr rfl rfl rfl
  busReq _ _ h := h.congr rfl rfl rfl
  complete r _ hidle h := h.complete (insideBus_idle hidle) r
  begin i _ hidle h := h.begin hidle i
  drive _ _ _ hop h := h.drive hop
  unit _ _ _ hop h := h.unit hop

/-- Settles O53: drawing a turn and naming the running context leave lock and positions alone, and the rest of a step is a
run (`runKeeps_lockInv`). -/
theorem lockInvariantKept : Obligations.LockInvariantKept := by
  intro s t h hstep
  obtain rfl | hrun | hrun := runKeeps_lockInv.step hstep
  · exact h
  · exact hrun (h.congr rfl rfl rfl)
  · exact hrun (h.congr rfl rfl rfl)

/-- Settles O54: at reset the lock is free and no operation is in flight. -/
theorem lockInvariantAtReset : Obligations.LockInvariantAtReset := by
  intro c
  have hfree : State.reset.lock = .free := rfl
  have hidle : State.reset.op[c] = .idle := by rw [reset_eq_resetWith]; exact resetWith_op _ c
  simp [hfree, insideBus_idle hidle]

end Sys2Proof.Machine
end

section
/-! The forced states of locked channels (10_state.md R52; 43_protection.md R181 to R186). Every action but the two lockout passes
leaves the lock bits alone and a forced channel forced (`KeepsForced`), and a local unit holds at most one pass, so between
the start and the end of a unit the lock bits change in that pass alone. -/

namespace Sys2Proof.Machine

/-! ### One bank -/

/-- The lock bits of the bank stay, and so does the forced state of each of its channels. -/
def BankKeepsForced (o o' : OutBank) : Prop :=
  o'.ovLock = o.ovLock ∧ o'.thLock = o.thLock ∧ ∀ c, channelForced o c → channelForced o' c

/-- Only four words of a bank matter. -/
theorem BankKeepsForced.of_words {o o' : OutBank} (hov : o'.ovLock = o.ovLock) (hth : o'.thLock = o.thLock)
    (hcmd : o'.cmd = o.cmd) (hpp : o'.pp = o.pp) : BankKeepsForced o o' :=
  ⟨hov, hth, fun c h => by simpa only [channelForced, hov, hth, hcmd, hpp] using h⟩

/-- A commanded bit may be written where no lock forces another level. -/
theorem BankKeepsForced.write_cmd {o : OutBank} {c : Chan} {v : Bool} (hov : bit o.ovLock c = true → v = true)
    (hth : bit o.thLock c = true → v = false) : BankKeepsForced o { o with cmd := setBit o.cmd c v } := by
  refine ⟨rfl, rfl, fun d h => ?_⟩
  by_cases hcd : c = d
  · subst hcd
    obtain ⟨-, hpp⟩ := h
    exact ⟨fun hl => by simp [bit_setBit, hov hl], fun hl => ⟨(hpp hl).1, by simp [bit_setBit, hth hl]⟩⟩
  · simpa [channelForced, bit_setBit, hcd] using h

/-! ### The state -/

/-- The lock bits stay, and so does the forced state of each channel. -/
def KeepsForced (s t : State) : Prop := ∀ k : Bank, BankKeepsForced s.ob[k] t.ob[k]

theorem KeepsForced.refl (s : State) : KeepsForced s s := fun _ => .of_words rfl rfl rfl rfl

theorem KeepsForced.of_ob {s t : State} (h : t.ob = s.ob) : KeepsForced s t := by
  intro k
  rw [h]
  exact .of_words rfl rfl rfl rfl

theorem KeepsForced.trans {s t u : State} (h : KeepsForced s t) (g : KeepsForced t u) : KeepsForced s u := by
  intro k
  obtain ⟨hov, hth, hforced⟩ := h k
  obtain ⟨gov, gth, gforced⟩ := g k
  exact ⟨gov.trans hov, gth.trans hth, fun c hc => gforced c (hforced c hc)⟩

theorem KeepsForced.modOb {k : Bank} {f : OutBank → OutBank} {s : State} (h : BankKeepsForced s.ob[k] (f s.ob[k])) :
    KeepsForced s (modOb k f s) := by
  intro j
  rw [modOb_get]
  split_ifs with hkj
  · subst hkj
    exact h
  · exact .of_words rfl rfl rfl rfl

theorem KeepsForced.forced {s t : State} (h : KeepsForced s t) (hs : ChannelsForced s) : ChannelsForced t :=
  fun k c => (h k).2.2 c (hs k c)

theorem KeepsForced.noDoubleLock_iff {s t : State} (h : KeepsForced s t) : NoDoubleLock t ↔ NoDoubleLock s := by
  simp only [NoDoubleLock, fun k => (h k).1, fun k => (h k).2.1]

/-! ### Actions that are no lockout pass -/

theorem keepsForced_setErr (x : Xact) (s : State) : KeepsForced s (setErr x s) := by
  cases x with
  | inRead | inWrite => exact .of_ob rfl
  | outRead | outWrite | rtstat => exact .modOb (.of_words rfl rfl rfl rfl)

theorem keepsForced_setIntent (p : Pin) (v : Bool) (s : State) : KeepsForced s (setIntent p v s) :=
  .modOb (.of_words rfl rfl rfl rfl)

theorem keepsForced_setCmd {p : Pin} {v : Bool} {s : State} (hov : ovLocked p s = true → v = true)
    (hth : thLocked p s = true → v = false) : KeepsForced s (setCmd p v s) :=
  .modOb (.write_cmd hov hth)

/-- The intent is no lock. -/
theorem locked_setIntent (p : Pin) (v : Bool) (s : State) :
    ovLocked p (setIntent p v s) = ovLocked p s ∧ thLocked p (setIntent p v s) = thLocked p s := by
  simp [ovLocked, thLocked, setIntent]

/-- The gates of a write (R183, R186): under a lock the commanded bit is left alone. -/
theorem keepsForced_writeLocal (p : Pin) (v : Bool) (s : State) : KeepsForced s (writeLocal p v s).1 := by
  obtain ⟨eov, eth⟩ := locked_setIntent p v s
  unfold writeLocal
  split_ifs with hout hlocked hlow hhigh
  · exact .refl s
  · exact .refl s
  · exact keepsForced_setIntent p v s
  · obtain ⟨hov, hth⟩ : ovLocked p s = false ∧ thLocked p s = false := by simpa using hlocked
    exact (keepsForced_setIntent p v s).trans (keepsForced_setCmd (by simp [eov, hov]) (by simp [eth, hth]))
  · exact .refl s

theorem keepsForced_linkAction (lm : LinkMode) (q : Pin) (lv : Bool) (s : State) :
    KeepsForced s (linkAction lm q lv s).1 := by
  have htoggle : KeepsForced s (toggleLocal q s).1 := keepsForced_writeLocal q _ s
  cases lm with
  | none => exact .refl s
  | follow => exact keepsForced_writeLocal q lv s
  | invert => exact keepsForced_writeLocal q (!lv) s
  | flipAny => exact htoggle
  | flipRise => cases lv; exacts [.refl s, htoggle]
  | flipFall => cases lv; exacts [htoggle, .refl s]

/-- S1 of CONFIG (R250) clears the commanded bit only where over-voltage does not hold it. -/
theorem keepsForced_configS1 (p : Pin) (s : State) : KeepsForced s (configS1 p s) := by
  unfold configS1
  simp only
  split_ifs with hov
  · exact keepsForced_setIntent p false s
  · exact (keepsForced_setIntent p false s).trans (keepsForced_setCmd (fun h => absurd h hov) fun _ => rfl)

/-- S2 of CONFIG (R250) leaves the push-pull bit of a thermally locked channel alone. -/
theorem keepsForced_configS2 (p : Pin) (md : PinMode) (s : State) : KeepsForced s (configS2 p md s) := by
  refine .modOb ⟨rfl, rfl, fun c h => ⟨h.1, fun hth => ?_⟩⟩
  obtain ⟨hpp, hcmd⟩ := h.2 hth
  refine ⟨?_, hcmd⟩
  by_cases hc : outChan p = c
  · subst hc
    simpa only [hth, if_true] using hpp
  · by_cases hth' : bit s.ob[outBank p].thLock (outChan p) = true
    · simpa only [hth', if_true] using hpp
    · simp only [hth', Bool.false_eq_true, if_false, bit_setBit, hc]
      exact hpp

theorem sample_ob (k : SubIx) (s : State) : (sample k s).2.ob = s.ob := by
  unfold sample
  split <;> rfl

/-- Every local action but the lockout passes. -/
theorem LocalOf.keepsForced {b : Binding} {i : Instr} {act : State → State × Answer} (h : LocalOf b i act) (s : State) :
    KeepsForced s (act s).1 := by
  cases h with
  | setErr x => exact keepsForced_setErr x s
  | bankErr k | setovp k en | openLoad k v => exact .modOb (.of_words rfl rfl rfl rfl)
  | write p v => exact keepsForced_writeLocal p v s
  | toggle p => exact keepsForced_writeLocal p _ s
  | dread k =>
    refine .of_ob ?_
    unfold dreadUnit
    simp only
    split <;> exact sample_ob k s
  | clearfaults =>
    have h0 : KeepsForced s (modOb 0 (fun o => { o with clrPending := true }) s) := .modOb (.of_words rfl rfl rfl rfl)
    exact h0.trans (.modOb (.of_words rfl rfl rfl rfl))
  | clearOut w p hw => cases w <;> exact .modOb (.of_words rfl rfl rfl rfl)
  | configFirst p md det =>
    unfold Machine.configFirst
    split
    · exact .refl s
    · split_ifs
      · exact keepsForced_configS1 p s
      · exact keepsForced_configS2 p md s
  | configS2 p md => exact keepsForced_configS2 p md s
  | configS3 p md det => exact .modOb (.of_words rfl rfl rfl rfl)
  | joinFirst p en =>
    unfold Machine.joinFirst
    split_ifs
    · exact .refl s
    · exact .modOb (.of_words rfl rfl rfl rfl)
  | subscribe k iv cb =>
    refine .of_ob ?_
    unfold subscribeUnit
    simp only
    split_ifs
    · rfl
    · split
      · rfl
      · exact sample_ob k _
  | link p q lm iv =>
    refine .of_ob ?_
    unfold linkUnit
    simp only
    split_ifs <;> rfl
  | pwm p f d =>
    unfold pwmUnit
    split_ifs
    · exact keepsForced_writeLocal p false (setPwm p _ s)
    · exact .refl s
    · exact .of_ob rfl
    · exact .refl s
  | thermalCmd k before =>
    unfold thCmdChanged
    split_ifs <;> exact .refl s
  | gate now =>
    unfold schedGate
    split_ifs <;> exact .of_ob rfl
  | linkEntry now p q =>
    unfold Machine.linkEntry
    simp only
    split_ifs
    · exact .refl s
    · split
      · exact .refl s
      · split_ifs
        · exact keepsForced_linkAction _ q _ (setLink p q _ s)
        · exact .of_ob rfl
  | pwmEntry now p =>
    unfold Machine.pwmEntry
    split
    · exact .refl s
    · simp only
      split <;> exact keepsForced_writeLocal p _ s
  | _ => exact .of_ob rfl

theorem keepsForced_attemptUpdate (b : Binding) (x : Xact) (marker : Bool) (e : Frame) (s : State) :
    KeepsForced s (attemptUpdate b x marker e s) := by
  cases x with
  | inRead | inWrite => exact .of_ob rfl
  | outRead | outWrite | rtstat => exact .modOb (.of_words rfl rfl rfl rfl)

/-- The units of an attempt and the entries of the subscription pass. -/
theorem UnitOf.keepsForced {b : Binding} {i : Instr} {k : UnitKind} {act : State → State × Answer} (h : UnitOf b i k act)
    (hk : k ≠ .loc) (s : State) : KeepsForced s (act s).1 := by
  cases h with
  | acquire x => rw [acquire_state]; exact .of_ob rfl
  | exchange1 x f | exchange2 x f => exact .of_ob (by simp [exchange])
  | finish x m d e1 e2 =>
    unfold Machine.finish
    split_ifs
    · exact (keepsForced_attemptUpdate b x m e1 s).trans (.of_ob rfl)
    · exact .of_ob rfl
  | subEntry now k =>
    refine .of_ob ?_
    unfold Machine.subEntry
    simp only
    split_ifs
    · rfl
    · split
      · exact sample_ob k s
      · split_ifs <;> exact sample_ob k s
  | action | pass => exact absurd rfl hk

/-! ### The lockout passes -/

/-- The forced state of a channel (R52), on the channel's own bits. -/
def ChanState.Forced (x : ChanState) : Prop :=
  (x.ovLock = true → x.cmd = true) ∧ (x.thLock = true → x.pp = false ∧ x.cmd = false)

/-- Both locks at once (I9), on the channel's own bits. -/
def ChanState.DoubleLocked (x : ChanState) : Prop := x.ovLock = true ∧ x.thLock = true

theorem channelForced_iff (o : OutBank) (c : Chan) : channelForced o c ↔ (chan o c).Forced := Iff.rfl

theorem noDoubleLock_iff (s : State) : NoDoubleLock s ↔ ∀ (k : Bank) (c : Chan), ¬(chan s.ob[k] c).DoubleLocked := Iff.rfl

/-- R181 forces the channel it locks, and a channel it releases holds no other lock. -/
theorem forced_ov (now : U32) (x : ChanState) (hforced : x.Forced) (hbefore : ¬x.DoubleLocked)
    (hafter : ¬(x.ov now).DoubleLocked) : (x.ov now).Forced := by
  unfold ChanState.ov at hafter ⊢
  split_ifs at hafter ⊢ with hengage hrelease
  · simp_all [ChanState.Forced, ChanState.DoubleLocked]
  · simp_all [ChanState.Forced, ChanState.DoubleLocked]
  · exact hforced

/-- R184 forces the channel it locks, and a channel it releases holds no other lock. -/
theorem forced_th (now : U32) (x : ChanState) (hforced : x.Forced) (hbefore : ¬x.DoubleLocked)
    (hafter : ¬(x.th now).DoubleLocked) : (x.th now).Forced := by
  unfold ChanState.th at hafter ⊢
  split_ifs at hafter ⊢ with hengage hrelease
  · simp_all [ChanState.Forced, ChanState.DoubleLocked]
  · simp_all [ChanState.Forced, ChanState.DoubleLocked]
  · exact hforced

/-- A pass over a bank that treats each channel by itself. -/
theorem forced_pass {k : Bank} {f : OutBank → OutBank} {g : ChanState → ChanState}
    (hf : ∀ o c, chan (f o) c = g (chan o c))
    (hg : ∀ x : ChanState, x.Forced → ¬x.DoubleLocked → ¬(g x).DoubleLocked → (g x).Forced) {s : State}
    (hforced : ChannelsForced s) (hbefore : NoDoubleLock s) (hafter : NoDoubleLock (modOb k f s)) :
    ChannelsForced (modOb k f s) := by
  rw [noDoubleLock_iff] at hbefore hafter
  intro j c
  have hj := hafter j c
  rw [channelForced_iff]
  rw [modOb_get] at hj ⊢
  split_ifs at hj ⊢ with hkj
  · rw [hf] at hj ⊢
    exact hg _ (hforced k c) (hbefore k c) hj
  · exact hforced j c

/-- The raw word a pass looks at is neither a lock nor a level. -/
theorem keepsForced_store (k : Bank) (r : Option Byte) (s : State) :
    KeepsForced s (storeOv k r s) ∧ KeepsForced s (storeTh k r s) := by
  cases r with
  | none => exact ⟨.refl s, .refl s⟩
  | some v => exact ⟨.modOb (.of_words rfl rfl rfl rfl), .modOb (.of_words rfl rfl rfl rfl)⟩

theorem PassOf.forced {act : State → State × Answer} (h : PassOf act) {s : State} (hforced : ChannelsForced s)
    (hbefore : NoDoubleLock s) (hafter : NoDoubleLock (act s).1) : ChannelsForced (act s).1 := by
  cases h with
  | overVoltage k now r =>
    have hstore := (keepsForced_store k r s).1
    unfold phase2Unit ovPass at hafter ⊢
    simp only at hafter ⊢
    split_ifs at hafter ⊢
    · exact forced_pass (chan_ovSteps now) (forced_ov now) (hstore.forced hforced) (hstore.noDoubleLock_iff.mpr hbefore) hafter
    · exact forced_pass (chan_ovSteps now) (forced_ov now) (hstore.forced hforced) (hstore.noDoubleLock_iff.mpr hbefore) hafter
    · exact hstore.forced hforced
  | thermal k now r =>
    have hstore := (keepsForced_store k r s).2
    exact forced_pass (chan_thSteps now) (forced_th now) (hstore.forced hforced) (hstore.noDoubleLock_iff.mpr hbefore) hafter

/-! ### A local unit -/

theorem keepsForced_note (a : Answer) (s : State) : KeepsForced s (note a s) := .of_ob (note_ob a s)

theorem keepsForced_complete (r : Result) (s : State) : KeepsForced s (complete r s) := .of_ob rfl

/-- A local unit with no lockout pass in it. -/
theorem keepsForced_runLocal {b : Binding} {i : Instr} {p : Prog} (h : Shape b i false p) (s : State) :
    KeepsForced s (runLocal p s) := by
  induction p generalizing s with
  | ret r => exact keepsForced_complete r s
  | unit k act next ih =>
    by_cases hk : k = .loc
    · subst hk
      simp only [runLocal, if_true]
      cases h with
      | loc hact hnext => exact (hact.keepsForced s).trans ((keepsForced_note _ _).trans (ih _ (hnext _) _))
    · simp only [runLocal, hk, if_false]
      exact .refl s

/-- A local unit, with its one lockout pass if it has one. -/
theorem forced_runLocal {b : Binding} {i : Instr} {f : Bool} {p : Prog} (h : Shape b i f p) {s : State}
    (hforced : ChannelsForced s) (hbefore : NoDoubleLock s) (hafter : NoDoubleLock (runLocal p s)) :
    ChannelsForced (runLocal p s) := by
  induction p generalizing s f with
  | ret r => exact (keepsForced_complete r s).forced hforced
  | unit k act next ih =>
    by_cases hk : k = .loc
    · subst hk
      simp only [runLocal, if_true] at hafter ⊢
      have hnote := keepsForced_note (act s).2 (act s).1
      cases h with
      | loc hact hnext =>
        have hkeep := (hact.keepsForced s).trans hnote
        exact ih _ (hnext _) (hkeep.forced hforced) (hkeep.noDoubleLock_iff.mpr hbefore) hafter
      | pass hact hnext =>
        have hkeep := hnote.trans (keepsForced_runLocal (hnext (act s).2) (note (act s).2 (act s).1))
        exact hkeep.forced (hact.forced hforced hbefore (hkeep.noDoubleLock_iff.mp hafter))
    · simp only [runLocal, hk, if_false]
      exact hforced

/-- Settles O55: a local unit holds at most one lockout pass, after which its lock bits stay to the end of the unit; every
other unit leaves the lock bits alone. -/
theorem forcedStatesKept : Obligations.ForcedStatesKept := by
  intro s hforced hbefore hafter
  cases hop : s.op[s.cur] with
  | idle =>
    rw [unitStep_idle hop]
    exact hforced
  | busy i seen =>
    obtain ⟨f, hunits⟩ := units_after (units_programOf s.cfg i) seen
    have hplace := place_after s.cfg i seen
    rw [unitStep_busy hop] at hafter ⊢
    generalize (programOf s.cfg i).after seen = p at hunits hplace hafter
    cases p with
    | ret r => exact (keepsForced_complete r s).forced hforced
    | unit k act next =>
      by_cases hk : k = .loc
      · subst hk
        obtain ⟨_, hshape⟩ := hplace.shape rfl
        exact forced_runLocal hshape hforced hbefore hafter
      · simp only [takeUnit, hk, if_false]
        split_ifs
        · have hkeep := ((units_next hunits).1.keepsForced hk s).trans (keepsForced_note (act s).2 (act s).1)
          cases next (act s).2 with
          | ret r => exact (hkeep.trans (keepsForced_complete r _)).forced hforced
          | unit => exact hkeep.forced hforced
        · exact hforced

/-- Settles O56: no lock bit is set at reset. -/
theorem forcedStatesAtReset : Obligations.ForcedStatesAtReset := by
  intro b
  have hunlocked (k : Bank) (c : Chan) :
      ¬bit (State.resetWith b).ob[k].ovLock c = true ∧ ¬bit (State.resetWith b).ob[k].thLock c = true := by
    rw [resetWith_ob]
    simp [OutBank.reset, bit]
  refine ⟨fun k c => ?forced, fun k c hboth => (hunlocked k c).1 hboth.1⟩
  case forced =>
    obtain ⟨hov, hth⟩ := hunlocked k c
    exact ⟨fun h => absurd h hov, fun h => absurd h hth⟩

end Sys2Proof.Machine
end

section
/-! The frames the block emits (30_encoding.md R81 to R86). Where an operation stands tells which frame its next exchange is of
(`Sending`): the one ACQ built, or the realtime-status frame. -/

namespace Sys2Proof.Machine

/-! ### Reserved bits (R81 to R84) -/

theorem emittedIn_reserved {f : Frame} (h : emittedIn f) : f.chk.extractLsb' 5 3 = 0#3 := by
  obtain ⟨w, a, d, rfl⟩ := h
  apply BitVec.eq_of_getLsbD_eq
  intro j hj
  simp [inFrame]

theorem emittedOut_reserved {b : Binding} {f : Frame} (h : emittedOut b f) : f.chk.getLsbD 7 = false := by
  obtain ⟨m, g, d, rfl⟩ | ⟨reg, rfl⟩ | rfl := h <;> simp [outFrame, rtFrame]

/-- Exchanges of frames the block may emit, of any length. -/
def EmitsAll (b : Binding) (s t : State) : Prop := ∃ new, t.bus = s.bus ++ new ∧ ∀ r ∈ new, emitted b r

/-- A frame the block may emit has its reserved bits zero. -/
theorem EmitsAll.emitsOnly {s t : State} (h : EmitsAll s.cfg s t) : EmitsOnly s t := by
  obtain ⟨new, hbus, hnew⟩ := h
  refine ⟨new, hbus, fun r hr => ⟨hnew r hr, fun hcs => ?input, fun hcs => ?output⟩⟩
  all_goals have hemitted := hnew r hr
  case input => rcases hcs with hcs | hcs <;> simp only [emitted, hcs] at hemitted <;> exact emittedIn_reserved hemitted
  case output => rcases hcs with hcs | hcs <;> simp only [emitted, hcs] at hemitted <;> exact emittedOut_reserved hemitted

theorem EmitsAll.of_bus {b : Binding} {s t : State} (h : t.bus = s.bus) : EmitsAll b s t := ⟨[], by simp [h], by simp⟩

theorem EmitsAll.trans {b : Binding} {s t u : State} (h : EmitsAll b s t) (g : EmitsAll b t u) : EmitsAll b s u := by
  obtain ⟨new, hbus, hnew⟩ := h
  obtain ⟨more, gbus, gmore⟩ := g
  refine ⟨new ++ more, by rw [gbus, hbus, List.append_assoc], fun r hr => ?_⟩
  exact (List.mem_append.mp hr).elim (hnew r) (gmore r)

/-- One exchange. -/
theorem EmitsAll.exchange {b : Binding} {cs : ChipSelect} {f : Frame} (h : ∀ e, emitted b { cs := cs, sent := f, echo := e })
    (s : State) : EmitsAll b s (exchange cs f s).1 := by
  refine ⟨[{ cs := cs, sent := f, echo := nextEcho s.env }], by simp [Machine.exchange], fun r hr => ?_⟩
  rw [List.mem_singleton.mp hr]
  exact h _

/-! ### Where an operation stands, with the frame it is about to send -/

/-- A place of an operation (`Place`) whose next exchange is of a frame the block may emit. -/
inductive Sending (b : Binding) (i : Instr) : Prog → Prop
  | outside {f p} (h : Shape b i f p) : Sending b i p
  | ex1 (x : Xact) (a : Answer) {next : Option Byte → Prog} (n : ∀ v, Shape b i true (next v))
      (h : ∀ e, emitted b { cs := x.cs, sent := a.frame, echo := e }) : Sending b i ((Machine.attempt b x next).follow a)
  | ex2 (x : Xact) (a e : Answer) {next : Option Byte → Prog} (n : ∀ v, Shape b i true (next v)) (h : x.twoPhase = true) :
      Sending b i (((Machine.attempt b x next).follow a).follow e)
  | fin (x : Xact) (m : Bool) (d : Byte) (e1 e2 : Frame) {next : Option Byte → Prog} (n : ∀ v, Shape b i true (next v)) :
      Sending b i (.unit .fin (finish b x m d e1 e2) fun o => next o.found)

/-- An action from such a place makes at most an exchange of such a frame, and leads to such a place. -/
theorem Sending.act {b : Binding} {i : Instr} {k : UnitKind} {act : State → State × Answer} {next : Answer → Prog}
    (h : Sending b i (.unit k act next)) (s : State) : EmitsAll b s (act s).1 ∧ Sending b i (next (act s).2) := by
  generalize e : Prog.unit k act next = p at h
  cases h with
  | outside h =>
    cases h with
    | ret r => cases e
    | loc hact hnext =>
      cases e
      exact ⟨.of_bus ((UnitOf.action hact).localFrame s).2.2, .outside (hnext _)⟩
    | pass hact hnext =>
      cases e
      exact ⟨.of_bus ((UnitOf.pass (b := b) (i := i) hact).localFrame s).2.2, .outside (hnext _)⟩
    | entry hact hnext =>
      cases e
      exact ⟨.of_bus (hact.entryFrame s).2.2, .outside (hnext _)⟩
    | attempt x hnext =>
      cases e
      refine ⟨.of_bus (by rw [acquire_state]; rfl), ?_⟩
      exact .ex1 x (acquire b x s).2 hnext (emitted_acquire b x s)
  | ex1 x a hnext hframe =>
    cases e
    refine ⟨.exchange hframe s, ?_⟩
    by_cases htwo : x.twoPhase = true
    · exact .ex2 x a _ hnext htwo
    · simp only [htwo, Bool.false_eq_true, if_false]
      exact .fin x _ _ _ _ hnext
  | ex2 x a e' hnext htwo =>
    simp only [Machine.attempt, Prog.follow, htwo, if_true] at e
    cases e
    exact ⟨.exchange (emitted_second b htwo) s, .fin x _ _ _ _ hnext⟩
  | fin x m d e1 e2 hnext =>
    cases e
    exact ⟨.of_bus (finish_frame b x m d e1 e2 s).2.2, .outside (hnext _)⟩

theorem Sending.drive {b : Binding} {i : Instr} {p : Prog} (h : Sending b i p) (s : State) : EmitsAll b s (drive p s) := by
  induction p generalizing s with
  | ret r => exact .of_bus rfl
  | unit k act next ih =>
    simp only [Machine.drive]
    split_ifs
    · obtain ⟨hemits, hnext⟩ := h.act s
      exact hemits.trans ((EmitsAll.of_bus (note_bus _ _)).trans (ih _ hnext _))
    · exact .of_bus rfl

theorem Sending.runLocal {b : Binding} {i : Instr} {p : Prog} (h : Sending b i p) (s : State) :
    EmitsAll b s (runLocal p s) := by
  induction p generalizing s with
  | ret r => exact .of_bus rfl
  | unit k act next ih =>
    simp only [Machine.runLocal]
    split_ifs
    · obtain ⟨hemits, hnext⟩ := h.act s
      exact hemits.trans ((EmitsAll.of_bus (note_bus _ _)).trans (ih _ hnext _))
    · exact .of_bus rfl

/-! ### `FramesReady` by places -/

/-- A context that is not about to send anything else. -/
def Ready (c : Ctx) (s : State) : Prop := ∀ i seen, s.op[c] = .busy i seen → Sending s.cfg i ((programOf s.cfg i).after seen)

theorem Ready.idle {c : Ctx} {s : State} (h : s.op[c] = .idle) : Ready c s := by
  intro i seen hop
  rw [h] at hop
  cases hop

theorem Ready.congr {c : Ctx} {s t : State} (h : Ready c s) (hcfg : t.cfg = s.cfg) (hop : t.op[c] = s.op[c]) : Ready c t := by
  unfold Ready
  rw [hcfg, hop]
  exact h

/-- A position whose next unit is an exchange sends what that unit appends to the record. -/
theorem ready_of_framesReady {s : State} (h : FramesReady s) (c : Ctx) : Ready c s := by
  intro i seen hop
  have hsend := h c
  simp only [SendsNext, remaining_busy hop] at hsend
  have hplace := place_after s.cfg i seen
  generalize (programOf s.cfg i).after seen = p at hplace hsend
  cases hplace with
  | outside hshape => exact .outside hshape
  | ex1 x a hnext =>
    refine .ex1 x a hnext fun e => ?_
    have hemitted := hsend { cs := x.cs, sent := a.frame, echo := nextEcho s.env } ⟨_, _, _, rfl, by simp [exchange]⟩
    exact hemitted
  | ex2 x a e hnext htwo => exact .ex2 x a e hnext htwo
  | fin x m d e1 e2 hnext => exact .fin x m d e1 e2 hnext

theorem framesReady_iff (s : State) : FramesReady s ↔ ∀ c, Ready c s := by
  refine ⟨ready_of_framesReady, fun h c r hsend => ?_⟩
  obtain ⟨k, act, next, hrem, hbus⟩ := hsend
  cases hop : s.op[c] with
  | idle =>
    rw [remaining_idle hop] at hrem
    cases hrem
  | busy i seen =>
    rw [remaining_busy hop, Option.some_inj] at hrem
    obtain ⟨⟨new, hnew, hemitted⟩, -⟩ := (hrem ▸ h c i seen hop).act s
    rw [hbus, List.append_cancel_left_eq] at hnew
    exact hemitted r (by simp [← hnew])

/-! ### Runs -/

/-- What a run does to the two parts of the statement, the binding being that of the run. -/
def FramesKept (s t : State) : Prop :=
  FramesReady s → t.cfg = s.cfg ∧ FramesReady t ∧ EmitsAll s.cfg s t

/-- A move of the running context that leaves it before a frame it may send, or before none. -/
theorem framesReady_move {s t : State} (h : FramesReady s) (hcfg : t.cfg = s.cfg) (hother : ∀ d, d ≠ s.cur → t.op[d] = s.op[d])
    (hself : Ready s.cur t) : FramesReady t := by
  rw [framesReady_iff] at h ⊢
  intro d
  by_cases hd : d = s.cur
  · subst hd
    exact hself
  · exact (h d).congr hcfg (hother d hd)

/-- A context that stands before a unit outside any attempt. -/
theorem ready_outside {c : Ctx} {s : State} {i : Instr} {seen : List Answer} {f : Bool} (hop : s.op[c] = .busy i seen)
    (h : Shape s.cfg i f ((programOf s.cfg i).after seen)) : Ready c s := by
  intro j seen' hop'
  rw [hop] at hop'
  cases hop'
  exact .outside h

theorem framesReady_congr {s t : State} (h : FramesReady s) (hcfg : t.cfg = s.cfg) (hop : t.op = s.op) : FramesReady t := by
  rw [framesReady_iff] at h ⊢
  exact fun c => (h c).congr hcfg (by rw [hop])

theorem framesKept_of_bus {s t : State} (hcfg : t.cfg = s.cfg) (hbus : t.bus = s.bus)
    (h : FramesReady s → FramesReady t) : FramesKept s t :=
  fun hs => ⟨hcfg, h hs, .of_bus hbus⟩

theorem framesKept_complete (r : Result) (s : State) : FramesKept s (complete r s) :=
  framesKept_of_bus rfl rfl fun h =>
    framesReady_move h rfl (fun d hd => set_other _ _ _ _ hd) (.idle (by simp))

theorem framesKept_begin (i : Instr) (s : State) : FramesKept s (beginOp i s) := by
  refine framesKept_of_bus (beginOp_cfg i s) (beginOp_bus i s) fun h => ?_
  refine framesReady_move h (beginOp_cfg i s) (fun d hd => by rw [beginOp_op, set_other _ _ _ _ hd]) ?_
  exact ready_outside (i := i) (seen := []) (by simp) (shape_programOf _ i)

/-- Run on, an operation ends, or waits before an ACQ. -/
theorem framesKept_drive (i : Instr) (seen : List Answer) (s : State) (hop : s.op[s.cur] = .busy i seen) :
    FramesKept s (drive ((programOf s.cfg i).after seen) s) := by
  intro h
  have hsending := ready_of_framesReady h s.cur i seen hop
  obtain ⟨_, hunits⟩ := units_after (units_programOf s.cfg i) seen
  obtain ⟨hcfg, hstands⟩ := stands_drive s.cur hunits s seen rfl rfl hop rfl
  refine ⟨hcfg, framesReady_move h hcfg (fun d hd => ?_) ?_, hsending.drive s⟩
  · obtain hop' | ⟨_, _, _, hop', -⟩ := hstands <;> rw [hop', set_other _ _ _ _ hd]
  · obtain hidle | ⟨seen', act, next, hbusy, hacq⟩ := hstands
    · exact .idle (by simp [hidle])
    · have hplace := place_after s.cfg i seen'
      rw [hacq] at hplace
      obtain ⟨f, hshape⟩ := hplace.shape rfl
      refine ready_outside (i := i) (seen := seen') (f := f) (by simp [hbusy]) ?_
      rw [hcfg, hacq]
      exact hshape

/-- One atomic unit: after a local one no exchange comes next, after any other what the action leads to (`Sending.act`). -/
theorem framesKept_unit (i : Instr) (seen : List Answer) (s : State) (hop : s.op[s.cur] = .busy i seen) :
    FramesKept s (unitStep s) := by
  intro h
  have hsending := ready_of_framesReady h s.cur i seen hop
  rw [unitStep_busy hop]
  obtain ⟨_, hunits⟩ := units_after (units_programOf s.cfg i) seen
  have hplace := place_after s.cfg i seen
  generalize hp : (programOf s.cfg i).after seen = p at hunits hplace hsending
  cases p with
  | ret r => exact framesKept_complete r s h
  | unit k act next =>
    by_cases hk : k = .loc
    · subst hk
      obtain ⟨_, hshape⟩ := hplace.shape rfl
      obtain ⟨-, hcfg, hstands⟩ := stands_runLocal s.cur hshape s seen rfl rfl hop hp
      refine ⟨hcfg, framesReady_move (t := runLocal _ s) h hcfg (fun d hd => ?_) ?_, hsending.runLocal s⟩
      · obtain hop' | ⟨_, _, _, _, _, hop', -⟩ := hstands <;> rw [hop', set_other _ _ _ _ hd]
      · obtain hidle | ⟨seen', k', act', next', f, hbusy, hp', -, hshape'⟩ := hstands
        · exact .idle (by simp [hidle])
        · refine ready_outside (i := i) (seen := seen') (f := f) (by simp [hbusy]) ?_
          rw [hcfg, hp']
          exact hshape'
    · by_cases he : enabled k s = true
      · simp only [takeUnit, hk, he, if_true, if_false]
        obtain ⟨hop', hp', hcfg', hcur'⟩ := stands_note (units_next hunits).1 hop hp
        obtain ⟨hemits, hnext⟩ := hsending.act s
        have hready : FramesReady (note (act s).2 (act s).1) := by
          refine framesReady_move h hcfg' (fun d hd => by rw [hop', set_other _ _ _ _ hd]) ?_
          intro j seen' hop''
          rw [hop', Fin.getElem_fin, Vector.getElem_set_self] at hop''
          cases hop''
          rw [hcfg', hp']
          exact hnext
        have hnoted : EmitsAll s.cfg s (note (act s).2 (act s).1) := hemits.trans (.of_bus (note_bus _ _))
        cases next (act s).2 with
        | ret r =>
          obtain ⟨hc, hr, -⟩ := framesKept_complete r _ hready
          exact ⟨hc.trans hcfg', hr, hnoted.trans (.of_bus rfl)⟩
        | unit k' act' next' => exact ⟨hcfg', hready, hnoted⟩
      · simp only [takeUnit, hk, he, if_false]
        exact ⟨rfl, h, .of_bus rfl⟩

theorem runKeeps_frames : RunKeeps FramesKept where
  refl _ h := ⟨rfl, h, .of_bus rfl⟩
  trans h g hs := by
    obtain ⟨hcfg, hready, hemits⟩ := h hs
    obtain ⟨gcfg, gready, gemits⟩ := g hready
    exact ⟨gcfg.trans hcfg, gready, hemits.trans (hcfg ▸ gemits)⟩
  req _ _ := framesKept_of_bus rfl rfl fun h => framesReady_congr h rfl rfl
  busReq _ _ := framesKept_of_bus rfl rfl fun h => framesReady_congr h rfl rfl
  complete r s _ := framesKept_complete r s
  begin i s _ := framesKept_begin i s
  drive := framesKept_drive
  unit := framesKept_unit

/-- Settles O57: an instruction run whole starts outside any attempt; a step is a run (`runKeeps_frames`), the turn and the
name of the running context touching no exchange; at reset no operation is in flight. -/
theorem framesEmitted : Obligations.FramesEmitted := by
  refine ⟨fun i s t h => ?exec, fun s t hs h => ?step, fun b => ?reset⟩
  case exec =>
    rw [exec_eq] at h
    cases h
    refine EmitsAll.emitsOnly ?_
    unfold runOp
    split_ifs
    · exact (EmitsAll.of_bus (beginOp_bus i s)).trans (Sending.drive (.outside (shape_programOf s.cfg i)) _)
    · exact .of_bus rfl
  case step =>
    have hmoved {u : State} (hcfg : u.cfg = s.cfg) (hop : u.op = s.op) (hbus : u.bus = s.bus) (hrun : FramesKept u t) :
        FramesReady t ∧ EmitsOnly s t := by
      obtain ⟨-, hready, hemits⟩ := hrun (framesReady_congr hs hcfg hop)
      exact ⟨hready, ((EmitsAll.of_bus hbus).trans (hcfg ▸ hemits)).emitsOnly⟩
    obtain rfl | hrun | hrun := runKeeps_frames.step h
    · exact ⟨hs, (EmitsAll.of_bus rfl).emitsOnly⟩
    · exact hmoved (u := withCur t.cur s) rfl rfl rfl hrun
    · exact hmoved (u := withCur t.cur (afterTurn s)) rfl rfl rfl hrun
  case reset => exact (framesReady_iff _).mpr fun c => .idle (resetWith_op b c)

end Sys2Proof.Machine
end

section
/-! The decoder and the encoder are inverse to each other (30_encoding.md R81 to R92). A word is put together from its fields and
taken apart into them without loss, and the command of an output frame tells its row, where the binding's commands differ. -/

namespace Sys2Proof

open Machine

/-! ### Host requests (R87, R91) -/

theorem mkHead_fields (h : U32) : mkHead (headOp h) (headA h) (headB h) (headC h) = h := by
  apply BitVec.eq_of_getLsbD_eq
  intro j hj
  rw [getLsbD_mkHead]
  split_ifs <;> simp [headOp, headA, headB, headC] <;> grind

/-- A head word put together is decoded by its row. -/
theorem decodeHost_mkHead (op a b c : Byte) (rest : List U32) :
    decodeHost (mkHead op a b c :: rest) = decodeRow op a b c rest := by
  simp only [decodeHost, headOp_mkHead, headA_mkHead, headB_mkHead, headC_mkHead]

theorem ok_of_noWords {i j : Instr} {rest : List U32} (h : noWords i rest = .ok (j, [])) : i = j ∧ rest = [] := by
  simpa [noWords] using h

theorem ok_of_oneWord {f : U32 → Instr} {j : Instr} {rest : List U32} (h : oneWord f rest = .ok (j, [])) :
    ∃ x, rest = [x] ∧ f x = j := by
  match rest with
  | [] => cases h
  | [x] =>
    cases h
    exact ⟨x, rfl, rfl⟩
  | x :: y :: rest => cases h

theorem ok_of_twoWords {f : U32 → U32 → Instr} {j : Instr} {rest : List U32} (h : twoWords f rest = .ok (j, [])) :
    ∃ x y, rest = [x, y] ∧ f x y = j := by
  match rest with
  | [] => cases h
  | [x] => cases h
  | [x, y] =>
    cases h
    exact ⟨x, y, rfl, rfl⟩
  | x :: y :: z :: rest => cases h

/-- A request that is decoded whole is what its instruction is encoded as: row by row, by the number of operand words. -/
theorem encode_of_decodeRow {b : Binding} {op x y z : Byte} {rest : List U32} {i : Instr}
    (h : decodeRow op x y z rest = .ok (i, [])) : encode b i = .host (mkHead op x y z :: rest) := by
  have hop {n : Nat} (hn : op.toNat = n) : op = BitVec.ofNat 8 n := by rw [← hn, BitVec.ofNat_toNat, BitVec.setWidth_eq]
  unfold decodeRow at h
  split at h
  case h_7 hn | h_9 hn =>
    obtain ⟨u, v, rfl, rfl⟩ := ok_of_twoWords h
    rw [hop hn]
    rfl
  case h_8 hn =>
    obtain ⟨u, rfl, rfl⟩ := ok_of_oneWord h
    rw [hop hn]
    rfl
  case h_23 => cases h
  all_goals
    rename_i hn
    obtain ⟨rfl, rfl⟩ := ok_of_noWords h
    rw [hop hn]
    rfl

/-! ### Frames of the input family (R81) -/

theorem getLsbD_boolBit (w : Bool) : (boolBit w).getLsbD 0 = w := by
  cases w <;> rfl

section
variable (w : Bool) (a : BitVec 7) (d : Byte) (crc : BitVec 5)

theorem inBits_write : (inBits w a d crc).getLsbD 23 = w := by
  rw [getLsbD_inBits]
  exact getLsbD_boolBit w

theorem inBits_reserved : (inBits w a d crc).extractLsb' 5 3 = 0#3 := by
  apply BitVec.eq_of_getLsbD_eq
  intro j hj
  rw [BitVec.getLsbD_extractLsb', getLsbD_inBits, if_neg (by omega), if_pos (by omega)]
  simp

theorem inBits_register : (inBits w a d crc).extractLsb' 16 7 = a := by
  apply BitVec.eq_of_getLsbD_eq
  intro j hj
  rw [BitVec.getLsbD_extractLsb', getLsbD_inBits, if_neg (by omega), if_neg (by omega), if_neg (by omega), if_pos (by omega)]
  simp [hj]

theorem inBits_data : (inBits w a d crc).extractLsb' 8 8 = d := by
  apply BitVec.eq_of_getLsbD_eq
  intro j hj
  rw [BitVec.getLsbD_extractLsb', getLsbD_inBits, if_neg (by omega), if_neg (by omega), if_pos (by omega)]
  simp [hj]

theorem inBits_check : (inBits w a d crc).extractLsb' 0 5 = crc := by
  apply BitVec.eq_of_getLsbD_eq
  intro j hj
  rw [BitVec.getLsbD_extractLsb', getLsbD_inBits, if_pos (by omega)]
  simp [hj]

end

/-- A frame with bits 7..5 zero is put together from its fields. -/
theorem inBits_fields {f : BitVec 24} (h : f.extractLsb' 5 3 = 0#3) :
    inBits (f.getLsbD 23) (f.extractLsb' 16 7) (f.extractLsb' 8 8) (f.extractLsb' 0 5) = f := by
  have hreserved (j : Nat) (hj : j < 3) : f.getLsbD (5 + j) = false := by
    have hbit := congrArg (fun v : BitVec 3 => v.getLsbD j) h
    simpa [hj] using hbit
  apply BitVec.eq_of_getLsbD_eq
  intro j hj
  rw [getLsbD_inBits]
  split_ifs with h5 h8 h16 h23
  · simp [h5]
  · rw [← hreserved (j - 5) (by omega), show 5 + (j - 5) = j by omega]
  · simp [show j - 8 < 8 by omega, show 8 + (j - 8) = j by omega]
  · simp [show j - 16 < 7 by omega, show 16 + (j - 16) = j by omega]
  · rw [show j - 23 = 0 by omega, getLsbD_boolBit, show j = 23 by omega]

/-! ### Frames of the output family (R82 to R84) -/

section
variable (m : Bool) (x d : Byte) (crc : BitVec 7)

theorem outBits_marker : (outBits m x d crc).getLsbD 23 = m := by
  rw [getLsbD_outBits]
  exact getLsbD_boolBit m

theorem outBits_reserved : (outBits m x d crc).getLsbD 7 = false := by
  rw [getLsbD_outBits]
  rfl

theorem outBits_data : (outBits m x d crc).extractLsb' 8 8 = d := by
  apply BitVec.eq_of_getLsbD_eq
  intro j hj
  rw [BitVec.getLsbD_extractLsb', getLsbD_outBits, if_neg (by omega), if_neg (by omega), if_pos (by omega)]
  simp [hj]

theorem outBits_check : (outBits m x d crc).extractLsb' 0 7 = crc := by
  apply BitVec.eq_of_getLsbD_eq
  intro j hj
  rw [BitVec.getLsbD_extractLsb', getLsbD_outBits, if_pos (by omega)]
  simp [hj]

end

/-- The command of an output frame, as the decoder reads it. -/
def frameCommand (f : BitVec 24) : Byte := (f.extractLsb' 16 7).setWidth 8

/-- A command below 0x80 is read back. -/
theorem frameCommand_outBits {x : Byte} (hx : below80 x = true) (m : Bool) (d : Byte) (crc : BitVec 7) :
    frameCommand (outBits m x d crc) = x := by
  apply BitVec.eq_of_getLsbD_eq
  intro j hj
  by_cases h7 : j = 7
  · subst h7
    simpa [frameCommand, below80] using hx.symm
  · have hj7 : j < 7 := by omega
    rw [frameCommand, BitVec.getLsbD_setWidth, BitVec.getLsbD_extractLsb', getLsbD_outBits, if_neg (by omega),
      if_neg (by omega), if_neg (by omega), if_pos (by omega)]
    simp [hj, hj7]

/-- The command of the realtime-status frame is the low seven bits of its first word. -/
theorem frameCommand_rtFrame (b : Binding) : frameCommand (rtFrame b).bits = b.outRtW1 &&& 0x7F#8 := by
  apply BitVec.eq_of_getLsbD_eq
  intro j hj
  have hmask : (0x7F#8).getLsbD j = decide (j < 7) := by interval_cases j <;> rfl
  rw [frameCommand, BitVec.getLsbD_setWidth, BitVec.getLsbD_extractLsb', BitVec.getLsbD_and, hmask, rtFrame, Frame.bits,
    BitVec.getLsbD_append (x := b.outRtW1 ++ b.outRtW0), BitVec.getLsbD_append (x := b.outRtW1), if_neg (by omega),
    if_neg (by omega), show 16 + j - 8 - 8 = j by omega]
  simp [hj, Bool.and_comm]

/-- A frame with bit 7 zero is put together from its fields. -/
theorem outBits_fields {f : BitVec 24} (h : f.getLsbD 7 = false) :
    outBits (f.getLsbD 23) (frameCommand f) (f.extractLsb' 8 8) (f.extractLsb' 0 7) = f := by
  apply BitVec.eq_of_getLsbD_eq
  intro j hj
  rw [getLsbD_outBits]
  split_ifs with h7 h8 h16 h23
  · simp [h7]
  · rw [← h, show j = 7 by omega]
  · simp [show j - 8 < 8 by omega, show 8 + (j - 8) = j by omega]
  · simp [frameCommand, show j - 16 < 7 by omega, show j - 16 < 8 by omega, show 16 + (j - 16) = j by omega]
  · rw [show j - 23 = 0 by omega, getLsbD_boolBit, show j = 23 by omega]

/-! ### Decoding what was encoded -/

theorem decodeFrame_csIn (b : Binding) (k : Bank) (f : BitVec 24) : decodeFrame b (csIn k) f = decodeInFrame k f := by
  fin_cases k <;> rfl

theorem decodeFrame_csOut (b : Binding) (k : Bank) (f : BitVec 24) : decodeFrame b (csOut k) f = decodeOutFrame b k f := by
  fin_cases k <;> rfl

/-- Bit 23 tells a write from a read, which has data 0 (R81). -/
theorem decodeInFrame_inBits (k : Bank) (w : Bool) (a : BitVec 7) (d : Byte) (crc : BitVec 5) :
    decodeInFrame k (inBits w a d crc) =
      if w then .ok (.inWrite k a d crc) else if d = 0#8 then .ok (.inRead k a crc) else .error .frameNotEmitted := by
  simp only [decodeInFrame, inBits_reserved, inBits_write, inBits_register, inBits_data, inBits_check, if_true]

theorem decodeOutFrame_rtFrame (b : Binding) (k : Bank) : decodeOutFrame b k (rtFrame b).bits = .ok (.outRtstat k) := by
  simp only [decodeOutFrame, rtFrame_bit7, Bool.false_eq_true, if_true, if_false]

/-- A command of an output row other than the realtime-status frame: below 0x80, and not that frame's. -/
structure RowCommand (b : Binding) (x : Byte) : Prop where
  low : below80 x = true
  other : b.outRtW1 &&& 0x7F#8 ≠ x

/-- Past the realtime-status frame the command alone tells the row, and a read has no marker. -/
theorem decodeOutFrame_outBits {b : Binding} {x : Byte} (hx : RowCommand b x) (k : Bank) (m : Bool) (d : Byte)
    (crc : BitVec 7) : decodeOutFrame b k (outBits m x d crc) =
      if x = b.outCmdReadReg ∧ m = false then .ok (.outRead k d crc)
      else if x = b.outCmdSetOut then .ok (.outSetOut k m d crc)
      else if x = b.outCmdSetPp then .ok (.outSetPp k m d crc)
      else if x = b.outCmdSetOlen then .ok (.outSetOlen k m d crc)
      else if x = b.outCmdSetJoin then .ok (.outSetJoin k m d crc)
      else .error .frameNotEmitted := by
  have hcmd : ((outBits m x d crc).extractLsb' 16 7).setWidth 8 = x := frameCommand_outBits hx.low m d crc
  have hrt : outBits m x d crc ≠ (rtFrame b).bits := by
    intro heq
    have hsame := congrArg frameCommand heq
    rw [frameCommand_outBits hx.low, frameCommand_rtFrame] at hsame
    exact hx.other hsame.symm
  simp only [decodeOutFrame, outBits_reserved, outBits_marker, outBits_data, outBits_check, hcmd, hrt, Bool.false_eq_true,
    if_false]

/-- What a binding that passes its checks, with commands that can be told apart, says of its output commands. -/
theorem rowCommands {b : Binding} (hok : bindingOk b = true) (hdistinct : commandsDistinct b = true) :
    RowCommand b b.outCmdReadReg ∧ RowCommand b b.outCmdSetOut ∧ RowCommand b b.outCmdSetPp ∧
      RowCommand b b.outCmdSetOlen ∧ RowCommand b b.outCmdSetJoin ∧
      [b.outCmdReadReg, b.outCmdSetOut, b.outCmdSetPp, b.outCmdSetOlen, b.outCmdSetJoin].Nodup := by
  obtain ⟨hrt, hnodup⟩ := List.nodup_cons.mp (of_decide_eq_true hdistinct)
  simp only [List.mem_cons, List.not_mem_nil, or_false, not_or] at hrt
  obtain ⟨hread, hset, hpp, holen, hjoin⟩ := hrt
  simp only [bindingOk, Bool.and_eq_true] at hok
  obtain ⟨⟨⟨⟨⟨⟨⟨_, lset⟩, lpp⟩, lolen⟩, ljoin⟩, lread⟩, _⟩, _⟩ := hok
  exact ⟨⟨lread, hread⟩, ⟨lset, hset⟩, ⟨lpp, hpp⟩, ⟨lolen, holen⟩, ⟨ljoin, hjoin⟩, hnodup⟩

/-- Settles O2: a head word is read back field by field and its opcode tells the row; a frame is read back field by field,
and bit 23, or the command, tells the row. -/
theorem encodingReadBack : Obligations.EncodingReadBack := by
  intro b i hok hdistinct
  obtain ⟨hread, hset, hpp, holen, hjoin, hnodup⟩ := rowCommands hok hdistinct
  simp only [List.nodup_cons, List.mem_cons, List.not_mem_nil, or_false, not_or] at hnodup
  obtain ⟨⟨hrs, hrp, hrl, hrj⟩, ⟨hsp, hsl, hsj⟩, ⟨hpl, hpj⟩, hlj, -⟩ := hnodup
  cases i with
  | inRead k a crc => simp [encode, decodeImage, decodeFrame_csIn, decodeInFrame_inBits, Except.toOption]
  | inWrite k a d crc => simp [encode, decodeImage, decodeFrame_csIn, decodeInFrame_inBits, Except.toOption]
  | outRead k reg crc => simp [encode, decodeImage, decodeFrame_csOut, decodeOutFrame_outBits hread, Except.toOption]
  | outSetOut k clr d crc =>
    simp [encode, decodeImage, decodeFrame_csOut, decodeOutFrame_outBits hset, Ne.symm hrs, Except.toOption]
  | outSetPp k clr d crc =>
    simp [encode, decodeImage, decodeFrame_csOut, decodeOutFrame_outBits hpp, Ne.symm hrp, Ne.symm hsp, Except.toOption]
  | outSetOlen k clr d crc =>
    simp [encode, decodeImage, decodeFrame_csOut, decodeOutFrame_outBits holen, Ne.symm hrl, Ne.symm hsl, Ne.symm hpl,
      Except.toOption]
  | outSetJoin k clr d crc =>
    simp [encode, decodeImage, decodeFrame_csOut, decodeOutFrame_outBits hjoin, Ne.symm hrj, Ne.symm hsj, Ne.symm hpj,
      Ne.symm hlj, Except.toOption]
  | outRtstat k => simp [encode, decodeImage, decodeFrame_csOut, decodeOutFrame_rtFrame, Except.toOption]
  | _ =>
    simp only [encode, decodeImage, decodeHost_mkHead]
    rfl

/-! ### Encoding what was decoded -/

theorem encode_of_decodeInFrame {b : Binding} {k : Bank} {f : BitVec 24} {i : Instr} (h : decodeInFrame k f = .ok i) :
    encode b i = .bus (csIn k) f := by
  unfold decodeInFrame at h
  split_ifs at h with hreserved hwrite hdata
  · cases h
    rw [encode, ← hwrite, inBits_fields hreserved]
  · cases h
    rw [encode, ← hdata, ← Bool.eq_false_iff.mpr hwrite, inBits_fields hreserved]

theorem encode_of_decodeOutFrame {b : Binding} {k : Bank} {f : BitVec 24} {i : Instr} (h : decodeOutFrame b k f = .ok i) :
    encode b i = .bus (csOut k) f := by
  unfold decodeOutFrame at h
  simp only at h
  have hfields (hbit : ¬f.getLsbD 7 = true) := outBits_fields (Bool.not_eq_true _ ▸ hbit)
  split_ifs at h with hbit hrt hread hset hpp holen hjoin
  all_goals cases h
  · rw [encode, hrt]
  · rw [encode, ← hread.1, ← hread.2]
    exact congrArg _ (hfields hbit)
  · rw [encode, ← hset]
    exact congrArg _ (hfields hbit)
  · rw [encode, ← hpp]
    exact congrArg _ (hfields hbit)
  · rw [encode, ← holen]
    exact congrArg _ (hfields hbit)
  · rw [encode, ← hjoin]
    exact congrArg _ (hfields hbit)

/-- Settles O3: by the rows of the decoder, each of which accepts only its own encoding. -/
theorem decodingExact : Obligations.DecodingExact := by
  intro b m i h
  cases m with
  | host ws =>
    unfold decodeImage at h
    simp only at h
    split at h
    · rename_i j hdec
      cases h
      cases ws with
      | nil => cases hdec
      | cons w rest =>
        rw [encode_of_decodeRow (b := b) hdec, mkHead_fields]
    · cases h
  | bus cs f =>
    cases hdec : decodeFrame b cs f with
    | error e => simp [decodeImage, hdec, Except.toOption] at h
    | ok j =>
      simp only [decodeImage, hdec, Except.toOption, Option.some_inj] at h
      subst h
      cases cs with
      | in0 | in1 => exact encode_of_decodeInFrame hdec
      | out0 | out1 => exact encode_of_decodeOutFrame hdec

/-- Settles O1: the decoder evaluated on the words. -/
theorem wordsDecode : Obligations.WordsDecode := by
  refine ⟨rfl, rfl, rfl, rfl, rfl, rfl, rfl, rfl, rfl, fun b => ⟨rfl, rfl⟩⟩

end Sys2Proof
end

section
/-! What a step never does (10_state.md R40, R48 to R53; 44_scheduler.md R210; 60_exceptions.md R312, R315). Every unit but three only
adds to the records, moves the times on, keeps the modes and keeps set every sticky bit that is set (`Plain`); the three are the
mode write of CONFIG and the two clearings of the getters, each of the instruction that names it (`UnitOf.effect`). -/

namespace Sys2Proof.Machine

/-! ### Sticky words -/

/-- Every sticky bit that was set is set. -/
def InBankSticky (r r' : InBank) : Prop := ∀ (w : InSticky) (c : Chan), bit (w.get r) c = true → bit (w.get r') c = true

/-- Every sticky bit that was set is set. -/
def OutBankSticky (o o' : OutBank) : Prop := ∀ (w : OutSticky) (c : Chan), bit (w.get o) c = true → bit (w.get o') c = true

theorem InBankSticky.of_words {r r' : InBank} (h : ∀ w : InSticky, w.get r' = w.get r) : InBankSticky r r' :=
  fun w c hset => by rwa [h w]

theorem OutBankSticky.of_words {o o' : OutBank} (h : ∀ w : OutSticky, w.get o' = w.get o) : OutBankSticky o o' :=
  fun w c hset => by rwa [h w]

theorem bit_or_left {v w : Byte} {c : Chan} (h : bit v c = true) : bit (v ||| w) c = true := by
  unfold bit at *
  simp only [BitVec.getLsbD_or, h, Bool.true_or]

theorem bit_chipWide {st : Byte} {on : Bool} {c : Chan} (h : bit st c = true) : bit (chipWide st on) c = true := by
  cases on with
  | false => exact h
  | true =>
    show bit 0xFF#8 c = true
    clear h
    revert c
    decide

/-! ### The plain effect of a unit -/

/-- The records grow, the times move on, the modes stay, and no sticky bit is cleared. -/
structure Plain (s t : State) : Prop where
  events : ∃ new, t.events = s.events ++ new
  bus : ∃ new, t.bus = s.bus ++ new
  faults : ∀ f ∈ s.faults, f ∈ t.faults
  ms : s.env.msTime ≤ t.env.msTime
  us : s.env.usTime ≤ t.env.usTime
  mode : t.mode = s.mode
  ib : ∀ k : Bank, InBankSticky s.ib[k] t.ib[k]
  ob : ∀ k : Bank, OutBankSticky s.ob[k] t.ob[k]

theorem Plain.trans {s t u : State} (h : Plain s t) (g : Plain t u) : Plain s u where
  events := by
    obtain ⟨new, hnew⟩ := h.events
    obtain ⟨more, hmore⟩ := g.events
    exact ⟨new ++ more, by rw [hmore, hnew, List.append_assoc]⟩
  bus := by
    obtain ⟨new, hnew⟩ := h.bus
    obtain ⟨more, hmore⟩ := g.bus
    exact ⟨new ++ more, by rw [hmore, hnew, List.append_assoc]⟩
  faults f hf := g.faults f (h.faults f hf)
  ms := h.ms.trans g.ms
  us := h.us.trans g.us
  mode := g.mode.trans h.mode
  ib k w c hset := g.ib k w c (h.ib k w c hset)
  ob k w c hset := g.ob k w c (h.ob k w c hset)

/-- What has no part in the statement is free to change. -/
theorem Plain.of_eq {s t : State} (hevents : t.events = s.events) (hbus : t.bus = s.bus) (hfaults : t.faults = s.faults)
    (henv : t.env = s.env) (hmode : t.mode = s.mode) (hib : t.ib = s.ib) (hob : t.ob = s.ob) : Plain s t where
  events := ⟨[], by simp [hevents]⟩
  bus := ⟨[], by simp [hbus]⟩
  faults f hf := by rwa [hfaults]
  ms := by rw [henv]
  us := by rw [henv]
  mode := hmode
  ib k := by
    rw [hib]
    exact .of_words fun _ => rfl
  ob k := by
    rw [hob]
    exact .of_words fun _ => rfl

theorem Plain.refl (s : State) : Plain s s := .of_eq rfl rfl rfl rfl rfl rfl rfl

theorem Plain.modIb {k : Bank} {f : InBank → InBank} {s : State} (h : InBankSticky s.ib[k] (f s.ib[k])) :
    Plain s (modIb k f s) :=
  { Plain.refl s with
    ib := fun j => by
      rw [modIb_get]
      split_ifs with hkj
      · subst hkj
        exact h
      · exact .of_words fun _ => rfl }

theorem Plain.modOb {k : Bank} {f : OutBank → OutBank} {s : State} (h : OutBankSticky s.ob[k] (f s.ob[k])) :
    Plain s (modOb k f s) :=
  { Plain.refl s with
    ob := fun j => by
      rw [modOb_get]
      split_ifs with hkj
      · subst hkj
        exact h
      · exact .of_words fun _ => rfl }

/-! ### The shared actions -/

theorem plain_afterMs (s : State) : Plain s (afterMs s) :=
  { Plain.refl s with ms := Nat.le_add_right _ _ }

theorem plain_afterUs (s : State) : Plain s (afterUs s) :=
  { Plain.refl s with us := Nat.le_add_right _ _ }

theorem plain_sample (k : SubIx) (s : State) : Plain s (sample k s).2 := by
  unfold sample
  split
  · exact .refl s
  · exact { Plain.refl s with }

/-- No write of a level touches a sticky word (R253). -/
theorem plain_setIntent (p : Pin) (v : Bool) (s : State) : Plain s (setIntent p v s) :=
  .modOb (.of_words fun w => by cases w <;> rfl)

theorem plain_setCmd (p : Pin) (v : Bool) (s : State) : Plain s (setCmd p v s) :=
  .modOb (.of_words fun w => by cases w <;> rfl)

theorem plain_writeLocal (p : Pin) (v : Bool) (s : State) : Plain s (writeLocal p v s).1 := by
  obtain h | h | h := writeLocal_state p v s <;> rw [h]
  · exact .refl s
  · exact plain_setIntent p v s
  · exact (plain_setIntent p v s).trans (plain_setCmd p v _)

theorem plain_linkAction (lm : LinkMode) (q : Pin) (lv : Bool) (s : State) : Plain s (linkAction lm q lv s).1 := by
  have htoggle : Plain s (toggleLocal q s).1 := plain_writeLocal q _ s
  cases lm with
  | none => exact .refl s
  | follow => exact plain_writeLocal q lv s
  | invert => exact plain_writeLocal q (!lv) s
  | flipAny => exact htoggle
  | flipRise => cases lv; exacts [.refl s, htoggle]
  | flipFall => cases lv; exacts [htoggle, .refl s]

theorem plain_configS1 (p : Pin) (s : State) : Plain s (configS1 p s) := by
  unfold configS1
  simp only
  split_ifs
  · exact plain_setIntent p false s
  · exact (plain_setIntent p false s).trans (plain_setCmd p false _)

theorem plain_configS2 (p : Pin) (md : PinMode) (s : State) : Plain s (configS2 p md s) :=
  .modOb (.of_words fun w => by cases w <;> rfl)

theorem plain_raiseFault (f : ModelFault) (s : State) : Plain s (raiseFault f s) :=
  { Plain.refl s with
    faults := fun g hg => by
      unfold raiseFault
      split_ifs
      · exact hg
      · exact List.mem_append_left _ hg }

theorem plain_recordRace (i : Instr) (s : State) : Plain s (recordRace i s) := by
  unfold recordRace
  split
  · exact plain_raiseFault _ s
  · exact .refl s

theorem plain_exchange (cs : ChipSelect) (f : Frame) (s : State) : Plain s (exchange cs f s).1 := by
  have hcheck : Plain s (checkLock s) := by
    unfold checkLock
    split_ifs
    · exact .refl s
    · exact plain_raiseFault _ s
  exact hcheck.trans { Plain.refl (checkLock s) with bus := ⟨_, rfl⟩, ms := by simp [exchange, dropEcho], us := by simp [exchange, dropEcho] }

theorem plain_attemptUpdate (b : Binding) (x : Xact) (marker : Bool) (e : Frame) (s : State) :
    Plain s (attemptUpdate b x marker e s) := by
  cases x <;> simp only [attemptUpdate]
  case inRead | inWrite => exact .modIb (.of_words fun w => by cases w <;> rfl)
  case outRead | outWrite | rtstat => exact .modOb (.of_words fun w => by cases w <;> rfl)

theorem plain_setErr (x : Xact) (s : State) : Plain s (setErr x s) := by
  cases x <;> simp only [setErr]
  case inRead | inWrite => exact .modIb (.of_words fun w => by cases w <;> rfl)
  case outRead | outWrite | rtstat => exact .modOb (.of_words fun w => by cases w <;> rfl)

theorem plain_emit (ev : Event) (s : State) : Plain s (emit ev s) := { Plain.refl s with events := ⟨[ev], rfl⟩ }

/-- An entry of the subscription pass may emit an event, and may draw (R222, R223). -/
theorem plain_subEntry (now : U32) (k : SubIx) (s : State) : Plain s (subEntry now k s).1 := by
  have hset (e : Sub) (t : State) : Plain t (setSub k e t) := .of_eq rfl rfl rfl rfl rfl rfl rfl
  unfold subEntry
  simp only
  split_ifs
  · exact .refl s
  · split
    · exact plain_sample k s
    · split_ifs
      · exact (plain_sample k s).trans ((hset _ _).trans (plain_emit _ _))
      · exact (plain_sample k s).trans (hset _ _)

theorem plain_store (k : Bank) (r : Option Byte) (s : State) : Plain s (storeOv k r s) ∧ Plain s (storeTh k r s) := by
  cases r with
  | none => exact ⟨.refl s, .refl s⟩
  | some v =>
    simp only [storeOv, storeTh]
    refine ⟨.modOb fun w c h => ?ov, .modOb fun w c h => ?th⟩
    case ov =>
      cases w
      case ov => exact bit_or_left h
      all_goals exact h
    case th =>
      cases w
      case th => exact bit_or_left h
      all_goals exact h

/-- The lockout passes of a tick. -/
theorem PassOf.plain {act : State → State × Answer} (h : PassOf act) (s : State) : Plain s (act s).1 := by
  cases h with
  | overVoltage k now r =>
    have hstore := (plain_store k r s).1
    have hpass (t : State) : Plain t (modOb k (ovSteps now) t) := by
      refine .modOb (.of_words fun w => ?_)
      obtain ⟨_, _, _, hframe⟩ := ovSteps_frame now t.ob[k]
      rw [hframe]
      cases w <;> rfl
    unfold phase2Unit ovPass
    simp only
    split_ifs
    · exact hstore.trans (hpass _)
    · exact hstore.trans (hpass _)
    · exact hstore
  | thermal k now r =>
    refine (plain_store k r s).2.trans (.modOb (.of_words fun w => ?_))
    obtain ⟨_, _, _, _, hframe⟩ := thSteps_frame now (storeTh k r s).ob[k]
    rw [hframe]
    cases w <;> rfl

/-! ### Every unit -/

/-- What a unit of an instruction does: a plain effect, or the one write that the instruction names. -/
inductive Effect (i : Instr) (s : State) : State → Prop
  | plain {t} (h : Plain s t) : Effect i s t
  | mode (p : Pin) (md : PinMode) (h : configures i = some (p, md)) : Effect i s (setMode p md s)
  | clearIn (w : InSticky) (p : Pin) (h : clearsIn i = some (w, p)) : Effect i s (readClearIn w p s).1
  | clearOut (w : OutSticky) (p : Pin) (h : clearsOut i = some (w, p)) : Effect i s (readClearOut w p s).1

theorem LocalOf.effect {b : Binding} {i : Instr} {act : State → State × Answer} (h : LocalOf b i act) (s : State) :
    Effect i s (act s).1 := by
  cases h with
  | setMode p md hc => exact .mode p md hc
  | clearIn w p hc => exact .clearIn w p hc
  | clearOut w p hc => exact .clearOut w p hc
  | setErr x => exact .plain (plain_setErr x s)
  | bankErr k =>
    dsimp only
    exact .plain (.modOb (.of_words fun w => by cases w <;> rfl))
  | setovp k en =>
    dsimp only [setovpUnit]
    exact .plain (.modOb (.of_words fun w => by cases w <;> rfl))
  | write p v => exact .plain (plain_writeLocal p v s)
  | toggle p => exact .plain (plain_writeLocal p _ s)
  | dread k =>
    refine .plain ?_
    unfold dreadUnit
    simp only
    split <;> exact plain_sample k s
  | clearfaults =>
    have hmark (k : Bank) (t : State) : Plain t (modOb k (fun o => { o with clrPending := true }) t) :=
      .modOb (.of_words fun w => by cases w <;> rfl)
    exact .plain ((hmark 0 s).trans (hmark 1 _))
  | configFirst p md det =>
    refine .plain ?_
    unfold Machine.configFirst
    split
    · exact .refl s
    · split_ifs
      · exact plain_configS1 p s
      · exact plain_configS2 p md s
  | configS2 p md => exact .plain (plain_configS2 p md s)
  | configS3 p md det =>
    dsimp only [Machine.configS3]
    exact .plain (.modOb (.of_words fun w => by cases w <;> rfl))
  | configS4 p md det =>
    dsimp only [Machine.configS4]
    exact .plain (.modIb (.of_words fun w => by cases w <;> rfl))
  | joinFirst p en =>
    refine .plain ?_
    unfold Machine.joinFirst
    split_ifs
    · exact .refl s
    · dsimp only
      exact .modOb (.of_words fun w => by cases w <;> rfl)
  | subscribe k iv cb =>
    refine .plain ?_
    have hset (e : Sub) (t : State) : Plain t (setSub k e t) := .of_eq rfl rfl rfl rfl rfl rfl rfl
    unfold subscribeUnit
    simp only
    split_ifs
    · exact hset _ s
    · split
      · exact (plain_afterMs s).trans (hset _ _)
      · exact (plain_afterMs s).trans ((plain_sample k _).trans (hset _ _))
  | link p q lm iv =>
    refine .plain ?_
    have hset (e : Link) (t : State) : Plain t (setLink p q e t) := .of_eq rfl rfl rfl rfl rfl rfl rfl
    unfold linkUnit
    simp only
    split_ifs
    · exact hset _ s
    · exact (plain_afterMs s).trans (hset _ _)
  | pwm p f d =>
    refine .plain ?_
    have hset (e : Pwm) (t : State) : Plain t (setPwm p e t) := .of_eq rfl rfl rfl rfl rfl rfl rfl
    unfold pwmUnit
    split_ifs
    · exact (hset _ s).trans (plain_writeLocal p false _)
    · exact .refl s
    · exact (plain_afterUs s).trans (hset _ _)
    · exact .refl s
  | readMs => exact .plain (plain_afterMs s)
  | readUs => exact .plain (plain_afterUs s)
  | refresh k v =>
    dsimp only [refreshUnit]
    refine .plain (.modIb fun w c hset => ?_)
    cases w
    case wb => exact bit_or_left hset
    all_goals exact hset
  | fault1 k v =>
    dsimp only [fault1Unit]
    refine .plain (.modIb fun w c hset => ?_)
    cases w
    case at1 | at2 => exact bit_chipWide hset
    all_goals exact hset
  | fault2 k v =>
    dsimp only [fault2Unit]
    refine .plain (.modIb fun w c hset => ?_)
    cases w
    case ot => exact bit_chipWide hset
    all_goals exact hset
  | openLoad k v =>
    dsimp only
    refine .plain (.modOb fun w c hset => ?_)
    cases w
    case ol => exact bit_or_left hset
    all_goals exact hset
  | thermalCmd k before =>
    refine .plain ?_
    unfold thCmdChanged
    split_ifs <;> exact .refl s
  | gate now =>
    refine .plain ?_
    unfold schedGate
    split_ifs
    · exact .of_eq rfl rfl rfl rfl rfl rfl rfl
    · exact .refl s
  | linkEntry now p q =>
    refine .plain ?_
    have hset (e : Link) (t : State) : Plain t (setLink p q e t) := .of_eq rfl rfl rfl rfl rfl rfl rfl
    unfold Machine.linkEntry
    simp only
    split_ifs
    · exact .refl s
    · split
      · exact .refl s
      · split_ifs
        · exact (hset _ s).trans (plain_linkAction _ q _ _)
        · exact hset _ s
  | pwmEntry now p =>
    refine .plain ?_
    unfold Machine.pwmEntry
    split
    · exact .refl s
    · simp only
      split <;> exact plain_writeLocal p _ s
  | _ => exact .plain (.of_eq rfl rfl rfl rfl rfl rfl rfl)

theorem UnitOf.effect {b : Binding} {i : Instr} {k : UnitKind} {act : State → State × Answer} (h : UnitOf b i k act)
    (s : State) : Effect i s (act s).1 := by
  cases h with
  | acquire x =>
    rw [acquire_state]
    exact .plain (.of_eq rfl rfl rfl rfl rfl rfl rfl)
  | exchange1 x f => exact .plain (plain_exchange x.cs f s)
  | exchange2 x _ => exact .plain (plain_exchange x.cs _ s)
  | finish x m d e1 e2 =>
    have hrelease (t : State) : Plain t (releaseLock t) := .of_eq rfl rfl rfl rfl rfl rfl rfl
    refine .plain ?_
    unfold Machine.finish
    split_ifs
    · exact (plain_attemptUpdate b x m e1 s).trans (hrelease _)
    · exact hrelease s
  | subEntry now k => exact .plain (plain_subEntry now k s)
  | action h => exact h.effect s
  | pass h => exact .plain (h.plain s)

/-! ### Every step -/

/-- A relation that plain effects keep, and the named writes of the instructions in `Q`, is kept by every step. -/
theorem stepKeeps_of_effect {Q : Instr → Prop} {R : State → State → Prop} (hplain : ∀ {s t}, Plain s t → R s t)
    (htrans : ∀ {s t u}, R s t → R t u → R s u) (hunit : ∀ {i s t}, Q i → Effect i s t → R s t) : StepKeeps Q R where
  refl s := hplain (.refl s)
  trans := htrans
  unit _ _ _ _ s hq hu := hunit hq (hu.effect s)
  note a s := hplain (by rw [note_eq]; exact .of_eq rfl rfl rfl rfl rfl rfl rfl)
  complete _ _ := hplain (.of_eq rfl rfl rfl rfl rfl rfl rfl)
  begin i s := hplain ((plain_recordRace i s).trans (.of_eq rfl rfl rfl rfl rfl rfl rfl))
  req _ _ := hplain (.of_eq rfl rfl rfl rfl rfl rfl rfl)
  busReq _ _ := hplain (.of_eq rfl rfl rfl rfl rfl rfl rfl)
  turn s := hplain { Plain.refl s with }
  cur _ _ := hplain (.of_eq rfl rfl rfl rfl rfl rfl rfl)

/-- The records grow and the times move on (R49 to R51, R312). -/
structure Onward (s t : State) : Prop where
  events : ∃ new, t.events = s.events ++ new
  bus : ∃ new, t.bus = s.bus ++ new
  faults : ∀ f ∈ s.faults, f ∈ t.faults
  ms : s.env.msTime ≤ t.env.msTime
  us : s.env.usTime ≤ t.env.usTime

theorem Plain.onward {s t : State} (h : Plain s t) : Onward s t := ⟨h.events, h.bus, h.faults, h.ms, h.us⟩

/-- Neither the mode of a pin nor a sticky word is a record or a time. -/
theorem Onward.of_eq {s t : State} (hevents : t.events = s.events) (hbus : t.bus = s.bus) (hfaults : t.faults = s.faults)
    (henv : t.env = s.env) : Onward s t :=
  ⟨⟨[], by simp [hevents]⟩, ⟨[], by simp [hbus]⟩, fun f hf => by rwa [hfaults], by rw [henv], by rw [henv]⟩

theorem Onward.trans {s t u : State} (h : Onward s t) (g : Onward t u) : Onward s u := by
  obtain ⟨new, hnew⟩ := h.events
  obtain ⟨more, hmore⟩ := g.events
  obtain ⟨recs, hrecs⟩ := h.bus
  obtain ⟨recs', hrecs'⟩ := g.bus
  exact ⟨⟨new ++ more, by rw [hmore, hnew, List.append_assoc]⟩, ⟨recs ++ recs', by rw [hrecs', hrecs, List.append_assoc]⟩,
    fun f hf => g.faults f (h.faults f hf), h.ms.trans g.ms, h.us.trans g.us⟩

theorem stepKeeps_onward : StepKeeps (fun _ => True) Onward :=
  stepKeeps_of_effect Plain.onward Onward.trans fun _ h => by
    cases h with
    | plain h => exact h.onward
    | mode | clearIn | clearOut => exact .of_eq rfl rfl rfl rfl

/-- Settles O48. -/
theorem recordsOnlyGrow : Obligations.RecordsOnlyGrow := by
  intro s t h
  have honward := stepKeeps_onward.step (fun _ _ => trivial) h
  exact ⟨honward.events, honward.bus, honward.faults⟩

/-- Settles O51: a step by its units; a reading is the new unbounded time modulo 2^32. -/
theorem timeNeverDecreases : Obligations.TimeNeverDecreases := by
  refine ⟨fun s t h => ?step, fun s => ?reading⟩
  case step =>
    have honward := stepKeeps_onward.step (fun _ _ => trivial) h
    exact ⟨honward.ms, honward.us⟩
  case reading => exact ⟨BitVec.toNat_ofNat _ _, (plain_afterMs s).ms, BitVec.toNat_ofNat _ _, (plain_afterUs s).us⟩

/-- Settles O47: no unit changes the binding (`UnitOf.frame`), nor does anything else a step does. -/
theorem stepKeepsBinding : Obligations.StepKeepsBinding := by
  have keeps : StepKeeps (fun _ => True) fun s t => t.cfg = s.cfg :=
    { refl := fun _ => rfl
      trans := fun h g => g.trans h
      unit := fun _ _ _ _ s _ hu => (hu.frame s).1
      note := note_cfg
      complete := fun _ _ => rfl
      begin := beginOp_cfg
      req := fun _ _ => rfl
      busReq := fun _ _ => rfl
      turn := fun _ => rfl
      cur := fun _ _ => rfl }
  exact fun s t h => keeps.step (fun _ _ => trivial) h

/-! ### The named writes -/

/-- If no instruction that writes it to `md` runs, a pin that is in `md` was in `md`. -/
theorem stepKeeps_mode (p : Pin) (md : PinMode) :
    StepKeeps (fun i => configures i ≠ some (p, md)) fun s t => t.mode[p] = md → s.mode[p] = md :=
  stepKeeps_of_effect (fun h => by rw [h.mode]; exact id) (fun h g ht => h (g ht)) fun hq h => by
    cases h with
    | plain h => rw [h.mode]; exact id
    | clearIn | clearOut => exact id
    | mode q m hc =>
      simp only [setMode_mode, Fin.getElem_fin, Vector.getElem_set]
      split_ifs with hqp
      · rintro rfl
        exact absurd hc (Fin.ext hqp ▸ hq)
      · exact id

/-- Settles O49: if the instruction that runs is no CONFIG of the pin to the mode it has after the step, it had it before. -/
theorem modeOnlyByConfig : Obligations.ModeOnlyByConfig := by
  intro s t p h hchanged
  by_contra hnone
  exact hchanged ((stepKeeps_mode p t.mode[p]).step (fun i hrun hc => hnone ⟨i, hrun, hc⟩) h rfl).symm

theorem InSticky.get_put (w w' : InSticky) (v : Byte) (r : InBank) : w.get (w'.put v r) = if w' = w then v else w.get r := by
  cases w' <;> cases w <;> rfl

theorem OutSticky.get_put (w w' : OutSticky) (v : Byte) (o : OutBank) :
    w.get (w'.put v o) = if w' = w then v else w.get o := by
  cases w' <;> cases w <;> rfl

/-- If no getter of the word runs on a pin with that bit, a bit that is set stays set. -/
theorem stepKeeps_stickyIn (w : InSticky) (k : Bank) (c : Chan) :
    StepKeeps (fun i => ∀ p, clearsIn i = some (w, p) → inBank p = k → inChan p ≠ c)
      fun s t => bit (w.get s.ib[k]) c = true → bit (w.get t.ib[k]) c = true :=
  stepKeeps_of_effect (fun h => h.ib k w c) (fun h g hs => g (h hs)) fun hq h => by
    cases h with
    | plain h => exact h.ib k w c
    | mode | clearOut => exact id
    | clearIn w' p hc =>
      simp only [readClearIn, modIb_get]
      intro hset
      split_ifs with hk
      · rw [InSticky.get_put]
        split_ifs with hw
        · subst hw hk
          rw [bit_setBit, if_neg (hq p hc rfl)]
          exact hset
        · exact hk ▸ hset
      · exact hset

/-- The same for the output banks. -/
theorem stepKeeps_stickyOut (w : OutSticky) (k : Bank) (c : Chan) :
    StepKeeps (fun i => ∀ p, clearsOut i = some (w, p) → outBank p = k → outChan p ≠ c)
      fun s t => bit (w.get s.ob[k]) c = true → bit (w.get t.ob[k]) c = true :=
  stepKeeps_of_effect (fun h => h.ob k w c) (fun h g hs => g (h hs)) fun hq h => by
    cases h with
    | plain h => exact h.ob k w c
    | mode | clearIn => exact id
    | clearOut w' p hc =>
      simp only [readClearOut, modOb_get]
      intro hset
      split_ifs with hk
      · rw [OutSticky.get_put]
        split_ifs with hw
        · subst hw hk
          rw [bit_setBit, if_neg (hq p hc rfl)]
          exact hset
        · exact hk ▸ hset
      · exact hset

/-- Settles O50: if the instruction that runs is no getter of the word on a pin with that bit, the bit stays. -/
theorem stickyBitsKept : Obligations.StickyBitsKept := by
  refine fun s t h => ⟨fun w k c hset hclear => ?input, fun w k c hset hclear => ?output⟩
  case input =>
    by_contra hnone
    have hkept := (stepKeeps_stickyIn w k c).step (fun i hrun p hc hk hch => hnone ⟨i, p, hrun, hc, hk, hch⟩) h hset
    exact Bool.false_ne_true (hclear.symm.trans hkept)
  case output =>
    by_contra hnone
    have hkept := (stepKeeps_stickyOut w k c).step (fun i hrun p hc hk hch => hnone ⟨i, p, hrun, hc, hk, hch⟩) h hset
    exact Bool.false_ne_true (hclear.symm.trans hkept)

/-! ### The other context (R48, R315) -/

/-- The running context stays the running one, and what belongs to every other context stays. -/
def OthersKept (s t : State) : Prop :=
  t.cur = s.cur ∧ ∀ d : Ctx, d ≠ s.cur →
    t.op[d] = s.op[d] ∧ t.resp[d] = s.resp[d] ∧ t.req[d] = s.req[d] ∧ t.busReq[d] = s.busReq[d]

theorem OthersKept.trans {s t u : State} (h : OthersKept s t) (g : OthersKept t u) : OthersKept s u := by
  refine ⟨g.1.trans h.1, fun d hd => ?_⟩
  obtain ⟨hop, hresp, hreq, hbus⟩ := h.2 d hd
  obtain ⟨gop, gresp, greq, gbus⟩ := g.2 d (h.1.symm ▸ hd)
  exact ⟨gop.trans hop, gresp.trans hresp, greq.trans hreq, gbus.trans hbus⟩

theorem othersKept_complete (r : Result) (s : State) : OthersKept s (complete r s) :=
  ⟨rfl, fun _ hd => ⟨set_other _ _ _ _ hd, set_other _ _ _ _ hd, rfl, rfl⟩⟩

theorem keeps_others : Keeps (fun _ => True) OthersKept where
  refl _ := ⟨rfl, fun _ _ => ⟨rfl, rfl, rfl, rfl⟩⟩
  trans := OthersKept.trans
  unit _ _ _ _ s _ hu := by
    obtain ⟨-, hcur, hop, hresp, hreq, hbus⟩ := hu.frame s
    exact ⟨hcur, fun d _ => by rw [hop, hresp, hreq, hbus]; exact ⟨rfl, rfl, rfl, rfl⟩⟩
  note a s := by
    obtain ⟨o, ho, hnoted⟩ := note_withBook a s
    rw [ho]
    exact ⟨rfl, fun d hd => ⟨hnoted.other d hd, rfl, rfl, rfl⟩⟩
  complete := othersKept_complete

theorem runKeeps_others : RunKeeps OthersKept where
  refl := keeps_others.refl
  trans := OthersKept.trans
  req _ _ := ⟨rfl, fun _ hd => ⟨rfl, rfl, set_other _ _ _ _ hd, rfl⟩⟩
  busReq _ _ := ⟨rfl, fun _ hd => ⟨rfl, rfl, rfl, set_other _ _ _ _ hd⟩⟩
  complete r s _ := othersKept_complete r s
  begin i s _ := ⟨beginOp_cur i s, fun d hd => by
    rw [beginOp_op, beginOp_resp, beginOp_req, beginOp_busReq, set_other _ _ _ _ hd, set_other _ _ _ _ hd]
    exact ⟨rfl, rfl, rfl, rfl⟩⟩
  drive i seen s _ := by
    obtain ⟨f, hunits⟩ := units_after (units_programOf s.cfg i) seen
    exact keeps_others.drive trivial hunits s
  unit _ _ s _ := keeps_others.unitStep s fun _ _ _ => trivial

/-- Settles O52: the turn and the name of the running context are nobody's, and the rest of a step is a run. -/
theorem otherContextUntouched : Obligations.OtherContextUntouched := by
  intro s t h d hd
  obtain rfl | hrun | hrun := runKeeps_others.step h
  · exact ⟨rfl, rfl, rfl, rfl⟩
  · exact hrun.2 d hd
  · exact hrun.2 d hd

end Sys2Proof.Machine
end

section
/-! The SPI rows as operations (41_input_bank.md R133 to R135; 42_output_bank.md R154 to R158; 40_bus_arbiter.md R111 to R116). A
transaction makes its attempts until one is valid, and the echoes tell which (`xact_of_first`, `xact_of_none`); so each row is
one transaction, or the write and the read of OUT_CFG, spelled out. -/

namespace Sys2Proof.Machine

/-! ### Which attempt is the last (R114) -/

section
variable {b : Binding} {x : Xact} {s : State}

/-- The first valid attempt is the last one. -/
theorem xact_of_first {n : Nat} (hn : n < 3) (hbad : ∀ j, j < n → attemptOk b x s j = false) (hok : attemptOk b x s n = true) :
    xactOk b x s = true ∧ attemptsMade b x s = n + 1 := by
  interval_cases n
  · simp [xactOk, attemptsMade, hok]
  · have h0 := hbad 0 (by decide)
    simp [xactOk, attemptsMade, h0, hok]
  · have h0 := hbad 0 (by decide)
    have h1 := hbad 1 (by decide)
    simp [xactOk, attemptsMade, h0, h1, hok]

/-- With no valid attempt among them three are made. -/
theorem xact_of_none (hbad : ∀ j, j < 3 → attemptOk b x s j = false) : xactOk b x s = false ∧ attemptsMade b x s = 3 := by
  have h0 := hbad 0 (by decide)
  have h1 := hbad 1 (by decide)
  have h2 := hbad 2 (by decide)
  simp [xactOk, attemptsMade, h0, h1, h2]

/-! ### Transactions of single exchanges -/

theorem attemptEcho_single (htwo : x.twoPhase = false) (n : Nat) : attemptEcho x s n = echoNo s.env n := by
  simp [attemptEcho, Xact.exchanges, htwo]

theorem attemptOk_single (htwo : x.twoPhase = false) (n : Nat) :
    attemptOk b x s n = attemptValid b x (echoNo s.env n) (echoNo s.env n) := by
  simp [attemptOk, attemptEcho, Xact.exchanges, htwo]

theorem exchanged_single (htwo : x.twoPhase = false) :
    exchanged b x s = exchangedTimes x.cs (acquire b x s).2.frame (attemptsMade b x s) s := by
  have hrecs : attemptRecs b x s = fun j => [{ cs := x.cs, sent := (acquire b x s).2.frame, echo := echoNo s.env j }] := by
    funext j
    simp [attemptRecs, attemptEcho_single htwo, htwo]
  simp [exchanged, exchangedTimes, hrecs, Xact.exchanges, htwo, List.map_eq_flatMap]

/-- The n-th echo is the first valid one. -/
theorem single_of_first (htwo : x.twoPhase = false) {n : Nat} (hn : n < 3)
    (hbad : ∀ j, j < n → attemptValid b x (echoNo s.env j) (echoNo s.env j) = false)
    (hok : attemptValid b x (echoNo s.env n) (echoNo s.env n) = true) :
    xactValue b x s = some (attemptValue b x (acquire b x s).2.data (echoNo s.env n)) ∧
      afterXact b x s = attemptUpdate b x (acquire b x s).2.marker (echoNo s.env n)
        (exchangedTimes x.cs (acquire b x s).2.frame (n + 1) s) := by
  obtain ⟨hx, hm⟩ := xact_of_first (b := b) (x := x) (s := s) hn (fun j hj => (attemptOk_single htwo j).trans (hbad j hj))
    ((attemptOk_single htwo n).trans hok)
  simp only [xactValue, afterXact, hx, if_true, exchanged_single htwo, hm, Nat.add_one_sub_one, attemptEcho_single htwo, and_self]

/-- No echo is valid. -/
theorem single_of_none (htwo : x.twoPhase = false)
    (hbad : ∀ j, j < 3 → attemptValid b x (echoNo s.env j) (echoNo s.env j) = false) :
    xactValue b x s = none ∧ afterXact b x s = setErr x (exchangedTimes x.cs (acquire b x s).2.frame 3 s) := by
  obtain ⟨hx, hm⟩ := xact_of_none (b := b) (x := x) (s := s) fun j hj => (attemptOk_single htwo j).trans (hbad j hj)
  simp only [xactValue, afterXact, hx, Bool.false_eq_true, if_false, exchanged_single htwo, hm, and_self]

end

/-! ### Output writes (R156) -/

section
variable {b : Binding} {k : Bank} {f : OutField} {s : State}

/-- The n-th pair of an output write is good: the second echo valid, and the first where the binding asks for it. -/
def PairGood (b : Binding) (s : State) (n : Nat) : Prop :=
  outValid (echoNo s.env (2 * n + 1)) = true ∧ (b.outCheckPhase1 = true → outValid (echoNo s.env (2 * n)) = true)

theorem attemptOk_outWrite (n : Nat) : attemptOk b (.outWrite k f) s n = true ↔ PairGood b s n := by
  simp only [attemptOk, attemptEcho, Xact.exchanges, Xact.twoPhase, attemptValid, PairGood, if_true, Nat.mul_comm n 2,
    Nat.add_one_sub_one, Bool.and_eq_true, Bool.or_eq_true, Bool.not_eq_true', ← Bool.not_eq_true, imp_iff_not_or]

/-- The first frame of an output write in a state. -/
def writeFrame (b : Binding) (k : Bank) (f : OutField) (s : State) : Frame :=
  outFrame s.ob[k].clrPending (f.command b) (f.word s.ob[k])

theorem exchanged_outWrite :
    exchanged b (.outWrite k f) s =
      exchangedPairs b (csOut k) (writeFrame b k f s) (attemptsMade b (.outWrite k f) s) s := by
  have hrecs : attemptRecs b (.outWrite k f) s = fun j =>
      [{ cs := csOut k, sent := writeFrame b k f s, echo := echoNo s.env (2 * j) },
        { cs := csOut k, sent := rtFrame b, echo := echoNo s.env (2 * j + 1) }] := by
    funext j
    rw [Nat.mul_comm]
    rfl
  simp only [exchanged, exchangedPairs, hrecs, Xact.exchanges, Xact.twoPhase, if_true, Nat.mul_comm _ 2]

/-- A marker that was sent is cleared, and where none was pending there is none to clear (R154). -/
theorem attemptUpdate_outWrite (e : Frame) (t : State) (hob : t.ob = s.ob) :
    attemptUpdate b (.outWrite k f) s.ob[k].clrPending e t = modOb k (fun o => { o with err := false, clrPending := false }) t := by
  simp only [attemptUpdate, modOb, hob]
  cases s.ob[k].clrPending <;> simp

/-- The n-th pair is the first good one. -/
theorem outWrite_of_first {n : Nat} (hn : n < 3) (hbad : ∀ j, j < n → ¬PairGood b s j) (hok : PairGood b s n) :
    xactValue b (.outWrite k f) s = some (f.word s.ob[k]) ∧
      afterXact b (.outWrite k f) s = modOb k (fun o => { o with err := false, clrPending := false })
        (exchangedPairs b (csOut k) (writeFrame b k f s) (n + 1) s) := by
  obtain ⟨hx, hm⟩ := xact_of_first (b := b) (x := .outWrite k f) (s := s) hn
    (fun j hj => Bool.eq_false_iff.mpr (mt (attemptOk_outWrite j).mp (hbad j hj))) ((attemptOk_outWrite n).mpr hok)
  have hupdate := fun e => attemptUpdate_outWrite (b := b) (k := k) (f := f) (s := s) e
    (exchangedPairs b (csOut k) (writeFrame b k f s) (n + 1) s) rfl
  rw [xactValue_ok hx, afterXact, if_pos hx, exchanged_outWrite, hm]
  exact ⟨rfl, hupdate _⟩

/-- No pair is good. -/
theorem outWrite_of_none (hbad : ∀ j, j < 3 → ¬PairGood b s j) :
    xactValue b (.outWrite k f) s = none ∧
      afterXact b (.outWrite k f) s = modOb k (fun o => { o with err := true })
        (exchangedPairs b (csOut k) (writeFrame b k f s) 3 s) := by
  obtain ⟨hx, hm⟩ := xact_of_none (b := b) (x := .outWrite k f) (s := s) fun j hj =>
    Bool.eq_false_iff.mpr (mt (attemptOk_outWrite j).mp (hbad j hj))
  rw [xactValue_failed hx, afterXact, if_neg (by simp [hx]), exchanged_outWrite, hm]
  exact ⟨rfl, rfl⟩

end

/-! ### The rows of one transaction (R133, R135, R155, R156) -/

section
variable {i : Instr} {x : Xact} {next : Option Byte → Prog} {s : State}

/-- An operation that is one transaction, run whole while the bus lock is free; it is neither pin-mutating nor TICK, so there is
no race to record. -/
theorem exec_transaction {r : Result} (hlegal : legal i = true) (hm : pinMutating i = false) (ht : isTick i = false)
    (hprog : programOf s.cfg i = transaction s.cfg x next) (hnext : next (xactValue s.cfg x s) = .ret r) (hfree : s.lock = .free) :
    exec i s = .next (complete r (afterXact s.cfg x s)) := by
  refine exec_of_leads hlegal ?_
  rw [recordRace_none hm ht, hprog, ← hnext]
  exact transaction_leads s.cfg x next hfree

/-- A row of single exchanges, from what its transaction checks, updates and returns. -/
theorem oneExchangeAttempts_of_transaction {valid : Frame → Bool} {good : Frame → State → State} {result : Frame → Result}
    {bad : State → State} (hlegal : legal i = true) (hm : pinMutating i = false) (ht : isTick i = false)
    (hprog : programOf s.cfg i = transaction s.cfg x next) (hfree : s.lock = .free) (htwo : x.twoPhase = false)
    (hvalid : ∀ e, attemptValid s.cfg x e e = valid e)
    (hgood : ∀ e t, attemptUpdate s.cfg x (acquire s.cfg x s).2.marker e t = good e t)
    (hresult : ∀ e, next (some (attemptValue s.cfg x (acquire s.cfg x s).2.data e)) = .ret (result e))
    (hbad : ∀ t, setErr x t = bad t) (hfail : next none = .ret crcFail) :
    OneExchangeAttempts i x.cs (acquire s.cfg x s).2.frame valid good result bad s := by
  refine ⟨fun n hn hinvalid hfirst => ?first, fun hinvalid => ?none⟩
  all_goals simp only [← hvalid] at hinvalid
  case first =>
    rw [← hvalid] at hfirst
    obtain ⟨hv, ha⟩ := single_of_first htwo hn hinvalid hfirst
    rw [exec_transaction hlegal hm ht hprog (by rw [hv, hresult]) hfree, ha, hgood]
  case none =>
    obtain ⟨hv, ha⟩ := single_of_none htwo hinvalid
    rw [exec_transaction hlegal hm ht hprog (by rw [hv, hfail]) hfree, ha, hbad]

end

/-- The end of a row that returns the value of its transaction (R133, R155, R156). -/
def endWord : Option Byte → Prog
  | some v => .ret (.ok (.word v))
  | none => .ret crcFail

/-- The end of a row that returns no value (R135, R157). -/
def endDone : Option Byte → Prog
  | some _ => .ret okDone
  | none => .ret crcFail

/-- Settles O36. -/
theorem inReadEffect : Obligations.InReadEffect := by
  intro k reg crc s hfree
  have hprog : programOf s.cfg (.inRead k reg crc) = transaction s.cfg (.inRead k (reg.setWidth 8)) endWord := rfl
  exact oneExchangeAttempts_of_transaction rfl rfl rfl hprog hfree rfl (fun _ => rfl) (fun _ _ => rfl) (fun _ => rfl)
    (fun _ => rfl) rfl

/-- Settles O37. -/
theorem inWriteEffect : Obligations.InWriteEffect := by
  intro k reg d crc s hfree
  have hprog : programOf s.cfg (.inWrite k reg d crc) = transaction s.cfg (.inWrite k (reg.setWidth 8) d) endDone := rfl
  exact oneExchangeAttempts_of_transaction rfl rfl rfl hprog hfree rfl (fun _ => rfl) (fun _ _ => rfl) (fun _ => rfl)
    (fun _ => rfl) rfl

/-- Settles O38. -/
theorem outReadEffect : Obligations.OutReadEffect := by
  intro k reg crc s hfree
  have hprog : programOf s.cfg (.outRead k reg crc) = transaction s.cfg (.outRead k reg) endWord := rfl
  exact oneExchangeAttempts_of_transaction rfl rfl rfl hprog hfree rfl (fun _ => rfl) (fun _ _ => rfl) (fun _ => rfl)
    (fun _ => rfl) rfl

/-- Settles O39. -/
theorem outRtstatEffect : Obligations.OutRtstatEffect := by
  intro k s hfree
  have hprog : programOf s.cfg (.outRtstat k) = transaction s.cfg (.rtstat k) endDone := rfl
  exact oneExchangeAttempts_of_transaction rfl rfl rfl hprog hfree rfl (fun _ => rfl) (fun _ _ => rfl) (fun _ => rfl)
    (fun _ => rfl) rfl

/-- Settles O40: the one output write of the row. -/
theorem outSetOutEffect : Obligations.OutSetOutEffect := by
  intro k clr d crc s hfree
  have hprog : programOf s.cfg (.outSetOut k clr d crc) = transaction s.cfg (.outWrite k .setOut) endWord := rfl
  refine ⟨fun n hn hbad hok => ?first, fun hbad => ?none⟩
  case first =>
    obtain ⟨hv, ha⟩ := outWrite_of_first (b := s.cfg) (k := k) (f := .setOut) (s := s) hn hbad hok
    rw [exec_transaction rfl rfl rfl hprog (by rw [hv]; rfl) hfree, ha]
    rfl
  case none =>
    obtain ⟨hv, ha⟩ := outWrite_of_none (b := s.cfg) (k := k) (f := .setOut) (s := s) hbad
    rw [exec_transaction rfl rfl rfl hprog (by rw [hv]; rfl) hfree, ha]
    rfl

/-! ### The configuration writes (R158) -/

/-- The row of a configuration word. -/
def ConfField.row (k : Bank) (clr : Bool) (d : Byte) (crc : BitVec 7) : ConfField → Instr
  | .pp => .outSetPp k clr d crc
  | .olen => .outSetOlen k clr d crc
  | .join => .outSetJoin k clr d crc

/-- Each of the three rows is OUT_CFG of its word, run whole while the bus lock is free. -/
theorem exec_confField (k : Bank) (f : ConfField) (clr : Bool) (d : Byte) (crc : BitVec 7) {s : State} (hfree : s.lock = .free) :
    exec (f.row k clr d crc) s = .next (complete (cfgResult s.cfg k f s) (afterCfg s.cfg k f s)) := by
  have hlegal : legal (f.row k clr d crc) = true := by cases f <;> rfl
  have hrace : recordRace (f.row k clr d crc) s = s := by cases f <;> exact recordRace_none rfl rfl s
  have hprog : programOf s.cfg (f.row k clr d crc) = outCfg s.cfg k f .ret := by cases f <;> rfl
  refine exec_of_leads hlegal ?_
  rw [hrace, hprog]
  exact outCfg_leads s.cfg k f .ret hfree

section
variable {b : Binding} {k : Bank} {f : ConfField} {s : State}

/-- What OUT_CFG comes to when its write fails. -/
theorem outCfg_write_failed (hw : xactValue b (.outWrite k f.out) s = none) :
    cfgResult b k f s = crcFail ∧ afterCfg b k f s = afterXact b (.outWrite k f.out) s := by
  simp only [cfgResult, afterCfg, hw, and_self]

/-- What OUT_CFG comes to when its write succeeds and its read fails. -/
theorem outCfg_read_failed {sent : Byte} (hw : xactValue b (.outWrite k f.out) s = some sent)
    (hr : xactValue b (.outRead k (f.readBack b)) (afterXact b (.outWrite k f.out) s) = none) :
    cfgResult b k f s = crcFail ∧
      afterCfg b k f s = afterXact b (.outRead k (f.readBack b)) (afterXact b (.outWrite k f.out) s) := by
  have hne : crcFail ≠ verifyFail := by decide
  simp only [cfgResult, afterCfg, hw, hr, hne, if_false, and_self]

/-- What OUT_CFG comes to when both succeed. -/
theorem outCfg_read {sent got : Byte} (hw : xactValue b (.outWrite k f.out) s = some sent)
    (hr : xactValue b (.outRead k (f.readBack b)) (afterXact b (.outWrite k f.out) s) = some got) :
    (got = sent → cfgResult b k f s = okDone ∧
      afterCfg b k f s = afterXact b (.outRead k (f.readBack b)) (afterXact b (.outWrite k f.out) s)) ∧
    (got ≠ sent → cfgResult b k f s = verifyFail ∧ afterCfg b k f s =
      modOb k (fun o => { o with err := true }) (afterXact b (.outRead k (f.readBack b)) (afterXact b (.outWrite k f.out) s))) := by
  have hne : okDone ≠ verifyFail := by decide
  constructor <;> intro hgot <;> simp only [cfgResult, afterCfg, hw, hr, hgot, hne, if_true, if_false, and_self]

end

section
variable {b : Binding} {k : Bank} {f : ConfField} {s : State}

/-- The read-back, from the state the write left: no echo is valid. -/
theorem readBack_of_none (hbad : ∀ j, j < 3 → outValid (echoNo s.env j) = false) :
    xactValue b (.outRead k (f.readBack b)) s = none ∧
      afterXact b (.outRead k (f.readBack b)) s = modOb k (fun o => { o with err := true })
        (exchangedTimes (csOut k) (outFrame false b.outCmdReadReg (f.readBack b)) 3 s) :=
  single_of_none (x := .outRead k (f.readBack b)) rfl hbad

/-- The read-back, from the state the write left: the m-th echo is the first valid one. -/
theorem readBack_of_first {m : Nat} (hm : m < 3) (hbad : ∀ j, j < m → outValid (echoNo s.env j) = false)
    (hok : outValid (echoNo s.env m) = true) :
    xactValue b (.outRead k (f.readBack b)) s = some (echoWord (echoNo s.env m) b.outReadValuePos) ∧
      afterXact b (.outRead k (f.readBack b)) s = modOb k (fun o => { o with err := false })
        (exchangedTimes (csOut k) (outFrame false b.outCmdReadReg (f.readBack b)) (m + 1) s) :=
  single_of_first (x := .outRead k (f.readBack b)) rfl hm hbad hok

end

/-- O41's statement at the field itself: its command, word and register are the model's, field by field. -/
theorem exec_confField_cases (k : Bank) (f : ConfField) (clr : Bool) (d : Byte) (crc : BitVec 7) {s : State}
    (hfree : s.lock = .free) :
    ((∀ j : Nat, j < 3 → ¬PairGood s.cfg s j) → exec (f.row k clr d crc) s =
      .next (complete crcFail (modOb k (fun o => { o with err := true })
        (exchangedPairs s.cfg (csOut k) (writeFrame s.cfg k f.out s) 3 s)))) ∧
    ∀ n : Nat, n < 3 → (∀ j : Nat, j < n → ¬PairGood s.cfg s j) → PairGood s.cfg s n →
      let w := modOb k (fun o => { o with err := false, clrPending := false })
        (exchangedPairs s.cfg (csOut k) (writeFrame s.cfg k f.out s) (n + 1) s)
      let readFrame := outFrame false s.cfg.outCmdReadReg (f.readBack s.cfg)
      ((∀ j : Nat, j < 3 → outValid (echoNo w.env j) = false) → exec (f.row k clr d crc) s =
        .next (complete crcFail (modOb k (fun o => { o with err := true }) (exchangedTimes (csOut k) readFrame 3 w)))) ∧
      ∀ m : Nat, m < 3 → (∀ j : Nat, j < m → outValid (echoNo w.env j) = false) → outValid (echoNo w.env m) = true →
        let r := exchangedTimes (csOut k) readFrame (m + 1) w
        let value := echoWord (echoNo w.env m) s.cfg.outReadValuePos
        (value = f.out.word s.ob[k] → exec (f.row k clr d crc) s =
          .next (complete okDone (modOb k (fun o => { o with err := false }) r))) ∧
        (value ≠ f.out.word s.ob[k] → exec (f.row k clr d crc) s =
          .next (complete verifyFail (modOb k (fun o => { o with err := true }) r))) := by
  rw [exec_confField k f clr d crc hfree]
  refine ⟨fun hbad => ?failed, fun n hn hbad hok => ?written⟩
  case failed =>
    obtain ⟨hv, ha⟩ := outWrite_of_none (b := s.cfg) (k := k) (f := f.out) hbad
    obtain ⟨hresult, hafter⟩ := outCfg_write_failed hv
    rw [hresult, hafter, ha]
  case written =>
    intro w readFrame
    obtain ⟨hv, ha⟩ : _ ∧ afterXact s.cfg (.outWrite k f.out) s = w := outWrite_of_first hn hbad hok
    refine ⟨fun hinvalid => ?unread, fun m hm hinvalid hfirst => ⟨fun hsame => ?same, fun hdiffers => ?differs⟩⟩
    case unread =>
      obtain ⟨hr, hra⟩ := readBack_of_none (b := s.cfg) (k := k) (f := f) hinvalid
      obtain ⟨hresult, hafter⟩ := outCfg_read_failed hv (ha ▸ hr)
      rw [hresult, hafter, ha, hra]
    all_goals
      obtain ⟨hr, hra⟩ := readBack_of_first (b := s.cfg) (k := k) (f := f) hm hinvalid hfirst
      obtain ⟨hequal, hunequal⟩ := outCfg_read hv (by rw [ha]; exact hr)
    case same =>
      obtain ⟨hresult, hafter⟩ := hequal hsame
      rw [hresult, hafter, ha, hra]
    case differs =>
      obtain ⟨hresult, hafter⟩ := hunequal hdiffers
      rw [hresult, hafter, ha, hra, modOb_modOb]
      rfl

/-- Settles O41: the write by its first good pair, then the read-back by its first valid echo, from the state the write left. -/
theorem outConfigEffect : Obligations.OutConfigEffect := by
  intro k f clr d crc s hfree
  have hcases := exec_confField_cases k f clr d crc hfree
  cases f <;> exact hcases

end Sys2Proof.Machine
end

section
/-! A context that is alone (10_state.md R48; 30_encoding.md R87, R92; 60_exceptions.md R315, R317): it takes its next request and
runs it whole; a reserved opcode costs one word and answers `FAIL(ARG)`. -/

namespace Sys2Proof.Machine

/-! ### The only context with work -/

/-- With no bad binding on record a step moves the context that alone has work, whichever it is. -/
theorem step_of_alone {c : Ctx} {s : State} (hbinding : ModelFault.badBinding ∉ s.faults) (hwork : hasWork c s = true)
    (hother : hasWork (otherCtx c) s = false) : step s = runAlone (withCur c s) := by
  have hmoves : step s = advance s := if_neg (by simpa using hbinding)
  rw [hmoves]
  match c with
  | 0 =>
    have h1 : hasWork 1 s = false := hother
    simp only [advance, hwork, h1]
  | 1 =>
    have h0 : hasWork 0 s = false := hother
    simp only [advance, hwork, h0]

theorem runAlone_instr {i : Instr} {s t : State} (hidle : s.op[s.cur] = .idle) (hfetch : fetch s = .instr i t) :
    runAlone s = exec i t := by
  simp only [runAlone, remaining_idle hidle, hfetch]

theorem runAlone_reserved {s t : State} (hidle : s.op[s.cur] = .idle) (hfetch : fetch s = .reserved t) :
    runAlone s = .next (complete (.fail .arg) t) := by
  simp only [runAlone, remaining_idle hidle, hfetch]

/-! ### What it finds (R87) -/

section
variable {c : Ctx} {s : State}

theorem fetch_host {i : Instr} {rest : List U32} (hbus : s.busReq[c] = []) (hdec : decodeHost s.req[c] = .ok (i, rest)) :
    fetch (withCur c s) = .instr i { s with cur := c, req := s.req.set c rest } := by
  unfold fetch
  simp only [withCur_busReq, withCur_req, withCur_cur, hbus, hdec]
  rfl

theorem fetch_frame {i : Instr} {cs : ChipSelect} {f : BitVec 24} {rest : List (ChipSelect × BitVec 24)}
    (hbus : s.busReq[c] = (cs, f) :: rest) (hdec : decodeFrame s.cfg cs f = .ok i) :
    fetch (withCur c s) = .instr i { s with cur := c, busReq := s.busReq.set c rest } := by
  unfold fetch
  simp only [withCur_busReq, withCur_cfg, withCur_cur, hbus, hdec]
  rfl

theorem fetch_reserved {op : Byte} (hbus : s.busReq[c] = []) (hdec : decodeHost s.req[c] = .error (.reservedOpcode op)) :
    fetch (withCur c s) = .reserved { s with cur := c, req := s.req.set c s.req[c].tail } := by
  unfold fetch
  simp only [withCur_busReq, withCur_req, withCur_cur, hbus, hdec]
  rfl

theorem hasWork_host {i : Instr} {rest : List U32} (hdec : decodeHost s.req[c] = .ok (i, rest)) : hasWork c s = true := by
  simp only [hasWork, hdec, Bool.or_true]

theorem hasWork_frame {x : ChipSelect × BitVec 24} {rest : List (ChipSelect × BitVec 24)} (hbus : s.busReq[c] = x :: rest) :
    hasWork c s = true := by
  simp only [hasWork, hbus, List.isEmpty_cons, Bool.not_false, Bool.or_true, Bool.true_or]

theorem hasWork_reserved {op : Byte} (hdec : decodeHost s.req[c] = .error (.reservedOpcode op)) : hasWork c s = true := by
  simp only [hasWork, hdec, Bool.or_true]

end

/-- Settles O46: the context is alone with work, and finds that request. -/
theorem stepRunsDecoded : Obligations.StepRunsDecoded := by
  refine fun c s i hbinding hidle hother => ⟨fun rest hbus hdec => ?host, fun cs f rest hbus hdec => ?frame⟩
  case host =>
    rw [step_of_alone hbinding (hasWork_host hdec) hother, runAlone_instr hidle (fetch_host hbus hdec)]
  case frame =>
    rw [step_of_alone hbinding (hasWork_frame hbus) hother, runAlone_instr hidle (fetch_frame hbus hdec)]

/-! ### Reserved opcodes (R92) -/

/-- The opcodes that R91 leaves out have no row. -/
theorem decodeRow_reserved {op : Byte} (h : 0x19 ≤ op.toNat ∨ op.toNat = 0 ∨ op.toNat = 0x0E ∨ op.toNat = 0x0F)
    (a b c : Byte) (rest : List U32) : decodeRow op a b c rest = .error (.reservedOpcode op) := by
  unfold decodeRow
  split <;> first | rfl | omega

/-- Settles O11. -/
theorem reservedOpcodeStep : Obligations.ReservedOpcodeStep := by
  intro c s h rest hop hbinding hidle hbus hreq hother
  have hdec : decodeHost s.req[c] = .error (.reservedOpcode (headOp h)) := by
    rw [hreq]
    exact decodeRow_reserved hop _ _ _ _
  rw [step_of_alone hbinding (hasWork_reserved hdec) hother, runAlone_reserved hidle (fetch_reserved hbus hdec), hreq]
  rfl

/-! ### A bad binding (R11, R84, R317) -/

theorem below80_iff (v : Byte) : below80 v = true ↔ v.toNat < 0x80 := by
  revert v
  decide

/-- The sets of slots with two elements. -/
theorem twoSlots_iff : ∀ v : BitVec 4, twoSlots v = true ↔
    ∃ i j : Fin 4, i < j ∧ ∀ k : Fin 4, v.getLsbD k.val = true ↔ k = i ∨ k = j := by
  decide

/-- Settles O59: reset records a binding that fails the check, and a step looks for that record first. -/
theorem badBindingNeverRuns : Obligations.BadBindingNeverRuns := by
  have hrecorded (s : State) (h : ModelFault.badBinding ∈ s.faults) : step s = .fault .badBinding := if_pos (by simpa using h)
  refine ⟨fun b hbad => hrecorded _ ?atReset, hrecorded, fun b => ?check⟩
  case atReset =>
    show ModelFault.badBinding ∈ (if bindingOk b then [] else [ModelFault.badBinding])
    simp [hbad]
  case check =>
    rw [← twoSlots_iff]
    simp only [bindingOk, Bool.and_eq_true, List.all_eq_true, beq_iff_eq, below80_iff, List.cons_append, List.nil_append,
      List.forall_mem_cons]
    tauto

end Sys2Proof.Machine
end

section
/-! The bank operations, the pin maps, the join rule, and a bus operation that has to wait (46_pin_api.md R256, R261, R267;
41_input_bank.md R136; 42_output_bank.md R160 to R162; 40_bus_arbiter.md R111). -/

namespace Sys2Proof.Machine

/-! ### Bank operations -/

/-- Settles O13: one unit, and no race to record. -/
theorem clearfaultsMarks : Obligations.ClearfaultsMarks := by
  intro s
  refine exec_oneUnit rfl rfl blind_clearfaults ?_
  rw [recordRace_none rfl rfl]
  have hboth : (modOb 1 (fun o => { o with clrPending := true }) (modOb 0 (fun o => { o with clrPending := true }) s)).ob =
      #v[{ s.ob[0] with clrPending := true }, { s.ob[1] with clrPending := true }] := by
    apply Vector.ext
    intro j hj
    have hj2 : j = 0 ∨ j = 1 := by omega
    rcases hj2 with rfl | rfl <;> simp
  rw [← hboth]
  rfl

theorem toNat_bankByte (k : Bank) : (bankByte k).toNat = k.val := by
  rw [bankByte, BitVec.toNat_ofNat, Nat.mod_eq_of_lt (by omega)]

theorem bank?_bankByte (k : Bank) : bank? (bankByte k) = some k := by
  simp [bank?, toNat_bankByte, Nat.le_of_lt_succ k.isLt]

/-- Settles O14: one unit, and no race to record; a bank field above 1 is illegal (R90). -/
theorem setovpWrites : Obligations.SetovpWrites := by
  refine ⟨fun k en s => ?bank, fun a en s ha => ?outside⟩
  case bank =>
    have hlegal : legal (.setovp (bankByte k) (boolByte en) 0) = true := by
      simp [legal, bank?_bankByte, boolOk_boolByte, unused]
    refine exec_oneUnit hlegal ?_ (blind_setovp k en) ?_
    · simp only [programOf, setovpProg, bank?_bankByte, boolField_boolByte]
    · rw [recordRace_none rfl rfl]
      rfl
  case outside =>
    refine illegalFieldsRefused _ s fun hfields => ?_
    obtain ⟨hbank, -⟩ := hfields
    omega

/-! ### Pins -/

/-- Settles O6: the two cases of the maps, by the number of the pin. -/
theorem pinMaps : Obligations.PinMaps := by
  intro p
  have hp := p.isLt
  by_cases h : p.val + 1 ≤ 8
  · have hin : (inChan p).val = 7 - p.val := by simp [inChan, pinNum, h]
    have hout : (outChan p).val = p.val := by simp [outChan, pinNum, h]
    simp only [inBank, outBank, hin, hout, pinNum, h, if_true]
    refine ⟨fun _ => ⟨rfl, ?_, rfl, rfl⟩, fun h9 => ?_, ?_⟩ <;> omega
  · have hin : (inChan p).val = 15 - p.val := by simp [inChan, pinNum, h]
    have hout : (outChan p).val = p.val - 8 := by simp [outChan, pinNum, h]
    simp only [inBank, outBank, hin, hout, pinNum, h, if_false]
    refine ⟨False.elim, fun _ => ⟨rfl, ?_, rfl, ?_⟩, ?_⟩ <;> omega

/-! ### The join rule (R161, R162, R267) -/

theorem outChan_mod_four (q : Pin) : (outChan q).val % 4 = q.val % 4 := by
  unfold outChan pinNum
  split <;> simp only <;> omega

/-- The pins of a group are the pins at its four slots. -/
theorem forall_group_iff {p : Pin} {P : Pin → Prop} :
    (∀ q : Pin, q.val / 4 = p.val / 4 → P q) ↔ ∀ i : Fin 4, P (groupPin p i) := by
  constructor
  · intro h i
    refine h _ ?_
    simp only [groupPin]
    omega
  · intro h q hq
    have hself : groupPin p ⟨q.val % 4, by omega⟩ = q := by
      simp only [groupPin, Fin.ext_iff]
      omega
    exact hself ▸ h _

theorem slotAllowed_iff (b : Binding) (mode : Vector PinMode 16) (p : Pin) (i : Fin 4) : slotAllowed b mode p i = true ↔
    if b.joinSlots.getLsbD ((outChan (groupPin p i)).val % 4) then mode[groupPin p i] = .hs
    else mode[groupPin p i] = .hs ∨ mode[groupPin p i] = .input := by
  have hslot : (outChan (groupPin p i)).val % 4 = i.val := by
    rw [outChan_mod_four]
    simp only [groupPin]
    omega
  rw [hslot]
  unfold slotAllowed joinCapable
  split_ifs <;> simp

theorem joinAllowed_iff (b : Binding) (mode : Vector PinMode 16) (p : Pin) :
    joinAllowed b mode p = true ↔ ∀ i : Fin 4, slotAllowed b mode p i = true := by
  simp [joinAllowed, Fin.forall_fin_succ, and_assoc]

/-- Settles O7: the group's pins by their slots. -/
theorem joinRule : Obligations.JoinRule := by
  refine ⟨fun b mode p => ?allowed, fun b p md s => ?broken⟩
  case allowed =>
    rw [forall_group_iff, joinAllowed_iff]
    exact forall_congr' fun i => slotAllowed_iff b mode p i
  case broken =>
    have hjoined : (∃ q : Pin, q.val / 4 = p.val / 4 ∧ bit s.ob[outBank q].join (outChan q) = true) ↔
        ∃ i : Fin 4, slotJoined s p i = true := by
      rw [← not_iff_not]
      push Not
      exact forall_group_iff
    rw [hjoined]
    simp [joinBroken, Fin.exists_fin_succ, or_assoc]

/-! ### Waiting for the lock (R111) -/

/-- The programs whose first unit is the ACQ of an attempt. -/
def StartsAtAcq : Prog → Prop
  | .unit kind _ _ => kind = .acq
  | .ret _ => False

/-- At an ACQ a context waits while the lock is held. -/
theorem waits_of_startsAtAcq {p : Prog} (hp : StartsAtAcq p) {s : State} (h : s.lock ≠ .free) :
    drive p s = s ∧ takeUnit p s = s := by
  match p, hp with
  | .unit .acq act next, _ =>
    have hwaits : enabled .acq s = false := by simp [enabled, h]
    exact ⟨by rw [drive, hwaits]; rfl, by rw [takeUnit, hwaits]; rfl⟩

/-- Settles O42: the first unit of such an operation is an ACQ, which is not enabled. -/
theorem waitsForLock : Obligations.WaitsForLock := by
  intro i s hheld hrow
  have hstarts : StartsAtAcq (programOf s.cfg i) ∧ legal i = true := by
    cases i
    case inRead | inWrite | outSetOut | outSetPp | outSetOlen | outSetJoin | outRead | outRtstat => exact ⟨rfl, rfl⟩
    all_goals exact hrow.elim
  obtain ⟨hstart, hlegal⟩ := hstarts
  have hbegin : beginOp i s =
      { recordRace i s with op := s.op.set s.cur (.busy i []), resp := s.resp.set s.cur none } := by
    simp only [beginOp, startOp, recordRace_op, recordRace_cur, recordRace_resp]
  have hbusy : (beginOp i s).lock ≠ .free := by simp [hheld]
  rw [← hbegin]
  obtain ⟨hdrive, hunit⟩ := waits_of_startsAtAcq hstart hbusy
  refine ⟨?_, ?_⟩
  · rw [exec_eq, runOp_legal _ hlegal, hdrive]
  · rw [unitStep_busy (beginOp_busy i s), beginOp_cfg]
    exact hunit

end Sys2Proof.Machine
end

section
/-! Configuration and join (46_pin_api.md R250, R251; 42_output_bank.md R161, R162): the checks, the run of S1 to S4, and the
join write with its read-back. -/

namespace Sys2Proof.Machine

/-! ### The fields of CONFIG -/

theorem cfgMode?_modeByte {md : PinMode} (h : md ≠ .unconf) : cfgMode? (modeByte md) = some md := by
  cases md with
  | unconf => exact absurd rfl h
  | input | hs | pp => rfl

theorem legal_config {p : Pin} {md : PinMode} {det : Bool} (h : md ≠ .unconf) :
    legal (.config (pinByte p) (modeByte md) (boolByte det)) = true := by
  simp [legal, pin16?_pinByte, cfgMode?_modeByte h, boolOk_boolByte]

/-! ### Its checks (R250, R304) -/

theorem configCheck_recordRace (b : Binding) (p : Pin) (md : PinMode) (det : Bool) (i : Instr) (s : State) :
    configCheck b p md det (recordRace i s) = configCheck b p md det s := by
  simp only [configCheck, joinBroken_recordRace, thLocked, recordRace_ob]
  rfl

theorem configCheck_eq_none {b : Binding} {p : Pin} {md : PinMode} {det : Bool} {s : State} (hdet : ¬(md = .pp ∧ det = true))
    (hjoin : joinBroken b p md s = false) (hth : ¬(md = .pp ∧ thLocked p s = true)) : configCheck b p md det s = none := by
  simp only [configCheck, hdet, hjoin, hth, if_false, Bool.false_eq_true]

/-- A CONFIG that fails a check, run whole, whoever holds the bus lock. -/
theorem exec_config_refused {p : Pin} {md : PinMode} {det : Bool} {s : State} {f : Failure} (hmd : md ≠ .unconf)
    (hcheck : configCheck s.cfg p md det s = some f) :
    exec (.config (pinByte p) (modeByte md) (boolByte det)) s =
      .next (complete (.fail f) (recordRace (.config (pinByte p) (modeByte md) (boolByte det)) s)) := by
  refine exec_of_leads (legal_config hmd) ?_
  simp only [programOf, configProg, pin16?_pinByte, cfgMode?_modeByte hmd, boolField_boolByte]
  exact loc_finish_leads (blind_configFirst _ _ _ _) (configFirst_of_check ((configCheck_recordRace ..).trans hcheck))

/-- Settles O21: each is the first check that fails. -/
theorem configRefused : Obligations.ConfigRefused := by
  intro p md det s hmd
  refine ⟨fun hdet => exec_config_refused hmd ?_, fun hjoin => exec_config_refused hmd ?_,
    fun ⟨hpp, hdet, hjoin, hth⟩ => exec_config_refused hmd ?_⟩
  · rw [configCheck, if_pos hdet]
  · by_cases hdet : md = .pp ∧ det = true
    · rw [configCheck, if_pos hdet]
    · rw [configCheck, if_neg hdet, if_pos hjoin]
  · have hlocked : thLocked p s = true := hth
    simp [configCheck, hpp, hdet, hpp ▸ hjoin, hlocked]

/-! ### Its stages (R250) -/

theorem configS1_eq (p : Pin) (s : State) : configS1 p s = configDrop p s := by
  obtain ⟨hov, -⟩ := locked_setIntent p false s
  unfold configS1 configDrop
  dsimp only
  rw [hov]
  cases h : ovLocked p s with
  | true => rw [show s.ob[outBank p].ovLock.getLsbD (outChan p).val = true from h, Bool.not_true, putLevel_false]; rfl
  | false => rw [show s.ob[outBank p].ovLock.getLsbD (outChan p).val = false from h, Bool.not_false, putLevel_true]; rfl

theorem configS2_eq (p : Pin) (md : PinMode) (s : State) : configS2 p md s = configPushPull p (md = .pp) s := rfl

section
variable (b : Binding) (p : Pin) (md : PinMode) (det : Bool) (s : State)

/-- The transaction of S4. -/
def wireXact : Xact := .inWrite (inBank p) b.inRegCfg[inChan p] (inCfgData b (md = .input && det))

/-- The state in which S3 writes the device. -/
def olenStart : State := configS3 p md det (afterCfg b (outBank p) .pp s)

/-- The state in which S4 writes the device. -/
def wireStart : State := configS4 p md det (afterCfg b (outBank p) .olen (olenStart b p md det s))

end

section
variable {b : Binding} {p : Pin} {md : PinMode} {det : Bool} {s : State}

theorem configTail_of_pp_failed {f : Failure} (hpp : cfgResult b (outBank p) .pp s = .fail f) :
    configTail b p md det s = (afterCfg b (outBank p) .pp s, .fail f) := by
  simp only [configTail, hpp]

theorem olenStart_eq : olenStart b p md det s = modOb (outBank p)
    (fun o => { o with olen := setBit o.olen (outChan p) (md = .hs ∧ det = true) }) (afterCfg b (outBank p) .pp s) := by
  simp only [olenStart, configS3, Bool.decide_and, Bool.decide_eq_true]

theorem configTail_of_olen_failed {v : Value} {f : Failure} (hpp : cfgResult b (outBank p) .pp s = .ok v)
    (holen : cfgResult b (outBank p) .olen (olenStart b p md det s) = .fail f) :
    configTail b p md det s = (afterCfg b (outBank p) .olen (olenStart b p md det s), .fail f) := by
  rw [olenStart_eq] at holen ⊢
  simp only [configTail, hpp, holen]

/-- With S2 and S3 done, S4 decides. -/
theorem configTail_of_olen {v v' : Value} (hpp : cfgResult b (outBank p) .pp s = .ok v)
    (holen : cfgResult b (outBank p) .olen (olenStart b p md det s) = .ok v') :
    configTail b p md det s =
      if xactOk b (wireXact b p md det) (wireStart b p md det s) then
        (setMode p md (afterXact b (wireXact b p md det) (wireStart b p md det s)), okDone)
      else (afterXact b (wireXact b p md det) (wireStart b p md det s), crcFail) := by
  have hwire : (decide (md = .input) && det) = decide (md = .input ∧ det = true) := by
    rw [Bool.decide_and, Bool.decide_eq_true]
  unfold wireStart wireXact configS4 inCfgData
  rw [hwire]
  rw [olenStart_eq] at holen ⊢
  simp only [configTail, hpp, holen]
  rfl

/-- From the device write of S2 on, when the lock is free. -/
theorem configRest_leads (hfree : s.lock = .free) :
    Leads (configRest b p md det) s (.ret (configTail b p md det s).2) (configTail b p md det s).1 := by
  refine (outCfg_leads b _ _ _ hfree).trans ?_
  cases hpp : cfgResult b (outBank p) .pp s with
  | fail f =>
    rw [configTail_of_pp_failed hpp]
    exact .refl _ _
  | ok v =>
    have hfree3 : (olenStart b p md det s).lock = .free := by rw [olenStart_eq, modOb_lock, afterCfg_lock, hfree]
    refine (Leads.loc (blind_configS3 p md det)).trans ((outCfg_leads b _ _ _ hfree3).trans ?_)
    cases holen : cfgResult b (outBank p) .olen (olenStart b p md det s) with
    | fail f =>
      rw [configTail_of_olen_failed hpp holen]
      exact .refl _ _
    | ok v' =>
      have hfree4 : (wireStart b p md det s).lock = .free := by
        rw [wireStart, configS4, modIb_lock, afterCfg_lock, hfree3]
      refine (Leads.loc (blind_configS4 p md det)).trans ((transaction_leads b (wireXact b p md det) _ hfree4).trans ?_)
      rw [configTail_of_olen hpp holen]
      cases hok : xactOk b (wireXact b p md det) (wireStart b p md det s) with
      | true =>
        rw [xactValue_ok hok]
        exact Leads.loc (blind_setMode p md)
      | false =>
        rw [xactValue_failed hok]
        exact .refl _ _

theorem configFirst_of_passed (hcheck : configCheck b p md det s = none) :
    configFirst b p md det s = if md = .input then (configDrop p s, .send (outBank p)) else (configPushPull p (md = .pp) s, .done) := by
  simp only [configFirst, hcheck, configS1_eq, configS2_eq]

/-- CONFIG after its checks, when the lock is free. -/
theorem config_leads (hmd : md ≠ .unconf) (hfree : s.lock = .free) (hcheck : configCheck b p md det s = none) :
    Leads (programOf b (.config (pinByte p) (modeByte md) (boolByte det))) s (.ret (configRun b p md det s).2)
      (configRun b p md det s).1 := by
  simp only [programOf, configProg, pin16?_pinByte, cfgMode?_modeByte hmd, boolField_boolByte]
  have hleads := Leads.loc (next := fun a => match a with
      | .finish r => .ret r
      | .send k =>
        transaction b (.outWrite k .setOut) fun w =>
          match w with
          | none => .ret crcFail
          | some _ => loc (fun s => (configS2 p md s, .done)) fun _ => configRest b p md det
      | _ => configRest b p md det) (s := s) (blind_configFirst b p md det)
  rw [configFirst_of_passed hcheck] at hleads
  refine hleads.trans ?_
  unfold configRun
  by_cases hin : md = .input
  · subst hin
    simp only [if_true]
    have hfree1 : (configDrop p s).lock = .free := hfree
    refine (transaction_leads b _ _ hfree1).trans ?_
    cases hok : xactOk b (.outWrite (outBank p) .setOut) (configDrop p s) with
    | true =>
      rw [xactValue_ok hok]
      refine (Leads.loc (blind_configS2 p _)).trans (configRest_leads ?_)
      exact (afterXact_lock ..).trans hfree1
    | false =>
      rw [xactValue_failed hok]
      exact .refl _ _
  · simp only [if_neg hin]
    exact configRest_leads hfree

end

/-- Settles O22: the checks pass, and the units come to the rule read straight through. -/
theorem configEffect : Obligations.ConfigEffect := by
  intro p md det s hmd hfree hdet hjoin hth
  refine exec_of_leads (legal_config hmd) (config_leads hmd ((recordRace_lock _ s).trans hfree) ?_)
  rw [configCheck_recordRace]
  exact configCheck_eq_none hdet hjoin hth

/-! ### JOIN (R251) -/

section
variable {p : Pin} {en : Bool} {s : State}

theorem legal_join : legal (.join (pinByte p) (boolByte en) 0) = true := by
  simp [legal, pin16?_pinByte, boolOk_boolByte, unused]

/-- Settles O24. -/
theorem joinEffect : Obligations.JoinEffect := by
  refine fun p en s => ⟨fun ⟨hon, hforbidden⟩ => ?refused, fun hallowed hfree => ?joins⟩
  case refused =>
    refine exec_of_leads legal_join ?_
    simp only [programOf, joinProg, pin16?_pinByte, boolField_boolByte]
    refine loc_finish_leads (blind_joinFirst _ _ _) ?_
    simp only [joinFirst, recordRace_mode, hon, hforbidden, Bool.not_false, Bool.and_self, if_true]
  case joins =>
    have hrule : (en && !joinAllowed s.cfg s.mode p) = false := by
      obtain hoff | hrule := hallowed
      · rw [hoff, Bool.false_and]
      · rw [hrule, Bool.not_true, Bool.and_false]
    refine exec_of_leads legal_join ?_
    simp only [programOf, joinProg, pin16?_pinByte, boolField_boolByte]
    have hleads := Leads.loc (next := fun a => match a with
      | .finish r => .ret r
      | _ => outCfg s.cfg (outBank p) .join .ret) (s := recordRace (.join (pinByte p) (boolByte en) 0) s)
      (blind_joinFirst s.cfg p en)
    simp only [joinFirst, recordRace_mode, hrule, Bool.false_eq_true, if_false] at hleads
    exact hleads.trans (outCfg_leads _ _ _ _ ((recordRace_lock _ s).trans hfree))

end

end Sys2Proof.Machine
end

section
/-! The conditioning operations and the debounce gate (46_pin_api.md R257, R259, R260; 45_conditioning.md R220, R224, R232). -/

namespace Sys2Proof.Machine

/-! ### What the record of a race leaves alone -/

section
variable (i : Instr) (s : State)

theorem nowMs_recordRace : nowMs (recordRace i s) = nowMs s := by simp only [nowMs, recordRace_env]

theorem nowUs_recordRace : nowUs (recordRace i s) = nowUs s := by simp only [nowUs, recordRace_env]

theorem pinLevel_recordRace (p : Pin) : pinLevel p (recordRace i s) = pinLevel p s := by
  simp only [pinLevel, recordRace_mode, recordRace_ib, recordRace_ob]

end

/-! ### SUBSCRIBE (R257) -/

theorem toNat_subByte (k : SubIx) : (subByte k).toNat = k.val + 1 := by
  rw [subByte, BitVec.toNat_ofNat, Nat.mod_eq_of_lt (by omega)]

theorem pin20?_subByte (k : SubIx) : pin20? (subByte k) = some k := by
  have hle : k.val + 1 ≤ 20 := k.isLt
  simp [pin20?, toNat_subByte, hle]

theorem sample_sub (k : SubIx) (s : State) : (sample k s).2.sub = s.sub := by
  unfold sample
  split <;> rfl

theorem exec_subscribe {k : SubIx} {interval cb : U32} {s t : State} {r : Result}
    (hunit : subscribeUnit s.cfg k interval cb (recordRace (.subscribe (subByte k) 0 0 interval cb) s) = (t, .finish r)) :
    exec (.subscribe (subByte k) 0 0 interval cb) s = .next (complete r t) := by
  have hlegal : legal (.subscribe (subByte k) 0 0 interval cb) = true := by simp [legal, pin20?_subByte, unused]
  refine exec_oneUnit hlegal ?_ (blind_subscribe _ _ _ _) hunit
  simp only [programOf, subscribeProg, pin20?_subByte]

/-- Settles O25: the cases of its unit. -/
theorem subscribeEffect : Obligations.SubscribeEffect := by
  intro k interval cb s
  refine ⟨fun hnull => exec_subscribe ?_, fun hcb hunknown => exec_subscribe ?_, fun hcb hsample => exec_subscribe ?_⟩
  · simp only [subscribeUnit, hnull, if_true, setSub, recordRace_sub]
  · simp only [subscribeUnit, hcb, if_false, hunknown, setSub, afterMs, recordRace_sub, recordRace_env, nowMs_recordRace]
  · have hkept : (sample k (afterMs (recordRace (.subscribe (subByte k) 0 0 interval cb) s))).2.sub = s.sub :=
      (sample_sub ..).trans (recordRace_sub _ s)
    simp only [subscribeUnit, hcb, if_false, hsample, setSub, hkept, nowMs_recordRace]

/-! ### LINK (R259) -/

theorem linkMode?_linkByte (lm : LinkMode) : linkMode? (linkByte lm) = some lm := by
  cases lm <;> rfl

theorem exec_link {p q : Pin} {lm : LinkMode} {interval : U32} {s t : State} {r : Result}
    (hunit : linkUnit s.cfg p q lm interval (recordRace (.link (pinByte p) (pinByte q) (linkByte lm) interval) s) =
      (t, .finish r)) :
    exec (.link (pinByte p) (pinByte q) (linkByte lm) interval) s = .next (complete r t) := by
  have hlegal : legal (.link (pinByte p) (pinByte q) (linkByte lm) interval) = true := by
    simp [legal, pin16?_pinByte, linkMode?_linkByte]
  refine exec_oneUnit hlegal ?_ (blind_link _ _ _ _ _) hunit
  simp only [programOf, linkProg, pin16?_pinByte, linkMode?_linkByte]

/-- Settles O26: the cases of its unit. -/
theorem linkEffect : Obligations.LinkEffect := by
  refine fun p q lm interval s => ⟨fun hnone => exec_link ?_, fun hlm => exec_link ?_⟩
  · simp only [linkUnit, hnone, if_true, setLink, recordRace_link]
  · have hlevel (t : State) : pinLevel p (afterMs t) = pinLevel p t := rfl
    simp only [linkUnit, hlm, if_false, setLink, initStable, hlevel, pinLevel_recordRace, nowMs_recordRace]
    cases s.cfg.initStable <;> simp only [afterMs, recordRace_link, recordRace_env]

/-! ### PWM (R260, R232) -/

section
variable {p : Pin} {f : U32} {d : BitVec 16} {s : State}

theorem legal_pwm : legal (.pwm (pinByte p) 0 0 f (d.setWidth 32)) = true := by
  have hduty : dutyOk (d.setWidth 32) = true := by
    rw [dutyOk, beq_iff_eq]
    apply BitVec.eq_of_toNat_eq
    simp [Nat.shiftRight_eq_div_pow]
    omega
  simp [legal, pin16?_pinByte, unused, hduty]

theorem duty_setWidth : duty (d.setWidth 32) = d.toNat := by
  simpa [duty] using d.isLt

theorem programOf_pwm : programOf s.cfg (.pwm (pinByte p) 0 0 f (d.setWidth 32)) =
    writeThrough s.cfg (pwmUnit p f.toNat d.toNat) .ret := by
  simp only [programOf, pwmProg, pin16?_pinByte, duty_setWidth]

theorem exec_pwm_finish {r : Result} {t : State}
    (hunit : pwmUnit p f.toNat d.toNat (recordRace (.pwm (pinByte p) 0 0 f (d.setWidth 32)) s) = (t, .finish r)) :
    exec (.pwm (pinByte p) 0 0 f (d.setWidth 32)) s = .next (complete r t) :=
  exec_writeThrough_finish legal_pwm programOf_pwm (blind_pwm _ _ _) hunit

end

/-- Settles O27: the cases of its unit; with duty 0 that is the write of LOW, after the channel is disabled. -/
theorem pwmEffect : Obligations.PwmEffect := by
  refine fun p f d s => ⟨fun hmode => exec_pwm_finish ?notPp, fun hpp hzero => ?disable, fun hpp hd hf => exec_pwm_finish ?range,
    fun hpp hd hlow hhigh => exec_pwm_finish ?starts⟩
  case notPp => simp only [pwmUnit, recordRace_mode, hmode, if_false]
  case disable =>
    refine writesLevel_of_act legal_pwm programOf_pwm (blind_pwm _ _ _) ?_ (recordRace_lock _ s)
    simp only [pwmUnit, recordRace_mode, hpp, hzero, BitVec.toNat_zero, if_true, setPwm, recordRace_pwm]
  all_goals have hduty : d.toNat ≠ 0 := fun h => hd (BitVec.eq_of_toNat_eq h)
  case range => simp only [pwmUnit, recordRace_mode, hpp, if_true, hduty, if_false, Config.pwmUsPerS, hf]
  case starts =>
    have hrange : ¬(f.toNat = 0 ∨ 1000000 < f.toNat) := by omega
    simp only [pwmUnit, recordRace_mode, hpp, if_true, hduty, if_false, Config.pwmUsPerS, hrange, setPwm, afterUs,
      nowUs_recordRace, recordRace_pwm, recordRace_env, pwmPeriod, pwmOn, Config.dutyFull]

/-! ### The debounce gate (R220, R224) -/

section
variable {g : Gate} {lv : Bool} {now : U32}

theorem debounce_equal (h : g.stable = some lv) : debounce g lv now = ({ g with lastMatch := now }, false) := by
  rw [debounce, if_pos h]

theorem debounce_waits (hdiffers : g.stable ≠ some lv) (hearly : (now - g.lastMatch).toNat < g.interval.toNat) :
    debounce g lv now = (g, false) := by
  rw [debounce, if_neg hdiffers, if_neg]
  rw [reached_iff]
  omega

theorem debounce_commits (hdiffers : g.stable ≠ some lv) (hdue : g.interval.toNat ≤ (now - g.lastMatch).toNat) :
    debounce g lv now = ({ g with stable := some lv, lastMatch := now }, true) := by
  rw [debounce, if_neg hdiffers, if_pos ((reached_iff _ _ _).mpr hdue)]

/-- A sample that differs commits exactly when the interval has elapsed, and an early one is not seen. -/
theorem debounce_differs (hdiffers : g.stable ≠ some lv) :
    ((debounce g lv now).2 = true ↔ g.interval.toNat ≤ (now - g.lastMatch).toNat) ∧
      ((debounce g lv now).2 = true → (debounce g lv now).1 = { g with stable := some lv, lastMatch := now }) ∧
      ((debounce g lv now).2 = false → (debounce g lv now).1 = g) := by
  by_cases hdue : g.interval.toNat ≤ (now - g.lastMatch).toNat
  · rw [debounce_commits hdiffers hdue]
    exact ⟨iff_of_true rfl hdue, fun _ => rfl, nofun⟩
  · rw [debounce_waits hdiffers (by omega)]
    exact ⟨iff_of_false nofun hdue, nofun, fun _ => rfl⟩

end

/-- Samples that differ, all before the interval has elapsed, are not seen. -/
theorem debounceAll_waits {g : Gate} {waiting : List (Bool × U32)}
    (h : ∀ x ∈ waiting, g.stable ≠ some x.1 ∧ (x.2 - g.lastMatch).toNat < g.interval.toNat) : debounceAll g waiting = g := by
  induction waiting with
  | nil => rfl
  | cons x rest ih =>
    obtain ⟨hdiffers, hearly⟩ := h x List.mem_cons_self
    rw [debounceAll, debounce_waits hdiffers hearly]
    exact ih fun y hy => h y (List.mem_cons_of_mem _ hy)

/-- Settles O29: the waiting samples are not seen, and then one sample is equal or differs. -/
theorem debounceCommitLaw : Obligations.DebounceCommitLaw := by
  refine ⟨fun g v t now waiting lv hstable hwaiting => ?stable, fun g now waiting lv hstable hwaiting => ?unknown⟩
  case stable =>
    have hall : debounceAll g ((v, t) :: waiting.map fun x => (!v, x)) = { g with lastMatch := t } := by
      rw [debounceAll, debounce_equal hstable]
      refine debounceAll_waits fun x hx => ?_
      obtain ⟨y, hy, rfl⟩ := List.mem_map.mp hx
      exact ⟨by simp [hstable], hwaiting y hy⟩
    simp only [hall, true_and]
    by_cases hlv : lv = v
    · rw [debounce_equal (hlv ▸ hstable : _ = some lv)]
      simp [hlv]
    · have hdiffers : ({ g with lastMatch := t } : Gate).stable ≠ some lv := by simp [hstable, Ne.symm hlv]
      obtain ⟨hdue, hcommit, hkeep⟩ := debounce_differs (now := now) hdiffers
      exact ⟨by simp [hdue, Bool.eq_not_iff, hlv], hcommit, fun h => absurd h hlv, fun h _ => hkeep h⟩
  case unknown =>
    have hdiffers (l : Bool) : g.stable ≠ some l := by simp [hstable]
    have hall : debounceAll g waiting = g := debounceAll_waits fun x hx => ⟨hdiffers _, hwaiting x hx⟩
    rw [hall]
    exact ⟨rfl, debounce_differs (hdiffers lv)⟩

/-! ### The subscription pass (R221 to R223, R258) -/

/-- Settles O30: the pass, entry after entry, is the rule that gives every entry at once (`subFold_eq`). -/
theorem subscriptionPassEvents : Obligations.SubscriptionPassEvents := by
  intro now s
  rw [show (List.finRange 20).foldl (fun u i => (subEntry now i u).1) s = subscriptionsRun now s from subFold_eq now s]
  refine ⟨fun i => ?entries, ?events, rfl, rfl⟩
  case entries =>
    have hentry : (subscriptionsRun now s).sub[i] = subAfter now i s := by simp [subscriptionsRun]
    rw [hentry, subAfter]
    cases subLevel i s with
    | none => rfl
    | some lv => simp only [ne_eq, ite_not]
  case events =>
    refine congrArg (s.events ++ ·) (List.filterMap_congr fun i _ => ?_)
    rw [subCommits]
    cases subLevel i s with
    | none => rfl
    | some lv =>
      simp only
      split_ifs <;> rfl

end Sys2Proof.Machine
end

section
/-! What a CONFIG leaves (46_pin_api.md R250; 60_exceptions.md R305): its stages write bits of its own channel, and its
transactions none of the words they send. -/

namespace Sys2Proof.Machine

/-! ### What transactions leave alone -/

theorem outCore_word {α : Type} {o o' : OutBank} (h : outCore o = outCore o') (f : OutBank → α)
    (hf : ∀ o, f (outCore o) = f o) : f o = f o' := by
  rw [← hf o, h, hf o']

theorem inCore_word {α : Type} {r r' : InBank} (h : inCore r = inCore r') (f : InBank → α)
    (hf : ∀ r, f (inCore r) = f r) : f r = f r' := by
  rw [← hf r, h, hf r']

/-- The bank words but for what a transaction may change, and the modes, are as before. -/
structure Untouched (s t : State) : Prop where
  ob : ∀ k : Bank, outCore t.ob[k] = outCore s.ob[k]
  ib : ∀ k : Bank, inCore t.ib[k] = inCore s.ib[k]
  mode : t.mode = s.mode

theorem Untouched.trans {s t u : State} (h : Untouched s t) (g : Untouched t u) : Untouched s u :=
  ⟨fun k => (g.ob k).trans (h.ob k), fun k => (g.ib k).trans (h.ib k), g.mode.trans h.mode⟩

theorem untouched_afterXact (b : Binding) (x : Xact) (s : State) : Untouched s (afterXact b x s) :=
  ⟨afterXact_outCore b x s, afterXact_inCore b x s, afterXact_mode b x s⟩

theorem untouched_afterCfg (b : Binding) (k : Bank) (f : ConfField) (s : State) : Untouched s (afterCfg b k f s) :=
  ⟨afterCfg_outCore b k f s, afterCfg_inCore b k f s, afterCfg_mode b k f s⟩

theorem outCore_modOb {k j : Bank} {f : OutBank → OutBank} {s t : State} (hf : ∀ o, outCore (f o) = outCore (f (outCore o)))
    (h : outCore t.ob[j] = outCore s.ob[j]) : outCore (modOb k f t).ob[j] = outCore (modOb k f s).ob[j] := by
  rw [modOb_get, modOb_get]
  split
  · next hk =>
    subst hk
    rw [hf, h, ← hf]
  · exact h

theorem inCore_modIb {k j : Bank} {f : InBank → InBank} {s t : State} (hf : ∀ r, inCore (f r) = inCore (f (inCore r)))
    (h : inCore t.ib[j] = inCore s.ib[j]) : inCore (modIb k f t).ib[j] = inCore (modIb k f s).ib[j] := by
  rw [modIb_get, modIb_get]
  split
  · next hk =>
    subst hk
    rw [hf, h, ← hf]
  · exact h

section
variable {s t : State} (h : Untouched s t) (p : Pin) (md : PinMode) (det : Bool)
include h

theorem Untouched.configPushPull (on : Bool) : Untouched (configPushPull p on s) (configPushPull p on t) :=
  ⟨fun k => outCore_modOb (fun _ => rfl) (h.ob k), h.ib, h.mode⟩

theorem Untouched.configS3 : Untouched (configS3 p md det s) (configS3 p md det t) :=
  ⟨fun k => outCore_modOb (fun _ => rfl) (h.ob k), h.ib, h.mode⟩

theorem Untouched.configS4 : Untouched (configS4 p md det s) (configS4 p md det t) :=
  ⟨h.ob, fun k => inCore_modIb (fun _ => rfl) (h.ib k), h.mode⟩

theorem Untouched.setMode : Untouched (setMode p md s) (setMode p md t) :=
  ⟨h.ob, h.ib, congrArg (fun m => m.set p md) h.mode⟩

end

/-! ### What S2 to S4 leave alone -/

/-- Intents and commanded bits are as before, and of the other words the bits of channels other than pin `p`'s. -/
structure OneChannel (p : Pin) (s t : State) : Prop where
  level : ∀ j : Bank, t.ob[j].intent = s.ob[j].intent ∧ t.ob[j].cmd = s.ob[j].cmd
  others : ∀ (j : Bank) (d : Chan), ¬(j = outBank p ∧ d = outChan p) →
    bit t.ob[j].ppIntent d = bit s.ob[j].ppIntent d ∧ bit t.ob[j].pp d = bit s.ob[j].pp d ∧ bit t.ob[j].olen d = bit s.ob[j].olen d
  wires : ∀ (j : Bank) (d : Chan), ¬(j = inBank p ∧ d = inChan p) → bit t.ib[j].wbCfg d = bit s.ib[j].wbCfg d

section
variable {p : Pin} {s t u : State}

theorem OneChannel.trans (h : OneChannel p s t) (g : OneChannel p t u) : OneChannel p s u where
  level j := ⟨(g.level j).1.trans (h.level j).1, (g.level j).2.trans (h.level j).2⟩
  others j d hd := by
    obtain ⟨hi, hp, ho⟩ := h.others j d hd
    obtain ⟨gi, gp, go⟩ := g.others j d hd
    exact ⟨gi.trans hi, gp.trans hp, go.trans ho⟩
  wires j d hd := (g.wires j d hd).trans (h.wires j d hd)

theorem Untouched.oneChannel (p : Pin) (h : Untouched s t) : OneChannel p s t where
  level j := ⟨outCore_word (h.ob j) OutBank.intent fun _ => rfl, outCore_word (h.ob j) OutBank.cmd fun _ => rfl⟩
  others j d _ := ⟨outCore_word (h.ob j) (fun o => bit o.ppIntent d) fun _ => rfl,
    outCore_word (h.ob j) (fun o => bit o.pp d) fun _ => rfl, outCore_word (h.ob j) (fun o => bit o.olen d) fun _ => rfl⟩
  wires j d _ := inCore_word (h.ib j) (fun r => bit r.wbCfg d) fun _ => rfl

/-- A write of words of the pin's own bank. -/
theorem OneChannel.modOb {f : OutBank → OutBank} (hlevel : ∀ o, (f o).intent = o.intent ∧ (f o).cmd = o.cmd)
    (hothers : ∀ o d, d ≠ outChan p →
      bit (f o).ppIntent d = bit o.ppIntent d ∧ bit (f o).pp d = bit o.pp d ∧ bit (f o).olen d = bit o.olen d) :
    OneChannel p s (modOb (outBank p) f s) where
  level j := by
    rw [modOb_get]
    split
    · next hk => exact hk ▸ hlevel _
    · exact ⟨rfl, rfl⟩
  others j d hd := by
    rw [modOb_get]
    split
    · next hk => exact hk ▸ hothers _ d fun hc => hd ⟨hk.symm, hc⟩
    · exact ⟨rfl, rfl, rfl⟩
  wires _ _ _ := rfl

theorem bit_setBit_other {v : Byte} {c d : Chan} {x : Bool} (h : d ≠ c) : bit (setBit v c x) d = bit v d := by
  rw [bit_setBit, if_neg (Ne.symm h)]

theorem oneChannel_configPushPull (p : Pin) (on : Bool) (s : State) : OneChannel p s (configPushPull p on s) := by
  unfold configPushPull
  refine .modOb (fun _ => ⟨rfl, rfl⟩) fun o d hd => ⟨bit_setBit_other hd, ?_, rfl⟩
  dsimp only
  split
  · rfl
  · exact bit_setBit_other hd

theorem oneChannel_configS3 (p : Pin) (md : PinMode) (det : Bool) (s : State) : OneChannel p s (configS3 p md det s) :=
  .modOb (fun _ => ⟨rfl, rfl⟩) fun _ _ hd => ⟨rfl, rfl, bit_setBit_other hd⟩

theorem oneChannel_configS4 (p : Pin) (md : PinMode) (det : Bool) (s : State) : OneChannel p s (configS4 p md det s) where
  level _ := ⟨rfl, rfl⟩
  others _ _ _ := ⟨rfl, rfl, rfl⟩
  wires j d hd := by
    rw [configS4, modIb_get]
    split
    · next hk => exact hk ▸ bit_setBit_other fun hc => hd ⟨hk.symm, hc⟩
    · rfl

theorem oneChannel_setMode (p : Pin) (md : PinMode) (s : State) : OneChannel p s (setMode p md s) :=
  ⟨fun _ => ⟨rfl, rfl⟩, fun _ _ _ => ⟨rfl, rfl, rfl⟩, fun _ _ _ => rfl⟩

end

/-! ### The outcome of the stages -/

/-- The state writes of S2 to S4, with no transaction between them, and the mode. -/
def configWrites (p : Pin) (md : PinMode) (det : Bool) (s : State) : State :=
  setMode p md (configS4 p md det (configS3 p md det (configPushPull p (md = .pp) s)))

theorem cfgResult_failed {b : Binding} {k : Bank} {f : ConfField} {s : State} {e : Failure}
    (h : cfgResult b k f s = .fail e) : Result.fail e = crcFail ∨ Result.fail e = verifyFail := by
  unfold cfgResult at h
  split at h
  · exact .inl h.symm
  · split at h
    · exact .inl h.symm
    · split at h
      · exact absurd h nofun
      · exact .inr h.symm

/-- A run that failed in a transaction: TRANSPORT, and no mode changed. -/
def FailedAt (s : State) (out : State × Result) : Prop :=
  (out.2 = crcFail ∨ out.2 = verifyFail) ∧ out.1.mode = s.mode

section
variable {b : Binding} {p : Pin} {md : PinMode} {det : Bool} {s : State}

/-- The tail of CONFIG makes its state writes, or fails on the way; it writes its own channel alone. -/
theorem configTail_outcome : let out := configTail b p md det s
    OneChannel p s out.1 ∧
      ((out.2 = okDone ∧ Untouched (setMode p md (configS4 p md det (configS3 p md det s))) out.1) ∨ FailedAt s out) := by
  have hafterPp := untouched_afterCfg b (outBank p) .pp s
  have hS3 : Untouched (configS3 p md det s) (olenStart b p md det s) := hafterPp.configS3 p md det
  have hafterOlen := hS3.trans (untouched_afterCfg b (outBank p) .olen _)
  have hS4 : Untouched (configS4 p md det (configS3 p md det s)) (wireStart b p md det s) := hafterOlen.configS4 p md det
  have hafterWire := hS4.trans (untouched_afterXact b (wireXact b p md det) _)
  have hone3 := oneChannel_configS3 p md det s
  have hone4 := hone3.trans (oneChannel_configS4 p md det _)
  cases hpp : cfgResult b (outBank p) .pp s with
  | fail e =>
    rw [configTail_of_pp_failed hpp]
    exact ⟨hafterPp.oneChannel p, .inr ⟨cfgResult_failed hpp, hafterPp.mode⟩⟩
  | ok v =>
    cases holen : cfgResult b (outBank p) .olen (olenStart b p md det s) with
    | fail e =>
      rw [configTail_of_olen_failed hpp holen]
      exact ⟨hone3.trans (hafterOlen.oneChannel p), .inr ⟨cfgResult_failed holen, hafterOlen.mode⟩⟩
    | ok v' =>
      rw [configTail_of_olen hpp holen]
      cases hok : xactOk b (wireXact b p md det) (wireStart b p md det s) with
      | true =>
        exact ⟨(hone4.trans (hafterWire.oneChannel p)).trans (oneChannel_setMode p md _), .inl ⟨rfl, hafterWire.setMode p md⟩⟩
      | false => exact ⟨hone4.trans (hafterWire.oneChannel p), .inr ⟨.inl rfl, hafterWire.mode⟩⟩

/-- What S1 leaves before its transaction: an input pin drives nothing. -/
def configBase (p : Pin) (md : PinMode) (s : State) : State := if md = .input then configDrop p s else s

/-- CONFIG after its checks makes its state writes, or fails on the way; after S1 it writes its own channel alone. -/
theorem configRun_outcome : let out := configRun b p md det s
    OneChannel p (configBase p md s) out.1 ∧
      ((out.2 = okDone ∧ Untouched (configWrites p md det (configBase p md s)) out.1) ∨ FailedAt s out) := by
  unfold configRun configBase
  by_cases hin : md = .input
  · subst hin
    simp only [if_true]
    have hdrop := untouched_afterXact b (.outWrite (outBank p) .setOut) (configDrop p s)
    split
    · obtain ⟨hone, hout⟩ := configTail_outcome (b := b) (p := p) (md := .input) (det := det)
        (s := configPushPull p false (afterXact b (.outWrite (outBank p) .setOut) (configDrop p s)))
      refine ⟨((hdrop.oneChannel p).trans (oneChannel_configPushPull p false _)).trans hone, hout.imp ?_ ?_⟩
      · rintro ⟨hr, ht⟩
        exact ⟨hr, ((((hdrop.configPushPull p false).configS3 p _ det).configS4 p _ det).setMode p _).trans ht⟩
      · rintro ⟨hr, ht⟩
        exact ⟨hr, ht.trans hdrop.mode⟩
    · exact ⟨hdrop.oneChannel p, .inr ⟨.inl rfl, hdrop.mode⟩⟩
  · simp only [if_neg hin]
    obtain ⟨hone, hout⟩ := configTail_outcome (b := b) (p := p) (md := md) (det := det) (s := configPushPull p (md = .pp) s)
    exact ⟨(oneChannel_configPushPull p _ s).trans hone, hout⟩

end

/-! ### The bits -/

section
variable {p : Pin} {md : PinMode} {det : Bool} {s : State}

/-- The bits of the pin's channel after the state writes. -/
theorem configWrites_bits : let t := configWrites p md det s
    let k := outBank p
    let c := outChan p
    bit t.ob[k].ppIntent c = decide (md = .pp) ∧
      bit t.ob[k].pp c = (if bit s.ob[k].thLock c = true then bit s.ob[k].pp c else decide (md = .pp)) ∧
      bit t.ob[k].olen c = (decide (md = .hs) && det) ∧
      bit t.ib[inBank p].wbCfg (inChan p) = (decide (md = .input) && det) := by
  intro t k c
  have hob : t.ob[k] =
      let o := s.ob[k]
      { o with ppIntent := setBit o.ppIntent c (md = .pp),
               pp := if bit o.thLock c then o.pp else setBit o.pp c (md = .pp),
               olen := setBit o.olen c (md = .hs && det) } := by
    simp only [t, k, c, configWrites, setMode, configS4, configS3, configPushPull, modIb_ob, modOb_get, if_true]
    rfl
  have hib : t.ib[inBank p].wbCfg = setBit s.ib[inBank p].wbCfg (inChan p) (md = .input && det) := by
    simp only [t, configWrites, setMode, configS4, modIb_get, if_true]
    rfl
  rw [hob, hib]
  refine ⟨by rw [bit_setBit, if_pos rfl], ?_, by rw [bit_setBit, if_pos rfl], by rw [bit_setBit, if_pos rfl]⟩
  dsimp only
  split
  · rfl
  · rw [bit_setBit, if_pos rfl]

end

/-! ### S1 -/

section
variable (p : Pin) (md : PinMode) (s : State)

theorem configDrop_get (j : Bank) : (configDrop p s).ob[j] =
    if outBank p = j then
      { s.ob[j] with intent := setBit s.ob[j].intent (outChan p) false,
                     cmd := if bit s.ob[j].ovLock (outChan p) then s.ob[j].cmd else setBit s.ob[j].cmd (outChan p) false }
    else s.ob[j] := by
  unfold configDrop putLevel
  rw [modOb_get]
  split
  · next hk =>
    subst hk
    unfold bit
    cases s.ob[outBank p].ovLock.getLsbD (outChan p).val <;> rfl
  · rfl

/-- S1 writes intents and commanded bits alone. -/
theorem configBase_words (j : Bank) : let o := (configBase p md s).ob[j]
    (o.thLock = s.ob[j].thLock ∧ o.ppIntent = s.ob[j].ppIntent ∧ o.pp = s.ob[j].pp ∧ o.olen = s.ob[j].olen) ∧
      (configBase p md s).ib = s.ib ∧ (configBase p md s).mode = s.mode := by
  unfold configBase
  split
  · rw [configDrop_get]
    refine ⟨?_, rfl, rfl⟩
    split <;> exact ⟨rfl, rfl, rfl, rfl⟩
  · exact ⟨⟨rfl, rfl, rfl, rfl⟩, rfl, rfl⟩

/-- What S1 leaves on the channel of an input pin. -/
theorem configBase_input : let o := (configBase p .input s).ob[outBank p]
    bit o.intent (outChan p) = false ∧ bit o.cmd (outChan p) =
      if bit s.ob[outBank p].ovLock (outChan p) then bit s.ob[outBank p].cmd (outChan p) else false := by
  intro o
  have ho : o = _ := (configDrop_get p s (outBank p)).trans (if_pos rfl)
  rw [ho]
  refine ⟨by rw [bit_setBit, if_pos rfl], ?_⟩
  dsimp only
  split
  · rfl
  · rw [bit_setBit, if_pos rfl]

/-- S1 leaves every other channel alone. -/
theorem configBase_others (j : Bank) (d : Chan) (hd : ¬(j = outBank p ∧ d = outChan p)) :
    bit (configBase p md s).ob[j].intent d = bit s.ob[j].intent d ∧ bit (configBase p md s).ob[j].cmd d = bit s.ob[j].cmd d := by
  unfold configBase
  split
  · rw [configDrop_get]
    split
    · next hk =>
      have hc : d ≠ outChan p := fun hc => hd ⟨hk.symm, hc⟩
      refine ⟨bit_setBit_other hc, ?_⟩
      dsimp only
      split
      · rfl
      · exact bit_setBit_other hc
    · exact ⟨rfl, rfl⟩
  · exact ⟨rfl, rfl⟩

end

/-- The pin's channel and the modes after a run that came to the end. -/
theorem bits_of_configWrites {p : Pin} {md : PinMode} {det : Bool} {s t : State}
    (h : Untouched (configWrites p md det (configBase p md s)) t) :
    let k := outBank p
    let c := outChan p
    t.mode = s.mode.set p md ∧ bit t.ob[k].ppIntent c = decide (md = .pp) ∧
      (bit s.ob[k].thLock c = true → bit t.ob[k].pp c = bit s.ob[k].pp c) ∧
      (bit s.ob[k].thLock c = false → bit t.ob[k].pp c = decide (md = .pp)) ∧
      bit t.ob[k].olen c = (decide (md = .hs) && det) ∧
      bit t.ib[inBank p].wbCfg (inChan p) = (decide (md = .input) && det) := by
  intro k c
  obtain ⟨hppIntent, hpp, holen, hwb⟩ := configWrites_bits (p := p) (md := md) (det := det) (s := configBase p md s)
  obtain ⟨⟨hthLock, -, hppBase, -⟩, -, hmodeBase⟩ := configBase_words p md s k
  have hword (f : OutBank → Bool) (hf : ∀ o, f (outCore o) = f o) := outCore_word (h.ob k) f hf
  have hppAfter : bit t.ob[k].pp c = if bit s.ob[k].thLock c = true then bit s.ob[k].pp c else decide (md = .pp) := by
    rw [hthLock, hppBase] at hpp
    exact (hword (fun o => bit o.pp c) fun _ => rfl).trans hpp
  refine ⟨h.mode.trans (congrArg (fun m => m.set p md) hmodeBase), (hword (fun o => bit o.ppIntent c) fun _ => rfl).trans hppIntent,
    fun hlocked => by rw [hppAfter, if_pos hlocked], fun hfree => ?_,
    (hword (fun o => bit o.olen c) fun _ => rfl).trans holen,
    (inCore_word (h.ib (inBank p)) (fun r => bit r.wbCfg (inChan p)) fun _ => rfl).trans hwb⟩
  rw [hppAfter, hfree]
  rfl

theorem complete_resp_of_cur {c : Ctx} {r : Result} {s : State} (h : s.cur = c) : (complete r s).resp[c] = some r := by
  subst h
  simp

/-- Settles O23: the stages by their frames, and the writes of a run that came to the end. -/
theorem configOutcome : Obligations.ConfigOutcome := by
  intro p md det s t hmd hfree hdet hjoin hth hexec k c
  rw [configEffect p md det s hmd hfree hdet hjoin hth] at hexec
  set u := recordRace (.config (pinByte p) (modeByte md) (boolByte det)) s
  obtain ⟨hone, hout⟩ := configRun_outcome (b := s.cfg) (p := p) (md := md) (det := det) (s := u)
  have hcheck : configCheck s.cfg p md det u = none := (configCheck_recordRace ..).trans (configCheck_eq_none hdet hjoin hth)
  obtain ⟨hcur, -⟩ := config_leads hmd ((recordRace_lock _ s).trans hfree) hcheck
  obtain rfl : complete (configRun s.cfg p md det u).2 (configRun s.cfg p md det u).1 = t := by simpa using hexec
  rw [complete_resp_of_cur (hcur.trans (recordRace_cur _ s))]
  generalize configRun s.cfg p md det u = out at *
  have hob : s.ob = u.ob := (recordRace_ob _ s).symm
  have hib : s.ib = u.ib := (recordRace_ib _ s).symm
  have hmode : s.mode = u.mode := (recordRace_mode _ s).symm
  rw [hob, hib, hmode]
  refine ⟨hout.imp ?done ?failed, ?input, ?other, ?channels, ?wires⟩
  case done =>
    rintro ⟨hr, hsame⟩
    exact ⟨congrArg some hr, bits_of_configWrites ⟨hsame.ob, hsame.ib, hsame.mode⟩⟩
  case failed =>
    rintro ⟨hr, hkept⟩
    exact ⟨hr.imp (congrArg some) (congrArg some), hkept⟩
  case input =>
    rintro rfl
    obtain ⟨hintent, hcmd⟩ := configBase_input p u
    obtain ⟨hi, hc⟩ := hone.level k
    refine ⟨(congrArg (bit · c) hi).trans hintent, fun hlocked => ?_, fun hopen => ?_⟩
    · exact ((congrArg (bit · c) hc).trans hcmd).trans (if_pos hlocked)
    · exact ((congrArg (bit · c) hc).trans hcmd).trans (if_neg (Bool.eq_false_iff.mp hopen))
  case other =>
    intro hmd
    obtain ⟨hi, hc⟩ := hone.level k
    rw [configBase, if_neg hmd] at hi hc
    exact ⟨congrArg (bit · c) hi, congrArg (bit · c) hc⟩
  case channels =>
    intro j d hd
    obtain ⟨hi, hc⟩ := hone.level j
    obtain ⟨hib, hcb⟩ := configBase_others p md u j d hd
    obtain ⟨hppIntent, hpp, holen⟩ := hone.others j d hd
    obtain ⟨⟨-, hpi, hp, ho⟩, -⟩ := configBase_words p md u j
    rw [hpi] at hppIntent
    rw [hp] at hpp
    rw [ho] at holen
    exact ⟨(congrArg (bit · d) hi).trans hib, (congrArg (bit · d) hc).trans hcb, hppIntent, hpp, holen⟩
  case wires =>
    intro j d hd
    obtain ⟨-, hibase, -⟩ := configBase_words p md u j
    have hwire := hone.wires j d hd
    rwa [hibase] at hwire

end Sys2Proof.Machine
end

section
/-! TICK as a whole (44_scheduler.md R200 to R202): its answer, its scheduler, and what its record of a race, its readings and its
scheduler do not change of what the devices see. -/

namespace Sys2Proof.Machine

/-! ### The run (R200) -/

/-- Settles O34. -/
theorem tickEffect : Obligations.TickEffect := by
  intro s hfree
  exact exec_of_leads_status rfl (tick_leads s.cfg ((recordRace_lock _ s).trans hfree))

/-! ### The scheduler (R202) -/

theorem onRead_sched {b : Binding} {x : Xact} {f : Byte → State → State} (hf : ∀ v t, (f v t).sched = t.sched) (s : State) :
    (onRead b x f s).sched = s.sched := by
  unfold onRead
  split <;> simp only [hf, afterXact_sched]

section
variable (b : Binding) (k : Bank) (now : U32) (s : State)

theorem onRead_modIb_sched (x : Xact) (f : Byte → InBank → InBank) :
    (onRead b x (fun v => modIb k (f v)) s).sched = s.sched :=
  onRead_sched (f := fun v => modIb k (f v)) (fun _ _ => rfl) s

theorem onRead_modOb_sched (x : Xact) (f : Byte → OutBank → OutBank) :
    (onRead b x (fun v => modOb k (f v)) s).sched = s.sched :=
  onRead_sched (f := fun v => modOb k (f v)) (fun _ _ => rfl) s

theorem refreshRun_sched : (refreshRun b k s).sched = s.sched := by
  rw [refreshRun, onRead_modIb_sched]

theorem phase0Run_sched : (phase0Run b k s).sched = s.sched := by
  unfold phase0Run
  refine onRead_sched (fun v t => ?_) s
  dsimp only
  split
  · rw [onRead_modIb_sched, modIb_sched]
  · rw [modIb_sched]

theorem phase1Run_sched : (phase1Run b k s).sched = s.sched := by
  rw [phase1Run, onRead_modOb_sched]

theorem phase2Run_sched : (phase2Run b now k s).sched = s.sched := by
  simp only [phase2Run, apply_ite State.sched, afterXact_sched, modOb_sched, onRead_modOb_sched, ite_self]

theorem phase4Run_sched : (phase4Run b now k s).sched = s.sched := by
  simp only [phase4Run, apply_ite State.sched, afterXact_sched, afterCfg_sched, modOb_sched, onRead_modOb_sched, ite_self]

theorem phaseRun_four : phaseRun b 4 now s = phase4Run b now 1 (phase4Run b now 0 s) := rfl

theorem phaseRun_sched (p : Fin 5) : (phaseRun b p now s).sched = s.sched := by
  match p with
  | 0 => exact (phase0Run_sched b 1 _).trans (phase0Run_sched b 0 s)
  | 1 => exact (phase1Run_sched b 1 _).trans (phase1Run_sched b 0 s)
  | 2 => exact (phase2Run_sched b 1 now _).trans (phase2Run_sched b 0 now s)
  | 3 => exact (afterXact_sched ..).trans (afterXact_sched ..)
  | 4 => rw [phaseRun_four, phase4Run_sched, phase4Run_sched]

theorem schedulerRun_sched : (schedulerRun b now s).sched =
    if 20 ≤ (now - s.sched.lastMs).toNat then { phase := s.sched.phase + 1, lastMs := now } else s.sched := by
  unfold schedulerRun
  split
  · rw [phaseRun_sched]
  · rfl

theorem refreshed_sched : (refreshed b s).sched = s.sched := by
  rw [refreshed, refreshRun_sched, refreshRun_sched]
  rfl

theorem tickRun_sched : (tickRun b s).sched =
    if 20 ≤ (nowMs s - s.sched.lastMs).toNat then { phase := s.sched.phase + 1, lastMs := nowMs s } else s.sched := by
  obtain ⟨hkept, -⟩ := FaultsKept.conditioning b (schedulerRun b (nowMs s) (refreshed b s))
  rw [tickRun, hkept, schedulerRun_sched, refreshed_sched]

end

/-- A TICK, run whole while the bus lock is free: its answer, and the state it comes to but for `op`, `resp` and `statusOut`. -/
theorem exec_tick {s : State} (hfree : s.lock = .free) : ∃ t, exec (.tick 0 0 0) s = .next t ∧ t.resp[s.cur] = some okDone ∧
    FaultsKept (tickRun s.cfg (recordRace (.tick 0 0 0) s)) t := by
  obtain ⟨o, -, -, hexec⟩ := tickEffect s hfree
  obtain ⟨hcur, -⟩ := tick_leads s.cfg ((recordRace_lock (.tick 0 0 0) s).trans hfree)
  rw [recordRace_cur] at hcur
  generalize tickRun s.cfg (recordRace (.tick 0 0 0) s) = u at *
  exact ⟨_, hexec, complete_resp_of_cur hcur, .of_eq rfl rfl rfl⟩

theorem val_succ_phase : ∀ p : Fin 5, (p + 1).val = (p.val + 1) % 5 := by decide

/-- Settles O35: the stages after the scheduler leave it alone, and so does the phase. -/
theorem tickScheduler : Obligations.TickScheduler := by
  intro s hfree
  obtain ⟨t, hexec, hanswer, hsched, -⟩ := exec_tick hfree
  rw [tickRun_sched, nowMs_recordRace, recordRace_sched] at hsched
  refine ⟨t, hexec, hanswer, fun hdue => ?runs, fun hearly => ?waits⟩
  case runs =>
    rw [hsched, if_pos hdue]
    exact ⟨rfl, val_succ_phase _⟩
  case waits => rw [hsched, if_neg (by omega)]

end Sys2Proof.Machine
end

section
/-! What a TICK leaves in the bank words (44_scheduler.md R201 to R208; 43_protection.md R180): what transactions see of a state,
which words each stage leaves alone, and the words its reads fill. -/

namespace Sys2Proof.Machine

/-! ### The parts of phases 2 and 4 (R206, R208) -/

section
variable (b : Binding) (now : U32) (k : Bank) (s : State)

/-- The read of phase 2. -/
def ovRead : State :=
  onRead b (.outRead k b.outRegOv) (fun v => modOb k fun o => { o with ovRaw := v, stOV := o.stOV ||| v }) s

theorem phase2Run_of_read : phase2Run b now k s =
    if (ovRead b k s).ob[k].ovProtect then
      if (modOb k (ovSteps now) (ovRead b k s)).ob[k].cmd = (ovRead b k s).ob[k].cmd then modOb k (ovSteps now) (ovRead b k s)
      else afterXact b (.outWrite k .setOut) (modOb k (ovSteps now) (ovRead b k s))
    else ovRead b k s := rfl

/-- The read of phase 4. -/
def thRead : State :=
  onRead b (.outRead k b.outRegTh) (fun v => modOb k fun o => { o with thRaw := v, stTH := o.stTH ||| v }) s

/-- The pass of phase 4, and its mode write. -/
def thModes : State :=
  if (modOb k (thSteps now) s).ob[k].pp = s.ob[k].pp then modOb k (thSteps now) s
  else afterCfg b k .pp (modOb k (thSteps now) s)

theorem phase4Run_of_read : phase4Run b now k s =
    if (thModes b now k (thRead b k s)).ob[k].cmd = (thRead b k s).ob[k].cmd then thModes b now k (thRead b k s)
    else afterXact b (.outWrite k .setOut) (thModes b now k (thRead b k s)) := rfl

end

/-! ### What transactions see of a state -/

/-- The banks and the echoes to come are the same: transactions from both states come to the same. -/
structure SameDevice (s t : State) : Prop where
  ob : t.ob = s.ob
  ib : t.ib = s.ib
  echoes : t.env.echoes = s.env.echoes
  count : t.env.echoCount = s.env.echoCount

theorem dropEcho_iterate_eq (e : Env) (n : Nat) :
    dropEcho^[n] e = { e with echoes := e.echoes.drop n, echoCount := e.echoCount + n } := by
  induction n with
  | zero => rfl
  | succ n ih => rw [Function.iterate_succ_apply', ih, dropEcho, List.tail_drop, Nat.add_assoc]

theorem SameDevice.ite {c c' : Prop} [Decidable c] [Decidable c'] {s s' t t' : State} (hc : c' ↔ c) (h : SameDevice s t)
    (h' : SameDevice s' t') : SameDevice (if c then s else s') (if c' then t else t') := by
  simp only [hc]
  split
  · exact h
  · exact h'

section
variable {s t : State} (h : SameDevice s t) (b : Binding) (x : Xact)
include h

theorem SameDevice.echoNo (n : Nat) : echoNo t.env n = echoNo s.env n := by
  simp only [Machine.echoNo, dropEcho_iterate_eq, nextEcho, h.echoes, h.count]

theorem SameDevice.attemptEcho (n : Nat) : attemptEcho x t n = attemptEcho x s n := h.echoNo _

theorem SameDevice.attemptOk (n : Nat) : attemptOk b x t n = attemptOk b x s n := by
  simp only [Machine.attemptOk, h.attemptEcho, h.echoNo]

theorem SameDevice.acquire : (acquire b x t).2 = (acquire b x s).2 := by
  cases x with
  | outWrite k f => simp only [Machine.acquire, acquireLock, h.ob]
  | inRead | inWrite | outRead | rtstat => rfl

theorem SameDevice.attemptsMade : attemptsMade b x t = attemptsMade b x s := by
  simp only [Machine.attemptsMade, h.attemptOk]

theorem SameDevice.xactOk : xactOk b x t = xactOk b x s := by
  simp only [Machine.xactOk, h.attemptOk]

theorem SameDevice.xactValue : xactValue b x t = xactValue b x s := by
  simp only [Machine.xactValue, h.xactOk, h.acquire, h.attemptsMade, h.attemptEcho]

theorem SameDevice.modIb (k : Bank) (f : InBank → InBank) : SameDevice (modIb k f s) (modIb k f t) :=
  ⟨h.ob, by rw [modIb_ib, modIb_ib, h.ib], h.echoes, h.count⟩

theorem SameDevice.modOb (k : Bank) (f : OutBank → OutBank) : SameDevice (modOb k f s) (modOb k f t) :=
  ⟨by rw [modOb_ob, modOb_ob, h.ob], h.ib, h.echoes, h.count⟩

theorem SameDevice.attemptUpdate (m : Bool) (e : Frame) : SameDevice (attemptUpdate b x m e s) (attemptUpdate b x m e t) := by
  cases x <;> dsimp only [Machine.attemptUpdate]
  case inRead | inWrite => exact h.modIb _ _
  case outRead | outWrite | rtstat => exact h.modOb _ _

theorem SameDevice.setErr : SameDevice (setErr x s) (setErr x t) := by
  cases x <;> dsimp only [Machine.setErr]
  case inRead | inWrite => exact h.modIb _ _
  case outRead | outWrite | rtstat => exact h.modOb _ _

theorem SameDevice.exchanged : SameDevice (exchanged b x s) (exchanged b x t) := by
  refine ⟨h.ob, h.ib, ?_, ?_⟩ <;>
    simp only [Machine.exchanged, dropEcho_iterate_eq, h.attemptsMade, h.echoes, h.count]

theorem SameDevice.afterXact : SameDevice (afterXact b x s) (afterXact b x t) := by
  unfold Machine.afterXact
  rw [h.xactOk, h.acquire, h.attemptsMade, h.attemptEcho]
  split
  · exact (h.exchanged b x).attemptUpdate b x _ _
  · exact (h.exchanged b x).setErr x

theorem SameDevice.cfgResult (k : Bank) (f : ConfField) : cfgResult b k f t = cfgResult b k f s := by
  simp only [Machine.cfgResult, h.xactValue, (h.afterXact b (.outWrite k f.out)).xactValue]

theorem SameDevice.afterCfg (k : Bank) (f : ConfField) : SameDevice (afterCfg b k f s) (afterCfg b k f t) := by
  unfold Machine.afterCfg
  rw [h.xactValue, h.cfgResult]
  have hwrite := h.afterXact b (.outWrite k f.out)
  cases Machine.xactValue b (.outWrite k f.out) s with
  | none => exact hwrite
  | some sent =>
    have hread := hwrite.afterXact b (.outRead k (f.readBack b))
    dsimp only
    split
    · exact hread.modOb _ _
    · exact hread

theorem SameDevice.onRead {f : Byte → State → State} (hf : ∀ v {u w : State}, SameDevice u w → SameDevice (f v u) (f v w)) :
    SameDevice (onRead b x f s) (onRead b x f t) := by
  unfold Machine.onRead
  rw [h.xactValue]
  cases Machine.xactValue b x s with
  | none => exact h.afterXact b x
  | some v => exact hf v (h.afterXact b x)

theorem SameDevice.refreshRun (k : Bank) : SameDevice (refreshRun b k s) (refreshRun b k t) := by
  unfold Machine.refreshRun
  exact h.onRead b _ fun v _ _ hu => hu.modIb _ _

theorem SameDevice.phase0Run (k : Bank) : SameDevice (phase0Run b k s) (phase0Run b k t) := by
  unfold Machine.phase0Run
  refine h.onRead b _ fun v u w hu => ?_
  dsimp only
  split
  · exact (hu.modIb _ _).onRead b _ fun v _ _ hu => hu.modIb _ _
  · exact hu.modIb _ _

theorem SameDevice.phase1Run (k : Bank) : SameDevice (phase1Run b k s) (phase1Run b k t) := by
  unfold Machine.phase1Run
  exact h.onRead b _ fun v _ _ hu => hu.modOb _ _

theorem SameDevice.ovRead (k : Bank) : SameDevice (ovRead b k s) (ovRead b k t) := by
  unfold Machine.ovRead
  exact h.onRead b _ fun v _ _ hu => hu.modOb _ _

theorem SameDevice.phase2Run (now : U32) (k : Bank) : SameDevice (phase2Run b now k s) (phase2Run b now k t) := by
  rw [phase2Run_of_read, phase2Run_of_read]
  have hread := h.ovRead b k
  have hpass := hread.modOb k (ovSteps now)
  exact .ite (by rw [hread.ob]) (.ite (by rw [hread.ob, hpass.ob]) hpass (hpass.afterXact b _)) hread

theorem SameDevice.phase3Run (k : Bank) : SameDevice (phase3Run b k s) (phase3Run b k t) := h.afterXact b _

theorem SameDevice.thRead (k : Bank) : SameDevice (thRead b k s) (thRead b k t) := by
  unfold Machine.thRead
  exact h.onRead b _ fun v _ _ hu => hu.modOb _ _

theorem SameDevice.thModes (now : U32) (k : Bank) : SameDevice (thModes b now k s) (thModes b now k t) := by
  have hpass := h.modOb k (thSteps now)
  exact .ite (by rw [h.ob, hpass.ob]) hpass (hpass.afterCfg b k .pp)

theorem SameDevice.phase4Run (now : U32) (k : Bank) : SameDevice (phase4Run b now k s) (phase4Run b now k t) := by
  rw [phase4Run_of_read, phase4Run_of_read]
  have hread := h.thRead b k
  have hmodes := hread.thModes b now k
  exact .ite (by rw [hread.ob, hmodes.ob]) hmodes (hmodes.afterXact b _)

theorem SameDevice.phaseRun (p : Fin 5) (now : U32) : SameDevice (phaseRun b p now s) (phaseRun b p now t) := by
  match p with
  | 0 => exact (h.phase0Run b 0).phase0Run b 1
  | 1 => exact (h.phase1Run b 0).phase1Run b 1
  | 2 => exact (h.phase2Run b now 0).phase2Run b now 1
  | 3 => exact (h.phase3Run b 0).phase3Run b 1
  | 4 =>
    rw [phaseRun_four, phaseRun_four]
    exact (h.phase4Run b now 0).phase4Run b now 1

end

theorem SameDevice.refl (s : State) : SameDevice s s := ⟨rfl, rfl, rfl, rfl⟩

theorem SameDevice.trans {s t u : State} (h : SameDevice s t) (g : SameDevice t u) : SameDevice s u :=
  ⟨g.ob.trans h.ob, g.ib.trans h.ib, g.echoes.trans h.echoes, g.count.trans h.count⟩

theorem sameDevice_recordRace (i : Instr) (s : State) : SameDevice s (recordRace i s) :=
  ⟨recordRace_ob i s, recordRace_ib i s, by rw [recordRace_env], by rw [recordRace_env]⟩

theorem sameDevice_afterMs (s : State) : SameDevice s (afterMs s) := ⟨rfl, rfl, rfl, rfl⟩

theorem sameDevice_refreshed (b : Binding) {s t : State} (h : SameDevice s t) : SameDevice (refreshed b s) (refreshed b t) := by
  have hread : SameDevice (afterMs s) (afterMs t) := ⟨h.ob, h.ib, h.echoes, h.count⟩
  exact (hread.refreshRun b 0).refreshRun b 1

/-! ### The run of a tick, seen from its first state -/

/-- Both refreshes, and the phase if the gate is open, with neither the record of a race nor the scheduler's own update. -/
def banksRun (s : State) : State :=
  let u := refreshed s.cfg s
  if 20 ≤ (nowMs s - s.sched.lastMs).toNat then phaseRun s.cfg s.sched.phase (nowMs s) u else u

theorem sameDevice_withSched (s : State) (g : Sched) : SameDevice s { s with sched := g } := ⟨rfl, rfl, rfl, rfl⟩

/-- The record of a race and the scheduler's own update are not seen by the devices. -/
theorem sameDevice_schedulerRun (s : State) (i : Instr) :
    SameDevice (banksRun s) (schedulerRun s.cfg (nowMs s) (refreshed s.cfg (recordRace i s))) := by
  have hrefreshed := sameDevice_refreshed s.cfg (sameDevice_recordRace i s)
  have hsched : (refreshed s.cfg (recordRace i s)).sched = s.sched := (refreshed_sched ..).trans (recordRace_sched i s)
  unfold banksRun schedulerRun
  generalize refreshed s.cfg (recordRace i s) = v at *
  rw [hsched]
  exact .ite Iff.rfl ((hrefreshed.trans (sameDevice_withSched v _)).phaseRun _ _ _) hrefreshed

/-- A TICK, run whole while the bus lock is free, leaves the fault words that the refreshes and the phase leave. -/
theorem exec_tick_banks {s : State} (hfree : s.lock = .free) : ∃ t, exec (.tick 0 0 0) s = .next t ∧
    ∀ k : Bank, outFaults t.ob[k] = outFaults (banksRun s).ob[k] ∧ inCore t.ib[k] = inCore (banksRun s).ib[k] := by
  obtain ⟨t, hexec, -, hkept⟩ := exec_tick hfree
  rw [tickRun, nowMs_recordRace] at hkept
  have hsame := sameDevice_schedulerRun s (.tick 0 0 0)
  generalize schedulerRun s.cfg (nowMs s) (refreshed s.cfg (recordRace (.tick 0 0 0) s)) = v at *
  obtain ⟨-, hwords⟩ := (FaultsKept.conditioning s.cfg v).trans hkept
  rw [hsame.ob, hsame.ib] at hwords
  exact ⟨t, hexec, hwords⟩

end Sys2Proof.Machine
end

section
/-! The bank words after a TICK (44_scheduler.md R201, R204 to R206, R208; 43_protection.md R180): what each stage leaves alone, and
what it makes of the words it reads. -/

namespace Sys2Proof.Machine

theorem onRead_eq_elim (b : Binding) (x : Xact) (f : Byte → State → State) (s : State) :
    onRead b x f s = (xactValue b x s).elim (afterXact b x s) (fun v => f v (afterXact b x s)) := by
  unfold onRead
  cases xactValue b x s <;> rfl

theorem outFaults_word {α : Type} {o o' : OutBank} (h : outFaults o = outFaults o') (f : OutBank → α)
    (hf : ∀ o, f (outFaults o) = f o) : f o = f o' := by
  rw [← hf o, h, hf o']

/-! ### Words of an output bank that a stage leaves alone

`W` is any part of an output bank that transactions leave alone, seen on bank `j`; the hypotheses name the writes of the stage,
which is at bank `k`. -/

section
variable {α : Type} {W : OutBank → α} (hW : ∀ o, W (outCore o) = W o) (b : Binding) (k : Bank) {j : Bank} (now : U32) (s : State)

theorem outWord_modOb {f : OutBank → OutBank} (hf : k = j → ∀ o, W (f o) = W o) : W (modOb k f s).ob[j] = W s.ob[j] := by
  rw [modOb_get]
  split
  · next hk =>
    subst hk
    exact hf rfl _
  · rfl

include hW

theorem outWord_afterXact (x : Xact) : W (afterXact b x s).ob[j] = W s.ob[j] :=
  outCore_word (afterXact_outCore b x s j) W hW

theorem outWord_afterCfg (f : ConfField) : W (afterCfg b k f s).ob[j] = W s.ob[j] :=
  outCore_word (afterCfg_outCore b k f s j) W hW

theorem outWord_onRead {x : Xact} {f : Byte → State → State} (hf : ∀ v t, W (f v t).ob[j] = W t.ob[j]) :
    W (onRead b x f s).ob[j] = W s.ob[j] := by
  rw [onRead_eq_elim]
  cases xactValue b x s with
  | none => exact outWord_afterXact hW b s x
  | some v => exact (hf v _).trans (outWord_afterXact hW b s x)

theorem outWord_refreshRun : W (refreshRun b k s).ob[j] = W s.ob[j] := by
  unfold refreshRun
  exact outWord_onRead hW b s fun _ _ => rfl

theorem outWord_phase0Run : W (phase0Run b k s).ob[j] = W s.ob[j] := by
  unfold phase0Run
  refine outWord_onRead hW b s fun v t => ?_
  dsimp only
  split
  · exact outWord_onRead hW b _ fun _ _ => rfl
  · rfl

theorem outWord_phase1Run (hread : k = j → ∀ o raw st, W { o with olRaw := raw, stOL := st } = W o) :
    W (phase1Run b k s).ob[j] = W s.ob[j] := by
  unfold phase1Run
  exact outWord_onRead hW b s fun v t => outWord_modOb k t fun hk o => hread hk o _ _

theorem outWord_ovRead (hread : k = j → ∀ o raw st, W { o with ovRaw := raw, stOV := st } = W o) :
    W (ovRead b k s).ob[j] = W s.ob[j] := by
  unfold ovRead
  exact outWord_onRead hW b s fun v t => outWord_modOb k t fun hk o => hread hk o _ _

theorem outWord_phase2Run (hread : k = j → ∀ o raw st, W { o with ovRaw := raw, stOV := st } = W o)
    (hpass : k = j → ∀ o, W (ovSteps now o) = W o) : W (phase2Run b now k s).ob[j] = W s.ob[j] := by
  rw [phase2Run_of_read]
  have hread := outWord_ovRead hW b k s hread
  have hpass := (outWord_modOb k (ovRead b k s) hpass).trans hread
  split_ifs
  · exact hpass
  · exact (outWord_afterXact hW b _ _).trans hpass
  · exact hread

theorem outWord_phase3Run : W (phase3Run b k s).ob[j] = W s.ob[j] := outWord_afterXact hW b s _

theorem outWord_thRead (hread : k = j → ∀ o raw st, W { o with thRaw := raw, stTH := st } = W o) :
    W (thRead b k s).ob[j] = W s.ob[j] := by
  unfold thRead
  exact outWord_onRead hW b s fun v t => outWord_modOb k t fun hk o => hread hk o _ _

theorem outWord_thModes : W (thModes b now k s).ob[j] = W (modOb k (thSteps now) s).ob[j] := by
  unfold thModes
  split
  · rfl
  · exact outWord_afterCfg hW b k _ _

theorem phase4Run_outWord : W (phase4Run b now k s).ob[j] = W (modOb k (thSteps now) (thRead b k s)).ob[j] := by
  rw [phase4Run_of_read, ← outWord_thModes hW b k now]
  split
  · rfl
  · exact outWord_afterXact hW b _ _

theorem outWord_phase4Run (hread : k = j → ∀ o raw st, W { o with thRaw := raw, stTH := st } = W o)
    (hpass : k = j → ∀ o, W (thSteps now o) = W o) : W (phase4Run b now k s).ob[j] = W s.ob[j] :=
  (phase4Run_outWord hW b k now s).trans ((outWord_modOb k _ hpass).trans (outWord_thRead hW b k s hread))

end

/-! ### Words of an input bank that a stage leaves alone -/

section
variable {α : Type} {W : InBank → α} (hW : ∀ r, W (inCore r) = W r) (b : Binding) (k : Bank) {j : Bank} (now : U32) (s : State)

theorem inWord_modIb {f : InBank → InBank} (hf : k = j → ∀ r, W (f r) = W r) : W (modIb k f s).ib[j] = W s.ib[j] := by
  rw [modIb_get]
  split
  · next hk =>
    subst hk
    exact hf rfl _
  · rfl

include hW

theorem inWord_afterXact (x : Xact) : W (afterXact b x s).ib[j] = W s.ib[j] :=
  inCore_word (afterXact_inCore b x s j) W hW

theorem inWord_afterCfg (f : ConfField) : W (afterCfg b k f s).ib[j] = W s.ib[j] :=
  inCore_word (afterCfg_inCore b k f s j) W hW

theorem inWord_onRead {x : Xact} {f : Byte → State → State} (hf : ∀ v t, W (f v t).ib[j] = W t.ib[j]) :
    W (onRead b x f s).ib[j] = W s.ib[j] := by
  rw [onRead_eq_elim]
  cases xactValue b x s with
  | none => exact inWord_afterXact hW b s x
  | some v => exact (hf v _).trans (inWord_afterXact hW b s x)

theorem inWord_refreshRun (hread : k = j → ∀ r raw st, W { r with wbRaw := raw, stWB := st } = W r) :
    W (refreshRun b k s).ib[j] = W s.ib[j] := by
  unfold refreshRun
  exact inWord_onRead hW b s fun v t => inWord_modIb k t fun hk r => hread hk r _ _

theorem inWord_phase0Run (hread1 : k = j → ∀ r raw st1 st2, W { r with f1Raw := raw, stAT1 := st1, stAT2 := st2 } = W r)
    (hread2 : k = j → ∀ r raw st, W { r with f2Raw := raw, stOT := st } = W r) : W (phase0Run b k s).ib[j] = W s.ib[j] := by
  unfold phase0Run
  refine inWord_onRead hW b s fun v t => ?_
  have hfirst := inWord_modIb (W := W) (j := j) k t
    (f := fun r => { r with f1Raw := v, stAT1 := if v.getLsbD 3 then 0xFF#8 else r.stAT1,
                            stAT2 := if v.getLsbD 4 then 0xFF#8 else r.stAT2 }) fun hk r => hread1 hk r _ _ _
  dsimp only
  split
  · exact (inWord_onRead hW b _ fun v t => inWord_modIb k t fun hk r => hread2 hk r _ _).trans hfirst
  · exact hfirst

theorem inWord_phase1Run : W (phase1Run b k s).ib[j] = W s.ib[j] := by
  unfold phase1Run
  exact inWord_onRead hW b s fun _ _ => rfl

theorem inWord_phase2Run : W (phase2Run b now k s).ib[j] = W s.ib[j] := by
  have hread : W (ovRead b k s).ib[j] = W s.ib[j] := inWord_onRead hW b s fun _ _ => rfl
  rw [phase2Run_of_read]
  split_ifs
  · exact hread
  · exact (inWord_afterXact hW b _ _).trans hread
  · exact hread

theorem inWord_phase3Run : W (phase3Run b k s).ib[j] = W s.ib[j] := inWord_afterXact hW b s _

theorem inWord_thModes : W (thModes b now k s).ib[j] = W s.ib[j] := by
  unfold thModes
  split
  · rfl
  · exact inWord_afterCfg hW b k _ _

theorem inWord_phase4Run : W (phase4Run b now k s).ib[j] = W s.ib[j] := by
  have hread : W (thRead b k s).ib[j] = W s.ib[j] := inWord_onRead hW b s fun _ _ => rfl
  have hmodes := (inWord_thModes hW b k now (j := j) (thRead b k s)).trans hread
  rw [phase4Run_of_read]
  split
  · exact hmodes
  · exact (inWord_afterXact hW b _ _).trans hmodes

end

/-! ### The words of each phase, left alone by the other phases -/

def wbWords (r : InBank) : Byte × Byte := (r.wbRaw, r.stWB)

def faultWords (r : InBank) : Byte × Byte × Byte × Byte × Byte := (r.f1Raw, r.f2Raw, r.stAT1, r.stAT2, r.stOT)

def olWords (o : OutBank) : Byte × Byte := (o.olRaw, o.stOL)

def ovWords (o : OutBank) : Byte × Byte × Byte := (o.ovRaw, o.stOV, o.ovLock)

def thWords (o : OutBank) : Byte × Byte × Byte := (o.thRaw, o.stTH, o.thLock)

section
variable (b : Binding) (now : U32) (s : State) (j : Bank)

theorem olWords_ovSteps (o : OutBank) : olWords (ovSteps now o) = olWords o := by
  obtain ⟨cmd, lock, ts, h⟩ := ovSteps_frame now o
  rw [h]
  rfl

theorem thWords_ovSteps (o : OutBank) : thWords (ovSteps now o) = thWords o := by
  obtain ⟨cmd, lock, ts, h⟩ := ovSteps_frame now o
  rw [h]
  rfl

theorem olWords_thSteps (o : OutBank) : olWords (thSteps now o) = olWords o := by
  obtain ⟨cmd, pp, lock, ts, h⟩ := thSteps_frame now o
  rw [h]
  rfl

theorem ovWords_thSteps (o : OutBank) : ovWords (thSteps now o) = ovWords o := by
  obtain ⟨cmd, pp, lock, ts, h⟩ := thSteps_frame now o
  rw [h]
  rfl

/-- Phases other than phase 0 leave the input banks alone. -/
theorem inWord_phaseRun {α : Type} {W : InBank → α} (hW : ∀ r, W (inCore r) = W r) {p : Fin 5} (hp : p ≠ 0) :
    W (phaseRun b p now s).ib[j] = W s.ib[j] := by
  match p with
  | 0 => exact absurd rfl hp
  | 1 => exact (inWord_phase1Run hW b 1 _).trans (inWord_phase1Run hW b 0 s)
  | 2 => exact (inWord_phase2Run hW b 1 now _).trans (inWord_phase2Run hW b 0 now s)
  | 3 => exact (inWord_phase3Run hW b 1 _).trans (inWord_phase3Run hW b 0 s)
  | 4 =>
    rw [phaseRun_four]
    exact (inWord_phase4Run hW b 1 now _).trans (inWord_phase4Run hW b 0 now s)

theorem wbWords_phaseRun (p : Fin 5) : wbWords (phaseRun b p now s).ib[j] = wbWords s.ib[j] := by
  by_cases hp : p = 0
  · subst hp
    have hbank (k : Bank) (u : State) : wbWords (phase0Run b k u).ib[j] = wbWords u.ib[j] :=
      inWord_phase0Run (fun _ => rfl) b k u (fun _ _ _ _ _ => rfl) fun _ _ _ _ => rfl
    exact (hbank 1 _).trans (hbank 0 s)
  · exact inWord_phaseRun b now s j (fun _ => rfl) hp

theorem olWords_phaseRun {p : Fin 5} (hp : p ≠ 1) : olWords (phaseRun b p now s).ob[j] = olWords s.ob[j] := by
  have hcore : ∀ o, olWords (outCore o) = olWords o := fun _ => rfl
  have hov (k : Bank) (u : State) : olWords (phase2Run b now k u).ob[j] = olWords u.ob[j] :=
    outWord_phase2Run hcore b k now u (fun _ _ _ _ => rfl) fun _ => olWords_ovSteps now
  have hth (k : Bank) (u : State) : olWords (phase4Run b now k u).ob[j] = olWords u.ob[j] :=
    outWord_phase4Run hcore b k now u (fun _ _ _ _ => rfl) fun _ => olWords_thSteps now
  match p with
  | 0 => exact (outWord_phase0Run hcore b 1 _).trans (outWord_phase0Run hcore b 0 s)
  | 1 => exact absurd rfl hp
  | 2 => exact (hov 1 _).trans (hov 0 s)
  | 3 => exact (outWord_phase3Run hcore b 1 _).trans (outWord_phase3Run hcore b 0 s)
  | 4 =>
    rw [phaseRun_four]
    exact (hth 1 _).trans (hth 0 s)

theorem ovWords_phaseRun {p : Fin 5} (hp : p ≠ 2) : ovWords (phaseRun b p now s).ob[j] = ovWords s.ob[j] := by
  have hcore : ∀ o, ovWords (outCore o) = ovWords o := fun _ => rfl
  have hol (k : Bank) (u : State) : ovWords (phase1Run b k u).ob[j] = ovWords u.ob[j] :=
    outWord_phase1Run hcore b k u fun _ _ _ _ => rfl
  have hth (k : Bank) (u : State) : ovWords (phase4Run b now k u).ob[j] = ovWords u.ob[j] :=
    outWord_phase4Run hcore b k now u (fun _ _ _ _ => rfl) fun _ => ovWords_thSteps now
  match p with
  | 0 => exact (outWord_phase0Run hcore b 1 _).trans (outWord_phase0Run hcore b 0 s)
  | 1 => exact (hol 1 _).trans (hol 0 s)
  | 2 => exact absurd rfl hp
  | 3 => exact (outWord_phase3Run hcore b 1 _).trans (outWord_phase3Run hcore b 0 s)
  | 4 =>
    rw [phaseRun_four]
    exact (hth 1 _).trans (hth 0 s)

theorem thWords_phaseRun {p : Fin 5} (hp : p ≠ 4) : thWords (phaseRun b p now s).ob[j] = thWords s.ob[j] := by
  have hcore : ∀ o, thWords (outCore o) = thWords o := fun _ => rfl
  have hol (k : Bank) (u : State) : thWords (phase1Run b k u).ob[j] = thWords u.ob[j] :=
    outWord_phase1Run hcore b k u fun _ _ _ _ => rfl
  have hov (k : Bank) (u : State) : thWords (phase2Run b now k u).ob[j] = thWords u.ob[j] :=
    outWord_phase2Run hcore b k now u (fun _ _ _ _ => rfl) fun _ => thWords_ovSteps now
  match p with
  | 0 => exact (outWord_phase0Run hcore b 1 _).trans (outWord_phase0Run hcore b 0 s)
  | 1 => exact (hol 1 _).trans (hol 0 s)
  | 2 => exact (hov 1 _).trans (hov 0 s)
  | 3 => exact (outWord_phase3Run hcore b 1 _).trans (outWord_phase3Run hcore b 0 s)
  | 4 => exact absurd rfl hp

end

/-! ### One bank after the other -/

section
variable {R : Bank → State → State} (u : State) (k : Bank)

/-- The state in which a stage comes to bank `k`: bank 0 comes first. -/
def turnOf (R : Bank → State → State) (u : State) (k : Bank) : State := if k = 0 then u else R 0 u

/-- Output bank `k` after both banks is as its own turn leaves it, and at its turn it is as at the start. -/
theorem outCore_bothBanks (hother : ∀ {k j : Bank} (s : State), k ≠ j → outCore (R k s).ob[j] = outCore s.ob[j]) :
    outCore (R 1 (R 0 u)).ob[k] = outCore (R k (turnOf R u k)).ob[k] ∧ outCore (turnOf R u k).ob[k] = outCore u.ob[k] := by
  match k with
  | 0 => exact ⟨hother _ (by decide), rfl⟩
  | 1 => exact ⟨rfl, hother _ (by decide)⟩

theorem inCore_bothBanks (hother : ∀ {k j : Bank} (s : State), k ≠ j → inCore (R k s).ib[j] = inCore s.ib[j]) :
    inCore (R 1 (R 0 u)).ib[k] = inCore (R k (turnOf R u k)).ib[k] ∧ inCore (turnOf R u k).ib[k] = inCore u.ib[k] := by
  match k with
  | 0 => exact ⟨hother _ (by decide), rfl⟩
  | 1 => exact ⟨rfl, hother _ (by decide)⟩

end

end Sys2Proof.Machine
end

section
/-! The bank words after a TICK (44_scheduler.md R201, R204 to R206, R208; 43_protection.md R180): what each stage makes of the
words it reads, and the words of the whole tick. -/

namespace Sys2Proof.Machine

/-! ### What a stage makes of the words of its own bank

`o` or `r` is the bank at the start of the tick, which at the turn of its stage differs by no more than transactions may change. -/

section
variable (b : Binding) (now : U32) {k : Bank} {s : State}

theorem wbWords_refreshRun {r : InBank} (h : inCore s.ib[k] = inCore r) :
    let v := xactValue b (.inRead k b.inRegWb) s
    wbWords (refreshRun b k s).ib[k] = (v.getD r.wbRaw, r.stWB ||| v.getD 0#8) := by
  have hafter := (afterXact_inCore b (.inRead k b.inRegWb) s k).trans h
  unfold refreshRun
  rw [onRead_eq_elim]
  cases xactValue b (.inRead k b.inRegWb) s with
  | none =>
    simp only [Option.elim_none, Option.getD_none, BitVec.or_zero]
    exact inCore_word hafter wbWords fun _ => rfl
  | some v =>
    simp only [Option.elim_some, Option.getD_some, modIb_get, if_true]
    exact inCore_word hafter (fun r => (v, r.stWB ||| v)) fun _ => rfl

theorem olWords_phase1Run {o : OutBank} (h : outCore s.ob[k] = outCore o) :
    let v := xactValue b (.outRead k b.outRegOl) s
    olWords (phase1Run b k s).ob[k] = (v.getD o.olRaw, o.stOL ||| v.getD 0#8) := by
  have hafter := (afterXact_outCore b (.outRead k b.outRegOl) s k).trans h
  unfold phase1Run
  rw [onRead_eq_elim]
  cases xactValue b (.outRead k b.outRegOl) s with
  | none =>
    simp only [Option.elim_none, Option.getD_none, BitVec.or_zero]
    exact outCore_word hafter olWords fun _ => rfl
  | some v =>
    simp only [Option.elim_some, Option.getD_some, modOb_get, if_true]
    exact outCore_word hafter (fun o => (v, o.stOL ||| v)) fun _ => rfl

/-- The bank after the read of phase 2. -/
theorem outCore_ovRead {o : OutBank} (h : outCore s.ob[k] = outCore o) :
    let v := xactValue b (.outRead k b.outRegOv) s
    outCore (ovRead b k s).ob[k] = outCore { o with ovRaw := v.getD o.ovRaw, stOV := o.stOV ||| v.getD 0#8 } := by
  have hafter := (afterXact_outCore b (.outRead k b.outRegOv) s k).trans h
  unfold ovRead
  rw [onRead_eq_elim]
  cases xactValue b (.outRead k b.outRegOv) s with
  | none =>
    simp only [Option.elim_none, Option.getD_none, BitVec.or_zero]
    exact hafter
  | some v =>
    simp only [Option.elim_some, Option.getD_some, modOb_get, if_true]
    exact outCore_word hafter (fun o => outCore { o with ovRaw := v, stOV := o.stOV ||| v }) fun _ => rfl

/-- The bank after the read of phase 4. -/
theorem outCore_thRead {o : OutBank} (h : outCore s.ob[k] = outCore o) :
    let v := xactValue b (.outRead k b.outRegTh) s
    outCore (thRead b k s).ob[k] = outCore { o with thRaw := v.getD o.thRaw, stTH := o.stTH ||| v.getD 0#8 } := by
  have hafter := (afterXact_outCore b (.outRead k b.outRegTh) s k).trans h
  unfold thRead
  rw [onRead_eq_elim]
  cases xactValue b (.outRead k b.outRegTh) s with
  | none =>
    simp only [Option.elim_none, Option.getD_none, BitVec.or_zero]
    exact hafter
  | some v =>
    simp only [Option.elim_some, Option.getD_some, modOb_get, if_true]
    exact outCore_word hafter (fun o => outCore { o with thRaw := v, stTH := o.stTH ||| v }) fun _ => rfl

end

/-! ### The lock words of the passes -/

theorem byte_ext_bit {v w : Byte} (h : ∀ c : Chan, bit v c = bit w c) : v = w :=
  BitVec.eq_of_getLsbD_eq fun i hi => h ⟨i, hi⟩

/-- The lock word of a pass comes from the channels alone. -/
theorem ovLock_ovSteps_congr {o o' : OutBank} (now : U32) (h : ∀ c, chan o c = chan o' c) :
    (ovSteps now o).ovLock = (ovSteps now o').ovLock := by
  have hpass (c : Chan) : chan (ovSteps now o) c = chan (ovSteps now o') c := by rw [chan_ovSteps, chan_ovSteps, h]
  exact byte_ext_bit fun c => congrArg (fun x : ChanState => x.ovLock) (hpass c)

theorem thLock_thSteps_congr {o o' : OutBank} (now : U32) (h : ∀ c, chan o c = chan o' c) :
    (thSteps now o).thLock = (thSteps now o').thLock := by
  have hpass (c : Chan) : chan (thSteps now o) c = chan (thSteps now o') c := by rw [chan_thSteps, chan_thSteps, h]
  exact byte_ext_bit fun c => congrArg (fun x : ChanState => x.thLock) (hpass c)

section
variable (b : Binding) (now : U32) {k : Bank} {s : State}

theorem phase2Run_unprotected (h : (ovRead b k s).ob[k].ovProtect = false) : phase2Run b now k s = ovRead b k s := by
  rw [phase2Run_of_read, h]
  rfl

/-- Under protection the pass decides the bank's words. -/
theorem phase2Run_protected (h : (ovRead b k s).ob[k].ovProtect = true) :
    outCore (phase2Run b now k s).ob[k] = outCore (ovSteps now (ovRead b k s).ob[k]) := by
  have hpass : (modOb k (ovSteps now) (ovRead b k s)).ob[k] = ovSteps now (ovRead b k s).ob[k] := by
    rw [modOb_get, if_pos rfl]
  rw [phase2Run_of_read, h, if_pos rfl, ← hpass]
  split
  · rfl
  · exact afterXact_outCore _ _ _ _

/-- What R206 and R182 make of the over-voltage words of a bank. -/
theorem ovWords_phase2Run {o : OutBank} (h : outCore s.ob[k] = outCore o) :
    let t := phase2Run b now k s
    let v := xactValue b (.outRead k b.outRegOv) s
    t.ob[k].ovRaw = v.getD o.ovRaw ∧ t.ob[k].stOV = o.stOV ||| v.getD 0#8 ∧
      (o.ovProtect = false → t.ob[k].ovLock = o.ovLock) ∧
      (o.ovProtect = true → t.ob[k].ovLock = (ovSteps now { o with ovRaw := v.getD o.ovRaw }).ovLock) := by
  intro t v
  have hread : outCore (ovRead b k s).ob[k] = outCore { o with ovRaw := v.getD o.ovRaw, stOV := o.stOV ||| v.getD 0#8 } :=
    outCore_ovRead b h
  have hprotect : (ovRead b k s).ob[k].ovProtect = o.ovProtect := outCore_word hread (fun o => o.ovProtect) fun _ => rfl
  have hraw : (ovRead b k s).ob[k].ovRaw = v.getD o.ovRaw := outCore_word hread (fun o => o.ovRaw) fun _ => rfl
  have hsticky : (ovRead b k s).ob[k].stOV = o.stOV ||| v.getD 0#8 := outCore_word hread (fun o => o.stOV) fun _ => rfl
  by_cases hp : o.ovProtect = true
  case neg =>
    have ht : t = ovRead b k s := phase2Run_unprotected b now (hprotect.trans (Bool.eq_false_iff.mpr hp))
    rw [ht]
    exact ⟨hraw, hsticky, fun _ => outCore_word hread (fun o => o.ovLock) fun _ => rfl, fun h => absurd h hp⟩
  case pos =>
    have ht : outCore t.ob[k] = _ := phase2Run_protected b now (hprotect.trans hp)
    obtain ⟨cmd, lock, ts, hpass⟩ := ovSteps_frame now (ovRead b k s).ob[k]
    have hlock : (ovSteps now (ovRead b k s).ob[k]).ovLock = (ovSteps now { o with ovRaw := v.getD o.ovRaw }).ovLock :=
      ovLock_ovSteps_congr now fun c => outCore_word hread (chan · c) fun _ => rfl
    refine ⟨?_, ?_, fun h => absurd (hp.symm.trans h) nofun, fun _ => (outCore_word ht (fun o => o.ovLock) fun _ => rfl).trans hlock⟩
    · rw [hpass] at ht
      exact (outCore_word ht (fun o => o.ovRaw) fun _ => rfl).trans hraw
    · rw [hpass] at ht
      exact (outCore_word ht (fun o => o.stOV) fun _ => rfl).trans hsticky

/-- What R208 and R185 make of the thermal words of a bank. -/
theorem thWords_phase4Run {o : OutBank} (h : outCore s.ob[k] = outCore o) :
    let t := phase4Run b now k s
    let v := xactValue b (.outRead k b.outRegTh) s
    t.ob[k].thRaw = v.getD o.thRaw ∧ t.ob[k].stTH = o.stTH ||| v.getD 0#8 ∧
      t.ob[k].thLock = (thSteps now { o with thRaw := v.getD o.thRaw }).thLock := by
  intro t v
  have hread : outCore (thRead b k s).ob[k] = outCore { o with thRaw := v.getD o.thRaw, stTH := o.stTH ||| v.getD 0#8 } :=
    outCore_thRead b h
  have hraw : (thRead b k s).ob[k].thRaw = v.getD o.thRaw := outCore_word hread (fun o => o.thRaw) fun _ => rfl
  have hsticky : (thRead b k s).ob[k].stTH = o.stTH ||| v.getD 0#8 := outCore_word hread (fun o => o.stTH) fun _ => rfl
  have ht : outCore t.ob[k] = outCore (thSteps now (thRead b k s).ob[k]) := by
    rw [phase4Run_outWord (W := outCore) (fun _ => rfl), modOb_get, if_pos rfl]
  obtain ⟨cmd, pp, lock, ts, hpass⟩ := thSteps_frame now (thRead b k s).ob[k]
  have hlock : (thSteps now (thRead b k s).ob[k]).thLock = (thSteps now { o with thRaw := v.getD o.thRaw }).thLock :=
    thLock_thSteps_congr now fun c => outCore_word hread (chan · c) fun _ => rfl
  refine ⟨?_, ?_, (outCore_word ht (fun o => o.thLock) fun _ => rfl).trans hlock⟩
  · rw [hpass] at ht
    exact (outCore_word ht (fun o => o.thRaw) fun _ => rfl).trans hraw
  · rw [hpass] at ht
    exact (outCore_word ht (fun o => o.stTH) fun _ => rfl).trans hsticky

/-- The bank after a read of fault register 1 that gave `v`. -/
def fault1Bank (v : Byte) (r : InBank) : InBank :=
  { r with f1Raw := v, stAT1 := if v.getLsbD 3 then 0xFF#8 else r.stAT1, stAT2 := if v.getLsbD 4 then 0xFF#8 else r.stAT2 }

/-- The second read of phase 0, where it is asked for. -/
def fault2Run (k : Bank) : State → State :=
  onRead b (.inRead k b.inRegFault2) (fun w => modIb k fun r =>
    { r with f2Raw := w, stOT := if w.getLsbD b.f2OtBit.val then 0xFF#8 else r.stOT })

theorem phase0Run_of_failed (hread : xactValue b (.inRead k b.inRegFault1) s = none) :
    phase0Run b k s = afterXact b (.inRead k b.inRegFault1) s := by
  rw [phase0Run, onRead_eq_elim, hread, Option.elim_none]

theorem phase0Run_of_read {v : Byte} (hread : xactValue b (.inRead k b.inRegFault1) s = some v) :
    phase0Run b k s =
      if v.getLsbD 5 then fault2Run b k (modIb k (fault1Bank v) (afterXact b (.inRead k b.inRegFault1) s))
      else modIb k (fault1Bank v) (afterXact b (.inRead k b.inRegFault1) s) := by
  rw [phase0Run, onRead_eq_elim, hread, Option.elim_some]
  rfl

theorem xactValue_modIb (x : Xact) (f : InBank → InBank) : xactValue b x (modIb k f s) = xactValue b x s := by
  cases x <;> rfl

theorem inCore_fault2Run {r : InBank} (h : inCore s.ib[k] = inCore r) :
    let w := xactValue b (.inRead k b.inRegFault2) s
    inCore (fault2Run b k s).ib[k] = inCore { r with
      f2Raw := w.getD r.f2Raw
      stOT := if (w.getD 0#8).getLsbD b.f2OtBit.val = true then 0xFF#8 else r.stOT } := by
  have hafter := (afterXact_inCore b (.inRead k b.inRegFault2) s k).trans h
  rw [fault2Run, onRead_eq_elim]
  cases xactValue b (.inRead k b.inRegFault2) s with
  | none =>
    simp only [Option.elim_none, Option.getD_none, BitVec.getLsbD_zero, Bool.false_eq_true, if_false]
    exact hafter
  | some w =>
    simp only [Option.elim_some, Option.getD_some, modIb_get, if_true]
    exact inCore_word hafter (fun r => inCore { r with
      f2Raw := w
      stOT := if w.getLsbD b.f2OtBit.val = true then 0xFF#8 else r.stOT }) fun _ => rfl

/-- What R204 makes of the fault-register words of a bank: bit 5 of the first register asks for the second. -/
theorem faultWords_phase0Run {r : InBank} (h : inCore s.ib[k] = inCore r) :
    let t := phase0Run b k s
    let r1 := xactValue b (.inRead k b.inRegFault1) s
    let r2 := if (r1.getD 0#8).getLsbD 5 = true then
      xactValue b (.inRead k b.inRegFault2) (afterXact b (.inRead k b.inRegFault1) s) else none
    faultWords t.ib[k] = (r1.getD r.f1Raw, r2.getD r.f2Raw, if (r1.getD 0#8).getLsbD 3 = true then 0xFF#8 else r.stAT1,
      if (r1.getD 0#8).getLsbD 4 = true then 0xFF#8 else r.stAT2,
      if (r2.getD 0#8).getLsbD b.f2OtBit.val = true then 0xFF#8 else r.stOT) := by
  have hafter := (afterXact_inCore b (.inRead k b.inRegFault1) s k).trans h
  cases hread : xactValue b (.inRead k b.inRegFault1) s with
  | none =>
    simp only [phase0Run_of_failed b hread, Option.getD_none, BitVec.getLsbD_zero, Bool.false_eq_true, if_false]
    exact inCore_word hafter faultWords fun _ => rfl
  | some v =>
    simp only [phase0Run_of_read b hread, Option.getD_some]
    have hfirst : inCore (modIb k (fault1Bank v) (afterXact b (.inRead k b.inRegFault1) s)).ib[k] = inCore (fault1Bank v r) := by
      rw [modIb_get, if_pos rfl]
      exact inCore_word hafter (fun r => inCore (fault1Bank v r)) fun _ => rfl
    by_cases hbit : v.getLsbD 5 = true
    · simp only [hbit, if_true]
      have hsecond := inCore_fault2Run b hfirst
      rw [xactValue_modIb] at hsecond
      exact inCore_word hsecond faultWords fun _ => rfl
    · simp only [hbit, if_false, Option.getD_none, BitVec.getLsbD_zero, Bool.false_eq_true]
      exact inCore_word hfirst faultWords fun _ => rfl

end

/-! ### The whole tick -/

section
variable (b : Binding) (s : State) (k : Bank)

theorem outCore_refreshed : outCore (refreshed b s).ob[k] = outCore s.ob[k] :=
  (outWord_refreshRun (W := outCore) (fun _ => rfl) b 1 _).trans (outWord_refreshRun (W := outCore) (fun _ => rfl) b 0 (afterMs s))

theorem faultWords_refreshed : faultWords (refreshed b s).ib[k] = faultWords s.ib[k] := by
  have hbank (j : Bank) (u : State) : faultWords (refreshRun b j u).ib[k] = faultWords u.ib[k] :=
    inWord_refreshRun (fun _ => rfl) b j u fun _ _ _ _ => rfl
  exact (hbank 1 _).trans (hbank 0 (afterMs s))

/-- What R201 makes of the wire-open words of a bank. -/
theorem wbWords_refreshed : let v := xactValue b (.inRead k b.inRegWb) (turnOf (refreshRun b) s k)
    wbWords (refreshed b s).ib[k] = (v.getD s.ib[k].wbRaw, s.ib[k].stWB ||| v.getD 0#8) := by
  obtain ⟨hturn, hstart⟩ := inCore_bothBanks (R := refreshRun b) (afterMs s) k fun u hkj =>
    inWord_refreshRun (W := inCore) (fun _ => rfl) b _ u fun h => absurd h hkj
  have hsame : SameDevice (turnOf (refreshRun b) s k) (turnOf (refreshRun b) (afterMs s) k) :=
    .ite Iff.rfl (sameDevice_afterMs s) ((sameDevice_afterMs s).refreshRun b 0)
  have hwords := wbWords_refreshRun b hstart
  rw [hsame.xactValue] at hwords
  exact (inCore_word hturn wbWords fun _ => rfl).trans hwords

end

section
variable {s : State} {n : Fin 5}

/-- Phase `n` is run by a tick from `s` (R202). -/
def RunsPhase (s : State) (n : Fin 5) : Prop := 20 ≤ (nowMs s - s.sched.lastMs).toNat ∧ s.sched.phase.val = n.val

theorem banksRun_of_runs (h : RunsPhase s n) : banksRun s = phaseRun s.cfg n (nowMs s) (refreshed s.cfg s) := by
  obtain ⟨hgate, hphase⟩ := h
  rw [banksRun, if_pos hgate, Fin.ext hphase]

/-- A part of the state that the phases other than `n` leave alone, in a tick that does not run phase `n`. -/
theorem banksRun_of_not_runs {β : Type} {V : State → β}
    (hphase : ∀ (p : Fin 5) (u : State), p ≠ n → V (phaseRun s.cfg p (nowMs s) u) = V u) (h : ¬RunsPhase s n) :
    V (banksRun s) = V (refreshed s.cfg s) := by
  unfold banksRun
  split
  · next hgate => exact hphase _ _ fun hp => h ⟨hgate, congrArg Fin.val hp⟩
  · rfl

variable (k : Bank)

theorem wbWords_banksRun : let v := xactValue s.cfg (.inRead k s.cfg.inRegWb) (turnOf (refreshRun s.cfg) s k)
    wbWords (banksRun s).ib[k] = (v.getD s.ib[k].wbRaw, s.ib[k].stWB ||| v.getD 0#8) := by
  refine Eq.trans ?_ (wbWords_refreshed s.cfg s k)
  unfold banksRun
  split
  · exact wbWords_phaseRun ..
  · rfl

theorem faultWords_of_not_runs (h : ¬RunsPhase s 0) : faultWords (banksRun s).ib[k] = faultWords s.ib[k] :=
  (banksRun_of_not_runs (V := fun u => faultWords u.ib[k])
    (fun _ u hp => inWord_phaseRun s.cfg (nowMs s) u k (fun _ => rfl) hp) h).trans (faultWords_refreshed s.cfg s k)

theorem olWords_of_not_runs (h : ¬RunsPhase s 1) : olWords (banksRun s).ob[k] = olWords s.ob[k] :=
  (banksRun_of_not_runs (V := fun u => olWords u.ob[k]) (fun _ u hp => olWords_phaseRun s.cfg (nowMs s) u k hp) h).trans
    (outCore_word (outCore_refreshed s.cfg s k) olWords fun _ => rfl)

theorem ovWords_of_not_runs (h : ¬RunsPhase s 2) : ovWords (banksRun s).ob[k] = ovWords s.ob[k] :=
  (banksRun_of_not_runs (V := fun u => ovWords u.ob[k]) (fun _ u hp => ovWords_phaseRun s.cfg (nowMs s) u k hp) h).trans
    (outCore_word (outCore_refreshed s.cfg s k) ovWords fun _ => rfl)

theorem thWords_of_not_runs (h : ¬RunsPhase s 4) : thWords (banksRun s).ob[k] = thWords s.ob[k] :=
  (banksRun_of_not_runs (V := fun u => thWords u.ob[k]) (fun _ u hp => thWords_phaseRun s.cfg (nowMs s) u k hp) h).trans
    (outCore_word (outCore_refreshed s.cfg s k) thWords fun _ => rfl)

theorem faultWords_of_runs (h : RunsPhase s 0) :
    let b := s.cfg
    let v := turnOf (phase0Run b) (refreshed b s) k
    let r1 := xactValue b (.inRead k b.inRegFault1) v
    let r2 := if (r1.getD 0#8).getLsbD 5 = true then
      xactValue b (.inRead k b.inRegFault2) (afterXact b (.inRead k b.inRegFault1) v) else none
    faultWords (banksRun s).ib[k] = (r1.getD s.ib[k].f1Raw, r2.getD s.ib[k].f2Raw,
      if (r1.getD 0#8).getLsbD 3 = true then 0xFF#8 else s.ib[k].stAT1,
      if (r1.getD 0#8).getLsbD 4 = true then 0xFF#8 else s.ib[k].stAT2,
      if (r2.getD 0#8).getLsbD b.f2OtBit.val = true then 0xFF#8 else s.ib[k].stOT) := by
  obtain ⟨hturn, hstart⟩ := inCore_bothBanks (R := phase0Run s.cfg) (refreshed s.cfg s) k fun v hkj =>
    inWord_phase0Run (W := inCore) (fun _ => rfl) s.cfg _ v (fun h => absurd h hkj) fun h => absurd h hkj
  have hfill := faultWords_phase0Run s.cfg hstart
  have hkept := faultWords_refreshed s.cfg s k
  simp only [faultWords, Prod.mk.injEq] at hkept
  obtain ⟨hf1, hf2, hat1, hat2, hot⟩ := hkept
  rw [hf1, hf2, hat1, hat2, hot] at hfill
  rw [banksRun_of_runs h]
  exact (inCore_word hturn faultWords fun _ => rfl).trans hfill

theorem olWords_of_runs (h : RunsPhase s 1) :
    let v := xactValue s.cfg (.outRead k s.cfg.outRegOl) (turnOf (phase1Run s.cfg) (refreshed s.cfg s) k)
    olWords (banksRun s).ob[k] = (v.getD s.ob[k].olRaw, s.ob[k].stOL ||| v.getD 0#8) := by
  obtain ⟨hturn, hstart⟩ := outCore_bothBanks (R := phase1Run s.cfg) (refreshed s.cfg s) k fun v hkj =>
    outWord_phase1Run (W := outCore) (fun _ => rfl) s.cfg _ v fun h => absurd h hkj
  rw [banksRun_of_runs h]
  exact (outCore_word hturn olWords fun _ => rfl).trans
    (olWords_phase1Run s.cfg (hstart.trans (outCore_refreshed s.cfg s k)))

theorem ovWords_of_runs (h : RunsPhase s 2) :
    let v := xactValue s.cfg (.outRead k s.cfg.outRegOv) (turnOf (phase2Run s.cfg (nowMs s)) (refreshed s.cfg s) k)
    let o := s.ob[k]
    let o' := (banksRun s).ob[k]
    o'.ovRaw = v.getD o.ovRaw ∧ o'.stOV = o.stOV ||| v.getD 0#8 ∧ (o.ovProtect = false → o'.ovLock = o.ovLock) ∧
      (o.ovProtect = true → o'.ovLock = (ovSteps (nowMs s) { o with ovRaw := v.getD o.ovRaw }).ovLock) := by
  obtain ⟨hturn, hstart⟩ := outCore_bothBanks (R := phase2Run s.cfg (nowMs s)) (refreshed s.cfg s) k fun v hkj =>
    outWord_phase2Run (W := outCore) (fun _ => rfl) s.cfg _ (nowMs s) v (fun h => absurd h hkj) fun h => absurd h hkj
  obtain ⟨hraw, hsticky, hopen, hpass⟩ := ovWords_phase2Run s.cfg (nowMs s) (hstart.trans (outCore_refreshed s.cfg s k))
  rw [banksRun_of_runs h]
  have hlock := outCore_word hturn (·.ovLock) fun _ => rfl
  exact ⟨(outCore_word hturn (·.ovRaw) fun _ => rfl).trans hraw, (outCore_word hturn (·.stOV) fun _ => rfl).trans hsticky,
    fun hp => hlock.trans (hopen hp), fun hp => hlock.trans (hpass hp)⟩

theorem thWords_of_runs (h : RunsPhase s 4) :
    let v := xactValue s.cfg (.outRead k s.cfg.outRegTh) (turnOf (phase4Run s.cfg (nowMs s)) (refreshed s.cfg s) k)
    let o := s.ob[k]
    let o' := (banksRun s).ob[k]
    o'.thRaw = v.getD o.thRaw ∧ o'.stTH = o.stTH ||| v.getD 0#8 ∧
      o'.thLock = (thSteps (nowMs s) { o with thRaw := v.getD o.thRaw }).thLock := by
  obtain ⟨hturn, hstart⟩ := outCore_bothBanks (R := phase4Run s.cfg (nowMs s)) (refreshed s.cfg s) k fun v hkj =>
    outWord_phase4Run (W := outCore) (fun _ => rfl) s.cfg _ (nowMs s) v (fun h => absurd h hkj) fun h => absurd h hkj
  obtain ⟨hraw, hsticky, hlock⟩ := thWords_phase4Run s.cfg (nowMs s) (hstart.trans (outCore_refreshed s.cfg s k))
  rw [banksRun_of_runs h]
  exact ⟨(outCore_word hturn (·.thRaw) fun _ => rfl).trans hraw, (outCore_word hturn (·.stTH) fun _ => rfl).trans hsticky,
    (outCore_word hturn (·.thLock) fun _ => rfl).trans hlock⟩

end

/-- Settles O60: the refreshes and the phase, by the words each leaves alone and the words it fills. -/
theorem tickWords : Obligations.TickWords := by
  intro s hfree
  obtain ⟨t, hexec, hwords⟩ := exec_tick_banks hfree
  have hin {α : Type} (k : Bank) (W : InBank → α) (hW : ∀ r, W (inCore r) = W r) : W t.ib[k] = W (banksRun s).ib[k] :=
    inCore_word (hwords k).2 W hW
  have hout {α : Type} (k : Bank) (W : OutBank → α) (hW : ∀ o, W (outFaults o) = W o) : W t.ob[k] = W (banksRun s).ob[k] :=
    outFaults_word (hwords k).1 W hW
  refine ⟨t, hexec, fun k => ?wb, fun h k => ?not0, fun h k => ?runs0, fun h k => ?not1, fun h k => ?runs1, fun h k => ?not2,
    fun h k => ?runs2, fun h k => ?not4, fun h k => ?runs4⟩
  case wb => exact Prod.mk.inj ((hin k wbWords fun _ => rfl).trans (wbWords_banksRun k))
  case not0 =>
    have hkept := (hin k faultWords fun _ => rfl).trans (faultWords_of_not_runs k h)
    simpa only [faultWords, Prod.mk.injEq] using hkept
  case runs0 =>
    have hfilled := (hin k faultWords fun _ => rfl).trans (faultWords_of_runs k h)
    simp only [faultWords, Prod.mk.injEq] at hfilled
    exact hfilled
  case not1 => exact Prod.mk.inj ((hout k olWords fun _ => rfl).trans (olWords_of_not_runs k h))
  case runs1 => exact Prod.mk.inj ((hout k olWords fun _ => rfl).trans (olWords_of_runs k h))
  case not2 =>
    have hkept := (hout k ovWords fun _ => rfl).trans (ovWords_of_not_runs k h)
    simpa only [ovWords, Prod.mk.injEq] using hkept
  case runs2 =>
    obtain ⟨hraw, hsticky, hopen, hpass⟩ := ovWords_of_runs k h
    have hlock := hout k (·.ovLock) fun _ => rfl
    exact ⟨(hout k (·.ovRaw) fun _ => rfl).trans hraw, (hout k (·.stOV) fun _ => rfl).trans hsticky,
      fun hp => hlock.trans (hopen hp), fun hp => hlock.trans (hpass hp)⟩
  case not4 =>
    have hkept := (hout k thWords fun _ => rfl).trans (thWords_of_not_runs k h)
    simpa only [thWords, Prod.mk.injEq] using hkept
  case runs4 =>
    obtain ⟨hraw, hsticky, hlock⟩ := thWords_of_runs k h
    exact ⟨(hout k (·.thRaw) fun _ => rfl).trans hraw, (hout k (·.stTH) fun _ => rfl).trans hsticky,
      (hout k (·.thLock) fun _ => rfl).trans hlock⟩

end Sys2Proof.Machine
end

section
/-! Refusals (60_exceptions.md R301, R303, R305): `FAIL(ARG)` and `FAIL(LOCK)` come from the first action of an operation alone,
and that action has then written nothing but, for a PWM of duty 0, its channel. -/

namespace Sys2Proof.Machine

/-- The answers of an operation that was refused. -/
def Refused (r : Result) : Prop := r = .fail .arg ∨ r = .fail .lock

theorem not_refused_ok (v : Value) : ¬Refused (.ok v) := by simp [Refused]

theorem not_refused_transport (c : TransportCause) : ¬Refused (.fail (.transport c)) := by simp [Refused]

/-! ### Operations on the bus are never refused -/

/-- An operation, or what is left of one, that begins with an attempt, and that with the lock free comes to no refusal. -/
structure BusRun (p : Prog) : Prop where
  acq : StartsAtAcq p
  comes : ∀ s : State, s.lock = .free → ∃ r t, ¬Refused r ∧ Leads p s (.ret r) t

section
variable (b : Binding)

theorem busRun_transaction (x : Xact) {next : Option Byte → Prog} (hnext : ∀ v, ∃ r, ¬Refused r ∧ next v = .ret r) :
    BusRun (transaction b x next) := by
  refine ⟨rfl, fun s hfree => ?_⟩
  obtain ⟨r, hr, hret⟩ := hnext (xactValue b x s)
  exact ⟨r, _, hr, hret ▸ transaction_leads b x next hfree⟩

theorem busRun_endWord (x : Xact) : BusRun (transaction b x endWord) := by
  refine busRun_transaction b x fun v => ?_
  cases v with
  | none => exact ⟨_, not_refused_transport _, rfl⟩
  | some v => exact ⟨_, not_refused_ok _, rfl⟩

theorem busRun_endDone (x : Xact) : BusRun (transaction b x endDone) := by
  refine busRun_transaction b x fun v => ?_
  cases v with
  | none => exact ⟨_, not_refused_transport _, rfl⟩
  | some v => exact ⟨_, not_refused_ok _, rfl⟩

theorem not_refused_cfgResult (k : Bank) (f : ConfField) (s : State) : ¬Refused (cfgResult b k f s) := by
  cases h : cfgResult b k f s with
  | ok v => exact not_refused_ok v
  | fail e =>
    obtain he | he := cfgResult_failed h <;> rw [he] <;> exact not_refused_transport _

theorem busRun_outCfg (k : Bank) (f : ConfField) : BusRun (outCfg b k f .ret) :=
  ⟨rfl, fun s hfree => ⟨_, _, not_refused_cfgResult b k f s, outCfg_leads b k f .ret hfree⟩⟩

theorem configTail_not_refused (p : Pin) (md : PinMode) (det : Bool) (s : State) : ¬Refused (configTail b p md det s).2 := by
  obtain ⟨-, hout⟩ := configTail_outcome (b := b) (p := p) (md := md) (det := det) (s := s)
  obtain ⟨hr, -⟩ | ⟨hr | hr, -⟩ := hout <;> rw [hr]
  · exact not_refused_ok _
  · exact not_refused_transport _
  · exact not_refused_transport _

theorem busRun_configRest (p : Pin) (md : PinMode) (det : Bool) : BusRun (configRest b p md det) :=
  ⟨rfl, fun s hfree => ⟨_, _, configTail_not_refused b p md det s, configRest_leads hfree⟩⟩

/-- CONFIG of an input pin after S1's state write. -/
theorem busRun_configSend (k : Bank) (p : Pin) (md : PinMode) (det : Bool) : BusRun (transaction b (.outWrite k .setOut) fun w =>
    match w with
    | none => .ret crcFail
    | some _ => loc (fun s => (configS2 p md s, .done)) fun _ => configRest b p md det) := by
  refine ⟨rfl, fun s hfree => ?_⟩
  have hsend := transaction_leads b (.outWrite k .setOut) (s := s) (fun w =>
    match w with
    | none => .ret crcFail
    | some _ => loc (fun s => (configS2 p md s, .done)) fun _ => configRest b p md det) hfree
  have hafter : (configS2 p md (afterXact b (.outWrite k .setOut) s)).lock = .free := (afterXact_lock ..).trans hfree
  cases hv : xactValue b (.outWrite k .setOut) s with
  | some v =>
    rw [hv] at hsend
    obtain ⟨r, t, hr, hleads⟩ := (busRun_configRest b p md det).comes _ hafter
    exact ⟨r, t, hr, hsend.trans ((Leads.loc (blind_configS2 p md)).trans hleads)⟩
  | none =>
    rw [hv] at hsend
    exact ⟨_, _, not_refused_transport _, hsend⟩

end

/-! ### How an operation begins -/

/-- How an operation can begin: it is over; or it is on the bus; or with an action that ends it, or that what is never refused
follows. Where the action fails it takes `u` to a `w` with `K u e w`. -/
inductive Opening (K : State → Failure → State → Prop) : Prog → Prop
  | ret (r : Result) : Opening K (.ret r)
  | bus {p} (h : BusRun p) : Opening K p
  | first {act next} (hblind : Blind act) (hact : ∀ u w e, act u = (w, .finish (.fail e)) → K u e w)
      (hnext : ∀ a, (∃ r, a = .finish r ∧ next a = .ret r) ∨ (∃ r, ¬Refused r ∧ next a = .ret r) ∨
        (BusRun (next a) ∧ ∀ u, (act u).1.lock = u.lock)) : Opening K (loc act next)

section
variable {i : Instr} {s t : State}

theorem resp_beginOp (i : Instr) (s : State) : (beginOp i s).resp[s.cur] = none := by
  simp [beginOp, startOp]

/-- An operation that is on the bus from its beginning was not refused. -/
theorem not_refused_of_bus (hlegal : legal i = true) (hbus : BusRun (programOf s.cfg i)) (hexec : exec i s = .next t) {r : Result}
    (hresp : t.resp[s.cur] = some r) : ¬Refused r := by
  by_cases hfree : s.lock = .free
  · obtain ⟨r', u, hr', hleads⟩ := hbus.comes _ ((recordRace_lock i s).trans hfree)
    have ⟨hcur, _⟩ := hleads
    rw [exec_of_leads hlegal hleads] at hexec
    obtain rfl : complete r' u = t := by simpa using hexec
    rw [complete_resp_of_cur (hcur.trans (recordRace_cur i s))] at hresp
    exact Option.some_inj.mp hresp ▸ hr'
  · obtain ⟨hwaits, -⟩ := waits_of_startsAtAcq hbus.acq (s := beginOp i s) (by simpa using hfree)
    rw [exec_eq, runOp_legal _ hlegal, hwaits] at hexec
    obtain rfl : beginOp i s = t := by simpa using hexec
    rw [resp_beginOp] at hresp
    exact absurd hresp nofun

section
variable {act : State → State × Answer} {next : Answer → Prog} (hlegal : legal i = true)
  (hprog : programOf s.cfg i = loc act next) (hblind : Blind act)
include hlegal hprog hblind

/-- An operation that its first action ends. -/
theorem exec_of_first {r : Result} (hret : next (act (recordRace i s)).2 = .ret r) :
    exec i s = .next (complete r (act (recordRace i s)).1) := by
  refine exec_of_leads hlegal ?_
  rw [hprog, ← hret]
  exact Leads.loc hblind

/-- An operation whose first action is followed by an attempt waits there while the lock is held, and has not answered. -/
theorem resp_of_waits (hacq : StartsAtAcq (next (act (recordRace i s)).2)) (hheld : (act (recordRace i s)).1.lock ≠ .free)
    (hexec : exec i s = .next t) : t.resp[s.cur] = none := by
  have hbegin : beginOp i s = withBook (s.op.set s.cur (.busy i [])) (s.resp.set s.cur none) (recordRace i s) := by
    simp only [beginOp, startOp, withBook, recordRace_op, recordRace_cur, recordRace_resp]
  rw [exec_eq, runOp_legal _ hlegal, hprog, drive_loc, hbegin, hblind.book] at hexec
  obtain ⟨hwaits, -⟩ := waits_of_startsAtAcq hacq
    (s := note (act (recordRace i s)).2 (withBook (s.op.set s.cur (.busy i [])) (s.resp.set s.cur none) (act (recordRace i s)).1))
    (by simpa using hheld)
  rw [hwaits] at hexec
  obtain rfl : _ = t := by simpa using hexec
  simp

/-- An operation whose first action is followed by a run on the bus was not refused. -/
theorem not_refused_of_first (hbus : BusRun (next (act (recordRace i s)).2)) (hlock : (act (recordRace i s)).1.lock = s.lock)
    (hexec : exec i s = .next t) {r : Result} (hresp : t.resp[s.cur] = some r) : ¬Refused r := by
  by_cases hfree : s.lock = .free
  · obtain ⟨r', u, hr', hleads⟩ := hbus.comes _ (hlock.trans hfree)
    have hrun : Leads (programOf s.cfg i) (recordRace i s) (.ret r') u := hprog ▸ (Leads.loc hblind).trans hleads
    have ⟨hcur, _⟩ := hrun
    rw [exec_of_leads hlegal hrun] at hexec
    obtain rfl : complete r' u = t := by simpa using hexec
    rw [complete_resp_of_cur (hcur.trans (recordRace_cur i s))] at hresp
    exact Option.some_inj.mp hresp ▸ hr'
  · rw [resp_of_waits hlegal hprog hblind hbus.acq (by rw [hlock]; exact hfree) hexec] at hresp
    exact absurd hresp nofun

end

/-- A refused operation has come to what its first action left. -/
theorem refused_of_opening {K : State → Failure → State → Prop} (hK : ∀ u e, K u e u) (hlegal : legal i = true)
    (hopen : Opening K (programOf s.cfg i)) {e : Failure} (he : Refused (.fail e)) (hexec : exec i s = .next t)
    (hresp : t.resp[s.cur] = some (.fail e)) : ∃ w, K (recordRace i s) e w ∧ t = complete (.fail e) w := by
  generalize hprog : programOf s.cfg i = p at hopen
  cases hopen with
  | ret r =>
    have hover : exec i s = .next (complete r (recordRace i s)) := exec_of_leads hlegal (hprog ▸ .refl _ _)
    obtain rfl : complete r (recordRace i s) = t := by simpa [hover] using hexec
    obtain rfl : r = .fail e := by simpa using hresp
    exact ⟨_, hK _ _, rfl⟩
  | bus hbus => exact absurd he (not_refused_of_bus hlegal (hprog ▸ hbus) hexec hresp)
  | first hblind hact hnext =>
    rename_i act next
    have hends {r : Result} (hret : next (act (recordRace i s)).2 = .ret r) :
        t = complete r (act (recordRace i s)).1 ∧ r = .fail e := by
      have hover := exec_of_first hlegal hprog hblind hret
      obtain rfl : complete r _ = t := by simpa [hover] using hexec
      rw [complete_resp_of_cur ((hblind.cur _).trans (recordRace_cur i s))] at hresp
      exact ⟨rfl, Option.some_inj.mp hresp⟩
    obtain ⟨r, ha, hret⟩ | ⟨r, hr, hret⟩ | ⟨hbus, hlock⟩ := hnext (act (recordRace i s)).2
    · obtain ⟨ht, rfl⟩ := hends hret
      exact ⟨_, hact _ _ _ (Prod.ext rfl ha), ht⟩
    · obtain ⟨-, rfl⟩ := hends hret
      exact absurd he hr
    · exact absurd he (not_refused_of_first hlegal hprog hblind hbus ((hlock _).trans (recordRace_lock i s)) hexec hresp)

end

/-! ### The first actions -/

section
variable {b : Binding} {p : Pin} {u w : State} {e : Failure}

/-- A refused write of a level has written nothing; on an output pin it was a lock that refused it. -/
theorem writeLocal_failed {v : Bool} (h : writeLocal p v u = (w, .finish (.fail e))) : w = u ∧ (isOut p u = true → e = .lock) := by
  unfold writeLocal at h
  split_ifs at h with hout <;>
    simp only [Prod.mk.injEq, Answer.finish.injEq, Result.fail.injEq, okDone, reduceCtorEq, and_false] at h
  case neg => exact ⟨h.1.symm, fun h => absurd h hout⟩
  all_goals exact ⟨h.1.symm, fun _ => h.2.symm⟩

theorem toggleLocal_failed (h : toggleLocal p u = (w, .finish (.fail e))) : w = u := (writeLocal_failed h).1

theorem configFirst_failed {md : PinMode} {det : Bool} (h : configFirst b p md det u = (w, .finish (.fail e))) : w = u := by
  unfold configFirst at h
  split at h
  · exact (Prod.mk.inj h).1.symm
  · split at h <;> exact absurd (Prod.mk.inj h).2 nofun

theorem joinFirst_failed {en : Bool} (h : joinFirst b p en u = (w, .finish (.fail e))) : w = u := by
  unfold joinFirst at h
  split at h
  · exact (Prod.mk.inj h).1.symm
  · exact absurd (Prod.mk.inj h).2 nofun

theorem dreadUnit_failed {k : SubIx} (h : dreadUnit k u = (w, .finish (.fail e))) : w = u := by
  unfold dreadUnit sample at h
  cases hpin : subPin k with
  | inl q =>
    simp only [hpin] at h
    split at h
    · exact absurd (Prod.mk.inj h).2 nofun
    · exact (Prod.mk.inj h).1.symm
  | inr a =>
    simp only [hpin] at h
    exact absurd (Prod.mk.inj h).2 nofun

theorem subscribeUnit_not_failed {k : SubIx} {iv cb : U32} : subscribeUnit b k iv cb u ≠ (w, .finish (.fail e)) := by
  unfold subscribeUnit
  split
  · exact fun h => absurd (Prod.mk.inj h).2 nofun
  · dsimp only
    split <;> exact fun h => absurd (Prod.mk.inj h).2 nofun

theorem linkUnit_not_failed {q : Pin} {lm : LinkMode} {iv : U32} : linkUnit b p q lm iv u ≠ (w, .finish (.fail e)) := by
  unfold linkUnit
  split <;> exact fun h => absurd (Prod.mk.inj h).2 nofun

/-- What PWM with duty 0 does to its channel before it writes LOW (R232). -/
def disablePwm (p : Pin) (s : State) : State :=
  { s with pwm := s.pwm.set p { s.pwm[p] with period := 0#32, on := 0#32, high := false } }

/-- A refused PWM has written nothing, or a lock refused the write of LOW of a duty of 0. -/
theorem pwmUnit_failed {f d : Nat} (h : pwmUnit p f d u = (w, .finish (.fail e))) :
    w = u ∨ (e = .lock ∧ d = 0 ∧ w = disablePwm p u) := by
  unfold pwmUnit at h
  split at h
  · next hpp =>
    split at h
    · next hzero =>
      obtain ⟨hw, hlocked⟩ := writeLocal_failed h
      have hout : isOut p (disablePwm p u) = true := (isOut_iff p _).mpr (.inr hpp)
      exact .inr ⟨hlocked hout, hzero, hw⟩
    · split at h
      · exact .inl (Prod.mk.inj h).1.symm
      · exact absurd (Prod.mk.inj h).2 nofun
  · exact .inl (Prod.mk.inj h).1.symm

end

/-! ### The operations -/

/-- The state is as before. -/
def Unchanged (u : State) (_ : Failure) (w : State) : Prop := w = u

section
variable {K : State → Failure → State → Prop} {act : State → State × Answer}

theorem opening_oneUnit (hblind : Blind act) (hact : ∀ u w e, act u = (w, .finish (.fail e)) → K u e w) :
    Opening K (oneUnit act) := by
  refine .first hblind hact fun a => ?_
  cases a with
  | finish r => exact .inl ⟨r, rfl, rfl⟩
  | _ => exact .inr (.inl ⟨okDone, not_refused_ok _, rfl⟩)

theorem opening_oneUnit_ok (hblind : Blind act) (hact : ∀ u w e, act u ≠ (w, .finish (.fail e))) : Opening K (oneUnit act) :=
  opening_oneUnit hblind fun u w e h => absurd h (hact u w e)

theorem opening_writeThrough (b : Binding) (hblind : Blind act) (hact : ∀ u w e, act u = (w, .finish (.fail e)) → K u e w)
    (hlock : ∀ u, (act u).1.lock = u.lock) : Opening K (writeThrough b act .ret) := by
  refine .first hblind hact fun a => ?_
  cases a with
  | finish r => exact .inl ⟨r, rfl, rfl⟩
  | send k =>
    refine .inr (.inr ⟨busRun_transaction b _ fun v => ?_, hlock⟩)
    cases v with
    | none => exact ⟨_, not_refused_transport _, rfl⟩
    | some v => exact ⟨_, not_refused_ok _, rfl⟩
  | _ => exact .inr (.inl ⟨okDone, not_refused_ok _, rfl⟩)

end

section
variable (b : Binding)

theorem configFirst_lock (p : Pin) (md : PinMode) (det : Bool) (u : State) : (configFirst b p md det u).1.lock = u.lock := by
  unfold configFirst
  split
  · rfl
  · split
    · rw [configS1_eq]
      rfl
    · rfl

theorem joinFirst_lock (p : Pin) (en : Bool) (u : State) : (joinFirst b p en u).1.lock = u.lock := by
  unfold joinFirst
  split <;> rfl

theorem pwmUnit_lock (p : Pin) (f d : Nat) (u : State) : (pwmUnit p f d u).1.lock = u.lock := by
  unfold pwmUnit
  split_ifs
  · exact writeLocal_lock ..
  all_goals rfl

theorem opening_config (x y z : Byte) : Opening Unchanged (configProg b x y z) := by
  unfold configProg
  split
  · refine .first (blind_configFirst _ _ _ _) (fun _ _ _ h => configFirst_failed h) fun a => ?_
    cases a with
    | finish r => exact .inl ⟨r, rfl, rfl⟩
    | send k => exact .inr (.inr ⟨busRun_configSend .., configFirst_lock _ _ _ _⟩)
    | _ => exact .inr (.inr ⟨busRun_configRest .., configFirst_lock _ _ _ _⟩)
  · exact .ret _

theorem opening_join (x y : Byte) : Opening Unchanged (joinProg b x y) := by
  unfold joinProg
  split
  · exact .ret _
  · refine .first (blind_joinFirst _ _ _) (fun _ _ _ h => joinFirst_failed h) fun a => ?_
    cases a with
    | finish r => exact .inl ⟨r, rfl, rfl⟩
    | _ => exact .inr (.inr ⟨busRun_outCfg .., joinFirst_lock _ _ _⟩)

/-- The operations but TICK and PWM. -/
theorem opening_programOf {i : Instr} (htick : ∀ x y z, i ≠ .tick x y z) (hpwm : ∀ x y z f d, i ≠ .pwm x y z f d) :
    Opening Unchanged (programOf b i) := by
  have hok {v : Value} {e : Failure} {u w : State} : (u, Answer.finish (.ok v)) ≠ (w, .finish (.fail e)) :=
    fun h => absurd (Prod.mk.inj h).2 nofun
  cases i with
  | config x y z => exact opening_config b x y z
  | join x y z => exact opening_join b x y
  | dread x y z =>
    simp only [programOf, dreadProg]
    split
    · exact .ret _
    · exact opening_oneUnit (blind_dreadUnit _) fun _ _ _ h => dreadUnit_failed h
  | dwrite x y z =>
    simp only [programOf, dwriteProg]
    split
    · exact .ret _
    · exact opening_writeThrough b (blind_writeLocal _ _) (fun _ _ _ h => (writeLocal_failed h).1) fun u => writeLocal_lock _ _ u
  | toggle x y z =>
    simp only [programOf, toggleProg]
    split
    · exact .ret _
    · exact opening_writeThrough b (blind_toggleLocal _) (fun _ _ _ h => toggleLocal_failed h) fun u => writeLocal_lock _ _ u
  | subscribe x y z iv cb =>
    simp only [programOf, subscribeProg]
    split
    · exact .ret _
    · exact opening_oneUnit_ok (blind_subscribe _ _ _ _) fun _ _ _ => subscribeUnit_not_failed
  | link x y z iv =>
    simp only [programOf, linkProg]
    split
    · exact opening_oneUnit_ok (blind_link _ _ _ _ _) fun _ _ _ => linkUnit_not_failed
    · exact .ret _
  | setovp x y z =>
    simp only [programOf, setovpProg]
    split
    · exact .ret _
    · exact opening_oneUnit_ok (blind_setovp _ _) fun _ _ _ => hok
  | clearfaults x y z => exact opening_oneUnit_ok blind_clearfaults fun _ _ _ => hok
  | setled x y z => exact opening_oneUnit_ok (blind_setled _) fun _ _ _ => hok
  | getled x y z => exact opening_oneUnit_ok blind_getled fun _ _ _ => hok
  | getWb x y z | getAlrmt1 x y z | getAlrmt2 x y z | getInot x y z =>
    simp only [programOf, getInProg]
    split
    · exact .ret _
    · exact opening_oneUnit_ok (blind_readClearIn _ _) fun _ _ _ => hok
  | getOl x y z | getOv x y z | getTh x y z =>
    simp only [programOf, getOutProg]
    split
    · exact .ret _
    · exact opening_oneUnit_ok (blind_readClearOut _ _) fun _ _ _ => hok
  | getOvlock x y z =>
    simp only [programOf, getOvlockProg]
    split
    · exact .ret _
    · exact opening_oneUnit_ok (blind_ovlock _) fun _ _ _ => hok
  | getThlock x y z =>
    simp only [programOf, getThlockProg]
    split
    · exact .ret _
    · exact opening_oneUnit_ok (blind_thlock _) fun _ _ _ => hok
  | outSetPp k clr d crc => exact .bus (busRun_outCfg b k .pp)
  | outSetOlen k clr d crc => exact .bus (busRun_outCfg b k .olen)
  | outSetJoin k clr d crc => exact .bus (busRun_outCfg b k .join)
  | inRead | outSetOut | outRead => exact .bus (busRun_endWord b _)
  | inWrite | outRtstat => exact .bus (busRun_endDone b _)
  | tick x y z => exact absurd rfl (htick x y z)
  | pwm x y z f d => exact absurd rfl (hpwm x y z f d)

end

/-! ### The three kinds -/

theorem pinByte_of_pin16? {a : Byte} {p : Pin} (h : pin16? a = some p) : a = pinByte p := by
  unfold pin16? at h
  split at h
  · next hrange =>
    obtain rfl := Option.some_inj.mp h
    apply BitVec.eq_of_toNat_eq
    rw [toNat_pinByte]
    show a.toNat = a.toNat - 1 + 1
    omega
  · exact absurd h nofun

theorem eq_zero_of_unused {a : Byte} (h : unused a = true) : a = 0 := by
  simpa [unused] using h

section
variable {i : Instr} {s t : State} {e : Failure}

theorem not_refused_of_tick {x y z : Byte} (hlegal : legal (.tick x y z) = true) (hexec : exec (.tick x y z) s = .next t)
    {r : Result} (hresp : t.resp[s.cur] = some r) : ¬Refused r := by
  by_cases hfree : s.lock = .free
  · have hzero : x = 0 ∧ y = 0 ∧ z = 0 := by simpa [legal, unused, and_assoc] using hlegal
    obtain ⟨rfl, rfl, rfl⟩ := hzero
    obtain ⟨u, hrun, hdone, -⟩ := exec_tick hfree
    obtain rfl : u = t := by simpa using hrun.symm.trans hexec
    exact Option.some_inj.mp (hdone.symm.trans hresp) ▸ not_refused_ok _
  · have hwaits : t.resp[s.cur] = none :=
      resp_of_waits (act := readMs) hlegal rfl blind_readMs rfl (by simpa [readMs, afterMs] using hfree) hexec
    rw [hwaits] at hresp
    exact absurd hresp nofun

/-- A refused PWM has changed nothing, or a lock refused the write of LOW of a duty of 0. -/
theorem refused_pwm {x y z : Byte} {f d : U32} (hlegal : legal (.pwm x y z f d) = true) (he : Refused (.fail e))
    (hexec : exec (.pwm x y z f d) s = .next t) (hresp : t.resp[s.cur] = some (.fail e)) :
    ∃ p w, x = pinByte p ∧ t = complete (.fail e) w ∧ (w = recordRace (.pwm x y z f d) s ∨
      (e = .lock ∧ duty d = 0 ∧ w = disablePwm p (recordRace (.pwm x y z f d) s))) := by
  have hpin : (pin16? x).isSome = true := by
    simp only [legal, Bool.and_eq_true] at hlegal
    obtain ⟨⟨⟨hpin, -⟩, -⟩, -⟩ := hlegal
    exact hpin
  obtain ⟨p, hp⟩ := Option.isSome_iff_exists.mp hpin
  have hopen : Opening (fun u e w => w = u ∨ (e = .lock ∧ duty d = 0 ∧ w = disablePwm p u))
      (programOf s.cfg (.pwm x y z f d)) := by
    simp only [programOf, pwmProg, hp]
    exact opening_writeThrough s.cfg (blind_pwm _ _ _) (fun _ _ _ h => pwmUnit_failed h) (pwmUnit_lock _ _ _)
  obtain ⟨w, hw, ht⟩ := refused_of_opening (fun _ _ => .inl rfl) hlegal hopen he hexec hresp
  exact ⟨p, w, pinByte_of_pin16? hp, ht, hw⟩

/-- A refused operation other than TICK and PWM has changed nothing. -/
theorem refused_unchanged (hlegal : legal i = true) (htick : ∀ x y z, i ≠ .tick x y z) (hpwm : ∀ x y z f d, i ≠ .pwm x y z f d)
    (he : Refused (.fail e)) (hexec : exec i s = .next t) (hresp : t.resp[s.cur] = some (.fail e)) :
    t = complete (.fail e) (recordRace i s) := by
  obtain ⟨w, rfl, ht⟩ := refused_of_opening (K := Unchanged) (fun _ _ => rfl) hlegal (opening_programOf s.cfg htick hpwm) he hexec hresp
  exact ht

/-- What a refused operation has changed, by the instruction. -/
theorem refused_cases (he : Refused (.fail e)) (hexec : exec i s = .next t) (hresp : t.resp[s.cur] = some (.fail e)) :
    t = complete (.fail e) { s with faults := t.faults } ∨
      ∃ (p : Pin) (y z : Byte) (f d : U32), i = .pwm (pinByte p) y z f d ∧ legal i = true ∧ e = .lock ∧ duty d = 0 ∧
        t = complete (.fail e) (disablePwm p { s with faults := t.faults }) := by
  cases hlegal : legal i with
  | false =>
    rw [exec_illegal hlegal] at hexec
    obtain rfl : complete (.fail .arg) s = t := by simpa using hexec
    obtain rfl : e = .arg := by simpa using hresp.symm
    exact .inl rfl
  | true =>
    have hrace {w : State} (hw : w = recordRace i s) : w = { s with faults := w.faults } := hw ▸ recordRace_eq i s
    by_cases htick : ∃ x y z, i = .tick x y z
    · obtain ⟨x, y, z, rfl⟩ := htick
      exact absurd he (not_refused_of_tick hlegal hexec hresp)
    by_cases hpwm : ∃ x y z f d, i = .pwm x y z f d
    · obtain ⟨x, y, z, f, d, rfl⟩ := hpwm
      obtain ⟨p, w, rfl, rfl, hw | ⟨hlock, hd, hw⟩⟩ := refused_pwm hlegal he hexec hresp
      · exact .inl (congrArg (complete (.fail e)) (hrace hw))
      · refine .inr ⟨p, y, z, f, d, rfl, rfl, hlock, hd, congrArg (complete (.fail e)) (hw.trans ?_)⟩
        rw [hw]
        exact congrArg (disablePwm p) (recordRace_eq _ s)
    push Not at htick hpwm
    obtain rfl := refused_unchanged hlegal htick hpwm he hexec hresp
    exact .inl (congrArg (complete (.fail e)) (recordRace_eq i s))

end

/-- Settles O9. -/
theorem argFailureChangesNothing : Obligations.ArgFailureChangesNothing := by
  intro i s t hexec hresp
  obtain hkept | ⟨p, y, z, f, d, -, -, hlock, -⟩ := refused_cases (.inl rfl) hexec hresp
  · exact hkept
  · exact absurd hlock nofun

/-- Settles O10. -/
theorem lockFailureChangesNothing : Obligations.LockFailureChangesNothing := by
  intro i s t hexec hresp
  obtain hkept | ⟨p, y, z, f, d, rfl, hlegal, -, hd, ht⟩ := refused_cases (.inr rfl) hexec hresp
  · exact .inl hkept
  · simp only [legal, Bool.and_eq_true] at hlegal
    obtain ⟨⟨⟨-, hy⟩, hz⟩, -⟩ := hlegal
    obtain rfl := eq_zero_of_unused hy
    obtain rfl := eq_zero_of_unused hz
    exact .inr ⟨p, f, d, rfl, hd, ht⟩

end Sys2Proof.Machine
end
